-- ==== Sys2Proof/Word.lean ====
section
/-!
DEFINITION. The widths of the Oshel 4T16's values and the names of its like things (00_scope.md, Conventions).
-/

namespace Sys2Proof

/-- One byte of shared memory. -/
abbrev Byte := BitVec 8

/-- A 16-bit field (tolerance, masks, dead time, tag). -/
abbrev Half := BitVec 16

/-- A 32-bit field or register. -/
abbrev Word := BitVec 32

/-- A 64-bit byte address of shared memory (00_scope.md, Memory). -/
abbrev Addr := BitVec 64

/-- A value of one of the two 48-bit clocks, schedule time or elapsed count (R54). -/
abbrev Ticks := BitVec 48

/-- A posted, acknowledged or sequence count of a notice slot, modulo 2^24 (00_scope.md, Modular arithmetic). -/
abbrev Count24 := BitVec 24

/-- Lanes are numbered 0 to 3. -/
abbrev LaneNo := Fin 4

/-- Output and input lines are numbered 0 to 15. -/
abbrev LineNo := Fin 16

/-- Notice slots are numbered 0 to 15 (Table 9-1). -/
abbrev SlotNo := Fin 16

/-- TG0 is 0 and TG1 is 1. -/
abbrev GenNo := Fin 2

end Sys2Proof
end

