-- ==== Sys2Proof/Syntax.lean ====
section
/-!
DEFINITION. The commands of the block: one constructor of `Instr` per row of spec/opcode_table.json, with the
operands the row's rule gives it. Data that memory answers is one bit vector, byte k at bits 8k to 8k+7
(12_memory_formats.md: little-endian).
-/

namespace Sys2Proof

/-- Line levels (00_scope.md, Names and values). -/
inductive Level where
  | low
  | high
  deriving DecidableEq, Repr

/-- The registers whose writes have no row of their own (Table 11-2): CONTROL, COMMAND and NOTICE_ACK have rows. -/
inductive PlainReg where
  | ident
  | exbLo
  | exbHi
  | cmdStatus
  | partState
  deriving DecidableEq, Repr

/-- A command or event of the block. A COMMAND write carries its whole 8-bit operand, examined or not (R183). -/
inductive Instr where
  /-- RESET_N takes a level (R193). -/
  | resetN (level : Level)
  /-- A CONTROL write with the soft reset bit set (R194). -/
  | softReset
  /-- A write of a value to CONTROL (R180). -/
  | controlWrite (value : Word)
  /-- A write to a register with no row of its own (R179). -/
  | registerWrite (reg : PlainReg) (value : Word)
  /-- A write of a value to NOTICE_ACK: count in bits 23 to 0, slot in bits 27 to 24 (R164). -/
  | noticeAck (value : Word)
  /-- A COMMAND write of NONE or of a code that names no command (R183). -/
  | undefinedCommand (code operand : Byte)
  /-- START written to COMMAND (R186). -/
  | start (operand : Byte)
  /-- A configuration read completes: the offset it read at and the bytes it answers with (R186, R187, log 9). -/
  | startReadDone (offset : Nat) (bytes : List Byte)
  /-- A configuration read is answered with a bus error (R189). -/
  | startReadError
  /-- The last status and notice write of START has been issued (R188). -/
  | startActivate
  /-- STOP written to COMMAND (R190). -/
  | stop (operand : Byte)
  /-- The drain has ended and STOP's status step is taken (R190). -/
  | stopStatusStep
  /-- STOP's writes have completed and its float step is taken (R190). -/
  | stopFloatStep
  /-- LANE_STOP written to COMMAND (R24). -/
  | laneStop (operand : Byte)
  /-- LANE_STOP's status write has completed (R24). -/
  | laneStopComplete
  /-- LANE_RESTART written to COMMAND (R25). -/
  | laneRestart (operand : Byte)
  /-- The lane record read completes with the 16 bytes of the record (R25). -/
  | laneRestartReadDone (data : BitVec 128)
  /-- The lane record read meets a bus error (R25). -/
  | laneRestartReadError
  /-- LANE_RESTART's status write has completed (R25). -/
  | laneRestartComplete
  /-- JOURNAL_RESTART written to COMMAND (R151). -/
  | journalRestart (operand : Byte)
  /-- The journal head field read completes (R151). -/
  | journalRestartReadDone (data : BitVec 64)
  /-- The journal head field read meets a bus error (R151). -/
  | journalRestartReadError
  /-- JOURNAL_RESTART's status write has completed (R151). -/
  | journalRestartComplete
  /-- ARM_ALIGN written to COMMAND (R61). -/
  | armAlign (operand : Byte)
  /-- ARM_ALIGN's read of the align value completes (R61). -/
  | armAlignReadDone (data : BitVec 64)
  /-- ARM_ALIGN's read meets a bus error (R61). -/
  | armAlignReadError
  /-- ALIGN_NOW written to COMMAND (R63). -/
  | alignNow (operand : Byte)
  /-- ALIGN_NOW's read of the align value completes (R63). -/
  | alignNowReadDone (data : BitVec 64)
  /-- ALIGN_NOW's ALIGNMENT posting has been issued (R63). -/
  | alignNowComplete
  /-- ALIGN_NOW's read meets a bus error (R63). -/
  | alignNowReadError
  /-- RESURVEY written to COMMAND (R47). -/
  | resurvey (operand : Byte)
  /-- LANE_HOLD written to COMMAND (R21). -/
  | laneHold (operand : Byte)
  /-- LANE_RESUME written to COMMAND (R22). -/
  | laneResume (operand : Byte)
  /-- JOURNAL_FLUSH written to COMMAND (R146). -/
  | journalFlush (operand : Byte)
  /-- DISARM_ALIGN written to COMMAND (R62). -/
  | disarmAlign (operand : Byte)
  /-- Schedule time has reached the due of a PENDING lane (R7). -/
  | dueReached (lane : LaneNo)
  /-- The elapsed count has reached an input wait's expiry (R13). -/
  | waitInputExpiry (lane : LaneNo)
  /-- The elapsed count has reached the expiry of a lane's entry in a line's waiter list (R93). -/
  | claimExpiry (line : LineNo) (lane : LaneNo)
  /-- The sampled level of an input line is now this one (R108, R109). -/
  | inputTransition (line : LineNo) (level : Level)
  /-- The elapsed count has reached an input line's dead-time end (R109). -/
  | deadTimeExpiry (line : LineNo)
  /-- The sampled level of SYNC is now this one (R58, R59). -/
  | syncEvent (level : Level)
  /-- The elapsed count has reached a line's pulse end (R77). -/
  | pulseEnd (line : LineNo)
  /-- The elapsed count has reached a line's wave phase end (R79). -/
  | wavePhaseEnd (line : LineNo)
  /-- A derived edge of a generator's phase falls (R128). -/
  | derivedEdge (gen : GenNo)
  /-- The expected real edge of a generator has not arrived at the phase end (R123 to R125). -/
  | virtualEdge (gen : GenNo)
  /-- The survey timer expires (R46). -/
  | surveyExpiry
  /-- The gather timer expires (R162). -/
  | gatherExpiry
  /-- The journal's flush timer expires (R145). -/
  | flushTimerExpiry
  /-- A fetcher's head field read completes (R42). -/
  | headFieldReadDone (lane : LaneNo) (data : BitVec 64)
  /-- A fetcher's page header read completes with the 32 bytes of the header (R34). -/
  | headerReadDone (lane : LaneNo) (data : BitVec 256)
  /-- A fetcher's cue burst arrives, 32 bytes a cue (R37). -/
  | cueBurstDone (lane : LaneNo) (cues : List (BitVec 256))
  /-- A fetcher's link read completes (R41). -/
  | linkReadDone (lane : LaneNo) (data : BitVec 64)
  /-- A fetcher's read is answered with a bus error (R43). -/
  | fetchReadError (lane : LaneNo)
  /-- The journal's head field read completes (R141). -/
  | journalHeadFieldReadDone (data : BitVec 64)
  /-- The journal's header read completes with the 32 bytes of the header (R140). -/
  | journalHeaderReadDone (data : BitVec 256)
  /-- The journal's link read completes (R141). -/
  | journalLinkReadDone (data : BitVec 64)
  /-- A journal read is answered with a bus error (R148). -/
  | journalReadError
  /-- The memory system can accept an access and the arbiter serves (R170). -/
  | memoryService
  /-- Memory completes the oldest write of the ordered path (R171). -/
  | writeComplete
  /-- Memory answers a write with a bus error (R176). -/
  | writeError
  deriving DecidableEq, Repr

end Sys2Proof
end

