-- ==== Sys2Proof/Config.lean ====
section
/-!
DEFINITION. What the part fixes for good (units, capacities, codes of Memory Formats) and the values the manual
leaves open, which are opaque constants: nothing is known of them (log 3, 7, 16).
-/

namespace Sys2Proof.Config

/-- A microsecond unit is 125 ticks (00_scope.md, Time). -/
def ticksPerUnit : Nat := 125

/-- A flush unit is 2000 ticks (00_scope.md, Time). -/
def ticksPerFlushUnit : Nat := 2000

/-- The capture FIFO holds at most 64 records (R136). -/
def fifoCapacity : Nat := 64

/-- The ordered write path holds at most 8 writes (R170). -/
def pathCapacity : Nat := 8

/-- A lane's cue queue holds at most 16 cues (R37). -/
def queueCapacity : Nat := 16

/-- A lane's page list holds at most 17 pages (R35). -/
def pageListCapacity : Nat := 17

/-- A capture page holds 30 records (R143). -/
def recordsPerPage : Nat := 30

/-- The magic value of the exchange block (Table 12-1). -/
def magic : Word := 0x5A31D7C4#32

/-- IDENT's exchange format version (Table 12-10). -/
def formatVersion : Byte := 0x01#8

/-- IDENT's vendor code (Table 12-10). -/
def vendorCode : Byte := 0x3A#8

/-- IDENT's part code (Table 12-10). -/
def partCode : Byte := 0x16#8

/-- FREE VALUE: IDENT's silicon revision, which Table 12-10 names and gives no value (log 16). -/
opaque siliconRevision : Byte

/-- FREE VALUE: the n-th choice among events, consumers or places for which the manual gives no order (log 3). -/
opaque choice : Nat → Nat

/-- FREE VALUE: whether a write answered with a bus error reached memory (R176, log 7). -/
opaque failedWriteLands : Nat → Bool

end Sys2Proof.Config
end

