-- ==== Sys2Proof/Machine/State.lean ====
section
/-!
DEFINITION. The state of the Oshel 4T16: every block's registers, queues, timers and pins as plain data, the queue of
commands that wait, and the values after reset.
-/

namespace Sys2Proof.Machine

/-- Why the machine could stop. No behaviour of the manual stops the part: FAILED is a part state (R177), so no reason
exists and nothing raises a fault. -/
inductive Fault
  deriving DecidableEq, Repr

/-- Why a command could have no meaning. -/
inductive Refusal where
  /-- Raised by an arm of exec whose command has no meaning yet; no arm does so. Safe: the machine stops. -/
  | notModelled (mnemonic : String)
  deriving DecidableEq, Repr

/-! ## Names of values -/

/-- Part states (Table 11-1). -/
inductive PartState where
  | config
  | starting
  | active
  | stopping
  | failed
  deriving DecidableEq, Repr

/-- Lane states (Table 1-1). -/
inductive LaneState where
  | off
  | starved
  | pending
  | waitInput
  | waitLine
  | held
  | faulted
  | ended
  deriving DecidableEq, Repr

/-- Fault codes of lanes and journal (Table 12-8). -/
inductive FaultCode where
  | none
  | badCue
  | order
  | late
  | waitTimeout
  | claimTimeout
  | notOwner
  | trackBusy
  | lineDisabled
  | badPage
  | badLink
  | window
  | busError
  deriving DecidableEq, Repr

/-- End codes of cue pages and capture pages (Table 12-8). -/
inductive EndCode where
  | complete
  | fault (code : FaultCode)
  | stopped
  | ended
  | full
  | timed
  | flushed
  deriving DecidableEq, Repr

/-- Stall points of a fetcher and of the journal (Table 2-1); the journal does not use fetchFault (Table 8-3). -/
inductive Stall where
  | none
  | headField
  | link
  | header
  | fetchFault
  deriving DecidableEq, Repr

/-- Directions of an accepted edge (R111). -/
inductive Dir where
  | rise
  | fall
  deriving DecidableEq, Repr

/-- Edge selects (Table 6-2). -/
inductive EdgeSelect where
  | none
  | rise
  | fall
  | either
  deriving DecidableEq, Repr

/-- Fault actions of an output line (Table 4-3). -/
inductive FaultAction where
  | driveLow
  | driveHigh
  | hold
  | float
  deriving DecidableEq, Repr

/-- Late policies of a cue (R7). -/
inductive Policy where
  | run
  | skip
  | fault
  deriving DecidableEq, Repr

/-- Outcomes of a command (Table 12-9). -/
inductive CmdOutcome where
  | done
  | refusedBusy
  | refusedState
  | badOperand
  | badExchange
  | badConfig
  | busError
  deriving DecidableEq, Repr

/-- Tracking generator states (Table 7-1). -/
inductive GenState where
  | unlocked
  | firstEdge
  | locked
  | coasting
  | holdover
  | reacquiring
  deriving DecidableEq, Repr

/-- Journal states (Table 8-1). -/
inductive JournalState where
  | off
  | filling
  | starved
  | faulted
  deriving DecidableEq, Repr

/-- The seven requesters of the memory port (R169). -/
inductive Requester where
  | fetcher (lane : LaneNo)
  | journal
  | statusWriter
  | engine
  deriving DecidableEq, Repr

/-- How far a notice posting that something waits for has come: its details write, then its count write (R159, log 14). -/
inductive PostPhase where
  | idle
  | details
  | count
  | issued
  deriving DecidableEq, Repr

/-- A read that has been issued and not yet answered (Table 10-1). -/
structure Flight (κ : Type) where
  /-- Which read it is. -/
  kind : κ
  /-- Its requester has stopped reading since: the answer is discarded (R32, R169, R175). -/
  discard : Bool
  /-- Writes of the ordered path that must still complete before it is sent; 0 once it has been sent (R172). -/
  behind : Nat
  deriving DecidableEq, Repr

/-! ## Cues and lanes -/

/-- What a cue does, with the parameters of its kind (R11, R12, R15, R16, Table 12-6). -/
inductive Action where
  | nop
  | setLines (mask levels : Half)
  | pulse (line : LineNo) (active : Level) (width : BitVec 24)
  | wave (line : LineNo) (first : Level) (firstTicks secondTicks : BitVec 24) (periods : Half)
  | track (line : LineNo) (gen : GenNo) (multiplier : Nat)
  | captureOn (mask : Half)
  | captureOff (mask : Half)
  | mark (value : Word)
  | waitInput (line : LineNo) (edge : EdgeSelect) (timeout : Word) (continues : Bool)
  | claim (line : LineNo) (timeout : Half)
  | release (mask : Half)
  | endLane
  deriving DecidableEq, Repr

/-- A cue that passed static validation (Table 2-3). -/
structure Cue where
  rel : Bool
  notify : Bool
  policy : Policy
  due : Ticks
  action : Action
  deriving DecidableEq, Repr

/-- An entry of the cue queue: the cue, or none where it bears the bad mark (R39), and its origin page. -/
structure QueuedCue where
  cue : Option Cue
  page : Addr
  deriving DecidableEq, Repr

/-- An input wait (Table 1-2, R12). A timeout of 0 means none; the expiry is an elapsed count. -/
structure InputWait where
  line : LineNo
  edge : EdgeSelect
  timeout : Word
  expiry : Ticks
  continues : Bool
  deriving DecidableEq, Repr

/-- The waiting record of a lane (Table 1-2). -/
inductive Wait where
  | none
  | input (w : InputWait)
  | claim (line : LineNo)
  deriving DecidableEq, Repr

/-- What a fetcher reads next (Table 2-2). -/
inductive FetchStep where
  | head
  | header
  | cues
  | link
  deriving DecidableEq, Repr

/-- The reads a fetcher issues (R32). -/
inductive FetchRead where
  | headField
  | header
  | burst
  | link
  deriving DecidableEq, Repr

/-- An entry of the lane page list (R35). `retiring` is none while the entry is OPEN. -/
structure PageEntry where
  addr : Addr
  tag : Half
  notifyRetire : Bool
  count : Nat
  fetched : Nat
  executed : Nat
  lateRun : Nat
  skipped : Nat
  discarded : Nat
  retiring : Option (EndCode × Ticks)
  deriving DecidableEq, Repr

/-- The copy of a lane's record in the exchange block (Table 1-2). -/
structure LaneConfig where
  head : Addr
  tolerance : Half
  starveWarn : Bool
  enable : Bool
  deriving DecidableEq, Repr

/-- The details of an EXCEPTION posting (R28). -/
structure Exception where
  state : LaneState
  code : FaultCode
  serial : Word
  page : Addr
  deriving DecidableEq, Repr

/-- One lane: executor (Table 1-2) and fetcher (Table 2-2). -/
structure Lane where
  state : LaneState
  /-- The head entry of the queue is the current cue. -/
  hasCurrent : Bool
  due : Ticks
  anchor : Ticks
  /-- The current cue was judged late under RUN (R7, R10). -/
  lateRun : Bool
  holdRequest : Bool
  wait : Wait
  fault : FaultCode
  serial : Word
  executed : Word
  lateRuns : Word
  skipped : Word
  discarded : Word
  pagesRetired : Word
  lastTag : Half
  /-- Serial of the most recent cue that posted PROGRESS by NOTIFY, or 0 (R28). -/
  lastNotified : Word
  config : LaneConfig
  /-- EXCEPTION postings that wait for the lane's status write (R16, R19). -/
  exceptions : List Exception
  running : Bool
  step : FetchStep
  nextAddr : Addr
  fetchPage : Option Addr
  stall : Stall
  /-- The read presented to the arbiter and not yet served (R169). -/
  request : Option FetchRead
  flight : Option (Flight FetchRead)
  reserved : Nat
  pendingFault : Option (FaultCode × Addr)
  pages : List PageEntry
  queue : List QueuedCue
  deriving DecidableEq, Repr

/-! ## Lines -/

/-- The phase of a WAVE (Table 4-2). -/
inductive WavePhase where
  | first
  | second
  deriving DecidableEq, Repr

/-- The mode of an output line with the fields the mode needs (Tables 4-1 and 4-2). Times are elapsed counts. -/
inductive OutMode where
  | float
  | static (level : Level)
  | pulse (active ret : Level) (pulseEnd : Ticks)
  | wave (first : Level) (firstTicks secondTicks : BitVec 24) (periods completed : Half) (phase : WavePhase)
      (phaseEnd : Ticks)
  | track (level : Level) (gen : GenNo)
  deriving DecidableEq, Repr

/-- A waiter entry: a lane and the elapsed count at which its claim expires (Table 5-1). -/
structure Waiter where
  lane : LaneNo
  expiry : Ticks
  deriving DecidableEq, Repr

/-- One output line: its record (Table 4-2) and what the claim arbiter holds for it (Table 5-1). -/
structure OutLine where
  driveEnable : Bool
  rest : Level
  faultAction : FaultAction
  preassigned : Option LaneNo
  mode : OutMode
  owner : Option LaneNo
  waiters : List Waiter
  deriving DecidableEq, Repr

/-- One input line (Table 6-1). -/
structure InLine where
  edgeSelect : EdgeSelect
  captureEnable : Bool
  deadTime : Half
  level : Level
  /-- A transition has been taken at this tick: the line is sampled once per tick (R108). -/
  moved : Bool
  deadRunning : Bool
  deadEnd : Ticks
  deriving DecidableEq, Repr

/-- The SYNC configuration and its sampled level (Table 3-3, R58). -/
structure SyncInput where
  /-- NONE, RISE or FALL. -/
  select : Option Dir
  report : Bool
  live : Bool
  level : Level
  /-- A transition has been taken at this tick: SYNC is sampled once per tick (R58). -/
  moved : Bool
  deriving DecidableEq, Repr

/-- The clocks and the alignment arm (Table 3-1, R60). -/
structure Timekeeping where
  elapsed : Ticks
  schedule : Ticks
  armed : Bool
  armValue : Ticks
  deriving DecidableEq, Repr

/-! ## Generators -/

/-- A tracking generator record (Table 7-2). -/
structure Generator where
  source : LineNo
  select : EdgeSelect
  state : GenState
  period : Word
  multiplier : Nat
  phaseMultiplier : Nat
  subInterval : Word
  clamped : Bool
  phaseStart : Ticks
  nextIndex : Nat
  lastReal : Ticks
  virtuals : Half
  holdoverSeen : Bool
  bound : Option LineNo
  /-- A derived edge has been taken at this tick (R128). -/
  edgeTaken : Bool
  /-- TG postings (new state and P) that wait for a status write (R132). -/
  posts : List (GenState × Word)
  deriving DecidableEq, Repr

/-! ## Journal -/

/-- Capture records (Table 8-2). -/
inductive CaptureRecord where
  | edge (line : LineNo) (dir : Dir) (time : Ticks)
  | mark (lane : LaneNo) (value : Word) (time : Ticks)
  | sync (aligned : Bool) (time : Ticks)
  | track (gen : GenNo) (state : GenState) (period : Word) (time : Ticks)
  deriving DecidableEq, Repr

/-- What the journal reads or works on next (Table 8-3). -/
inductive JournalStep where
  | head
  | header
  | page
  | link
  deriving DecidableEq, Repr

/-- The journal's reads (R139). -/
inductive JournalRead where
  | headField
  | header
  | link
  deriving DecidableEq, Repr

/-- A capture page that has closed and whose close writes are not all issued (R144). -/
structure Closing where
  addr : Addr
  count : Nat
  lost : Word
  code : EndCode
  time : Ticks
  /-- The link of this page is read after its JOURNAL_READY posting has been issued (R141, R144). -/
  follow : Bool
  deriving DecidableEq, Repr

/-- The capture journal (Table 8-3). -/
structure Journal where
  state : JournalState
  stall : Stall
  step : JournalStep
  nextAddr : Addr
  /-- The current page and its record index. -/
  page : Option (Addr × Nat)
  linkPage : Option Addr
  request : Option JournalRead
  flight : Option (Flight JournalRead)
  flushTimer : Option Ticks
  /-- 0 stands for no flush request. -/
  flushRequest : Nat
  fifo : List CaptureRecord
  pendingLoss : Word
  sessionLoss : Word
  lossReported : Bool
  fault : FaultCode
  /-- The address recorded with the fault code, or none where its rule records none (R139 to R141, log 34). -/
  faultAddr : Option Addr
  pagesClosed : Word
  head : Addr
  flushInterval : Half
  /-- STOP's drain is under way (R153). -/
  draining : Bool
  closing : List Closing
  /-- The JOURNAL_READY posting that the next link read waits for (R144). -/
  readyPost : PostPhase
  /-- The read that a failed JOURNAL_RESTART issues again (R151). -/
  resume : Option JournalRead
  /-- JOURNAL_TROUBLE postings of faults that wait for a status write (R148). -/
  troubles : List FaultCode
  deriving DecidableEq, Repr

/-! ## Notices -/

/-- The details of a posting (Table 9-1). -/
inductive Details where
  | cleared
  | progress (serial : Word) (tag : Half)
  | exception (e : Exception)
  | journalReady (page : Addr) (count : Nat)
  | journalTrouble (total : Word) (code : FaultCode)
  | generator (state : GenState) (period : Word)
  | timeMark (time : Ticks)
  | command (code operand : Byte) (outcome : CmdOutcome)
  /-- The lane mask is taken when the details write is issued (R53, R158). -/
  | starvation
  | alignment (old new : Ticks)
  deriving DecidableEq, Repr

/-- What the notice unit holds for one slot (Table 9-2). -/
structure Slot where
  sequence : Count24
  posted : Count24
  acknowledged : Count24
  /-- The class: set for SECONDARY, clear for PRIMARY. -/
  secondary : Bool
  details : Details
  writeDue : Bool
  deriving DecidableEq, Repr

/-- Gather states (Table 9-3); RUNNING holds the gather expiry, an elapsed count. -/
inductive Gather where
  | idle
  | running (expiry : Ticks)
  | opened
  deriving DecidableEq, Repr

/-- The notice unit (Table 9-2). -/
structure NoticeUnit where
  slots : Vector Slot 16
  issueQueue : List SlotNo
  /-- The slot whose details write has been issued and whose count write has not, with its fixed count. -/
  inProgress : Option (SlotNo × Count24)
  gatherInterval : Half
  gather : Gather
  /-- The class mask and the gather interval that START has loaded; the classes and the interval in force take them at its
  notice step (R157, R188). -/
  loadedMask : Half
  loadedInterval : Half
  deriving DecidableEq, Repr

/-! ## Memory port and status writer -/

/-- Writes handed to the status writer (R169). The two writes of a pair are two items. -/
inductive StatusItem where
  | laneStatus (lane : LaneNo)
  | journalStatus
  | genStatus (gen : GenNo)
  | retireSummary (lane : LaneNo)
  | retireOwner (lane : LaneNo)
  | closeSummary
  | closeOwner
  | noticeDetails (slot : SlotNo)
  | noticeCount (slot : SlotNo)
  deriving DecidableEq, Repr

/-- What the completion of a write brings beside its bytes (R171). -/
inductive WriteTag where
  /-- A record, a page header field or a capture record. -/
  | data
  /-- A notice details write, or a count write from before START's notice step (R157). -/
  | notice
  /-- A count write that carries this count to its slot (R159). -/
  | noticeCount (slot : SlotNo) (count : Count24)
  deriving DecidableEq, Repr

/-- A write of the ordered write path (Table 10-1). -/
structure Write where
  addr : Addr
  bytes : List Byte
  tag : WriteTag
  /-- The command in progress waits for the completion of this write (R24, R25, R151). -/
  awaited : Bool
  deriving DecidableEq, Repr

/-- A window entry (Table 10-2). -/
structure Window where
  base : Addr
  size : Byte
  cueRead : Bool
  journal : Bool
  deriving DecidableEq, Repr

/-- The command engine's reads (R169). -/
inductive EngineRead where
  | configuration
  | laneRecord
  | journalHead
  | alignValue
  deriving DecidableEq, Repr

/-- A read that a reset or the entry to FAILED left to the memory system (R168, R177). -/
inductive LeftRead where
  | fetcher (lane : LaneNo) (kind : FetchRead)
  | journal (kind : JournalRead)
  | engine (kind : EngineRead)
  deriving DecidableEq, Repr

/-- The memory port (Table 10-1). -/
structure Port where
  last : Requester
  path : List Write
  windows : Vector Window 4
  live : Bool
  /-- Reads whose answers are ignored when they arrive, oldest first (R168, R177, log 8). -/
  leftReads : List LeftRead
  /-- Writes presented to memory before a reset, whose answers are ignored (R168, log 8). -/
  leftWrites : List Write
  deriving DecidableEq, Repr

/-! ## Command engine -/

/-- START's stages (R186 to R188): before the first read's answer, before the last one's, before the issue of the part
status record, and the writes of the notice table. -/
inductive StartPhase where
  | first
  | reading
  | opening
  | writing
  deriving DecidableEq, Repr

/-- The time-taking command in progress (Table 11-3). -/
inductive Command where
  | start (phase : StartPhase)
  /-- `statusTaken` is set once STOP's status step has been taken (R190). -/
  | stop (statusTaken : Bool)
  | laneStop (lane : LaneNo)
  | laneRestart (lane : LaneNo)
  | journalRestart
  | armAlign
  | alignNow
  deriving DecidableEq, Repr

/-- The writes the command engine presents (R169). -/
inductive EngineWrite where
  /-- The part status record, OPEN or CLOSED (R192). -/
  | partStatus (opened : Bool)
  /-- A whole slot of the notice table, with 0 (R157). -/
  | clearSlot (slot : SlotNo)
  deriving DecidableEq, Repr

/-- How far the status write a command waits for has come (R24, R25, R151). -/
inductive AwaitPhase where
  | none
  | toIssue
  | inPath
  | completed
  deriving DecidableEq, Repr

/-- The configuration part as START has read it so far: byte k of offsets 0x000 to 0x2FF at bits 8k to 8k+7, and which
bytes have been read (R186). -/
structure ConfigImage where
  bytes : BitVec 6144
  seen : BitVec 768
  deriving DecidableEq, Repr

/-- The command engine (R183 to R192). -/
structure Engine where
  command : Option Command
  lastCode : Byte
  lastOperand : Byte
  lastOutcome : CmdOutcome
  request : Option EngineRead
  flight : Option (Flight EngineRead)
  writes : List EngineWrite
  image : ConfigImage
  await : AwaitPhase
  /-- The ALIGNMENT posting ALIGN_NOW waits for (R63). -/
  alignPost : PostPhase
  session : Word
  deriving DecidableEq, Repr

/-- The register port's own registers (R180, R181). -/
structure Registers where
  attnEnable : Bool
  attnLowAsserted : Bool
  exbLo : Word
  exbHi : Word
  deriving DecidableEq, Repr

/-- The survey timer (R45). -/
structure Survey where
  interval : Half
  expiry : Option Ticks
  deriving DecidableEq, Repr

/-! ## The whole -/

/-- The state of the part, with the queue of commands that wait. -/
structure State where
  pending : List Instr
  resetPin : Level
  part : PartState
  lanes : Vector Lane 4
  lines : Vector OutLine 16
  /-- What each output pin shows: the level its line drove after the last event of the last tick, or none for high
  impedance (R73). -/
  pins : Vector (Option Level) 16
  inputs : Vector InLine 16
  inputsLive : Bool
  sync : SyncInput
  time : Timekeeping
  gens : Vector Generator 2
  journal : Journal
  notice : NoticeUnit
  /-- The writes handed to the status writer and not yet issued, oldest first (R169). -/
  handed : List StatusItem
  port : Port
  engine : Engine
  regs : Registers
  survey : Survey
  /-- The bytes of shared memory that the part's completed writes have written (log 6). -/
  memory : List Host.Cell
  /-- The number of free values drawn so far (log 3). -/
  choices : Nat
  deriving DecidableEq, Repr

/-! ## Values after reset -/

/-- A lane after reset (R1, R30). -/
def Lane.reset : Lane where
  state := .off
  hasCurrent := false
  due := 0
  anchor := 0
  lateRun := false
  holdRequest := false
  wait := .none
  fault := .none
  serial := 0
  executed := 0
  lateRuns := 0
  skipped := 0
  discarded := 0
  pagesRetired := 0
  lastTag := 0
  lastNotified := 0
  config := { head := 0, tolerance := 0, starveWarn := false, enable := false }
  exceptions := []
  running := false
  step := .head
  nextAddr := 0
  fetchPage := none
  stall := .none
  request := none
  flight := none
  reserved := 0
  pendingFault := none
  pages := []
  queue := []

/-- An output line after reset (R69, R88). -/
def OutLine.reset : OutLine where
  driveEnable := false
  rest := .low
  faultAction := .float
  preassigned := none
  mode := .float
  owner := none
  waiters := []

/-- Every output pin is in high impedance (R69). -/
def pinsReleased : Vector (Option Level) 16 :=
  Vector.replicate 16 none

/-- An input line after reset (R106), its sampled level given: that follows the pin (R106, R108). -/
def InLine.reset (level : Level) : InLine where
  edgeSelect := .none
  captureEnable := false
  deadTime := 0
  level := level
  moved := false
  deadRunning := false
  deadEnd := 0

/-- The SYNC input after reset (R58), its sampled level given. -/
def SyncInput.reset (level : Level) : SyncInput where
  select := none
  report := false
  live := false
  level := level
  moved := false

/-- Timekeeping after reset (R54, R60). -/
def Timekeeping.reset : Timekeeping where
  elapsed := 0
  schedule := 0
  armed := false
  armValue := 0

/-- A generator after reset (R119). -/
def Generator.reset : Generator where
  source := 0
  select := .none
  state := .unlocked
  period := 0
  multiplier := 1
  phaseMultiplier := 1
  subInterval := 16
  clamped := false
  phaseStart := 0
  nextIndex := 0
  lastReal := 0
  virtuals := 0
  holdoverSeen := false
  bound := none
  edgeTaken := false
  posts := []

/-- The journal after reset (R137). -/
def Journal.reset : Journal where
  state := .off
  stall := .none
  step := .head
  nextAddr := 0
  page := none
  linkPage := none
  request := none
  flight := none
  flushTimer := none
  flushRequest := 0
  fifo := []
  pendingLoss := 0
  sessionLoss := 0
  lossReported := false
  fault := .none
  faultAddr := none
  pagesClosed := 0
  head := 0
  flushInterval := 0
  draining := false
  closing := []
  readyPost := .idle
  resume := none
  troubles := []

/-- A notice slot after reset (R156). -/
def Slot.reset : Slot where
  sequence := 0
  posted := 0
  acknowledged := 0
  secondary := false
  details := .cleared
  writeDue := false

/-- The notice unit after reset (R156). -/
def NoticeUnit.reset : NoticeUnit where
  slots := Vector.replicate 16 Slot.reset
  issueQueue := []
  inProgress := none
  gatherInterval := 0
  gather := .idle
  loadedMask := 0
  loadedInterval := 0

/-- The memory port after reset (R168), with what the reset left to the memory system. -/
def Port.reset (leftReads : List LeftRead) (leftWrites : List Write) : Port where
  last := .engine
  path := []
  windows := Vector.replicate 4 { base := 0, size := 0, cueRead := false, journal := false }
  live := true
  leftReads := leftReads
  leftWrites := leftWrites

/-- The command engine after reset (R193). -/
def Engine.reset : Engine where
  command := none
  lastCode := 0
  lastOperand := 0
  lastOutcome := .done
  request := none
  flight := none
  writes := []
  image := { bytes := 0, seen := 0 }
  await := .none
  alignPost := .idle
  session := 0

/-- The machine right after RESET_N: R193 and the block rules it names. The sampled levels and the RESET_N pin are
log 1's choice. -/
def State.reset : State where
  pending := []
  resetPin := .high
  part := .config
  lanes := Vector.replicate 4 Lane.reset
  lines := Vector.replicate 16 OutLine.reset
  pins := pinsReleased
  inputs := Vector.replicate 16 (InLine.reset .low)
  inputsLive := false
  sync := SyncInput.reset .low
  time := Timekeeping.reset
  gens := Vector.replicate 2 Generator.reset
  journal := Journal.reset
  notice := NoticeUnit.reset
  handed := []
  port := Port.reset [] []
  engine := Engine.reset
  regs := { attnEnable := false, attnLowAsserted := false, exbLo := 0, exbHi := 0 }
  survey := { interval := 0, expiry := none }
  memory := []
  choices := 0

end Sys2Proof.Machine
end

