-- ==== Sys2Proof/Machine/Ops.lean ====
section
/-!
DEFINITION. The shared operations: comparing times, reaching one lane, line, input, generator or slot, drawing free
values, posting notices, handing writes to the status writer, appending capture records, and the bytes of memory.
-/

namespace Sys2Proof.Machine

/-- What a command answers. -/
abbrev Out := Host.Outcome State Fault Refusal

/-! ## Comparing times -/

/-- A 48-bit time `d` is reached at `t` when (t − d) mod 2^48 is below 2^47 (R56 on schedule time, R57 on the elapsed
count). -/
def reached (t d : Ticks) : Bool :=
  (t - d).toNat < 2 ^ 47

/-- The lateness at `t` of a due that is reached (R56). -/
def lateness (t d : Ticks) : Nat :=
  (t - d).toNat

/-- A 48-bit time advanced by a number of ticks, modulo 2^48. -/
def Ticks.after (t : Ticks) (n : Nat) : Ticks :=
  t + BitVec.ofNat 48 n

/-- One more, saturating at 2^n − 1 (R149, Table 7-2). -/
def satInc {n : Nat} (x : BitVec n) : BitVec n :=
  if x = BitVec.allOnes n then x else x + 1

/-! ## The like things by number -/

def allLanes : List LaneNo := [0, 1, 2, 3]

def allLines : List LineNo := [0, 1, 2, 3, 4, 5, 6, 7, 8, 9, 10, 11, 12, 13, 14, 15]

def allSlots : List SlotNo := [0, 1, 2, 3, 4, 5, 6, 7, 8, 9, 10, 11, 12, 13, 14, 15]

def allGens : List GenNo := [0, 1]

/-- Lane `n`. -/
def State.lane (s : State) (n : LaneNo) : Lane := s.lanes[n]

/-- The state with lane `n` replaced. -/
def State.setLane (s : State) (n : LaneNo) (l : Lane) : State :=
  { s with lanes := s.lanes.set n l }

/-- Output line `k`. -/
def State.line (s : State) (k : LineNo) : OutLine := s.lines[k]

/-- The state with output line `k` replaced. -/
def State.setLine (s : State) (k : LineNo) (l : OutLine) : State :=
  { s with lines := s.lines.set k l }

/-- Input line `k`. -/
def State.input (s : State) (k : LineNo) : InLine := s.inputs[k]

/-- The state with input line `k` replaced. -/
def State.setInput (s : State) (k : LineNo) (l : InLine) : State :=
  { s with inputs := s.inputs.set k l }

/-- Generator `g`. -/
def State.gen (s : State) (g : GenNo) : Generator := s.gens[g]

/-- The state with generator `g` replaced. -/
def State.setGen (s : State) (g : GenNo) (x : Generator) : State :=
  { s with gens := s.gens.set g x }

/-- Notice slot `k`. -/
def State.slot (s : State) (k : SlotNo) : Slot := s.notice.slots[k]

/-- The state with notice slot `k` replaced. -/
def State.setSlot (s : State) (k : SlotNo) (x : Slot) : State :=
  { s with notice := { s.notice with slots := s.notice.slots.set k x } }

/-- An operation done for each member of a list, in its order. -/
def State.each {α : Type} (xs : List α) (f : α → State → State) (s : State) : State :=
  xs.foldl (fun s x => f x s) s

/-! ## Free values (log 3) -/

/-- A free place among `k` (0 where `k` is 0), and the state with one more value drawn. -/
def State.drawBelow (s : State) (k : Nat) : Nat × State :=
  (Config.choice s.choices % k, { s with choices := s.choices + 1 })

/-- A list in a free order; a list of at most one member draws nothing. `fuel` is its length. -/
def shuffle {α : Type} : Nat → List α → State → List α × State
  | _, [], s => ([], s)
  | _, [x], s => ([x], s)
  | 0, xs, s => (xs, s)
  | fuel + 1, xs, s =>
    let (i, s) := s.drawBelow xs.length
    match xs[i]? with
    | none => (xs, s)
    | some x =>
      let (rest, s) := shuffle fuel (xs.eraseIdx i) s
      (x :: rest, s)

/-- A list in a free order (log 3). -/
def inFreeOrder {α : Type} (xs : List α) (s : State) : List α × State :=
  shuffle xs.length xs s

/-! ## Writes handed to the status writer -/

/-- A status record is marked stale: it is handed once, and again only after its write has been issued (R27, R169).
The stale mark is the record's presence in the list. -/
def markStale (it : StatusItem) (s : State) : State :=
  if it ∈ s.handed then s else { s with handed := s.handed ++ [it] }

/-- Writes handed to the status writer, in order, after those handed before (R169). -/
def handWrites (its : List StatusItem) (s : State) : State :=
  { s with handed := s.handed ++ its }

/-- The second write of a pair is handed when the first is issued: the free number `k` of other writes may come
between them, but none for which `must` holds (R49, R159, log 10). -/
def handSecond (must : StatusItem → Bool) (it : StatusItem) : Nat → List StatusItem → List StatusItem
  | _, [] => [it]
  | 0, rest => it :: rest
  | k + 1, x :: rest => if must x then it :: x :: rest else x :: handSecond must it k rest

/-- A notice item of the status writer's list. -/
def StatusItem.isNotice : StatusItem → Bool
  | .noticeDetails _ => true
  | .noticeCount _ => true
  | _ => false

/-- The notice unit hands the details write of the slot at the head of its issue queue when no pair is under way
(R159). -/
def handNotice (s : State) : State :=
  if s.notice.inProgress.isSome || s.handed.any StatusItem.isNotice then s
  else
    match s.notice.issueQueue with
    | [] => s
    | k :: _ => handWrites [.noticeDetails k] s

/-! ## Posting (R158) -/

/-- A slot is at its limit when its sequence count is 2^24 − 1 past its acknowledged count (R158). -/
def Slot.atLimit (x : Slot) : Bool :=
  x.sequence - x.acknowledged = BitVec.allOnes 24

/-- The slot after a posting with these details (R158 steps 1 to 3). -/
def Slot.afterPosting (x : Slot) (d : Details) : Slot :=
  { x with
    sequence := if x.atLimit then x.sequence else x.sequence + 1
    details := d
    writeDue := true }

/-- A posting is taken by the notice unit (R158). A slot already due keeps its place, also where R59 or R191 wants the
posting behind another one (the model's choice: log 43). -/
def post (k : SlotNo) (d : Details) (s : State) : State :=
  let x := s.slot k
  let queue := if x.writeDue then s.notice.issueQueue else s.notice.issueQueue ++ [k]
  let s := s.setSlot k (x.afterPosting d)
  handNotice { s with notice := { s.notice with issueQueue := queue } }

/-- Slot n of lane n's PROGRESS (R28). -/
def progressSlot (n : LaneNo) : SlotNo := ⟨n.val, by omega⟩

/-- Slot 4 + n of lane n's EXCEPTION (R28). -/
def exceptionSlot (n : LaneNo) : SlotNo := ⟨4 + n.val, by omega⟩

/-- Slot 10 or 11 of a generator (R132). -/
def genSlot (g : GenNo) : SlotNo := ⟨10 + g.val, by omega⟩

/-- Slot 8, JOURNAL_READY. -/
def readySlot : SlotNo := 8

/-- Slot 9, JOURNAL_TROUBLE. -/
def troubleSlot : SlotNo := 9

/-- Slot 12, TIME_MARK. -/
def timeMarkSlot : SlotNo := 12

/-- Slot 13, COMMAND. -/
def commandSlot : SlotNo := 13

/-- Slot 14, STARVATION. -/
def starvationSlot : SlotNo := 14

/-- Slot 15, ALIGNMENT. -/
def alignmentSlot : SlotNo := 15

/-! ## The capture FIFO (R136, R149, R150) -/

/-- The journal after a record that met a full FIFO: both loss counts rise, saturating (R149). -/
def Journal.countLoss (j : Journal) : Journal :=
  { j with pendingLoss := satInc j.pendingLoss, sessionLoss := satInc j.sessionLoss }

/-- A record arrives at the capture FIFO: it is placed at the tail, or lost and counted, and the first loss since the
last page close posts JOURNAL_TROUBLE. -/
def capture (r : CaptureRecord) (s : State) : State :=
  if s.journal.fifo.length < Config.fifoCapacity then
    { s with journal := { s.journal with fifo := s.journal.fifo ++ [r] } }
  else
    let j := s.journal.countLoss
    if j.lossReported then { s with journal := j }
    else
      post troubleSlot (.journalTrouble j.sessionLoss j.fault)
        { s with journal := { j with lossReported := true } }

/-! ## The bytes of memory (log 6) -/

/-- The byte at an address, or none where the part has written nothing. -/
def Memory.get : List Host.Cell → Nat → Option Byte
  | [], _ => none
  | (x, b) :: rest, a => if a = x then some b else Memory.get rest a

/-- One byte written, addresses kept rising. -/
def Memory.set : List Host.Cell → Nat → Byte → List Host.Cell
  | [], a, v => [(a, v)]
  | (x, b) :: rest, a, v =>
    if a < x then (a, v) :: (x, b) :: rest
    else if a = x then (a, v) :: rest
    else (x, b) :: Memory.set rest a v

/-- Bytes written from an address on; addresses are 64 bits and wrap. -/
def Memory.write : List Host.Cell → Addr → List Byte → List Host.Cell
  | m, _, [] => m
  | m, a, b :: bs => Memory.write (Memory.set m a.toNat b) (a + 1) bs

/-- The addresses of a list of cells all lie above `a`, strictly rising. -/
def Memory.risingFrom : Nat → List Host.Cell → Bool
  | _, [] => true
  | a, (x, _) :: rest => a < x && Memory.risingFrom x rest

/-- The canonical form: addresses strictly rising. -/
def Memory.wf : List Host.Cell → Bool
  | [] => true
  | (x, _) :: rest => Memory.risingFrom x rest

/-- Memory performs a write of the part. -/
def performWrite (w : Write) (s : State) : State :=
  { s with memory := Memory.write s.memory w.addr w.bytes }

/-! ## Addresses and windows -/

/-- The exchange block address of the two registers (R181). -/
def exbAddr (s : State) : Addr :=
  s.regs.exbHi ++ s.regs.exbLo

/-- An address of the exchange block, by offset. -/
def exbOffset (s : State) (offset : Nat) : Addr :=
  exbAddr s + BitVec.ofNat 64 offset

/-- The rights a window grants (Table 10-2). -/
inductive Right where
  | cueRead
  | journal
  deriving DecidableEq, Repr

/-- A window's size in bytes, 4 KiB × 2^k (Table 10-2). -/
def Window.bytes (w : Window) : Nat :=
  4096 * 2 ^ w.size.toNat

/-- A window has a right set. -/
def Window.grants (w : Window) : Right → Bool
  | .cueRead => w.cueRead
  | .journal => w.journal

/-- The window holds every byte of an access (R174). -/
def Window.holds (w : Window) (a : Addr) (n : Nat) : Bool :=
  w.base.toNat ≤ a.toNat && a.toNat + n ≤ w.base.toNat + w.bytes

/-- An access of n bytes passes the window check for a right (R174). -/
def windowOk (s : State) (r : Right) (a : Addr) (n : Nat) : Bool :=
  s.port.windows.toList.any fun w => w.grants r && w.holds a n

/-- A page address must be a multiple of 512 (R31, R41, R138, R141). -/
def pageAligned (a : Addr) : Bool :=
  a.toNat % 512 = 0

/-- A field of a page, by offset (R172). -/
def pageOffset (a : Addr) (offset : Nat) : Addr :=
  a + BitVec.ofNat 64 offset

/-! ## Answers -/

/-- While RESET_N is LOW the part is held at its reset values (R179, R193): the command has no effect. -/
def unlessHeld (s : State) (t : State) : Out :=
  .next (if s.resetPin = .low then s else t)

/-- An event whose condition does not hold is no event of the part: nothing changes (log 4). -/
def whenEvent (s : State) (ready : Bool) (t : State) : Out :=
  unlessHeld s (if ready then t else s)

end Sys2Proof.Machine
end

