-- ==== Sys2Proof/Machine/Flags.lean ====
section
/-!
DEFINITION. The code numbers of every enumerated value (Tables 1-1 to 12-9), the derived flags (pending, attention
request, busy) and the eight registers as software reads them (Tables 11-2, 12-10).
-/

namespace Sys2Proof.Machine

/-! ## Codes -/

def PartState.code : PartState → Nat
  | .config => 0
  | .starting => 1
  | .active => 2
  | .stopping => 3
  | .failed => 4

def LaneState.code : LaneState → Nat
  | .off => 0
  | .starved => 1
  | .pending => 2
  | .waitInput => 3
  | .waitLine => 4
  | .held => 5
  | .faulted => 6
  | .ended => 7

def FaultCode.code : FaultCode → Nat
  | .none => 0
  | .badCue => 1
  | .order => 2
  | .late => 3
  | .waitTimeout => 4
  | .claimTimeout => 5
  | .notOwner => 6
  | .trackBusy => 7
  | .lineDisabled => 8
  | .badPage => 9
  | .badLink => 10
  | .window => 11
  | .busError => 12

def EndCode.code : EndCode → Nat
  | .complete => 0
  | .fault c => c.code
  | .stopped => 13
  | .ended => 14
  | .full => 16
  | .timed => 17
  | .flushed => 18

def Stall.code : Stall → Nat
  | .none => 0
  | .headField => 1
  | .link => 2
  | .header => 3
  | .fetchFault => 4

def Dir.code : Dir → Nat
  | .rise => 1
  | .fall => 2

def CmdOutcome.code : CmdOutcome → Nat
  | .done => 0
  | .refusedBusy => 1
  | .refusedState => 2
  | .badOperand => 3
  | .badExchange => 4
  | .badConfig => 5
  | .busError => 6

def GenState.code : GenState → Nat
  | .unlocked => 0
  | .firstEdge => 1
  | .locked => 2
  | .coasting => 3
  | .holdover => 4
  | .reacquiring => 5

def JournalState.code : JournalState → Nat
  | .off => 0
  | .filling => 1
  | .starved => 2
  | .faulted => 3

/-- Codes of the commands (Table 12-9). -/
def codeNone : Byte := 0#8
def codeStart : Byte := 1#8
def codeStop : Byte := 2#8
def codeLaneStop : Byte := 3#8
def codeLaneRestart : Byte := 4#8
def codeJournalRestart : Byte := 5#8
def codeArmAlign : Byte := 6#8
def codeAlignNow : Byte := 7#8
def codeResurvey : Byte := 8#8
def codeLaneHold : Byte := 9#8
def codeLaneResume : Byte := 10#8
def codeJournalFlush : Byte := 11#8
def codeDisarmAlign : Byte := 12#8

/-- The code of the command in progress (Table 12-9). -/
def Command.code : Command → Byte
  | .start _ => codeStart
  | .stop _ => codeStop
  | .laneStop _ => codeLaneStop
  | .laneRestart _ => codeLaneRestart
  | .journalRestart => codeJournalRestart
  | .armAlign => codeArmAlign
  | .alignNow => codeAlignNow

/-- The operand shown for the command in progress: its lane, or 0 (R184, R158). -/
def Command.operand : Command → Byte
  | .laneStop n => BitVec.ofNat 8 n.val
  | .laneRestart n => BitVec.ofNat 8 n.val
  | _ => 0

/-- The lane mask, line number or generator number of an item reported as none is 0xFF (12_memory_formats.md). -/
def noneByte : Byte := 0xFF#8

/-! ## Levels and edges -/

/-- The other level. -/
def opposite : Level → Level
  | .low => .high
  | .high => .low

/-- A level as a bit. -/
def levelBit : Level → Bool
  | .low => false
  | .high => true

/-- A bit as a level. -/
def levelOfBit : Bool → Level
  | false => .low
  | true => .high

/-- The direction of a transition to a level (R108). -/
def Dir.toLevel : Level → Dir
  | .high => .rise
  | .low => .fall

/-- An accepted edge matches an edge select (Table 6-2). -/
def EdgeSelect.admits : EdgeSelect → Dir → Bool
  | .none, _ => false
  | .rise, .rise => true
  | .rise, .fall => false
  | .fall, .fall => true
  | .fall, .rise => false
  | .either, _ => true

/-- The level a line drives, none in FLOAT (R73, Table 4-1). -/
def OutMode.level : OutMode → Option Level
  | .float => none
  | .static l => some l
  | .pulse active _ _ => some active
  | .wave first _ _ _ _ phase _ =>
    match phase with
    | .first => some first
    | .second => some (opposite first)
  | .track l _ => some l

/-- The base level of a line (R74); FLOAT has none. -/
def OutLine.baseLevel (x : OutLine) : Option Level :=
  match x.mode with
  | .float => none
  | .static l => some l
  | .pulse _ ret _ => some ret
  | .wave .. => some x.rest
  | .track l _ => some l

/-- What the pin of an output line shows: a level, or none for high impedance (R73). It is latched once per tick, so the
levels between the events of one tick do not appear at it. -/
def outPin (s : State) (k : LineNo) : Option Level :=
  s.pins[k]

/-- What the pins show for a tick: each line's level after the tick's last event (R73). -/
def drivenPins (s : State) : Vector (Option Level) 16 :=
  s.lines.map fun x => x.mode.level

/-! ## Notices -/

/-- A slot is pending while its posted count differs from its acknowledged count (R161). -/
def Slot.pending (x : Slot) : Bool :=
  x.posted != x.acknowledged

/-- Some slot is pending. -/
def anyPending (s : State) : Bool :=
  allSlots.any fun k => (s.slot k).pending

/-- Some SECONDARY slot is pending. -/
def secondaryPending (s : State) : Bool :=
  allSlots.any fun k => (s.slot k).pending && (s.slot k).secondary

/-- Some PRIMARY slot is pending. -/
def primaryPending (s : State) : Bool :=
  allSlots.any fun k => (s.slot k).pending && !(s.slot k).secondary

/-- The attention request (R163). -/
def attentionRequest (s : State) : Bool :=
  s.part = .failed || primaryPending s || (secondaryPending s && s.notice.gather = .opened)

/-- The level of the ATTN pin (R163). -/
def attnPin (s : State) : Level :=
  let asserted := s.regs.attnEnable && attentionRequest s
  levelOfBit (xor asserted s.regs.attnLowAsserted)

/-! ## The registers as software reads them -/

/-- The eight registers (Table 11-2). -/
inductive Register where
  | ident
  | control
  | exbLo
  | exbHi
  | command
  | cmdStatus
  | partState
  | noticeAck
  deriving DecidableEq, Repr

/-- The register at an offset of the register port (Table 12-10). -/
def Register.ofOffset? (offset : Nat) : Option Register :=
  match offset with
  | 0x00 => some .ident
  | 0x04 => some .control
  | 0x08 => some .exbLo
  | 0x0C => some .exbHi
  | 0x10 => some .command
  | 0x14 => some .cmdStatus
  | 0x18 => some .partState
  | 0x1C => some .noticeAck
  | _ => none

/-- IDENT (R180). -/
def identValue : Word :=
  Config.vendorCode ++ Config.partCode ++ Config.siliconRevision ++ Config.formatVersion

/-- CONTROL: enable in bit 0, polarity in bit 1, the rest reads 0 (R180). -/
def controlValue (s : State) : Word :=
  BitVec.ofNat 32 ((if s.regs.attnEnable then 1 else 0) + (if s.regs.attnLowAsserted then 2 else 0))

/-- The busy code: the command in progress, or NONE (R184). -/
def busyCode (s : State) : Byte :=
  match s.engine.command with
  | none => codeNone
  | some c => c.code

/-- CMD_STATUS (R184, Table 12-10). -/
def cmdStatusValue (s : State) : Word :=
  BitVec.ofNat 32
    ((if s.engine.command.isSome then 1 else 0) + 2 * s.engine.lastOutcome.code + 2 ^ 8 * (busyCode s).toNat
      + 2 ^ 16 * s.engine.lastCode.toNat + 2 ^ 24 * s.engine.lastOperand.toNat)

/-- PART_STATE (R182, Table 12-10). -/
def partStateValue (s : State) : Word :=
  BitVec.ofNat 32
    (s.part.code + (if s.time.armed then 2 ^ 3 else 0) + 2 ^ 4 * s.journal.state.code
      + 2 ^ 8 * (s.lane 0).state.code + 2 ^ 11 * (s.lane 1).state.code + 2 ^ 14 * (s.lane 2).state.code
      + 2 ^ 17 * (s.lane 3).state.code)

/-- The pending flags, bit n for slot n (R165). -/
def pendingFlags (s : State) : Word :=
  BitVec.ofNat 32 (allSlots.foldl (fun acc k => acc + if (s.slot k).pending then 2 ^ k.val else 0) 0)

/-- What a read of a register returns; a read changes nothing (R179). -/
def readRegister (s : State) : Register → Word
  | .ident => identValue
  | .control => controlValue s
  | .exbLo => s.regs.exbLo
  | .exbHi => s.regs.exbHi
  | .command => 0
  | .cmdStatus => cmdStatusValue s
  | .partState => partStateValue s
  | .noticeAck => pendingFlags s

end Sys2Proof.Machine
end

