-- ==== Sys2Proof/Machine/Lines.lean ====
section
/-!
DEFINITION. The output line unit (R69 to R87) and the claim arbiter (R88 to R105): what one line does, and who owns it.
-/

namespace Sys2Proof.Machine

/-- The lines of a mask, bit k for line k (Table 12-6). -/
def maskLines (mask : Half) : List LineNo :=
  allLines.filter fun k => mask.getLsbD k.val

/-! ## The generator's side of a binding -/

/-- A generator's binding ends: the bound line becomes none and the derived edges of its phase are abandoned; the
change marks its status record stale (R131, R133). -/
def unbindGen (g : GenNo) (s : State) : State :=
  let x := s.gen g
  let s' := s.setGen g { x with bound := none, nextIndex := x.phaseMultiplier }
  if x.bound.isSome then markStale (.genStatus g) s' else s'

/-- A generator is bound to a line with a multiplier; a change of either marks its status record stale (R129, R130,
R133). A new binding leaves no derived edge pending (R127). -/
def bindGen (g : GenNo) (k : LineNo) (m : Nat) (s : State) : State :=
  let x := s.gen g
  let s' := s.setGen g { x with bound := some k, multiplier := m }
  if x.bound = some k ∧ x.multiplier = m then s' else markStale (.genStatus g) s'

/-! ## Modes (R73 to R82) -/

/-- The line with another mode. -/
def setMode (k : LineNo) (m : OutMode) (s : State) : State :=
  s.setLine k { s.line k with mode := m }

/-- The activity of the mode a line leaves ends: a pulse end or phase end is abandoned with the mode's fields, and a
binding ends (R82). -/
def endActivity (k : LineNo) (s : State) : State :=
  match (s.line k).mode with
  | .track _ g => if (s.gen g).bound = some k then unbindGen g s else s
  | .float => s
  | .static _ => s
  | .pulse .. => s
  | .wave .. => s

/-- A line enters STATIC at a level (R75, R84, R85). -/
def driveStatic (k : LineNo) (level : Level) (s : State) : State :=
  setMode k (.static level) (endActivity k s)

/-- SET_LINES on one line (R75). -/
def setLineLevel (levels : Half) (k : LineNo) (s : State) : State :=
  driveStatic k (levelOfBit (levels.getLsbD k.val)) s

/-- PULSE (R76): the return level is the base level, taken first. A line in FLOAT has no base level; it drives the
active level for the return (no owner cue meets one: R84 to R86). -/
def startPulse (k : LineNo) (active : Level) (width : BitVec 24) (s : State) : State :=
  let ret := (s.line k).baseLevel.getD active
  setMode k (.pulse active ret (Ticks.after s.time.elapsed width.toNat)) (endActivity k s)

/-- WAVE (R78). -/
def startWave (k : LineNo) (first : Level) (d1 d2 : BitVec 24) (periods : Half) (s : State) : State :=
  setMode k (.wave first d1 d2 periods 0 .first (Ticks.after s.time.elapsed d1.toNat)) (endActivity k s)

/-- TRACK on the line's side (R80): the line keeps its base level and is bound to the generator; a binding to the other
generator ends. -/
def startTrack (k : LineNo) (g : GenNo) (s : State) : State :=
  match (s.line k).mode with
  | .track l g' => if g' = g then s else setMode k (.track l g) (endActivity k s)
  | .float => setMode k (.track (s.line k).rest g) s
  | .static l => setMode k (.track l g) s
  | .pulse _ ret _ => setMode k (.track ret g) s
  | .wave .. => setMode k (.track (s.line k).rest g) s

/-- A pulse end (R77): STATIC at the return level. -/
def endPulse (k : LineNo) (s : State) : State :=
  match (s.line k).mode with
  | .pulse _ ret _ => setMode k (.static ret) s
  | .float => s
  | .static _ => s
  | .wave .. => s
  | .track .. => s

/-- A wave's mode after its phase end (R79), with the line's rest level. -/
def waveAfterPhase (rest first : Level) (d1 d2 : BitVec 24) (periods completed : Half) (phase : WavePhase)
    (phaseEnd : Ticks) : OutMode :=
  match phase with
  | .first => .wave first d1 d2 periods completed .second (Ticks.after phaseEnd d2.toNat)
  | .second =>
    if periods ≠ 0 ∧ completed + 1 = periods then .static rest
    else .wave first d1 d2 periods (completed + 1) .first (Ticks.after phaseEnd d1.toNat)

/-- A wave phase end (R79). -/
def endWavePhase (k : LineNo) (s : State) : State :=
  match (s.line k).mode with
  | .wave first d1 d2 periods completed phase phaseEnd =>
    setMode k (waveAfterPhase (s.line k).rest first d1 d2 periods completed phase phaseEnd) s
  | .float => s
  | .static _ => s
  | .pulse .. => s
  | .track .. => s

/-- A derived edge reaches a line: it toggles the level of a line in TRACK that is bound to the generator, and does
nothing to any other (R80). -/
def toggleLine (k : LineNo) (g : GenNo) (s : State) : State :=
  match (s.line k).mode with
  | .track l g' => if g' = g then setMode k (.track (opposite l) g) s else s
  | .float => s
  | .static _ => s
  | .pulse .. => s
  | .wave .. => s

/-- The mode a fault action gives a line of this mode (Table 4-3); a line in FLOAT stays FLOAT (R72, R86). -/
def faultMode (action : FaultAction) (m : OutMode) : OutMode :=
  match m.level with
  | none => .float
  | some l =>
    match action with
    | .driveLow => .static .low
    | .driveHigh => .static .high
    | .hold => .static l
    | .float => .float

/-- A line takes its fault action (R85, R86). -/
def takeFaultAction (k : LineNo) (s : State) : State :=
  let x := s.line k
  setMode k (faultMode x.faultAction x.mode) (endActivity k s)

/-! ## Ownership (R88 to R102) -/

/-- The lane owns every line of a mask (R9, R90). -/
def ownsAll (s : State) (n : LaneNo) (mask : Half) : Bool :=
  (maskLines mask).all fun k => (s.line k).owner = some n

/-- The lane owns a line (R90). -/
def owns (s : State) (n : LaneNo) (k : LineNo) : Bool :=
  (s.line k).owner = some n

/-- The lines a lane owns. -/
def ownedLines (s : State) (n : LaneNo) : List LineNo :=
  allLines.filter fun k => owns s n k

/-- Every line a faulting lane owns takes its fault action and stays owned (R19 step 4, R85). -/
def faultOwnedLines (n : LaneNo) (s : State) : State :=
  State.each (ownedLines s n) takeFaultAction s

/-- What the arbiter answers to a CLAIM (R91). -/
inductive ClaimAnswer where
  | disabled
  | alreadyOwned
  | granted
  | timedOut
  | wait
  deriving DecidableEq, Repr

/-- The first case of R91 that holds. -/
def claimAnswer (s : State) (n : LaneNo) (k : LineNo) (timeout : Half) : ClaimAnswer :=
  let x := s.line k
  if !x.driveEnable then .disabled
  else if x.owner = some n then .alreadyOwned
  else if x.owner = none then .granted
  else if timeout = 0 then .timedOut
  else .wait

/-- A line granted at once (R91). -/
def grantLine (k : LineNo) (n : LaneNo) (s : State) : State :=
  s.setLine k { s.line k with owner := some n }

/-- A claiming lane joins the tail of the waiter list with expiry e + 125 × timeout (R91). -/
def joinWaiters (k : LineNo) (n : LaneNo) (timeout : Half) (s : State) : State :=
  let x := s.line k
  let entry : Waiter :=
    { lane := n, expiry := Ticks.after s.time.elapsed (Config.ticksPerUnit * timeout.toNat) }
  s.setLine k { x with waiters := x.waiters ++ [entry] }

/-- A lane's entry leaves a line's waiter list, by expiry or withdrawal; the others keep their order (R92, R93, R99). -/
def leaveWaiters (k : LineNo) (n : LaneNo) (s : State) : State :=
  let x := s.line k
  s.setLine k { x with waiters := x.waiters.filter fun w => w.lane ≠ n }

/-- The arbiter's side of a release (R94): the head waiter becomes the owner, or the line is free. The answer is the
lane granted. -/
def passOwnership (k : LineNo) (s : State) : State × Option LaneNo :=
  let x := s.line k
  match x.waiters with
  | [] => (s.setLine k { x with owner := none }, none)
  | w :: rest => (s.setLine k { x with owner := some w.lane, waiters := rest }, some w.lane)

/-- A release of a line: STATIC at its rest level, whatever its mode was, then its ownership passes on (R84, R94). -/
def releaseLine (k : LineNo) (s : State) : State × Option LaneNo :=
  passOwnership k (driveStatic k (s.line k).rest s)

/-- Releases of several lines, with the lanes granted, in the order of the lines. -/
def releaseLines : List LineNo → State → State × List LaneNo
  | [], s => (s, [])
  | k :: ks, s =>
    let (s, granted) := releaseLine k s
    let (s, more) := releaseLines ks s
    (s, granted.toList ++ more)

end Sys2Proof.Machine
end

