-- ==== Sys2Proof/Machine/Generators.lean ====
section
/-!
DEFINITION. The tracking generators (R119 to R135): real edges, virtual edges, phases, derived edges and what they
report.
-/

namespace Sys2Proof.Machine

/-- A phase is in progress in LOCKED, COASTING, HOLDOVER and REACQUIRING (Table 7-2). -/
def GenState.phaseRuns : GenState → Bool
  | .unlocked => false
  | .firstEdge => false
  | .locked => true
  | .coasting => true
  | .holdover => true
  | .reacquiring => true

/-- The expected end of the phase in progress, phase start + P (Table 7-2). -/
def Generator.expectedEnd (x : Generator) : Ticks :=
  Ticks.after x.phaseStart x.period.toNat

/-- The elapsed count at which the next derived edge falls (R128). -/
def Generator.nextEdgeAt (x : Generator) : Ticks :=
  Ticks.after x.phaseStart (x.nextIndex * x.subInterval.toNat)

/-- The sub-interval before the clamp: floor(P / phase multiplier) (R127). -/
def rawSubInterval (period : Word) (m : Nat) : Nat :=
  period.toNat / m

/-- The record at a phase start at `t0`, before derived edge 0 (R127). -/
def Generator.startPhase (x : Generator) (t0 : Ticks) : Generator :=
  let raw := rawSubInterval x.period x.multiplier
  { x with
    phaseMultiplier := x.multiplier
    subInterval := if raw < 16 then 16 else BitVec.ofNat 32 raw
    clamped := raw < 16
    phaseStart := t0
    nextIndex := if x.bound.isSome then 0 else x.multiplier }

/-- A derived edge is emitted: the index rises, no other derived edge falls at this tick, and the bound line toggles
(R128). -/
def emitDerivedEdge (g : GenNo) (s : State) : State :=
  let x := s.gen g
  match x.bound with
  | none => s
  | some k => toggleLine k g (s.setGen g { x with nextIndex := x.nextIndex + 1, edgeTaken := true })

/-- A phase starts: its fields are fixed and derived edge 0 is emitted, or, where a derived edge of the generator has
already been taken at this tick, the index starts at 1 and the line does not toggle (R127, R128). Where the line was moved
from the other generator at this tick, after that one's derived edge, edge 0 toggles it again (the model's choice:
log 35). -/
def startPhase (g : GenNo) (t0 : Ticks) (s : State) : State :=
  let x := (s.gen g).startPhase t0
  if x.bound.isNone then s.setGen g x
  else if x.edgeTaken then s.setGen g { x with nextIndex := 1 }
  else emitDerivedEdge g (s.setGen g x)

/-- A change of state marks the status record stale (R133). -/
def setGenState (g : GenNo) (st : GenState) (s : State) : State :=
  if (s.gen g).state = st then s
  else markStale (.genStatus g) (s.setGen g { s.gen g with state := st })

/-- A notice-bearing transition: a TRACK record, a stale status record, and a posting that waits for the status write
(R132). Its change of state has marked the record stale before (R133; the model's choice of the order: log 44). -/
def reportTransition (g : GenNo) (time : Ticks) (s : State) : State :=
  let x := s.gen g
  let s := capture (.track g x.state x.period time) s
  let s := markStale (.genStatus g) s
  s.setGen g { s.gen g with posts := (s.gen g).posts ++ [(x.state, x.period)] }

/-- The measured P of an interval, or none for a long gap (R121). An interval of 0 is a gap of 2^48 ticks (log 24). -/
def measuredPeriod (interval : Nat) : Option Word :=
  if interval = 0 then none
  else if interval < 16 then some 16
  else if interval < 2 ^ 32 then some (BitVec.ofNat 32 interval)
  else none

/-- The generator with a real edge's time noted (R121): every real edge does this, whatever the state. -/
def noteRealEdge (g : GenNo) (c : Ticks) (s : State) : State :=
  s.setGen g { s.gen g with lastReal := c, virtuals := 0 }

/-- A measured edge starts a phase of the new P in LOCKED (R122, R123, R125). -/
def lockOn (g : GenNo) (p : Word) (c : Ticks) (s : State) : State :=
  setGenState g .locked (startPhase g c (s.setGen g { s.gen g with period := p }))

/-- A long gap from LOCKED or REACQUIRING: the phase is abandoned, state FIRST_EDGE, LOSS (R123, R125). -/
def loseByGap (g : GenNo) (time : Ticks) (s : State) : State :=
  let x := s.gen g
  let s := s.setGen g { x with nextIndex := x.phaseMultiplier, holdoverSeen := false }
  reportTransition g time (setGenState g .firstEdge s)

/-- A real edge with elapsed count `c` and schedule time `time` (R121 to R126). -/
def realEdge (g : GenNo) (c time : Ticks) (s : State) : State :=
  let x := s.gen g
  let measured := measuredPeriod (c - x.lastReal).toNat
  let s := noteRealEdge g c s
  match x.state with
  | .unlocked => setGenState g .firstEdge (s.setGen g { s.gen g with holdoverSeen := false })
  | .firstEdge =>
    match measured with
    | none => s
    | some p =>
      let s := lockOn g p c s
      reportTransition g time (s.setGen g { s.gen g with holdoverSeen := false })
  | .locked =>
    match measured with
    | none => loseByGap g time s
    | some p => lockOn g p c s
  | .coasting => setGenState g .reacquiring (startPhase g c s)
  | .holdover => setGenState g .reacquiring (startPhase g c s)
  | .reacquiring =>
    match measured with
    | none => loseByGap g time s
    | some p =>
      let s := lockOn g p c s
      let s := if x.holdoverSeen then reportTransition g time s else s
      s.setGen g { s.gen g with holdoverSeen := false }

/-- The virtual edge of a generator is due: a phase is in progress and the elapsed count has reached its expected end
(R123 to R125); generators have ceased outside ACTIVE (R134, R135). -/
def virtualEdgeDue (s : State) (g : GenNo) : Bool :=
  s.part = .active && (s.gen g).state.phaseRuns && reached s.time.elapsed (s.gen g).expectedEnd

/-- A virtual edge at the expected end (R123 to R125). -/
def virtualEdge (g : GenNo) (s : State) : State :=
  let x := s.gen g
  let e := x.expectedEnd
  match x.state with
  | .unlocked => s
  | .firstEdge => s
  | .locked => setGenState g .coasting (startPhase g e (s.setGen g { x with virtuals := 1 }))
  | .reacquiring => setGenState g .coasting (startPhase g e (s.setGen g { x with virtuals := 1 }))
  | .coasting =>
    let s := startPhase g e (s.setGen g { x with virtuals := 2, holdoverSeen := true })
    reportTransition g s.time.schedule (setGenState g .holdover s)
  | .holdover => startPhase g e (s.setGen g { x with virtuals := satInc x.virtuals })

/-- A derived edge is due: the phase has one left for the bound line, its tick is reached, and none has been taken at
this tick (R128). -/
def derivedEdgeDue (s : State) (g : GenNo) : Bool :=
  let x := s.gen g
  s.part = .active && x.state.phaseRuns && x.bound.isSome && x.nextIndex < x.phaseMultiplier && !x.edgeTaken
    && reached s.time.elapsed x.nextEdgeAt

/-- The values a generator takes at START's input step (R120). -/
def Generator.atStart (x : Generator) : Generator :=
  { x with
    state := .unlocked
    period := 0
    multiplier := 1
    phaseMultiplier := 1
    subInterval := 16
    clamped := false
    virtuals := 0
    holdoverSeen := false
    bound := none }

/-- The values a generator takes at STOP's float step (R134). -/
def Generator.atFloat (x : Generator) : Generator :=
  { x with state := .unlocked, period := 0, virtuals := 0, holdoverSeen := false, bound := none }

/-- TRACK on the generator's side, after the check of R129: a new binding or a re-binding (R129, R130). -/
def trackLine (k : LineNo) (g : GenNo) (m : Nat) (s : State) : State :=
  bindGen g k m (startTrack k g s)

/-- A generator is bound to a line other than this one (R129). -/
def boundElsewhere (s : State) (g : GenNo) (k : LineNo) : Bool :=
  match (s.gen g).bound with
  | none => false
  | some k' => k' ≠ k

end Sys2Proof.Machine
end

