-- ==== Sys2Proof/Machine/Operands.lean ====
section
/-!
DEFINITION. Reading what memory answers: page headers, links, cues, the configuration part and the fields of registers
(12_memory_formats.md), and the codes outside a field's values (R196).
-/

namespace Sys2Proof.Machine

/-- `len` bytes at byte offset `off` of data read, little-endian. -/
def bytesAt {w : Nat} (data : BitVec w) (off len : Nat) : BitVec (8 * len) :=
  data.extractLsb' (8 * off) (8 * len)

/-- Bit `k` of the byte at offset `off`. -/
def bitAt {w : Nat} (data : BitVec w) (off k : Nat) : Bool :=
  data.getLsbD (8 * off + k)

/-- The low 48 bits of an 8-byte time field (R195). -/
def timeOf (data : BitVec 64) : Ticks :=
  data.setWidth 48

/-! ## Codes -/

/-- LOW is 0 and HIGH is 1; other codes name no level. -/
def levelOfCode? (b : Byte) : Option Level :=
  if b = 0 then some .low else if b = 1 then some .high else none

/-- Edge selects, Table 6-2. -/
def EdgeSelect.ofCode? (b : Byte) : Option EdgeSelect :=
  if b = 0 then some .none
  else if b = 1 then some .rise
  else if b = 2 then some .fall
  else if b = 3 then some .either
  else Option.none

/-- Fault actions, Table 4-3. -/
def FaultAction.ofCode? (b : Byte) : Option FaultAction :=
  if b = 0 then some .driveLow
  else if b = 1 then some .driveHigh
  else if b = 2 then some .hold
  else if b = 3 then some .float
  else none

/-- SYNC edge selects, Table 12-1. -/
def syncSelectOf? (b : Byte) : Option (Option Dir) :=
  if b = 0 then some none
  else if b = 1 then some (some .rise)
  else if b = 2 then some (some .fall)
  else none

/-- A pre-assigned lane: 0 to 3, or 0xFF for none (Table 12-2). -/
def preassignedOf? (b : Byte) : Option (Option LaneNo) :=
  if b = 0xFF then some none
  else if h : b.toNat < 4 then some (some ⟨b.toNat, h⟩)
  else none

/-- A line number byte, 0 to 15. -/
def lineOf? (b : Byte) : Option LineNo :=
  if h : b.toNat < 16 then some ⟨b.toNat, h⟩ else none

/-- A generator number byte, 0 or 1. -/
def genOf? (b : Byte) : Option GenNo :=
  if h : b.toNat < 2 then some ⟨b.toNat, h⟩ else none

/-- Late policies, Table 12-5; code 3 names none. -/
def policyOf? (c : BitVec 2) : Option Policy :=
  if c = 0 then some .run else if c = 1 then some .skip else if c = 2 then some .fault else none

/-- A width or phase duration: 2 to 2^24 − 1 ticks (Table 2-3). -/
def durationOf? (v : Word) : Option (BitVec 24) :=
  if 2 ≤ v.toNat ∧ v.toNat < 2 ^ 24 then some (v.setWidth 24) else none

/-- A multiplier: 1 to 256 (Table 2-3). -/
def multiplierOf? (v : Half) : Option Nat :=
  if 1 ≤ v.toNat ∧ v.toNat ≤ 256 then some v.toNat else none

/-- The awaited edge of a WAIT_INPUT cue: codes 1 to 3 (Table 2-3). -/
def awaitedEdgeOf? (b : Byte) : Option EdgeSelect :=
  if b = 0 then none else EdgeSelect.ofCode? b

/-! ## Cues (Tables 2-3, 12-5, 12-6) -/

/-- The action of a cue by its kind and parameters, or none where a row of Table 2-3 fails. -/
def actionOf? (raw : BitVec 256) : Option Action :=
  let kind : Byte := bytesAt raw 0 1
  let continues := bitAt raw 1 4
  let at8 : Byte := bytesAt raw 8 1
  let at9 : Byte := bytesAt raw 9 1
  let half8 : Half := bytesAt raw 8 2
  let half10 : Half := bytesAt raw 10 2
  let word8 : Word := bytesAt raw 8 4
  let word12 : Word := bytesAt raw 12 4
  let word16 : Word := bytesAt raw 16 4
  match kind.toNat with
  | 0 => some .nop
  | 1 => some (.setLines half8 half10)
  | 2 => do
    let k ← lineOf? at8
    let lvl ← levelOfCode? at9
    let w ← durationOf? word12
    return .pulse k lvl w
  | 3 => do
    let k ← lineOf? at8
    let lvl ← levelOfCode? at9
    let d1 ← durationOf? word12
    let d2 ← durationOf? word16
    return .wave k lvl d1 d2 half10
  | 4 => do
    let k ← lineOf? at8
    let g ← genOf? at9
    let m ← multiplierOf? half10
    return .track k g m
  | 5 => some (.captureOn half8)
  | 6 => some (.captureOff half8)
  | 7 => some (.mark word8)
  | 8 => do
    let k ← lineOf? at8
    let e ← awaitedEdgeOf? at9
    return .waitInput k e word12 continues
  | 9 => do
    let k ← lineOf? at8
    return .claim k half10
  | 10 => some (.release half8)
  | 11 => some .endLane
  | _ => none

/-- The TIMEOUT_CONTINUES flag is set only on WAIT_INPUT, kind 8 (Table 2-3). -/
def continuesAllowed (raw : BitVec 256) : Bool :=
  !bitAt raw 1 4 || bytesAt raw 0 1 = 8#8

/-- A cue checked against Table 2-3: the cue, or none where it is queued with the bad mark (R39). -/
def parseCue (raw : BitVec 256) : Option Cue := do
  let action ← actionOf? raw
  let policy ← policyOf? (raw.extractLsb' 10 2)
  let rel := bitAt raw 1 0
  let due : Ticks := bytesAt raw 2 6
  if !continuesAllowed raw || (rel && 2 ^ 47 ≤ due.toNat) then none
  else return { rel := rel, notify := bitAt raw 1 1, policy := policy, due := due, action := action }

/-! ## Page headers (Table 12-4) -/

/-- Owner codes (00_scope.md, Names and values). -/
def ownerHost : Byte := 0x00#8

def ownerPart : Byte := 0x5A#8

def ownerDone : Byte := 0xA5#8

def Header.owner (h : BitVec 256) : Byte := bytesAt h 0 1

def Header.notifyRetire (h : BitVec 256) : Bool := bitAt h 1 0

def Header.cueCount (h : BitVec 256) : Nat := (bytesAt h 2 1).toNat

def Header.tag (h : BitVec 256) : Half := bytesAt h 4 2

/-! ## The configuration part (Tables 12-1, 12-2) -/

/-- The image with one byte read at an offset; a later read of the same byte replaces it. -/
def ConfigImage.put (im : ConfigImage) (offset : Nat) (b : Byte) : ConfigImage where
  bytes := (im.bytes &&& ~~~((0xFF#6144) <<< (8 * offset))) ||| (b.setWidth 6144 <<< (8 * offset))
  seen := im.seen ||| ((1#768) <<< offset)

/-- The image with the bytes of one read. -/
def ConfigImage.putAll : ConfigImage → Nat → List Byte → ConfigImage
  | im, _, [] => im
  | im, offset, b :: bs => ConfigImage.putAll (im.put offset b) (offset + 1) bs

/-- A range of bytes as a mask. -/
def rangeMask (offset len : Nat) : BitVec 768 :=
  (BitVec.ofNat 768 (2 ^ len - 1)) <<< offset

/-- The bytes of every configuration field that START reads (R186, Tables 12-1 and 12-2). The align value is not one
of them. -/
def configFields : BitVec 768 :=
  rangeMask 0x000 5 ||| rangeMask 0x040 11 ||| rangeMask 0x050 11 ||| rangeMask 0x060 11 ||| rangeMask 0x070 11
    ||| rangeMask 0x080 10 ||| rangeMask 0x090 8 ||| rangeMask 0x0A0 2 ||| rangeMask 0x0A4 2
    ||| rangeMask 0x0C0 10 ||| rangeMask 0x0D0 10 ||| rangeMask 0x0E0 10 ||| rangeMask 0x0F0 10
    ||| rangeMask 0x100 64 ||| rangeMask 0x140 64

/-- Every configuration field has been read (R186). -/
def ConfigImage.complete (im : ConfigImage) : Bool :=
  im.seen &&& configFields = configFields

/-- The magic and version fields have been read: what the first read covers (R186). -/
def ConfigImage.headRead (im : ConfigImage) : Bool :=
  im.seen &&& rangeMask 0x000 5 = rangeMask 0x000 5

/-- The magic and version fields hold the values START asks for (R186). -/
def ConfigImage.exchangeOk (im : ConfigImage) : Bool :=
  bytesAt im.bytes 0 4 = Config.magic && bytesAt im.bytes 4 1 = Config.formatVersion

/-- A lane record, 11 bytes of fields (Table 12-2). -/
def laneConfigOf {w : Nat} (data : BitVec w) (off : Nat) : LaneConfig where
  head := bytesAt data off 8
  tolerance := bytesAt data (off + 8) 2
  enable := bitAt data (off + 10) 0
  starveWarn := bitAt data (off + 10) 1

/-- The lane record of lane n in the configuration part. -/
def ConfigImage.lane (im : ConfigImage) (n : LaneNo) : LaneConfig :=
  laneConfigOf im.bytes (0x040 + 16 * n.val)

def ConfigImage.journalHead (im : ConfigImage) : Addr := bytesAt im.bytes 0x080 8

def ConfigImage.flushInterval (im : ConfigImage) : Half := bytesAt im.bytes 0x088 2

def ConfigImage.surveyInterval (im : ConfigImage) : Half := bytesAt im.bytes 0x090 2

def ConfigImage.gatherInterval (im : ConfigImage) : Half := bytesAt im.bytes 0x092 2

def ConfigImage.classMask (im : ConfigImage) : Half := bytesAt im.bytes 0x094 2

def ConfigImage.syncSelect? (im : ConfigImage) : Option (Option Dir) := syncSelectOf? (bytesAt im.bytes 0x096 1)

def ConfigImage.timeMarkReport (im : ConfigImage) : Bool := bitAt im.bytes 0x097 0

/-- A generator entry: source line and source edge select. -/
def ConfigImage.gen? (im : ConfigImage) (g : GenNo) : Option (LineNo × EdgeSelect) := do
  let k ← lineOf? (bytesAt im.bytes (0x0A0 + 4 * g.val) 1)
  let e ← EdgeSelect.ofCode? (bytesAt im.bytes (0x0A1 + 4 * g.val) 1)
  return (k, e)

/-- A window entry. -/
def ConfigImage.window (im : ConfigImage) (i : Nat) : Window where
  base := bytesAt im.bytes (0x0C0 + 16 * i) 8
  size := bytesAt im.bytes (0x0C8 + 16 * i) 1
  cueRead := bitAt im.bytes (0x0C9 + 16 * i) 0
  journal := bitAt im.bytes (0x0C9 + 16 * i) 1

/-- The fields of an output line entry. -/
structure OutEntry where
  driveEnable : Bool
  rest : Level
  faultAction : FaultAction
  preassigned : Option LaneNo
  deriving DecidableEq, Repr

/-- An output line entry, or none where R70 calls it invalid. -/
def ConfigImage.out? (im : ConfigImage) (k : LineNo) : Option OutEntry := do
  let off := 0x100 + 4 * k.val
  let enable := bitAt im.bytes off 0
  let rest ← levelOfCode? (bytesAt im.bytes (off + 1) 1)
  let action ← FaultAction.ofCode? (bytesAt im.bytes (off + 2) 1)
  let pre ← preassignedOf? (bytesAt im.bytes (off + 3) 1)
  if pre.isSome && !enable then none
  else return { driveEnable := enable, rest := rest, faultAction := action, preassigned := pre }

/-- An input line entry's capture edge select. -/
def ConfigImage.edgeSelect? (im : ConfigImage) (k : LineNo) : Option EdgeSelect :=
  EdgeSelect.ofCode? (bytesAt im.bytes (0x140 + 4 * k.val) 1)

def ConfigImage.captureEnable (im : ConfigImage) (k : LineNo) : Bool := bitAt im.bytes (0x141 + 4 * k.val) 0

def ConfigImage.deadTime (im : ConfigImage) (k : LineNo) : Half := bytesAt im.bytes (0x142 + 4 * k.val) 2

/-- A window entry passes validation: unused, or a size code of at most 20 and a base that is a multiple of the window
size (R173). -/
def Window.valid (w : Window) : Bool :=
  (!w.cueRead && !w.journal) || (w.size.toNat ≤ 20 && w.base.toNat % w.bytes = 0)

/-- START's validation (R187). -/
def ConfigImage.valid (im : ConfigImage) : Bool :=
  allLanes.all (fun n => !(im.lane n).enable || pageAligned (im.lane n).head)
    && pageAligned im.journalHead
    && allLines.all (fun k => (im.out? k).isSome)
    && allLines.all (fun k => (im.edgeSelect? k).isSome)
    && im.syncSelect?.isSome
    && allGens.all (fun g => (im.gen? g).isSome)
    && [0, 1, 2, 3].all (fun i => (im.window i).valid)

end Sys2Proof.Machine
end

