-- ==== Sys2Proof/Machine/Records.lean ====
section
/-!
DEFINITION. The bytes of every write the part makes (Tables 12-3, 12-4, 12-7; R195, R197), little-endian, reserved
bytes 0.
-/

namespace Sys2Proof.Machine

/-- A number as `n` bytes, little-endian (12_memory_formats.md). -/
def littleEndian : Nat → Nat → List Byte
  | 0, _ => []
  | n + 1, v => BitVec.ofNat 8 v :: littleEndian n (v / 256)

/-- `n` reserved bytes, written 0 (R195). -/
def zeros (n : Nat) : List Byte :=
  List.replicate n 0

/-- One byte. -/
def oneByte (v : Nat) : List Byte :=
  [BitVec.ofNat 8 v]

/-- A flag as a bit value. -/
def flagBit (b : Bool) (k : Nat) : Nat :=
  if b then 2 ^ k else 0

/-- The wait line field of a lane status record (R26, Table 12-3). -/
def Lane.waitLineByte (l : Lane) : Byte :=
  match l.wait with
  | .none => noneByte
  | .input w => BitVec.ofNat 8 w.line.val
  | .claim k => BitVec.ofNat 8 k.val

/-- A lane status record (R26, Table 12-3), with its status time, written over the 64 bytes of Table 12-1 (log 39). -/
def Lane.statusBytes (l : Lane) (now : Ticks) : List Byte :=
  oneByte l.state.code ++ oneByte (flagBit l.holdRequest 0) ++ oneByte l.fault.code ++ oneByte l.stall.code
    ++ [l.waitLineByte] ++ oneByte l.queue.length ++ oneByte l.pages.length ++ zeros 1
    ++ littleEndian 4 l.serial.toNat ++ zeros 4
    ++ littleEndian 8 l.anchor.toNat
    ++ littleEndian 4 l.executed.toNat ++ littleEndian 4 l.lateRuns.toNat
    ++ littleEndian 4 l.skipped.toNat ++ littleEndian 4 l.discarded.toNat
    ++ littleEndian 4 l.pagesRetired.toNat ++ zeros 4
    ++ littleEndian 8 now.toNat ++ zeros 8

/-- The current page address of the journal, 0 if none, and its record index (R152); with no current page the index written is
0 (the model's choice: log 38). -/
def Journal.pageFields (j : Journal) : Addr × Nat :=
  j.page.getD (0, 0)

/-- The journal status record (R152, Table 12-3), written over the 48 bytes of Table 12-1 (log 39). -/
def Journal.statusBytes (j : Journal) (now : Ticks) : List Byte :=
  oneByte j.state.code ++ oneByte j.stall.code ++ oneByte j.fault.code ++ oneByte j.pageFields.2
    ++ oneByte j.fifo.length ++ oneByte j.flushRequest ++ zeros 2
    ++ littleEndian 8 j.pageFields.1.toNat
    ++ littleEndian 4 j.pendingLoss.toNat ++ littleEndian 4 j.sessionLoss.toNat
    ++ littleEndian 4 j.pagesClosed.toNat ++ zeros 4
    ++ littleEndian 8 now.toNat ++ zeros 8

/-- The bound line field of a generator status record (Table 12-3). -/
def Generator.boundByte (g : Generator) : Byte :=
  match g.bound with
  | none => noneByte
  | some k => BitVec.ofNat 8 k.val

/-- A generator status record (R133, Table 12-3), written over the 32 bytes of Table 12-1 (log 39). -/
def Generator.statusBytes (g : Generator) (now : Ticks) : List Byte :=
  oneByte g.state.code ++ oneByte (flagBit g.clamped 0 + flagBit g.holdoverSeen 1) ++ [g.boundByte] ++ zeros 1
    ++ littleEndian 2 g.multiplier ++ littleEndian 2 g.virtuals.toNat
    ++ littleEndian 4 g.period.toNat ++ littleEndian 4 g.subInterval.toNat
    ++ littleEndian 8 now.toNat ++ zeros 8

/-- The part status record, 16 bytes (R192, Table 12-3): 1 OPEN, 2 CLOSED. -/
def partStatusBytes (opened : Bool) (session : Word) (now : Ticks) : List Byte :=
  oneByte (if opened then 1 else 2) ++ zeros 3 ++ littleEndian 4 session.toNat ++ littleEndian 8 now.toNat

/-- A cue page's summary write, header bytes +16 to +31 (R49, R197, Table 12-4). -/
def PageEntry.summaryBytes (p : PageEntry) (code : EndCode) (time : Ticks) : List Byte :=
  oneByte code.code ++ zeros 1 ++ littleEndian 2 p.executed ++ littleEndian 2 p.lateRun
    ++ littleEndian 2 p.skipped ++ littleEndian 2 p.discarded ++ littleEndian 6 time.toNat

/-- A capture page's summary write, header bytes +16 to +31 (R144, R197, Table 12-4). -/
def Closing.summaryBytes (c : Closing) : List Byte :=
  oneByte c.code.code ++ oneByte c.count ++ zeros 2 ++ littleEndian 4 c.lost.toNat ++ zeros 2
    ++ littleEndian 6 c.time.toNat

/-- An owner write: the one byte DONE, 0xA5 (R49, R144, R197). -/
def ownerDoneBytes : List Byte :=
  [0xA5#8]

/-- A capture record, 16 bytes (Table 12-7). -/
def CaptureRecord.bytes : CaptureRecord → List Byte
  | .edge k d t => oneByte 1 ++ oneByte k.val ++ littleEndian 6 t.toNat ++ oneByte d.code ++ zeros 7
  | .mark n v t => oneByte 2 ++ oneByte n.val ++ littleEndian 6 t.toNat ++ littleEndian 4 v.toNat ++ zeros 4
  | .sync a t => oneByte 3 ++ oneByte (flagBit a 0) ++ littleEndian 6 t.toNat ++ zeros 8
  | .track g st p t =>
    oneByte 4 ++ oneByte g.val ++ littleEndian 6 t.toNat ++ oneByte st.code ++ zeros 3 ++ littleEndian 4 p.toNat

/-- The lane mask of STARVATION, taken when the details write is issued: the lanes with starve-warn set that are
STARVED (R53). -/
def starvationMask (s : State) : Nat :=
  allLanes.foldl
    (fun acc n => acc + flagBit ((s.lane n).config.starveWarn && (s.lane n).state = .starved) n.val) 0

/-- The details write of a slot, bytes +4 to +31 (R197, Table 12-7). -/
def detailsBytes (s : State) : Details → List Byte
  | .cleared => zeros 28
  | .progress serial tag => zeros 4 ++ littleEndian 4 serial.toNat ++ littleEndian 2 tag.toNat ++ zeros 18
  | .exception e =>
    zeros 4 ++ oneByte e.state.code ++ oneByte e.code.code ++ zeros 2 ++ littleEndian 4 e.serial.toNat
      ++ littleEndian 8 e.page.toNat ++ zeros 8
  | .journalReady page count => zeros 4 ++ oneByte count ++ zeros 7 ++ littleEndian 8 page.toNat ++ zeros 8
  | .journalTrouble total code => zeros 4 ++ littleEndian 4 total.toNat ++ oneByte code.code ++ zeros 19
  | .generator st p => zeros 4 ++ oneByte st.code ++ zeros 3 ++ littleEndian 4 p.toNat ++ zeros 16
  | .timeMark t => zeros 4 ++ littleEndian 8 t.toNat ++ zeros 16
  | .command c o out => zeros 4 ++ [c, o] ++ oneByte out.code ++ zeros 21
  | .starvation => zeros 4 ++ oneByte (starvationMask s) ++ zeros 23
  | .alignment old new => zeros 4 ++ littleEndian 8 old.toNat ++ littleEndian 8 new.toNat ++ zeros 8

/-- The count write of a slot, bytes +0 to +3; bits 31 to 24 are 0 (R195, R197). -/
def countBytes (c : Count24) : List Byte :=
  littleEndian 4 c.toNat

/-! ## Where the records lie (Table 12-1) -/

def noticeSlotOffset (k : SlotNo) : Nat := 0x300 + 32 * k.val

def partStatusOffset : Nat := 0x500

def journalStatusOffset : Nat := 0x510

def genStatusOffset (g : GenNo) : Nat := 0x540 + 32 * g.val

def laneStatusOffset (n : LaneNo) : Nat := 0x580 + 64 * n.val

def laneRecordOffset (n : LaneNo) : Nat := 0x040 + 16 * n.val

def journalRecordOffset : Nat := 0x080

def alignValueOffset : Nat := 0x098

/-- The configuration part, offsets 0x000 to 0x2FF (R186). -/
def configurationBytes : Nat := 0x300

end Sys2Proof.Machine
end

