-- ==== Sys2Proof/Machine/Lanes.lean ====
section
/-!
DEFINITION. The lane's shared operations: changes that mark its status record stale, closing a lane (fault, END, stop),
its fetcher's walk (R30 to R47) and the retirement of its pages (R48 to R52).
-/

namespace Sys2Proof.Machine

/-! ## Small changes -/

/-- The lane's status record is marked stale (R27). -/
def markLane (n : LaneNo) (s : State) : State :=
  markStale (.laneStatus n) s

/-- A change of lane state marks the status record stale (R27). -/
def setLaneState (n : LaneNo) (st : LaneState) (s : State) : State :=
  if (s.lane n).state = st then s else markLane n (s.setLane n { s.lane n with state := st })

/-- A lane enters a waiting state with its waiting record. Its status record is marked stale whatever its state was: where a
wait has ended in the same run, its end and this entry each change the lane state (R27, R105). -/
def enterWait (n : LaneNo) (st : LaneState) (w : Wait) (s : State) : State :=
  markLane n (s.setLane n { s.lane n with state := st, wait := w })

/-- A change of the hold request marks the status record stale (R27). -/
def setHold (n : LaneNo) (b : Bool) (s : State) : State :=
  if (s.lane n).holdRequest = b then s else markLane n (s.setLane n { s.lane n with holdRequest := b })

/-- A change of the stall point marks the status record stale (R27, Table 2-1). -/
def setStall (n : LaneNo) (st : Stall) (s : State) : State :=
  if (s.lane n).stall = st then s else markLane n (s.setLane n { s.lane n with stall := st })

/-- A flight whose requester has stopped reading (R32, R169). -/
def Flight.discarded {κ : Type} (f : Flight κ) : Flight κ :=
  { f with discard := true }

/-- The lane after its fetcher has stopped (R30, R19 step 3): no read is presented, a read in flight is to be discarded,
the reserved slots are given up, the pending fault is dropped. The stall point is left to `setStall`. -/
def Lane.fetcherStopped (l : Lane) : Lane :=
  { l with
    running := false
    request := none
    flight := l.flight.map Flight.discarded
    reserved := 0
    pendingFault := none }

/-- The fetcher stops and its stall point becomes NONE (R30). -/
def stopFetcher (n : LaneNo) (s : State) : State :=
  setStall n .none (s.setLane n (s.lane n).fetcherStopped)

/-- A wait is withdrawn: a claim wait leaves its line's waiter list (R19, R24, R99). -/
def withdrawWait (n : LaneNo) (s : State) : State :=
  let s' :=
    match (s.lane n).wait with
    | .none => s
    | .input _ => s
    | .claim k => leaveWaiters k n s
  s'.setLane n { s'.lane n with wait := .none }

/-! ## Closing a lane (R16, R19, R24) -/

/-- The lane with every cue of its queue counted discarded in its totals, and the queue emptied (R10). -/
def Lane.queueDiscarded (l : Lane) : Lane :=
  { l with
    discarded := l.discarded + BitVec.ofNat 32 l.queue.length
    queue := []
    hasCurrent := false
    lateRun := false }

/-- The lane's execution ceases in a state: its wait is withdrawn, its hold request cleared, its queue discarded and its
fetcher stopped. The status record is handed by `retirePages` that follows (R27). -/
def ceaseLane (n : LaneNo) (st : LaneState) (s : State) : State :=
  let s := withdrawWait n s
  let s := s.setLane n { (s.lane n).queueDiscarded with state := st, holdRequest := false }
  stopFetcher n s

/-- An OPEN entry closed by a fault, END or stop: what was neither executed nor skipped is discarded, unfetched cues
included, and the entry becomes RETIRING (R50). -/
def PageEntry.closed (p : PageEntry) (code : EndCode) (now : Ticks) : PageEntry :=
  match p.retiring with
  | some _ => p
  | none => { p with discarded := p.count - p.executed - p.skipped, retiring := some (code, now) }

/-- How many entries of a page list are OPEN. -/
def openCount (ps : List PageEntry) : Nat :=
  (ps.filter fun p => p.retiring.isNone).length

/-- Every OPEN page of the lane becomes RETIRING; the retirement writes are handed in chain order and the lane status
record, withdrawn if it was waiting, is handed after them (R27, R49, R50). -/
def retirePages (n : LaneNo) (code : EndCode) (s : State) : State :=
  let l := s.lane n
  let before := s.handed.filter fun it => it ≠ .laneStatus n
  let s := s.setLane n { l with pages := l.pages.map fun p => p.closed code s.time.schedule }
  { s with handed := before ++ List.replicate (openCount l.pages) (.retireSummary n) ++ [.laneStatus n] }

/-- An EXCEPTION posting waits for the lane's status write (R16 step 7, R19 step 7). -/
def oweException (n : LaneNo) (e : Exception) (s : State) : State :=
  s.setLane n { s.lane n with exceptions := (s.lane n).exceptions ++ [e] }

/-- A lane fault, cue-side or fetch-side, in the order of R19. `page` is the faulting cue's page, or the address the
fetcher recorded (R28). -/
def laneFault (n : LaneNo) (code : FaultCode) (page : Addr) (s : State) : State :=
  let s := ceaseLane n .faulted s
  let s := s.setLane n { s.lane n with fault := code }
  let s := faultOwnedLines n s
  let s := retirePages n (.fault code) s
  oweException n { state := .faulted, code := code, serial := (s.lane n).serial, page := page } s

/-! ## The fetcher (R30 to R47) -/

/-- A fetch-side fault: the fetcher stops issuing reads at FETCH_FAULT with the code pending, and a STARVED lane faults
at once (R18, R44). -/
def fetchFault (n : LaneNo) (code : FaultCode) (addr : Addr) (s : State) : State :=
  let s := s.setLane n { s.lane n with pendingFault := some (code, addr), request := none }
  let s := setStall n .fetchFault s
  if (s.lane n).state = .starved then laneFault n code addr s else s

/-- The fetcher presents a read to the arbiter (R169). -/
def presentFetch (n : LaneNo) (r : FetchRead) (s : State) : State :=
  s.setLane n { s.lane n with request := some r }

/-- The fetcher has no read presented and none in flight whose answer it awaits (R32, R169). A read in flight whose answer is
to be discarded does not count, so a survey may present the re-read, which is issued once that answer has come (the model's
choice: log 42). -/
def Lane.noRead (l : Lane) : Bool :=
  l.request.isNone && (match l.flight with
    | none => true
    | some f => f.discard)

/-- The fetcher of a running lane is held up by no stall and no read (R36). -/
def Lane.walking (l : Lane) : Bool :=
  l.running && l.stall = .none && l.noRead

/-- Free room of the cue queue (R36). -/
def Lane.room (l : Lane) : Nat :=
  Config.queueCapacity - l.queue.length - l.reserved

/-- The entry of the page being fetched: the last one taken (R35). -/
def Lane.fetchEntry (l : Lane) : Option PageEntry :=
  l.pages.getLast?

/-- The unfetched cues of the page being fetched. -/
def Lane.unfetched (l : Lane) : Nat :=
  match l.fetchEntry with
  | none => 0
  | some p => p.count - p.fetched

/-- The index of the next unfetched cue. -/
def Lane.fetchedSoFar (l : Lane) : Nat :=
  match l.fetchEntry with
  | none => 0
  | some p => p.fetched

/-- The size of the burst issued now: the least of 4, the unfetched cues and the free room (R36). -/
def Lane.burstSize (l : Lane) : Nat :=
  min 4 (min l.unfetched l.room)

/-- The address of the page whose cues or link are read. -/
def Lane.fetchAddr (l : Lane) : Addr :=
  l.fetchPage.getD 0

/-- Cue i of a page lies at +32 + 32 × i (Table 12-4). -/
def cueAddr (page : Addr) (i : Nat) : Addr :=
  pageOffset page (32 + 32 * i)

/-- The next header read is due: with fewer than 17 entries in the list it is checked against the windows and presented,
else the fetcher waits for an entry to leave (R33, R35). -/
def presentHeader (n : LaneNo) (s : State) : State :=
  let l := s.lane n
  if l.pages.length < Config.pageListCapacity then
    if windowOk s .cueRead l.nextAddr 32 then presentFetch n .header s
    else fetchFault n .window l.nextAddr s
  else s

/-- A burst is presented when the page has unfetched cues and the queue has room (R33, R36). -/
def presentBurst (n : LaneNo) (s : State) : State :=
  let l := s.lane n
  if l.walking && l.step = .cues && 0 < l.burstSize then
    if windowOk s .cueRead (cueAddr l.fetchAddr l.fetchedSoFar) (32 * l.burstSize) then presentFetch n .burst s
    else fetchFault n .window l.fetchAddr s
  else s

/-- The link read of the tail page is presented (R33, R40, R41). -/
def presentLink (n : LaneNo) (s : State) : State :=
  let l := s.lane n
  if windowOk s .cueRead (pageOffset l.fetchAddr 8) 8 then presentFetch n .link s
  else fetchFault n .window l.fetchAddr s

/-- The next page is known: the step becomes HEADER (R31, R41). -/
def goToHeader (n : LaneNo) (next : Addr) (s : State) : State :=
  let s := s.setLane n { s.lane n with nextAddr := next, step := .header }
  presentHeader n (setStall n .none s)

/-- A head address is judged (R31, R42). -/
def judgeHead (n : LaneNo) (head : Addr) (s : State) : State :=
  if head = 0 then setStall n .headField s
  else if !pageAligned head then fetchFault n .badLink head s
  else goToHeader n head s

/-- The lane as its fetcher starts: step HEAD, nothing presented, an earlier read still to be discarded (R31, R32). -/
def Lane.fetcherStarted (l : Lane) : Lane :=
  { l with
    running := true
    step := .head
    nextAddr := 0
    fetchPage := none
    request := none
    flight := l.flight.map Flight.discarded }

/-- The fetcher starts at step HEAD with the configuration's head address (R31). -/
def startFetcher (n : LaneNo) (s : State) : State :=
  judgeHead n (s.lane n).config.head (s.setLane n (s.lane n).fetcherStarted)

/-- The entry of a page just taken (R35). -/
def takenEntry (addr : Addr) (h : BitVec 256) : PageEntry where
  addr := addr
  tag := Header.tag h
  notifyRetire := Header.notifyRetire h
  count := Header.cueCount h
  fetched := 0
  executed := 0
  lateRun := 0
  skipped := 0
  discarded := 0
  retiring := none

/-- A page is taken: it joins the list, and its first burst is issued (R34, R35, R36). -/
def takePage (n : LaneNo) (h : BitVec 256) (s : State) : State :=
  let l := s.lane n
  let s := s.setLane n
    { l with pages := l.pages ++ [takenEntry l.nextAddr h], fetchPage := some l.nextAddr, step := .cues }
  presentBurst n (setStall n .none s)

/-- A header is judged by its owner field and its cue count (R34). -/
def judgeHeader (n : LaneNo) (h : BitVec 256) (s : State) : State :=
  let owner := Header.owner h
  let count := Header.cueCount h
  if owner = ownerPart ∧ 1 ≤ count ∧ count ≤ 15 then takePage n h s
  else if owner = ownerHost ∨ owner = ownerDone then setStall n .header s
  else fetchFault n .badPage (s.lane n).nextAddr s

/-- A link is judged (R41). -/
def judgeLink (n : LaneNo) (link : Addr) (s : State) : State :=
  if link = 0 then setStall n .link s
  else if !pageAligned link then fetchFault n .badLink (s.lane n).fetchAddr s
  else goToHeader n link s

/-- The last entry of a page list changed. -/
def onLast (f : PageEntry → PageEntry) : List PageEntry → List PageEntry
  | [] => []
  | [p] => [f p]
  | p :: q :: rest => p :: onLast f (q :: rest)

/-- The cues of a burst join the queue, each checked and with its origin page, and the reserved slots become them
(R37, R39). -/
def queueBurst (n : LaneNo) (cues : List (BitVec 256)) (s : State) : State :=
  let l := s.lane n
  s.setLane n
    { l with
      queue := l.queue ++ cues.map fun raw => { cue := parseCue raw, page := l.fetchAddr }
      reserved := 0
      pages := onLast (fun p => { p with fetched := p.fetched + cues.length }) l.pages }

/-- After a burst the next burst or, behind the page's last cue, the link read is issued (R37, R40). -/
def fetchOn (n : LaneNo) (s : State) : State :=
  let l := s.lane n
  if 0 < l.unfetched then presentBurst n s
  else presentLink n (s.setLane n { l with step := .link })

/-- A survey or RESURVEY re-reads the place where a running fetcher is stalled, if it has no re-read under way (R38,
R41, R42, R46). -/
def surveyFetcher (n : LaneNo) (s : State) : State :=
  let l := s.lane n
  if l.running && l.noRead then
    match l.stall with
    | .headField => presentFetch n .headField s
    | .link => presentLink n s
    | .header => presentHeader n s
    | .none => s
    | .fetchFault => s
  else s

/-- The address recorded for a read error (R43). -/
def readErrorAddr (s : State) (n : LaneNo) : FetchRead → Addr
  | .headField => exbOffset s (laneRecordOffset n)
  | .header => (s.lane n).nextAddr
  | .burst => (s.lane n).fetchAddr
  | .link => (s.lane n).fetchAddr

/-! ## Retirement of one page (R48) -/

/-- Every cue of the page has been fetched and has left the queue (R48, R10). -/
def PageEntry.finished (p : PageEntry) : Bool :=
  p.fetched = p.count && p.executed + p.skipped + p.discarded = p.count

/-- The oldest OPEN entry of a page list changed. -/
def onFirstOpen (f : PageEntry → PageEntry) : List PageEntry → List PageEntry
  | [] => []
  | p :: rest => if p.retiring.isNone then f p :: rest else p :: onFirstOpen f rest

/-- The oldest OPEN entry. -/
def firstOpen (ps : List PageEntry) : Option PageEntry :=
  ps.find? fun p => p.retiring.isNone

/-- A page whose last cue has left the queue becomes RETIRING with COMPLETE, and its writes are handed (R48, R49). -/
def retireFinished (n : LaneNo) (s : State) : State :=
  let l := s.lane n
  match firstOpen l.pages with
  | none => s
  | some p =>
    if p.finished then
      handWrites [.retireSummary n]
        (s.setLane n
          { l with pages := onFirstOpen (fun p => { p with retiring := some (.complete, s.time.schedule) }) l.pages })
    else s

end Sys2Proof.Machine
end

