-- ==== Sys2Proof/Machine/Cues.lean ====
section
/-!
DEFINITION. The lane executor: taking the head cue, resolving and judging it, carrying out the twelve kinds, and the run
of a lane's cues at one tick (R3 to R18, R48, R94).
-/

namespace Sys2Proof.Machine

/-! ## Finishing a cue (R10) -/

/-- The outcomes by which a cue that is not discarded leaves the queue (R10). -/
inductive Finish where
  | executed
  | skipped
  deriving DecidableEq, Repr

/-- A page's running counts after one of its cues has finished (R10). -/
def PageEntry.counted (p : PageEntry) (f : Finish) (late : Bool) : PageEntry :=
  match f with
  | .executed => { p with executed := p.executed + 1, lateRun := if late then p.lateRun + 1 else p.lateRun }
  | .skipped => { p with skipped := p.skipped + 1 }

/-- The lane after its current cue has left the queue, counted once in the lane's totals and for its page (R10). -/
def Lane.finished (l : Lane) (f : Finish) : Lane :=
  { l with
    executed := if f = .executed then l.executed + 1 else l.executed
    lateRuns := if f = .executed && l.lateRun then l.lateRuns + 1 else l.lateRuns
    skipped := if f = .skipped then l.skipped + 1 else l.skipped
    pages := onFirstOpen (fun p => p.counted f l.lateRun) l.pages
    queue := l.queue.tail
    hasCurrent := false
    lateRun := false
    wait := .none }

/-- The current cue has its NOTIFY flag set. -/
def Lane.notifies (l : Lane) : Bool :=
  match l.queue with
  | [] => false
  | q :: _ =>
    match q.cue with
    | none => false
    | some c => c.notify

/-- PROGRESS with the details of R28: both are written on every posting. -/
def postProgress (n : LaneNo) (s : State) : State :=
  post (progressSlot n) (.progress (s.lane n).lastNotified (s.lane n).lastTag) s

/-- The current cue finishes: it is counted and leaves the queue, and an executed one with NOTIFY posts PROGRESS
(R10). -/
def countCue (n : LaneNo) (f : Finish) (s : State) : State :=
  let l := s.lane n
  let s' := s.setLane n (l.finished f)
  if f = .executed && l.notifies then
    postProgress n (s'.setLane n { s'.lane n with lastNotified := l.serial })
  else s'

/-- The current cue finishes; its page may retire, and the room it frees may let a burst go (R10, R36, R48). -/
def finishCue (n : LaneNo) (f : Finish) (s : State) : State :=
  presentBurst n (retireFinished n (countCue n f s))

/-! ## One micro-step of a lane's run -/

/-- What one micro-step of a lane leaves: the state, whether the lane takes its next cue at once (R8), and the lanes
granted a line, which take theirs at the same tick (R94). -/
structure Ran where
  state : State
  again : Bool
  granted : List LaneNo

/-- The lane rests. -/
def Ran.rest (s : State) : Ran :=
  { state := s, again := false, granted := [] }

/-- The current cue finishes and the lane takes its next (R3). -/
def Ran.done (n : LaneNo) (f : Finish) (s : State) : Ran :=
  { state := finishCue n f s, again := true, granted := [] }

/-- The page the current cue came from. -/
def Lane.cuePage (l : Lane) : Addr :=
  match l.queue with
  | [] => 0
  | q :: _ => q.page

/-- A cue-side fault of the current cue (R17). -/
def cueFault (n : LaneNo) (code : FaultCode) (s : State) : Ran :=
  Ran.rest (laneFault n code (s.lane n).cuePage s)

/-- A lane granted a line: its CLAIM cue finishes as executed (R15, R94). -/
def acceptGrant (n : LaneNo) (s : State) : State :=
  finishCue n .executed s

/-- The lane waits for a claim on its current cue. -/
def awaitsGrant (s : State) (n : LaneNo) : Bool :=
  (s.lane n).state = .waitLine && !(s.lane n).queue.isEmpty

/-- Lines released, and the waiting lanes they are granted to answered (R84, R94, R95). The granted lanes' CLAIM cues finish
before the releasing RELEASE cue, in the order of their lines (the model's choice: log 45). -/
def releaseAndGrant (ks : List LineNo) (s : State) : State × List LaneNo :=
  let (s, granted) := releaseLines ks s
  let granted := granted.filter (awaitsGrant s)
  (State.each granted acceptGrant s, granted)

/-- A starvation entry: STARVED by R3 case 4, posted if starve-warn is set (R53). -/
def starve (n : LaneNo) (s : State) : State :=
  let s := setLaneState n .starved s
  if (s.lane n).config.starveWarn then post starvationSlot .starvation s else s

/-- CAPTURE_ON and CAPTURE_OFF on one input line (R115). -/
def setCapture (b : Bool) (k : LineNo) (s : State) : State :=
  s.setInput k { s.input k with captureEnable := b }

/-- WAIT_INPUT: the lane enters WAIT_INPUT with an input wait built from the cue (R12). -/
def beginInputWait (n : LaneNo) (k : LineNo) (e : EdgeSelect) (timeout : Word) (continues : Bool) (s : State) : State :=
  let w : InputWait :=
    { line := k, edge := e, timeout := timeout, expiry := Ticks.after s.time.elapsed timeout.toNat,
      continues := continues }
  enterWait n .waitInput (.input w) s

/-- CLAIM that must wait: the lane joins the waiter list and enters WAIT_LINE (R15, R91). -/
def beginClaimWait (n : LaneNo) (k : LineNo) (timeout : Half) (s : State) : State :=
  enterWait n .waitLine (.claim k) (joinWaiters k n timeout s)

/-- END (R16): the cue finishes, the lane's lines are released, its queue is discarded, its fetcher stops, its pages
retire ENDED, and EXCEPTION waits for the status write. The END cue's page retires ENDED, not COMPLETE (log 25). -/
def carryEnd (n : LaneNo) (s : State) : Ran :=
  let page := (s.lane n).cuePage
  let s := countCue n .executed s
  let (s, granted) := releaseAndGrant (ownedLines s n) s
  let s := ceaseLane n .ended s
  let s := retirePages n .ended s
  let s := oweException n { state := .ended, code := .none, serial := (s.lane n).serial, page := page } s
  { state := s, again := false, granted := granted }

/-- CLAIM by the arbiter's answer (R15, R91). -/
def carryClaim (n : LaneNo) (k : LineNo) (timeout : Half) (s : State) : Ran :=
  match claimAnswer s n k timeout with
  | .disabled => cueFault n .lineDisabled s
  | .alreadyOwned => Ran.done n .executed s
  | .granted => Ran.done n .executed (grantLine k n s)
  | .timedOut => cueFault n .claimTimeout s
  | .wait => Ran.rest (beginClaimWait n k timeout s)

/-- RELEASE of a mask the lane owns (R95). -/
def carryRelease (n : LaneNo) (mask : Half) (s : State) : Ran :=
  let (s, granted) := releaseAndGrant (maskLines mask) s
  { state := finishCue n .executed s, again := true, granted := granted }

/-- A cue is carried out by its kind, after the ownership check of R9 where its kind touches output lines (R9 to R16,
R75, R76, R78, R115, R129). -/
def carryOut (n : LaneNo) (a : Action) (s : State) : Ran :=
  match a with
  | .nop => Ran.done n .executed s
  | .setLines mask levels =>
    if ownsAll s n mask then Ran.done n .executed (State.each (maskLines mask) (setLineLevel levels) s)
    else cueFault n .notOwner s
  | .pulse k active width =>
    if owns s n k then Ran.done n .executed (startPulse k active width s) else cueFault n .notOwner s
  | .wave k first d1 d2 periods =>
    if owns s n k then Ran.done n .executed (startWave k first d1 d2 periods s) else cueFault n .notOwner s
  | .track k g m =>
    if !owns s n k then cueFault n .notOwner s
    else if boundElsewhere s g k then cueFault n .trackBusy s
    else Ran.done n .executed (trackLine k g m s)
  | .captureOn mask => Ran.done n .executed (State.each (maskLines mask) (setCapture true) s)
  | .captureOff mask => Ran.done n .executed (State.each (maskLines mask) (setCapture false) s)
  | .mark v => Ran.done n .executed (capture (.mark n v s.time.schedule) s)
  | .waitInput k e timeout continues => Ran.rest (beginInputWait n k e timeout continues s)
  | .claim k timeout => carryClaim n k timeout s
  | .release mask => if ownsAll s n mask then carryRelease n mask s else cueFault n .notOwner s
  | .endLane => carryEnd n s

/-- The lane remembers whether its current cue was judged late under RUN (R7, R10). -/
def setLateRun (n : LaneNo) (b : Bool) (s : State) : State :=
  s.setLane n { s.lane n with lateRun := b }

/-- A reached due is judged against the lane's tolerance, and a late cue meets its policy (R7). -/
def judgeCue (n : LaneNo) (c : Cue) (s : State) : Ran :=
  let l := s.lane n
  if lateness s.time.schedule l.due ≤ l.config.tolerance.toNat then carryOut n c.action (setLateRun n false s)
  else
    match c.policy with
    | .run => carryOut n c.action (setLateRun n true s)
    | .skip => Ran.done n .skipped s
    | .fault => cueFault n .late s

/-- The due a cue resolves to (R5). -/
def resolvedDue (anchor : Ticks) (c : Cue) : Ticks :=
  if c.rel then anchor + c.due else c.due

/-- An ABS cue whose due lies before the anchor (R5). -/
def ordersBack (anchor : Ticks) (c : Cue) : Bool :=
  !c.rel && c.due != anchor && reached anchor c.due

/-- The current cue is resolved; the anchor takes the due, and the due is judged at once if it is reached, else the lane
is PENDING (R5, R6). -/
def resolveCue (n : LaneNo) (c : Cue) (s : State) : Ran :=
  let l := s.lane n
  if ordersBack l.anchor c then cueFault n .order s
  else
    let due := resolvedDue l.anchor c
    let s := s.setLane n { l with due := due, anchor := due }
    if reached s.time.schedule due then judgeCue n c s else Ran.rest (setLaneState n .pending s)

/-- The head entry becomes the current cue with the next serial (R3 case 2, R4). -/
def startCue (n : LaneNo) (q : QueuedCue) (s : State) : Ran :=
  let l := s.lane n
  let s := s.setLane n { l with serial := l.serial + 1, hasCurrent := true }
  match q.cue with
  | none => cueFault n .badCue s
  | some c => resolveCue n c s

/-- The lane takes a new current cue by the first case of R3 that holds. -/
def takeNext (n : LaneNo) (s : State) : Ran :=
  let l := s.lane n
  if l.holdRequest then Ran.rest (setLaneState n .held (setHold n false s))
  else
    match l.queue with
    | q :: _ => startCue n q s
    | [] =>
      match l.pendingFault with
      | some (code, addr) => Ran.rest (laneFault n code addr s)
      | none => Ran.rest (starve n s)

/-! ## The run at one tick (R8, R94) -/

/-- The lanes that go on after a micro-step of lane `n`, the lanes granted coming before or after it as a free value
gives (log 11). -/
def goOn (n : LaneNo) (r : Ran) (others : List LaneNo) : List LaneNo × State :=
  let own := if r.again then [n] else []
  match r.granted with
  | [] => (own ++ others, r.state)
  | g :: gs =>
    let (granted, s) := inFreeOrder (g :: gs) r.state
    let (first, s) := s.drawBelow 2
    (if first = 0 then granted ++ own ++ others else own ++ granted ++ others, s)

/-- The lanes of the list take their next cues, one after another, until all rest. `fuel` bounds the micro-steps. -/
def runLanes : Nat → List LaneNo → State → State
  | _, [], s => s
  | 0, _ :: _, s => s
  | fuel + 1, n :: others, s =>
    let (work, s) := goOn n (takeNext n s) others
    runLanes fuel work s

/-- The cues in all queues. -/
def queuedCues (s : State) : Nat :=
  (s.lane 0).queue.length + (s.lane 1).queue.length + (s.lane 2).queue.length + (s.lane 3).queue.length

/-- Enough micro-steps: each takes a cue off a queue or lets a lane rest, and a lane is granted a line only as its CLAIM
cue leaves its queue (log 11). -/
def runFuel (work : List LaneNo) (s : State) : Nat :=
  2 * queuedCues s + work.length

/-- The lanes of a list run until all rest. -/
def runAll (work : List LaneNo) (s : State) : State :=
  runLanes (runFuel work s) work s

/-- A lane goes on after a first micro-step. -/
def runAfter (n : LaneNo) (r : Ran) : State :=
  let (work, s) := goOn n r []
  runAll work s

/-! ## The events that set a lane running -/

/-- The current cue's fields, if the lane has a current cue without the bad mark. -/
def Lane.current (l : Lane) : Option Cue :=
  match l.queue with
  | [] => none
  | q :: _ => if l.hasCurrent then q.cue else none

/-- The lane is PENDING on its current cue and the due is reached (R6). -/
def dueReady (s : State) (n : LaneNo) : Bool :=
  s.part = .active && (s.lane n).state = .pending && (s.lane n).current.isSome
    && reached s.time.schedule (s.lane n).due

/-- The due of the current cue is reached: it is judged, and the lane runs (R6 to R8). -/
def takeDue (n : LaneNo) (s : State) : State :=
  match (s.lane n).current with
  | none => s
  | some c => runAfter n (judgeCue n c s)

/-- The lane's input wait, while it is in WAIT_INPUT. -/
def inputWait (s : State) (n : LaneNo) : Option InputWait :=
  if (s.lane n).state = .waitInput then
    match (s.lane n).wait with
    | .none => none
    | .input w => some w
    | .claim _ => none
  else none

/-- An accepted edge matches the lane's input wait (R13, R113). -/
def edgeEndsWait (s : State) (k : LineNo) (d : Dir) (n : LaneNo) : Bool :=
  match inputWait s n with
  | none => false
  | some w => w.line = k && w.edge.admits d

/-- A wait ends by leaving this anchor, its cue executed, and the lane goes on (R13, R14). -/
def endWait (n : LaneNo) (anchor : Ticks) (s : State) : State :=
  runAfter n (Ran.done n .executed (s.setLane n { s.lane n with anchor := anchor }))

/-- The expiry of the lane's input wait is reached (R13, R57); a timeout of 0 is none. -/
def waitExpired (s : State) (n : LaneNo) : Bool :=
  s.part = .active &&
    match inputWait s n with
    | none => false
    | some w => w.timeout ≠ 0 && reached s.time.elapsed w.expiry

/-- An input wait expires: it continues with the anchor at due plus timeout, or the lane faults (R13). -/
def expireWait (n : LaneNo) (s : State) : State :=
  match inputWait s n with
  | none => s
  | some w =>
    if w.continues then endWait n (Ticks.after (s.lane n).due w.timeout.toNat) s
    else (cueFault n .waitTimeout s).state

/-- An entry of a line's waiter list has expired (R93, R104). -/
def claimExpired (s : State) (k : LineNo) (n : LaneNo) : Bool :=
  s.part ≠ .failed && (s.line k).waiters.any fun w => w.lane = n && reached s.time.elapsed w.expiry

/-- A claim expires: the entry leaves the list and its lane faults with CLAIM_TIMEOUT (R93). -/
def expireClaim (k : LineNo) (n : LaneNo) (s : State) : State :=
  let s := leaveWaiters k n s
  if (s.lane n).state = .waitLine then (cueFault n .claimTimeout s).state else s

/-- LANE_STOP on one lane, R24 steps 1 to 6, and the runs of the lanes its releases are granted to. -/
def stopLane (n : LaneNo) (s : State) : State :=
  let s := ceaseLane n .off s
  let (s, granted) := releaseAndGrant (ownedLines s n) s
  let s := retirePages n .stopped s
  let (work, s) := inFreeOrder granted s
  runAll work s

/-- Every PENDING lane whose due is reached runs, in a free order; a lane that an earlier one has stopped waiting for its
due is passed over (R64, R65, log 3). -/
def runDueLanes (s : State) : State :=
  let (work, s) := inFreeOrder (allLanes.filter (dueReady s)) s
  State.each work (fun n s => if dueReady s n then takeDue n s else s) s

/-- A step of schedule time to a new value (R64). -/
def setSchedule (v : Ticks) (s : State) : State :=
  { s with time := { s.time with schedule := v } }

/-- A step to a new value: ALIGNMENT is posted with the old and the new time, and the lanes whose dues are now reached run
at the step's tick (R59, R63 to R65). -/
def stepSchedule (v : Ticks) (s : State) : State :=
  runDueLanes (post alignmentSlot (.alignment s.time.schedule v) (setSchedule v s))

end Sys2Proof.Machine
end

