-- ==== Sys2Proof/Machine/JournalOps.lean ====
section
/-!
DEFINITION. The capture journal (R136 to R155): finding pages, writing records, closing pages, faults, surveys and the
drain of STOP.
-/

namespace Sys2Proof.Machine

/-- The state with the journal replaced. -/
def State.setJournal (s : State) (j : Journal) : State :=
  { s with journal := j }

/-- The journal's status record is marked stale (R152). -/
def markJournal (s : State) : State :=
  markStale .journalStatus s

/-- A change of journal state marks the status record stale (R152). -/
def setJournalState (st : JournalState) (s : State) : State :=
  if s.journal.state = st then s else markJournal (s.setJournal { s.journal with state := st })

/-- A change of the stall point marks the status record stale (R152). -/
def setJournalStall (st : Stall) (s : State) : State :=
  if s.journal.stall = st then s else markJournal (s.setJournal { s.journal with stall := st })

/-- The journal has no read presented and none in flight whose answer it awaits (R139, R169). A read in flight whose answer is
to be discarded does not count, so a survey may present the re-read, which is issued once that answer has come (the model's
choice: log 36). -/
def Journal.noRead (j : Journal) : Bool :=
  j.request.isNone && (match j.flight with
    | none => true
    | some f => f.discard)

/-- The journal after it has stopped reading: no read is presented and a read in flight is to be discarded (R151,
R153). -/
def Journal.readsStopped (j : Journal) : Journal :=
  { j with request := none, flight := j.flight.map Flight.discarded }

/-! ## Closing a page (R144) -/

/-- What is fixed at a close: the record count, the lost value, the end code and the close time. The link is followed
except after a STOPPED close. -/
def Journal.closingOf (j : Journal) (addr : Addr) (count : Nat) (code : EndCode) (now : Ticks) : Closing where
  addr := addr
  count := count
  lost := j.pendingLoss
  code := code
  time := now
  follow := code ≠ .stopped

/-- The journal after a close: no current page, no pending loss, no loss reported, the flush timer stopped. -/
def Journal.pageClosed (j : Journal) (c : Closing) : Journal :=
  { j with
    page := none
    step := .link
    closing := j.closing ++ [c]
    pendingLoss := 0
    flushTimer := none
    lossReported := false }

/-- The current page closes with an end code, its summary write is handed to the status writer, and the journal enters
STARVED; the STOPPED close of the drain is followed by OFF (R144, R153). -/
def closePage (code : EndCode) (s : State) : State :=
  match s.journal.page with
  | none => s
  | some (addr, count) =>
    let c := s.journal.closingOf addr count code s.time.schedule
    setJournalState .starved (handWrites [.closeSummary] (s.setJournal (s.journal.pageClosed c)))

/-! ## The drain of STOP (R153) -/

/-- A count raised by a number of losses, saturating at 2^32 − 1 (R149). -/
def satAdd (x : Word) (n : Nat) : Word :=
  if x.toNat + n < 2 ^ 32 then BitVec.ofNat 32 (x.toNat + n) else BitVec.allOnes 32

/-- The journal at the end of the drain: OFF, stall point NONE, no read, no link to follow, an empty FIFO whose leftover
records are added to the session loss total. -/
def Journal.drained (j : Journal) : Journal :=
  { j.readsStopped with
    sessionLoss := satAdd j.sessionLoss j.fifo.length
    fifo := []
    draining := false
    closing := j.closing.map fun c => { c with follow := false }
    readyPost := .idle }

/-- The drain ends: the journal enters OFF. The close writes of its last page may still be to be issued (the model's choice
for R190 step 4: log 47). -/
def endDrain (s : State) : State :=
  setJournalStall .none (setJournalState .off (s.setJournal s.journal.drained))

/-- The first ending of R153's table that holds, if the drain is under way. A journal that is already stalled when the drain
begins ends it at once, as a FAULTED one does (the model's choice: log 46). -/
def drainCheck (s : State) : State :=
  let j := s.journal
  if !j.draining then s
  else if j.state = .faulted || j.stall ≠ .none then endDrain s
  else if j.fifo.isEmpty then endDrain (closePage .stopped s)
  else s

/-- The drain begins: the flush timer is stopped and a flush request dropped. -/
def beginDrain (s : State) : State :=
  drainCheck (s.setJournal { s.journal with flushTimer := none, flushRequest := 0, draining := true })

/-! ## Faults and stalls -/

/-- A fault of the journal (R148): FAULTED, the code with the address its rule records (R139 to R141), stall point NONE, no
flush request, no further read, and a JOURNAL_TROUBLE posting that waits for the status write. -/
def journalFault (code : FaultCode) (addr : Option Addr) (s : State) : State :=
  let j := s.journal
  let s := s.setJournal
    { j with
      fault := code
      faultAddr := addr
      flushRequest := 0
      request := none
      troubles := j.troubles ++ [code] }
  drainCheck (markJournal (setJournalStall .none (setJournalState .faulted s)))

/-- The journal stalls; a flush request is dropped (R146), and a drain ends (R153). -/
def stallJournal (st : Stall) (s : State) : State :=
  drainCheck (setJournalStall st (s.setJournal { s.journal with flushRequest := 0 }))

/-! ## Reads (R138 to R141) -/

/-- The journal presents a read to the arbiter (R169). -/
def presentJournal (r : JournalRead) (s : State) : State :=
  s.setJournal { s.journal with request := some r }

/-- The header read of the page at the next address is checked against the windows and presented (R139). -/
def presentJournalHeader (s : State) : State :=
  if windowOk s .journal s.journal.nextAddr 32 then presentJournal .header s
  else journalFault .window (some s.journal.nextAddr) s

/-- The address of the link page. -/
def Journal.linkAddr (j : Journal) : Addr :=
  j.linkPage.getD 0

/-- The link read is checked against the windows and presented (R139, R141). -/
def presentJournalLink (s : State) : State :=
  if windowOk s .journal (pageOffset s.journal.linkAddr 8) 8 then presentJournal .link s
  else journalFault .window (some s.journal.linkAddr) s

/-- The next page is known: the step becomes HEADER and its header is read (R138, R141). -/
def goToJournalHeader (next : Addr) (s : State) : State :=
  presentJournalHeader (setJournalStall .none (s.setJournal { s.journal with nextAddr := next, step := .header }))

/-- A head address is judged by the table of R138, which records no address with BAD_LINK (log 34). -/
def judgeJournalHead (head : Addr) (s : State) : State :=
  if head = 0 then stallJournal .headField s
  else if !pageAligned head then journalFault .badLink none s
  else goToJournalHeader head s

/-- A page is taken as the current page (R140). -/
def takeCapturePage (s : State) : State :=
  let s := s.setJournal { s.journal with page := some (s.journal.nextAddr, 0), step := .page }
  drainCheck (setJournalStall .none (setJournalState .filling s))

/-- A header is judged by its owner field (R140). -/
def judgeJournalHeader (h : BitVec 256) (s : State) : State :=
  let owner := Header.owner h
  if owner = ownerPart then takeCapturePage s
  else if owner = ownerHost ∨ owner = ownerDone then stallJournal .header s
  else journalFault .badPage (some s.journal.nextAddr) s

/-- A link is judged (R141). -/
def judgeJournalLink (link : Addr) (s : State) : State :=
  if link = 0 then stallJournal .link s
  else if !pageAligned link then journalFault .badLink (some s.journal.linkAddr) s
  else goToJournalHeader link s

/-- The address recorded for a read error (R140, R141). -/
def journalErrorAddr (s : State) : JournalRead → Addr
  | .headField => exbOffset s journalRecordOffset
  | .header => s.journal.nextAddr
  | .link => s.journal.linkAddr

/-- JOURNAL_RESTART runs and its read has not been answered: the journal does not read (R151). -/
def journalHeld (s : State) : Bool :=
  s.engine.command = some .journalRestart && s.engine.await = .none

/-- A survey or RESURVEY re-reads the place where the journal is stalled, if it has no read under way and
JOURNAL_RESTART does not run (R142, R151). -/
def surveyJournal (s : State) : State :=
  let j := s.journal
  if j.state = .starved && j.noRead && s.engine.command ≠ some .journalRestart then
    match j.stall with
    | .headField => presentJournal .headField s
    | .link => presentJournalLink s
    | .header => presentJournalHeader s
    | .none => s
    | .fetchFault => s
  else s

/-- A survey of the four fetchers and the journal (R46, R47, R142). -/
def surveyAll (s : State) : State :=
  surveyJournal (State.each allLanes surveyFetcher s)

/-- After the JOURNAL_READY posting of a closed page its link is read; while JOURNAL_RESTART's read is under way the
read waits for that command to fail (R141, R144, R151). -/
def followLink (s : State) : State :=
  let s := s.setJournal { s.journal with readyPost := .idle }
  if journalHeld s then s.setJournal { s.journal with resume := some .link } else presentJournalLink s

/-! ## Records (R143, R146) -/

/-- The journal after the issue of a record write: the record has left the FIFO, the record index has risen, the first
record has started the flush timer (not in the drain: log 31), and a flush request is one nearer its end. -/
def Journal.recordIssued (j : Journal) (addr : Addr) (index : Nat) (elapsed : Ticks) : Journal :=
  { j with
    page := some (addr, index + 1)
    fifo := j.fifo.tail
    flushTimer :=
      if index = 0 && j.flushInterval ≠ 0 && !j.draining then
        some (Ticks.after elapsed (Config.ticksPerFlushUnit * j.flushInterval.toNat))
      else j.flushTimer
    flushRequest := j.flushRequest - 1 }

/-- The flush timer of the current page has reached its expiry (R145). -/
def flushTimerDue (s : State) : Bool :=
  s.part ≠ .failed &&
    match s.journal.flushTimer with
    | none => false
    | some e => s.journal.page.isSome && reached s.time.elapsed e

/-- A flush request that has ended closes the page FLUSHED. Where the flush timer expires at this tick either may be taken
first, as a free value gives; with the expiry first the page closes TIMED, and the request, having ended, brings no second
close (R147, log 3). -/
def closeFlushed (s : State) : State :=
  if flushTimerDue s then
    let (k, s) := s.drawBelow 2
    closePage (if k = 0 then .flushed else .timed) s
  else closePage .flushed s

/-- What the issue of a record write brings: the page closes FULL with its 30th record, or by a flush request that ends
(R143, R146, R147), and a drain may end (R153). -/
def afterRecord (addr : Addr) (index : Nat) (s : State) : State :=
  let requested := s.journal.flushRequest
  let s := s.setJournal (s.journal.recordIssued addr index s.time.elapsed)
  if Config.recordsPerPage ≤ index + 1 then drainCheck (closePage .full s)
  else if requested = 1 then drainCheck (closeFlushed s)
  else drainCheck s

/-- JOURNAL_FLUSH (R146). -/
def flushJournal (s : State) : State :=
  let j := s.journal
  match j.page with
  | none => s
  | some (_, count) =>
    if j.fifo.isEmpty then
      if count = 0 then s else closePage .flushed s
    else s.setJournal { j with flushRequest := j.fifo.length }

/-! ## Starting the journal (R138) -/

/-- The journal's values at START's lane and journal step; the FIFO keeps what arrived at the input step. A read whose
answer is still to be discarded stays in flight (R169). -/
def Journal.started (j : Journal) : Journal :=
  { j.readsStopped with
    state := .starved
    stall := .none
    step := .head
    nextAddr := 0
    page := none
    linkPage := none
    flushTimer := none
    flushRequest := 0
    pendingLoss := 0
    sessionLoss := 0
    lossReported := false
    fault := .none
    faultAddr := none
    pagesClosed := 0
    draining := false
    readyPost := .idle
    resume := none }

/-- The journal is started and its head address judged; its status record is marked stale. -/
def startJournal (s : State) : State :=
  let s := markJournal (s.setJournal s.journal.started)
  judgeJournalHead s.journal.head s

end Sys2Proof.Machine
end

