-- ==== Sys2Proof/Machine/Port.lean ====
section
/-!
DEFINITION. The memory port (R168 to R178): what each requester has waiting, the arbiter's choice, the issue of reads and
writes, the answers, and the entry to FAILED.
-/

namespace Sys2Proof.Machine

/-! ## Accesses waiting at the arbiter (R169) -/

/-- An access a requester presents. -/
inductive Access where
  | fetch (lane : LaneNo) (r : FetchRead)
  | journalRead (r : JournalRead)
  | record
  | status (it : StatusItem)
  | engineRead (r : EngineRead)
  | engineWrite (w : EngineWrite)
  deriving DecidableEq, Repr

/-- The access is a write. -/
def Access.isWrite : Access → Bool
  | .fetch _ _ => false
  | .journalRead _ => false
  | .record => true
  | .status _ => true
  | .engineRead _ => false
  | .engineWrite _ => true

/-- A fetcher's next read; it waits for the answer of the read in flight (R169). -/
def fetchWaiting (s : State) (n : LaneNo) : Option Access :=
  let l := s.lane n
  if l.flight.isSome then none else l.request.map (Access.fetch n)

/-- The journal's next access: the read it presents, or the next record write (R139, R143). -/
def journalWaiting (s : State) : Option Access :=
  let j := s.journal
  match j.request with
  | some r => if j.flight.isSome then none else some (.journalRead r)
  | none => if j.state = .filling && j.page.isSome && !j.fifo.isEmpty then some .record else none

/-- A retirement write of lane n is among the writes handed to the status writer. -/
def retiringHanded (s : State) (n : LaneNo) : Bool :=
  s.handed.any fun it => it = .retireSummary n || it = .retireOwner n

/-- A count write is among the writes handed to the status writer. -/
def countHanded (s : State) : Bool :=
  s.handed.any fun it => it matches .noticeCount _

/-- LANE_RESTART's read follows every retirement write of its lane (R25). -/
def engineReadReady (s : State) : Bool :=
  match s.engine.command with
  | some (.laneRestart n) => !retiringHanded s n
  | _ => true

/-- The notice table's writes follow a count write that was in progress at the notice step (R157). -/
def engineWriteReady (s : State) : EngineWrite → Bool
  | .partStatus _ => true
  | .clearSlot _ => !countHanded s

/-- The command engine's next access (R169). -/
def engineWaiting (s : State) : Option Access :=
  let e := s.engine
  match e.request with
  | some r => if e.flight.isSome || !engineReadReady s then none else some (.engineRead r)
  | none =>
    match e.writes with
    | [] => none
    | w :: _ => if engineWriteReady s w then some (.engineWrite w) else none

/-- What a requester has waiting. -/
def waiting (s : State) : Requester → Option Access
  | .fetcher n => fetchWaiting s n
  | .journal => journalWaiting s
  | .statusWriter => s.handed.head?.map Access.status
  | .engine => engineWaiting s

/-! ## The arbiter (R170) -/

/-- The ring of requesters. -/
def ring : List Requester :=
  [.fetcher 0, .fetcher 1, .fetcher 2, .fetcher 3, .journal, .statusWriter, .engine]

/-- A requester's place in the ring. -/
def Requester.place : Requester → Nat
  | .fetcher n => n.val
  | .journal => 4
  | .statusWriter => 5
  | .engine => 6

/-- The ring from the place after a requester on. -/
def ringAfter (r : Requester) : List Requester :=
  ring.drop (r.place + 1) ++ ring.take (r.place + 1)

/-- A waiting read can always be taken, a waiting write while the path holds fewer than 8 writes. -/
def canBeTaken (s : State) (a : Access) : Bool :=
  !a.isWrite || s.port.path.length < Config.pathCapacity

/-- A requester's access, if it can be taken. -/
def takeable (s : State) (r : Requester) : Option Access :=
  (waiting s r).filter (canBeTaken s)

/-- The first requester after the last served that has an access that can be taken, with that access. -/
def nextServed (s : State) : Option (Requester × Access) :=
  (ringAfter s.port.last).findSome? fun r => (takeable s r).map fun a => (r, a)

/-! ## Issue of reads (R172) -/

/-- The bytes of two accesses overlap. -/
def overlaps (a : Addr) (n : Nat) (b : Addr) (m : Nat) : Bool :=
  a.toNat < b.toNat + m && b.toNat < a.toNat + n

/-- How many writes of the path must complete before a read may be sent: up to the last one it overlaps. -/
def writesAhead (a : Addr) (n : Nat) : List Write → Nat
  | [] => 0
  | w :: ws =>
    let k := writesAhead a n ws
    if 0 < k then k + 1 else if overlaps a n w.addr w.bytes.length then 1 else 0

/-- A read as it is issued. -/
def newFlight {κ : Type} (s : State) (kind : κ) (a : Addr) (n : Nat) : Flight κ where
  kind := kind
  discard := false
  behind := writesAhead a n s.port.path

/-- The address and size of a fetcher's read (R32). -/
def fetchRange (s : State) (n : LaneNo) : FetchRead → Addr × Nat
  | .headField => (exbOffset s (laneRecordOffset n), 8)
  | .header => ((s.lane n).nextAddr, 32)
  | .burst => (cueAddr (s.lane n).fetchAddr (s.lane n).fetchedSoFar, 32 * (s.lane n).burstSize)
  | .link => (pageOffset (s.lane n).fetchAddr 8, 8)

/-- A fetcher's read is issued; a burst reserves its cues (R36). -/
def issueFetch (n : LaneNo) (r : FetchRead) (s : State) : State :=
  let l := s.lane n
  let range := fetchRange s n r
  s.setLane n
    { l with
      request := none
      flight := some (newFlight s r range.1 range.2)
      reserved := if r = .burst then l.burstSize else l.reserved }

/-- The address and size of a journal read (R139). -/
def journalRange (s : State) : JournalRead → Addr × Nat
  | .headField => (exbOffset s journalRecordOffset, 8)
  | .header => (s.journal.nextAddr, 32)
  | .link => (pageOffset s.journal.linkAddr 8, 8)

/-- A journal read is issued. -/
def issueJournalRead (r : JournalRead) (s : State) : State :=
  let range := journalRange s r
  s.setJournal { s.journal with request := none, flight := some (newFlight s r range.1 range.2) }

/-- The lane whose record LANE_RESTART reads. -/
def restartedLane (s : State) : LaneNo :=
  match s.engine.command with
  | some (.laneRestart n) => n
  | _ => 0

/-- The address and size of a read of the command engine, at the exchange block address held now (R172, R181). A configuration
read lies in the configuration part; its own range is what its answer says it read (R186, log 9). -/
def engineRange (s : State) : EngineRead → Addr × Nat
  | .configuration => (exbAddr s, configurationBytes)
  | .laneRecord => (exbOffset s (laneRecordOffset (restartedLane s)), 16)
  | .journalHead => (exbOffset s journalRecordOffset, 8)
  | .alignValue => (exbOffset s alignValueOffset, 8)

/-- A read of the command engine is issued (R172). -/
def issueEngineRead (r : EngineRead) (s : State) : State :=
  let range := engineRange s r
  { s with
    engine := { s.engine with request := none, flight := some (newFlight s r range.1 range.2) } }

/-! ## Issue of writes -/

/-- A write is appended at the tail of the ordered write path (R170). -/
def issueWrite (w : Write) (s : State) : State :=
  { s with port := { s.port with path := s.port.path ++ [w] } }

/-- A write of data bytes. -/
def dataWrite (addr : Addr) (bytes : List Byte) : Write where
  addr := addr
  bytes := bytes
  tag := .data
  awaited := false

/-- Capture record i of a page lies at +32 + 16 × i (Table 12-4). -/
def recordAddr (page : Addr) (index : Nat) : Addr :=
  pageOffset page (32 + 16 * index)

/-- The record write of the journal (R143), checked against the windows (R139, R174). A page that passed the check at its
header read passes it here, so the fault is met in no session (R139, log 30). -/
def issueRecord (s : State) : State :=
  match s.journal.page, s.journal.fifo with
  | some (addr, index), r :: _ =>
    if windowOk s .journal (recordAddr addr index) 16 then
      afterRecord addr index (issueWrite (dataWrite (recordAddr addr index) r.bytes) s)
    else journalFault .window (some addr) s
  | _, _ => s

/-- The command in progress waits for this status record to be issued (R24, R25, R151). -/
def awaitsStatus (s : State) (it : StatusItem) : Bool :=
  s.engine.await = .toIssue &&
    match s.engine.command with
    | some (.laneStop n) => it = .laneStatus n
    | some (.laneRestart n) => it = .laneStatus n
    | some .journalRestart => it = .journalStatus
    | _ => false

/-- A status record is written whole with the values held now; a command that waits for it waits for its completion from
now on (R27, R133, R152). -/
def issueStatusRecord (it : StatusItem) (offset : Nat) (bytes : List Byte) (s : State) : State :=
  let awaited := awaitsStatus s it
  let s := if awaited then { s with engine := { s.engine with await := .inPath } } else s
  issueWrite { dataWrite (exbOffset s offset) bytes with awaited := awaited } s

/-- A lane status record, and the EXCEPTION postings that waited for it (R16, R19, R27). An owed posting follows the next
write of the record, also where the lane has left FAULTED or ENDED by then (the model's choice: log 41). -/
def issueLaneStatus (n : LaneNo) (s : State) : State :=
  let owed := (s.lane n).exceptions
  let s := issueStatusRecord (.laneStatus n) (laneStatusOffset n) ((s.lane n).statusBytes s.time.schedule) s
  State.each owed (fun e => post (exceptionSlot n) (.exception e)) (s.setLane n { s.lane n with exceptions := [] })

/-- The journal status record, and the JOURNAL_TROUBLE postings that waited for it (R148, R152). A fault's posting follows the
next write of the record, also where the journal has left FAULTED by then (the model's choice: log 37). -/
def issueJournalStatus (s : State) : State :=
  let owed := s.journal.troubles
  let s := issueStatusRecord .journalStatus journalStatusOffset (s.journal.statusBytes s.time.schedule) s
  State.each owed (fun c s => post troubleSlot (.journalTrouble s.journal.sessionLoss c) s)
    (s.setJournal { s.journal with troubles := [] })

/-- A generator status record, and the TG postings that waited for it (R132, R133), also those of a state that the generator
has left by then (the model's choice: log 41). -/
def issueGenStatus (g : GenNo) (s : State) : State :=
  let owed := (s.gen g).posts
  let s := issueStatusRecord (.genStatus g) (genStatusOffset g) ((s.gen g).statusBytes s.time.schedule) s
  State.each owed (fun p => post (genSlot g) (.generator p.1 p.2)) (s.setGen g { s.gen g with posts := [] })

/-- The second write of a pair joins the list at a free place that R49, R144 or R159 allows (log 10). -/
def handOwner (must : StatusItem → Bool) (it : StatusItem) (s : State) : State :=
  if s.handed.isEmpty then { s with handed := [it] }
  else
    let (k, s) := s.drawBelow (s.handed.length + 1)
    { s with handed := handSecond must it k s.handed }

/-- What must stay behind the owner write of a page of lane n: the lane's next retirement and its status record (R27,
R49). -/
def behindRetirement (n : LaneNo) (it : StatusItem) : Bool :=
  it = .retireSummary n || it = .laneStatus n

/-- The summary write of the lane's oldest page, which is RETIRING (R49). -/
def issueRetireSummary (n : LaneNo) (s : State) : State :=
  match (s.lane n).pages with
  | [] => s
  | p :: _ =>
    match p.retiring with
    | none => s
    | some (code, time) =>
      handOwner (behindRetirement n) (.retireOwner n)
        (issueWrite (dataWrite (pageOffset p.addr 16) (p.summaryBytes code time)) s)

/-- The lane after the owner write of its oldest page has been issued (R49, R35). -/
def Lane.pageRetired (l : Lane) (p : PageEntry) : Lane :=
  { l with pages := l.pages.tail, pagesRetired := l.pagesRetired + 1, lastTag := p.tag }

/-- A header read that waited for room in the page list is now due (R35). -/
def presentWaitingHeader (n : LaneNo) (s : State) : State :=
  if (s.lane n).walking && (s.lane n).step = .header then presentHeader n s else s

/-- The owner write of the lane's oldest page (R49). -/
def issueRetireOwner (n : LaneNo) (s : State) : State :=
  match (s.lane n).pages with
  | [] => s
  | p :: _ =>
    let s := issueWrite (dataWrite p.addr ownerDoneBytes) s
    let s := s.setLane n ((s.lane n).pageRetired p)
    presentWaitingHeader n (if p.notifyRetire then postProgress n s else s)

/-- The summary write of the oldest page that closed (R144). -/
def issueCloseSummary (s : State) : State :=
  match s.journal.closing with
  | [] => s
  | c :: _ =>
    handOwner (fun it => it = .closeSummary) .closeOwner
      (issueWrite (dataWrite (pageOffset c.addr 16) c.summaryBytes) s)

/-- The journal after the owner write of a page that closed has been issued (R144). -/
def Journal.ownerIssued (j : Journal) (c : Closing) : Journal :=
  { j with
    closing := j.closing.tail
    pagesClosed := j.pagesClosed + 1
    linkPage := if c.follow then some c.addr else j.linkPage
    readyPost := if c.follow then .details else j.readyPost }

/-- The owner write of the oldest page that closed, and JOURNAL_READY (R144). -/
def issueCloseOwner (s : State) : State :=
  match s.journal.closing with
  | [] => s
  | c :: _ =>
    let s := issueWrite (dataWrite c.addr ownerDoneBytes) s
    post readySlot (.journalReady c.addr c.count) (s.setJournal (s.journal.ownerIssued c))

/-- A posting that something waits for, after a details write of its slot has been issued. -/
def PostPhase.afterDetails : PostPhase → PostPhase
  | .idle => .idle
  | .details => .count
  | .count => .count
  | .issued => .issued

/-- The waiters of slots 8 and 15 note that a details write has been issued (R63, R144). -/
def noteDetails (k : SlotNo) (s : State) : State :=
  if k = readySlot then s.setJournal { s.journal with readyPost := s.journal.readyPost.afterDetails }
  else if k = alignmentSlot then { s with engine := { s.engine with alignPost := s.engine.alignPost.afterDetails } }
  else s

/-- The details write of a slot (R159 step 1). -/
def issueNoticeDetails (k : SlotNo) (s : State) : State :=
  let x := s.slot k
  let s := issueWrite
    { dataWrite (exbOffset s (noticeSlotOffset k + 4)) (detailsBytes s x.details) with tag := .notice } s
  let s := s.setSlot k { x with writeDue := false }
  let s := { s with
    notice := { s.notice with
      issueQueue := s.notice.issueQueue.filter fun q => q ≠ k
      inProgress := some (k, x.sequence) } }
  handOwner StatusItem.isNotice (.noticeCount k) (noteDetails k s)

/-- The waiters of slots 8 and 15 go on when the count write has been issued (R63, R144, log 14). -/
def noteCount (k : SlotNo) (s : State) : State :=
  if k = readySlot && s.journal.readyPost = .count then followLink s
  else if k = alignmentSlot && s.engine.alignPost = .count then
    { s with engine := { s.engine with alignPost := .issued } }
  else s

/-- A count write issued between START's notice step and the table's writes changes no posted count (R157). -/
def countTag (s : State) (k : SlotNo) (c : Count24) : WriteTag :=
  if s.engine.command = some (.start .writing) then .notice else .noticeCount k c

/-- The count write of the slot in progress (R159 step 2). -/
def issueNoticeCount (k : SlotNo) (s : State) : State :=
  match s.notice.inProgress with
  | none => s
  | some (q, c) =>
    if q = k then
      let s := issueWrite
        { dataWrite (exbOffset s (noticeSlotOffset k)) (countBytes c) with tag := countTag s k c } s
      let s := { s with notice := { s.notice with inProgress := none } }
      handNotice (noteCount k s)
    else s

/-- The write at the head of the status writer's list is issued; it has left the list. -/
def issueStatus (it : StatusItem) (s : State) : State :=
  match it with
  | .laneStatus n => issueLaneStatus n s
  | .journalStatus => issueJournalStatus s
  | .genStatus g => issueGenStatus g s
  | .retireSummary n => issueRetireSummary n s
  | .retireOwner n => issueRetireOwner n s
  | .closeSummary => issueCloseSummary s
  | .closeOwner => issueCloseOwner s
  | .noticeDetails k => issueNoticeDetails k s
  | .noticeCount k => issueNoticeCount k s

/-- The bytes and place of a write of the command engine (R157, R192). -/
def engineWriteOf (s : State) : EngineWrite → Write
  | .partStatus o =>
    dataWrite (exbOffset s partStatusOffset) (partStatusBytes o s.engine.session s.time.schedule)
  | .clearSlot k => dataWrite (exbOffset s (noticeSlotOffset k)) (zeros 32)

/-- A slot at START's notice step (R157): its class from the mask, no posting, counts 0. -/
def Slot.atStart (x : Slot) (secondary : Bool) : Slot :=
  { x with sequence := 0, posted := 0, acknowledged := 0, secondary := secondary, writeDue := false }

/-- A write of the path at START's notice step: a count write changes no posted count afterwards (R157 step 3). -/
def Write.countDropped (w : Write) : Write :=
  match w.tag with
  | .data => w
  | .notice => w
  | .noticeCount _ _ => { w with tag := .notice }

/-- A details write handed to the status writer. -/
def StatusItem.isDetails : StatusItem → Bool
  | .noticeDetails _ => true
  | _ => false

/-- START's notice step, at the issue of the part status record (R157, R188 step 2): the classes and the gather interval take
the loaded values, the counts become 0, what is not issued is dropped, and the engine will present the sixteen slots after
a count write in progress (log 19). -/
def noticeStep (s : State) : State :=
  let mask := s.notice.loadedMask
  let s := State.each allSlots (fun k s => s.setSlot k ((s.slot k).atStart (mask.getLsbD k.val))) s
  { s with
    notice := { s.notice with issueQueue := [], gather := .idle, gatherInterval := s.notice.loadedInterval }
    handed := s.handed.filter fun it => !it.isDetails
    port := { s.port with path := s.port.path.map Write.countDropped }
    engine := { s.engine with command := some (.start .writing), writes := allSlots.map EngineWrite.clearSlot } }

/-- A write of the command engine is issued. The one that START presents first is the part status record with session state
OPEN; its notice step follows the issue of it (R188 step 2). -/
def issueEngineWrite (w : EngineWrite) (s : State) : State :=
  let s := issueWrite (engineWriteOf s w) s
  let s := { s with engine := { s.engine with writes := s.engine.writes.tail } }
  if s.engine.command = some (.start .opening) then noticeStep s else s

/-- An access is issued at the moment it is served (R170). -/
def issueAccess (a : Access) (s : State) : State :=
  match a with
  | .fetch n r => issueFetch n r s
  | .journalRead r => issueJournalRead r s
  | .record => issueRecord s
  | .status it => issueStatus it { s with handed := s.handed.tail }
  | .engineRead r => issueEngineRead r s
  | .engineWrite w => issueEngineWrite w s

/-- One service of the arbiter (R170). -/
def serve (s : State) : State :=
  match nextServed s with
  | none => s
  | some (r, a) => issueAccess a { s with port := { s.port with last := r } }

/-! ## Answers to reads (R175) -/

/-- The requester of a read left to the memory system. -/
def LeftRead.requester : LeftRead → Requester
  | .fetcher n _ => .fetcher n
  | .journal _ => .journal
  | .engine _ => .engine

/-- The port with one left read answered. -/
def dropLeftRead (x : LeftRead) (s : State) : State :=
  { s with port := { s.port with leftReads := s.port.leftReads.erase x } }

/-- An answer for a requester: while a read of it is left from before a reset, the answer is that read's and is ignored
(R168, R177, log 8); else it is for the read in flight. -/
def answered (r : Requester) (fits : LeftRead → Bool) (current : State) (s : State) : State :=
  match s.port.leftReads.find? fun x => x.requester = r with
  | some x => if fits x then dropLeftRead x s else s
  | none => current

/-- A flight that this answer can be for: sent to memory, of a kind the answer fits. -/
def Flight.answers {κ : Type} (f : Flight κ) (fits : κ → Bool) : Bool :=
  fits f.kind && f.behind = 0

/-- Lane n's flight is answered. -/
def clearFetch (n : LaneNo) (s : State) : State :=
  s.setLane n { s.lane n with flight := none }

/-- A fetcher's read is answered: discarded, or acted on (R32, R175). -/
def fetchAnswer (n : LaneNo) (fits : FetchRead → Bool) (act : FetchRead → State → State) (s : State) : State :=
  answered (.fetcher n) (fun x => match x with
      | .fetcher _ r => fits r
      | _ => false)
    (match (s.lane n).flight with
      | none => s
      | some f =>
        if f.answers fits then
          if f.discard then clearFetch n s else act f.kind (clearFetch n s)
        else s)
    s

/-- The journal's flight is answered. -/
def clearJournalFlight (s : State) : State :=
  s.setJournal { s.journal with flight := none }

/-- A journal read is answered: discarded, or acted on (R139, R175). -/
def journalAnswer (fits : JournalRead → Bool) (act : JournalRead → State → State) (s : State) : State :=
  answered .journal (fun x => match x with
      | .journal r => fits r
      | _ => false)
    (match s.journal.flight with
      | none => s
      | some f =>
        if f.answers fits then
          if f.discard then clearJournalFlight s else act f.kind (clearJournalFlight s)
        else s)
    s

/-- A read of the command engine is answered (R175). -/
def engineAnswer (kind : EngineRead) (act : State → State) (s : State) : State :=
  answered .engine (fun x => x = .engine kind)
    (match s.engine.flight with
      | none => s
      | some f =>
        if f.answers (fun r => r = kind) then
          let s := { s with engine := { s.engine with flight := none } }
          if f.discard then s else act s
        else s)
    s

/-! ## Answers to writes (R171, R159, R162, R176) -/

/-- A read held behind writes, after one write has completed (R172). -/
def Flight.advance {κ : Type} (f : Flight κ) : Flight κ :=
  { f with behind := f.behind - 1 }

/-- Every held read is one write nearer its sending. -/
def advanceFlights (s : State) : State :=
  let s := State.each allLanes
    (fun n s => s.setLane n { s.lane n with flight := (s.lane n).flight.map Flight.advance }) s
  let s := s.setJournal { s.journal with flight := s.journal.flight.map Flight.advance }
  { s with engine := { s.engine with flight := s.engine.flight.map Flight.advance } }

/-- The gather state after a count write of a slot of this class has completed (R162). -/
def gatherAfterCount (secondary : Bool) (interval : Half) (elapsed : Ticks) (g : Gather) : Gather :=
  if !secondary then .opened
  else
    match g with
    | .idle =>
      if interval = 0 then .opened
      else .running (Ticks.after elapsed (Config.ticksPerUnit * interval.toNat))
    | .running e => .running e
    | .opened => .opened

/-- A count write has completed: the slot's posted count becomes the count it carries (R159). -/
def countCompleted (k : SlotNo) (c : Count24) (s : State) : State :=
  let x := s.slot k
  let s := s.setSlot k { x with posted := c }
  { s with
    notice := { s.notice with
      gather := gatherAfterCount x.secondary s.notice.gatherInterval s.time.elapsed s.notice.gather } }

/-- What a completed write brings beside its bytes. -/
def afterWrite (w : Write) (s : State) : State :=
  let s := if w.awaited then { s with engine := { s.engine with await := .completed } } else s
  match w.tag with
  | .data => s
  | .notice => s
  | .noticeCount k c => countCompleted k c s

/-- Memory completes a write: one left from before a reset, with no effect on the part (R168, log 8), else the oldest of
the ordered path (R171). -/
def completeWrite (s : State) : State :=
  match s.port.leftWrites with
  | w :: rest => performWrite w { s with port := { s.port with leftWrites := rest } }
  | [] =>
    match s.port.path with
    | [] => s
    | w :: rest => afterWrite w (advanceFlights (performWrite w { s with port := { s.port with path := rest } }))

/-- A write met a bus error: whether its bytes reached memory is a free value (R176, log 7). -/
def failWrite (w : Write) (s : State) : State :=
  let landed := Config.failedWriteLands s.choices
  let s := { s with choices := s.choices + 1 }
  if landed then performWrite w s else s

/-- A fetcher's read that memory will still answer. -/
def fetchLeft (s : State) (n : LaneNo) : List LeftRead :=
  match (s.lane n).flight with
  | none => []
  | some f => if f.behind = 0 then [.fetcher n f.kind] else []

/-- A journal read that memory will still answer. -/
def journalLeft (s : State) : List LeftRead :=
  match s.journal.flight with
  | none => []
  | some f => if f.behind = 0 then [.journal f.kind] else []

/-- A read of the command engine that memory will still answer. -/
def engineLeft (s : State) : List LeftRead :=
  match s.engine.flight with
  | none => []
  | some f => if f.behind = 0 then [.engine f.kind] else []

/-- The reads whose answers are ignored from now on: those left before and those in flight; held reads are dropped
(R168, R176, R177). -/
def readsLeft (s : State) : List LeftRead :=
  s.port.leftReads ++ fetchLeft s 0 ++ fetchLeft s 1 ++ fetchLeft s 2 ++ fetchLeft s 3 ++ journalLeft s ++ engineLeft s

/-! ## The entry to FAILED (R177, Table 10-3) -/

/-- A lane in FAILED: it ceases with state, counts, queue and page list kept; its fetcher is stopped (R29, R30). -/
def Lane.failed (l : Lane) : Lane :=
  { l with wait := .none, running := false, stall := .none, request := none, flight := none, reserved := 0 }

/-- The journal in FAILED (R145, R154). -/
def Journal.failed (j : Journal) : Journal :=
  { j with flushTimer := none, request := none, flight := none }

/-- The command engine in FAILED: the command in progress ends without completing (R177, R184). -/
def Engine.failed (e : Engine) : Engine :=
  { e with command := none, request := none, flight := none, writes := [], await := .none, alignPost := .idle }

/-- The memory port in FAILED (R176, R177). -/
def Port.failed (p : Port) (left : List LeftRead) : Port :=
  { p with path := [], live := false, leftReads := left }

/-- The part enters FAILED: every block ceases (Table 10-3). -/
def enterFailed (s : State) : State :=
  let left := readsLeft s
  let s := State.each allLines takeFaultAction s
  let s := State.each allLanes (fun n s => s.setLane n (s.lane n).failed) s
  { s with
    part := .failed
    journal := s.journal.failed
    engine := s.engine.failed
    port := s.port.failed left
    inputsLive := false
    sync := { s.sync with live := false }
    survey := { s.survey with expiry := none } }

/-- Memory answers a write with a bus error: one left from before a reset has no effect on the part, else the part
enters FAILED (R168, R176). -/
def errorWrite (s : State) : State :=
  match s.port.leftWrites with
  | w :: rest => failWrite w { s with port := { s.port with leftWrites := rest } }
  | [] =>
    match s.port.path with
    | [] => s
    | w :: _ => enterFailed (failWrite w s)

end Sys2Proof.Machine
end

