-- ==== Sys2Proof/Machine/Commands.lean ====
section
/-!
DEFINITION. How a write to COMMAND is judged (R183), what CMD_STATUS shows (R184), how a time-taking command begins and
completes (R185), and UNDEFINED_COMMAND.
-/

namespace Sys2Proof.Machine

/-- The engine with new last fields (R184). -/
def Engine.showLast (e : Engine) (code operand : Byte) (outcome : CmdOutcome) : Engine :=
  { e with lastCode := code, lastOperand := operand, lastOutcome := outcome }

/-- The last code, operand and outcome of CMD_STATUS (R184). -/
def setLast (code operand : Byte) (outcome : CmdOutcome) (s : State) : State :=
  { s with engine := s.engine.showLast code operand outcome }

/-- A time-taking command is in progress, or the part is STARTING or STOPPING (R183). -/
def engineBusy (s : State) : Bool :=
  s.engine.command.isSome || s.part = .starting || s.part = .stopping

/-- The refusal of a command other than NONE by the first case of R183 that holds, or none where it is taken. `known` says
that the code names a command and a lane operand is at most 3, `ready` that Table 11-3 takes the command now. -/
def refusal (s : State) (known ready : Bool) : Option CmdOutcome :=
  if s.part = .failed then some .refusedState
  else if engineBusy s then some .refusedBusy
  else if !known then some .badOperand
  else if !ready then some .refusedState
  else none

/-- A command written to COMMAND: refused, which changes the last fields and nothing else, or taken (R183, R184).
`shown` is the operand CMD_STATUS shows. -/
def writeCommand (code shown : Byte) (known ready : Bool) (taken : State) (s : State) : Out :=
  unlessHeld s
    (match refusal s known ready with
      | some o => setLast code shown o s
      | none => taken)

/-- A taken immediate command: it has acted, and its outcome is DONE (R184). -/
def writeImmediate (code shown : Byte) (ready : Bool) (acted : State) (s : State) : Out :=
  writeCommand code shown true ready (setLast code shown .done acted) s

/-- A command whose operand is a lane number (R183). -/
def writeLaneCommand (code operand : Byte) (taken : LaneNo → Out) (s : State) : Out :=
  if h : operand.toNat < 4 then taken ⟨operand.toNat, h⟩ else writeCommand code operand false false s s

/-- A time-taking command becomes the command in progress (R183). -/
def beginCommand (c : Command) (s : State) : State :=
  { s with engine := { s.engine with command := some c, await := .none, alignPost := .idle } }

/-- The command engine presents a read (R169). -/
def presentEngine (r : EngineRead) (s : State) : State :=
  { s with engine := { s.engine with request := some r } }

/-- The engine with no command in progress. -/
def Engine.finished (e : Engine) : Engine :=
  { e with command := none, await := .none, alignPost := .idle }

/-- The command in progress completes with an outcome: busy clears, the last fields show it and COMMAND is posted (R184,
R185). -/
def completeCommand (o : CmdOutcome) (s : State) : State :=
  match s.engine.command with
  | none => s
  | some c =>
    post commandSlot (.command c.code c.operand o)
      { s with engine := s.engine.finished.showLast c.code c.operand o }

/-- The command whose status write has completed, if any waits for one (R24, R25, R151). -/
def statusWriteDone (s : State) : Bool :=
  s.engine.await = .completed

/-- The command a 32-bit write to COMMAND carries: code in bits 7 to 0, operand in bits 15 to 8, the rest ignored (R179,
Tables 12-9 and 12-10). -/
def commandOfWord (w : Word) : Instr :=
  let code : Byte := w.extractLsb' 0 8
  let operand : Byte := w.extractLsb' 8 8
  match code.toNat with
  | 1 => .start operand
  | 2 => .stop operand
  | 3 => .laneStop operand
  | 4 => .laneRestart operand
  | 5 => .journalRestart operand
  | 6 => .armAlign operand
  | 7 => .alignNow operand
  | 8 => .resurvey operand
  | 9 => .laneHold operand
  | 10 => .laneResume operand
  | 11 => .journalFlush operand
  | 12 => .disarmAlign operand
  | _ => .undefinedCommand code operand

/-- The row that a 32-bit write to one of the eight registers is (R179, Table 11-2). -/
def rowOfWrite (r : Register) (w : Word) : Instr :=
  match r with
  | .ident => .registerWrite .ident w
  | .control => .controlWrite w
  | .exbLo => .registerWrite .exbLo w
  | .exbHi => .registerWrite .exbHi w
  | .command => commandOfWord w
  | .cmdStatus => .registerWrite .cmdStatus w
  | .partState => .registerWrite .partState w
  | .noticeAck => .noticeAck w

/-- A COMMAND write whose code names no command is refused with BAD_OPERAND where no earlier case holds, and code NONE is
ignored (R183). Its operand is not a lane's, so CMD_STATUS shows 0 (R184, log 27). -/
def execUndefinedCommand (code _operand : Byte) (s : State) : Out :=
  if code = codeNone then .next s else writeCommand code 0#8 false false s s

end Sys2Proof.Machine
end

