-- ==== Sys2Proof/Machine/Session.lean ====
section
/-!
DEFINITION. START and STOP with their further steps (R186 to R192 and each block's side of them).
-/

namespace Sys2Proof.Machine

/-! ## START: reading and validating (R186, R187, R189) -/

/-- The engine at the taking of START: nothing has been read. -/
def Engine.readingConfiguration (e : Engine) : Engine :=
  { e with image := { bytes := 0, seen := 0 }, request := some .configuration }

/-- START is taken: the part enters STARTING and the first configuration read is presented (R186). -/
def takeStart (s : State) : State :=
  let s := beginCommand (.start .first) { s with part := .starting }
  { s with engine := s.engine.readingConfiguration }

/-- START (R183, R186). -/
def execStart (_operand : Byte) (s : State) : Out :=
  writeCommand codeStart 0#8 true (s.part = .config) (takeStart s) s

/-- START ends without completing: the part is in CONFIG, CMD_STATUS shows the outcome, nothing is posted (R184, R189). -/
def endStart (o : CmdOutcome) (s : State) : State :=
  { s with part := .config, engine := s.engine.finished.showLast codeStart 0#8 o }

/-- START reads on (R186). -/
def readOn (s : State) : State :=
  presentEngine .configuration (beginCommand (.start .reading) s)

/-- A lane's configuration copy takes the loaded values (R2, R188). -/
def loadLane (im : ConfigImage) (n : LaneNo) (s : State) : State :=
  s.setLane n { s.lane n with config := im.lane n }

/-- An output line's configuration fields take the loaded values (R70, R188). -/
def loadLine (im : ConfigImage) (k : LineNo) (s : State) : State :=
  match im.out? k with
  | none => s
  | some x =>
    s.setLine k
      { s.line k with
        driveEnable := x.driveEnable
        rest := x.rest
        faultAction := x.faultAction
        preassigned := x.preassigned }

/-- An input line's configuration fields take the loaded values (R107, R188). -/
def loadInput (im : ConfigImage) (k : LineNo) (s : State) : State :=
  match im.edgeSelect? k with
  | none => s
  | some e =>
    s.setInput k
      { s.input k with edgeSelect := e, captureEnable := im.captureEnable k, deadTime := im.deadTime k }

/-- A generator's source fields take the loaded values (R120, R188). -/
def loadGen (im : ConfigImage) (g : GenNo) (s : State) : State :=
  match im.gen? g with
  | none => s
  | some (k, e) => s.setGen g { s.gen g with source := k, select := e }

/-- The configuration step of START (R188 step 1); the class mask and the gather interval are loaded here and come into force
at the notice step (R157). -/
def loadConfiguration (im : ConfigImage) (s : State) : State :=
  let s := State.each allLanes (loadLane im) s
  let s := State.each allLines (loadLine im) s
  let s := State.each allLines (loadInput im) s
  let s := State.each allGens (loadGen im) s
  { s with
    journal := { s.journal with head := im.journalHead, flushInterval := im.flushInterval }
    sync := { s.sync with select := im.syncSelect?.getD none, report := im.timeMarkReport }
    port := { s.port with windows := #v[im.window 0, im.window 1, im.window 2, im.window 3] }
    survey := { s.survey with interval := im.surveyInterval }
    notice := { s.notice with loadedMask := im.classMask, loadedInterval := im.gatherInterval }
    engine := { s.engine with session := s.engine.session + 1 } }

/-- The engine is to present the part status record with session state OPEN (R188 step 2). -/
def openSession (s : State) : State :=
  let s := beginCommand (.start .opening) s
  { s with engine := { s.engine with writes := [.partStatus true] } }

/-- The last configuration read has completed: validation, and where it passes the configuration step and the beginning of the
status and notice step (R187, R188). -/
def validateConfiguration (im : ConfigImage) (s : State) : State :=
  if im.valid then openSession (loadConfiguration im s) else endStart .badConfig s

/-- What START holds of the configuration part after a read. -/
def storeImage (im : ConfigImage) (s : State) : State :=
  { s with engine := { s.engine with image := im } }

/-- START goes on after a read: it validates once every field has been read, else it reads on (R186, R187). -/
def afterConfigurationRead (im : ConfigImage) (s : State) : State :=
  if im.complete then validateConfiguration im (storeImage im s) else readOn (storeImage im s)

/-- A configuration read has completed (R186). The first read covers the magic and version fields; bytes that do not cover
them answer no first read and change nothing (log 4). -/
def configurationRead (offset : Nat) (bytes : List Byte) (before s : State) : State :=
  let im := s.engine.image.putAll offset bytes
  match s.engine.command with
  | some (.start .first) =>
    if !im.headRead then before
    else if !im.exchangeOk then endStart .badExchange s
    else afterConfigurationRead im s
  | some (.start .reading) => afterConfigurationRead im s
  | _ => before

/-- START_READ_DONE (R186, R187, log 9). An answer outside the configuration part is none of a configuration read. -/
def execStartReadDone (offset : Nat) (bytes : List Byte) (s : State) : Out :=
  .next
    (if 0 < bytes.length && offset + bytes.length ≤ 0x300 then
      engineAnswer .configuration (configurationRead offset bytes s) s
    else s)

/-- A configuration read met a bus error: START ends (R189); without START in progress the answer is to none of its reads
(log 4). -/
def configurationErrored (before s : State) : State :=
  match s.engine.command with
  | some (.start _) => endStart .busError s
  | _ => before

/-- START_READ_ERROR: START ends with BUS_ERROR (R189). -/
def execStartReadError (s : State) : Out :=
  .next (engineAnswer .configuration (configurationErrored s) s)

/-! ## START: its last steps (R188 steps 3 to 6) -/

/-- The last write of the status and notice step has been issued. -/
def startWritten (s : State) : Bool :=
  s.part = .starting && s.engine.command = some (.start .writing) && s.engine.writes.isEmpty

/-- The owner of a line at START's line step: its pre-assigned lane, if that lane is enabled (R71, R88). -/
def startOwner (s : State) (x : OutLine) : Option LaneNo :=
  x.preassigned.filter fun n => (s.lane n).config.enable

/-- A line at START's line step (R71). -/
def driveLine (k : LineNo) (s : State) : State :=
  let x := s.line k
  if x.driveEnable then
    s.setLine k { x with mode := .static x.rest, owner := startOwner s x, waiters := [] }
  else s

/-- An input line at START's input step (R107). -/
def clearDeadTime (k : LineNo) (s : State) : State :=
  s.setInput k { s.input k with deadRunning := false, deadEnd := 0 }

/-- A generator at START's input step; its status record is marked stale (R120). -/
def startGen (g : GenNo) (s : State) : State :=
  markStale (.genStatus g) (s.setGen g (s.gen g).atStart)

/-- START's input step (R58, R60, R107, R120). -/
def inputStep (s : State) : State :=
  let s := State.each allLines clearDeadTime s
  let s := State.each allGens startGen s
  { s with
    inputsLive := true
    sync := { s.sync with live := true }
    time := { s.time with armed := false, armValue := 0 } }

/-- The values with which a lane starts, by START or by LANE_RESTART (R2, R25): its counts, serial and tag 0, no fault, and
its anchor at the start. -/
def Lane.started (l : Lane) (anchor : Ticks) : Lane :=
  { l with
    executed := 0
    lateRuns := 0
    skipped := 0
    discarded := 0
    pagesRetired := 0
    serial := 0
    lastTag := 0
    lastNotified := 0
    fault := .none
    holdRequest := false
    anchor := anchor
    wait := .none
    state := .starved }

/-- A lane that START leaves OFF: the values of R1 with the loaded configuration; a read whose answer is still to be
discarded stays in flight (R2, R169). -/
def Lane.leftOff (l : Lane) : Lane :=
  { Lane.reset with config := l.config, flight := l.flight.map Flight.discarded, exceptions := l.exceptions }

/-- A lane at START's lane step; its status record is marked stale (R2, R31). -/
def startLane (n : LaneNo) (s : State) : State :=
  let l := s.lane n
  if l.config.enable then startFetcher n (markLane n (s.setLane n (l.started s.time.schedule)))
  else markLane n (s.setLane n l.leftOff)

/-- The survey timer starts if its interval is above 0 (R45). -/
def startSurvey (s : State) : State :=
  if s.survey.interval = 0 then s
  else
    { s with
      survey := { s.survey with
        expiry := some (Ticks.after s.time.elapsed (Config.ticksPerUnit * s.survey.interval.toNat)) } }

/-- START's line, input, and lane and journal steps and its completion, all at one tick (R188 steps 3 to 6). -/
def activate (s : State) : State :=
  let s := inputStep (State.each allLines driveLine s)
  let s := startSurvey (startJournal (State.each allLanes startLane s))
  completeCommand .done { s with part := .active }

/-- START_ACTIVATE (R188). -/
def execStartActivate (s : State) : Out :=
  whenEvent s (startWritten s) (activate s)

/-! ## STOP (R190) -/

/-- A generator ceases: the derived edges of its phase are abandoned, its state and fields are kept (R134). -/
def ceaseGen (g : GenNo) (s : State) : State :=
  s.setGen g { s.gen g with nextIndex := (s.gen g).phaseMultiplier }

/-- STOP's quiet step (R45, R58, R60, R116, R134). -/
def quietStep (s : State) : State :=
  let s := State.each allGens ceaseGen s
  { s with
    inputsLive := false
    sync := { s.sync with live := false }
    time := { s.time with armed := false }
    survey := { s.survey with expiry := none } }

/-- STOP is taken: the quiet step, the lane step and the start of the drain, at one tick (R190 steps 1 to 3). The four lane
stops are one whole, so that no claim timeout of that tick expires between them (the model's choice for R103: log 23). -/
def takeStop (s : State) : State :=
  let s := quietStep (beginCommand (.stop false) { s with part := .stopping })
  beginDrain (State.each allLanes stopLane s)

/-- STOP (R183, R190). -/
def execStop (_operand : Byte) (s : State) : Out :=
  writeCommand codeStop 0#8 true (s.part = .active) (takeStop s) s

/-- A retirement write or lane status write of STOP's lane step. -/
def StatusItem.ofLane : StatusItem → Bool
  | .laneStatus _ => true
  | .retireSummary _ => true
  | .retireOwner _ => true
  | _ => false

/-- The drain has ended and every retirement and lane status write has been issued (R190 step 4). The close writes of the
drain's last page need not have been issued (the model's choice: log 47). -/
def stopDrained (s : State) : Bool :=
  s.engine.command = some (.stop false) && !s.journal.draining && !s.handed.any StatusItem.ofLane

/-- STOP's status step (R190 step 4). -/
def statusStep (s : State) : State :=
  let s := State.each allGens (fun g => markStale (.genStatus g)) (markJournal s)
  { s with engine := { s.engine with command := some (.stop true), writes := [.partStatus false] } }

/-- STOP_STATUS_STEP (R190). -/
def execStopStatusStep (s : State) : Out :=
  whenEvent s (stopDrained s) (statusStep s)

/-- A write of STOP's steps 2 to 4: any but a notice write (R190 step 5, R191). -/
def Write.ofStop (w : Write) : Bool :=
  w.tag = .data

/-- Every write of STOP has been issued and has completed (R190 step 5). -/
def stopWritten (s : State) : Bool :=
  s.engine.command = some (.stop true) && s.engine.writes.isEmpty && s.handed.all StatusItem.isNotice
    && !s.port.path.any Write.ofStop

/-- A line at STOP's float step (R87, R88). -/
def floatLine (k : LineNo) (s : State) : State :=
  s.setLine k { s.line k with mode := .float, owner := none, waiters := [] }

/-- A generator at STOP's float step (R134). -/
def floatGen (g : GenNo) (s : State) : State :=
  s.setGen g (s.gen g).atFloat

/-- STOP's float step and completion (R190 steps 5 and 6). -/
def floatStep (s : State) : State :=
  let s := State.each allGens floatGen (State.each allLines floatLine s)
  completeCommand .done { s with part := .config }

/-- STOP_FLOAT_STEP (R190). -/
def execStopFloatStep (s : State) : Out :=
  whenEvent s (stopWritten s) (floatStep s)

end Sys2Proof.Machine
end

