-- ==== Sys2Proof/Machine/LaneCommands.lean ====
section
/-!
DEFINITION. The commands on one lane: LANE_STOP, LANE_RESTART, LANE_HOLD, LANE_RESUME (R21, R22, R24, R25).
-/

namespace Sys2Proof.Machine

/-- A lane number as an operand byte. -/
def laneByte (n : LaneNo) : Byte :=
  BitVec.ofNat 8 n.val

/-- The engine waits for a status write that is to be issued. -/
def awaitStatus (s : State) : State :=
  { s with engine := { s.engine with await := .toIssue } }

/-! ## LANE_STOP (R24) -/

/-- LANE_STOP is taken, in any lane state. -/
def takeLaneStop (n : LaneNo) (s : State) : State :=
  stopLane n (awaitStatus (beginCommand (.laneStop n) s))

/-- LANE_STOP (R24). -/
def execLaneStop (operand : Byte) (s : State) : Out :=
  writeLaneCommand codeLaneStop operand
    (fun n => writeCommand codeLaneStop (laneByte n) true (s.part = .active) (takeLaneStop n s) s) s

/-- LANE_STOP's status write has completed. -/
def laneStopWritten (s : State) : Bool :=
  match s.engine.command with
  | some (.laneStop _) => statusWriteDone s
  | _ => false

/-- LANE_STOP_COMPLETE (R24). -/
def execLaneStopComplete (s : State) : Out :=
  whenEvent s (laneStopWritten s) (completeCommand .done s)

/-! ## LANE_RESTART (R25) -/

/-- The lane states in which LANE_RESTART is taken. -/
def LaneState.closed : LaneState → Bool
  | .off => true
  | .faulted => true
  | .ended => true
  | .starved => false
  | .pending => false
  | .waitInput => false
  | .waitLine => false
  | .held => false

/-- LANE_RESTART is taken: the lane record is to be read after every retirement write of the lane. -/
def takeLaneRestart (n : LaneNo) (s : State) : State :=
  presentEngine .laneRecord (beginCommand (.laneRestart n) s)

/-- LANE_RESTART (R25). -/
def execLaneRestart (operand : Byte) (s : State) : Out :=
  writeLaneCommand codeLaneRestart operand
    (fun n =>
      writeCommand codeLaneRestart (laneByte n) true (s.part = .active && (s.lane n).state.closed)
        (takeLaneRestart n s) s) s

/-- The lane starts again with the record read: its lines are released, its configuration is loaded, and its fetcher
starts; lanes granted a line then run. -/
def restartLane (n : LaneNo) (config : LaneConfig) (s : State) : State :=
  let (s, granted) := releaseAndGrant (ownedLines s n) s
  let s := s.setLane n { (s.lane n).started s.time.schedule with config := config }
  let s := startFetcher n (markLane n (awaitStatus s))
  let (work, s) := inFreeOrder granted s
  runAll work s

/-- The lane record read of LANE_RESTART has completed. The lane is as it was at the taking, since no other command that could
start it is taken meanwhile (R183): a lane that is not closed awaits no such answer (log 4). -/
def laneRecordRead (data : BitVec 128) (before s : State) : State :=
  match s.engine.command with
  | some (.laneRestart n) => if (s.lane n).state.closed then restartLane n (laneConfigOf data 0) s else before
  | _ => before

/-- LANE_RESTART_READ_DONE (R25). -/
def execLaneRestartReadDone (data : BitVec 128) (s : State) : Out :=
  .next (engineAnswer .laneRecord (laneRecordRead data s) s)

/-- LANE_RESTART_READ_ERROR: the lane stays as it was (R25). -/
def execLaneRestartReadError (s : State) : Out :=
  .next (engineAnswer .laneRecord (completeCommand .busError) s)

/-- LANE_RESTART's status write has completed. -/
def laneRestartWritten (s : State) : Bool :=
  match s.engine.command with
  | some (.laneRestart _) => statusWriteDone s
  | _ => false

/-- LANE_RESTART_COMPLETE (R25). -/
def execLaneRestartComplete (s : State) : Out :=
  whenEvent s (laneRestartWritten s) (completeCommand .done s)

/-! ## LANE_HOLD and LANE_RESUME (R21, R22) -/

/-- LANE_HOLD by the lane's state (R21). -/
def holdLane (n : LaneNo) (s : State) : State :=
  match (s.lane n).state with
  | .starved => setLaneState n .held s
  | .pending => setLaneState n .held s
  | .waitInput => setHold n true s
  | .waitLine => setHold n true s
  | .held => s
  | .off => s
  | .faulted => s
  | .ended => s

/-- LANE_HOLD (R21). -/
def execLaneHold (operand : Byte) (s : State) : Out :=
  writeLaneCommand codeLaneHold operand
    (fun n =>
      writeImmediate codeLaneHold (laneByte n) (s.part = .active && !(s.lane n).state.closed) (holdLane n s) s) s

/-- A HELD lane resumes: it judges its current cue against the schedule time of the resume, or takes a new one (R22). -/
def resumeHeld (n : LaneNo) (s : State) : State :=
  let l := s.lane n
  match l.current with
  | some c => if reached s.time.schedule l.due then runAfter n (judgeCue n c s) else setLaneState n .pending s
  | none => runAfter n (takeNext n s)

/-- LANE_RESUME by the lane's state (R22). -/
def resumeLane (n : LaneNo) (s : State) : State :=
  if (s.lane n).state = .held then resumeHeld n s else setHold n false s

/-- LANE_RESUME is taken on a HELD lane or on one whose hold request is set (R22). -/
def resumable (s : State) (n : LaneNo) : Bool :=
  (s.lane n).state = .held || (s.lane n).holdRequest

/-- LANE_RESUME (R22). -/
def execLaneResume (operand : Byte) (s : State) : Out :=
  writeLaneCommand codeLaneResume operand
    (fun n =>
      writeImmediate codeLaneResume (laneByte n) (s.part = .active && resumable s n) (resumeLane n s) s) s

end Sys2Proof.Machine
end

