-- ==== Sys2Proof/Machine/JournalCommands.lean ====
section
/-!
DEFINITION. The commands on the journal and the surveyed places: JOURNAL_RESTART, JOURNAL_FLUSH, RESURVEY (R47, R146,
R151).
-/

namespace Sys2Proof.Machine

/-- The read that a failed JOURNAL_RESTART issues again: one presented or in flight that is not a stall re-read. -/
def Journal.resumable (j : Journal) : Option JournalRead :=
  if j.stall ≠ .none then none
  else
    match j.request with
    | some r => some r
    | none => (j.flight.filter fun f => !f.discard).map Flight.kind

/-- JOURNAL_RESTART is taken: the journal stops reading, its state, stall point and fault code are kept (R151). -/
def takeJournalRestart (s : State) : State :=
  let j := s.journal
  presentEngine .journalHead
    (beginCommand .journalRestart (s.setJournal { j.readsStopped with resume := j.resumable }))

/-- The journal states in which JOURNAL_RESTART is taken. -/
def journalRestartable (s : State) : Bool :=
  s.journal.state = .starved || s.journal.state = .faulted

/-- JOURNAL_RESTART (R151). -/
def execJournalRestart (_operand : Byte) (s : State) : Out :=
  writeCommand codeJournalRestart 0#8 true (s.part = .active && journalRestartable s) (takeJournalRestart s) s

/-- The journal as its restart completes, before its head address is judged: the chain it followed is abandoned. -/
def Journal.restarted (j : Journal) (head : Addr) : Journal :=
  { j with
    fault := .none
    faultAddr := none
    head := head
    linkPage := none
    nextAddr := 0
    step := .head
    resume := none
    readyPost := .idle
    closing := j.closing.map fun c => { c with follow := false } }

/-- The journal starts again at the head address read (R151). -/
def restartJournal (head : Addr) (s : State) : State :=
  let s := awaitStatus (s.setJournal (s.journal.restarted head))
  judgeJournalHead head (markJournal (setJournalState .starved s))

/-- JOURNAL_RESTART_READ_DONE (R151). -/
def execJournalRestartReadDone (data : BitVec 64) (s : State) : Out :=
  .next (engineAnswer .journalHead (restartJournal data) s)

/-- The journal goes on as it was: the read that the command stopped is presented again (R151). -/
def resumeJournal (s : State) : State :=
  let j := s.journal
  match j.resume with
  | none => s
  | some r => s.setJournal { j with request := some r, resume := none }

/-- JOURNAL_RESTART_READ_ERROR (R151). -/
def execJournalRestartReadError (s : State) : Out :=
  .next (engineAnswer .journalHead (fun s => completeCommand .busError (resumeJournal s)) s)

/-- JOURNAL_RESTART's status write has completed. -/
def journalRestartWritten (s : State) : Bool :=
  s.engine.command = some .journalRestart && statusWriteDone s

/-- JOURNAL_RESTART_COMPLETE (R151). -/
def execJournalRestartComplete (s : State) : Out :=
  whenEvent s (journalRestartWritten s) (completeCommand .done s)

/-- JOURNAL_FLUSH (R146). -/
def execJournalFlush (_operand : Byte) (s : State) : Out :=
  writeImmediate codeJournalFlush 0#8 (s.part = .active) (flushJournal s) s

/-- RESURVEY (R47). -/
def execResurvey (_operand : Byte) (s : State) : Out :=
  writeImmediate codeResurvey 0#8 (s.part = .active) (surveyAll s) s

end Sys2Proof.Machine
end

