-- ==== Sys2Proof/Machine/Alignment.lean ====
section
/-!
DEFINITION. Alignment: ARM_ALIGN, ALIGN_NOW, DISARM_ALIGN with their further steps, and SYNC_EVENT (R58 to R66).
-/

namespace Sys2Proof.Machine

/-- The alignment arm takes a flag (R60). -/
def setArmed (b : Bool) (s : State) : State :=
  { s with time := { s.time with armed := b } }

/-! ## ARM_ALIGN (R61) -/

/-- ARM_ALIGN is taken: the arm is disarmed and the align value is to be read. -/
def takeArmAlign (s : State) : State :=
  presentEngine .alignValue (beginCommand .armAlign (setArmed false s))

/-- ARM_ALIGN (R61). -/
def execArmAlign (_operand : Byte) (s : State) : Out :=
  writeCommand codeArmAlign 0#8 true (s.part = .active) (takeArmAlign s) s

/-- The arm becomes armed with the value read; the bytes above the time are reserved (R61, R195). -/
def armAt (v : Ticks) (s : State) : State :=
  { s with time := { s.time with armed := true, armValue := v } }

/-- ARM_ALIGN is the command in progress. -/
def arming (s : State) : Bool :=
  s.engine.command = some .armAlign

/-- ARM_ALIGN_READ_DONE (R61); the answer of another command's read is none of ARM_ALIGN's (log 4). -/
def execArmAlignReadDone (data : BitVec 64) (s : State) : Out :=
  .next (engineAnswer .alignValue
    (fun t => if arming t then completeCommand .done (armAt (timeOf data) t) else s) s)

/-- ARM_ALIGN_READ_ERROR: the arm stays disarmed (R61). -/
def execArmAlignReadError (s : State) : Out :=
  .next (engineAnswer .alignValue (fun t => if arming t then completeCommand .busError t else s) s)

/-! ## ALIGN_NOW (R63) -/

/-- ALIGN_NOW is taken: the align value is to be read, the arm is not touched. -/
def takeAlignNow (s : State) : State :=
  presentEngine .alignValue (beginCommand .alignNow s)

/-- ALIGN_NOW (R63). -/
def execAlignNow (_operand : Byte) (s : State) : Out :=
  writeCommand codeAlignNow 0#8 true (s.part = .active) (takeAlignNow s) s

/-- ALIGN_NOW is the command in progress. -/
def aligning (s : State) : Bool :=
  s.engine.command = some .alignNow

/-- The engine waits for the ALIGNMENT posting that is about to be taken. -/
def awaitAlignment (s : State) : State :=
  { s with engine := { s.engine with alignPost := .details } }

/-- ALIGN_NOW_READ_DONE: schedule time steps to the value read and ALIGNMENT is posted (R63, R64). -/
def execAlignNowReadDone (data : BitVec 64) (s : State) : Out :=
  .next (engineAnswer .alignValue
    (fun t => if aligning t then stepSchedule (timeOf data) (awaitAlignment t) else s) s)

/-- The ALIGNMENT posting of ALIGN_NOW has been issued. -/
def alignmentIssued (s : State) : Bool :=
  aligning s && s.engine.alignPost = .issued

/-- ALIGN_NOW_COMPLETE (R63). -/
def execAlignNowComplete (s : State) : Out :=
  whenEvent s (alignmentIssued s) (completeCommand .done s)

/-- ALIGN_NOW_READ_ERROR: no step and no ALIGNMENT (R63). -/
def execAlignNowReadError (s : State) : Out :=
  .next (engineAnswer .alignValue (fun t => if aligning t then completeCommand .busError t else s) s)

/-! ## DISARM_ALIGN (R62) -/

/-- DISARM_ALIGN (R62). -/
def execDisarmAlign (_operand : Byte) (s : State) : Out :=
  writeImmediate codeDisarmAlign 0#8 (s.part = .active) (setArmed false s) s

/-! ## SYNC_EVENT (R58, R59) -/

/-- TIME_MARK is posted while the report flag is set (R59 step 3). -/
def reportTimeMark (t : Ticks) (s : State) : State :=
  if s.sync.report then post timeMarkSlot (.timeMark t) s else s

/-- A SYNC event (R59): the record, the report, and where the arm was armed the step. -/
def syncEvent (s : State) : State :=
  let t := s.time.schedule
  let aligned := s.time.armed
  let s := reportTimeMark t (capture (.sync aligned t) s)
  if aligned then stepSchedule s.time.armValue (setArmed false s) else s

/-- The sampled level of SYNC changes, once per tick (R58); while RESET_N is LOW it follows its pin. -/
def setSyncLevel (level : Level) (s : State) : State :=
  { s with sync := { s.sync with level := level, moved := s.resetPin = .high } }

/-- A transition of SYNC to a level is a SYNC event when SYNC is live and its direction is selected (R58). -/
def syncSelected (s : State) (level : Level) : Bool :=
  s.sync.live && s.sync.select = some (Dir.toLevel level)

/-- SYNC is sampled at a level: no transition where it is the level before, nor where one has been taken at this tick
(R58). -/
def sampleSync (level : Level) (s : State) : State :=
  if s.sync.level = level || s.sync.moved then s
  else if syncSelected s level then syncEvent (setSyncLevel level s)
  else setSyncLevel level s

/-- SYNC_EVENT (R58, R59). -/
def execSyncEvent (level : Level) (s : State) : Out :=
  .next (sampleSync level s)

end Sys2Proof.Machine
end

