-- ==== Sys2Proof/Machine/Inputs.lean ====
section
/-!
DEFINITION. The input line unit: INPUT_TRANSITION and DEAD_TIME_EXPIRY (R106 to R117).
-/

namespace Sys2Proof.Machine

/-- The consumers of an accepted edge (R111). -/
inductive Consumer where
  | journal
  | generator (g : GenNo)
  | lane (n : LaneNo)
  deriving DecidableEq, Repr

/-- An accepted edge (R111). -/
structure AcceptedEdge where
  line : LineNo
  dir : Dir
  time : Ticks
  count : Ticks
  deriving DecidableEq, Repr

/-- The journal records the edge: capture is enabled and the edge matches the capture edge select (R112). -/
def journalTakes (s : State) (e : AcceptedEdge) : Bool :=
  (s.input e.line).captureEnable && (s.input e.line).edgeSelect.admits e.dir

/-- The edge is a real edge of a generator (R114). -/
def genTakes (s : State) (e : AcceptedEdge) (g : GenNo) : Bool :=
  (s.gen g).source = e.line && (s.gen g).select.admits e.dir

/-- A consumer takes the edge (R112 to R114). -/
def takesEdge (s : State) (e : AcceptedEdge) : Consumer → Bool
  | .journal => journalTakes s e
  | .generator g => genTakes s e g
  | .lane n => edgeEndsWait s e.line e.dir n

/-- The edge is delivered to one consumer; a lane whose wait has ended since does nothing (R113). -/
def deliverEdge (e : AcceptedEdge) (c : Consumer) (s : State) : State :=
  match c with
  | .journal => capture (.edge e.line e.dir e.time) s
  | .generator g => realEdge g e.count e.time s
  | .lane n => if edgeEndsWait s e.line e.dir n then endWait n e.time s else s

/-- The consumers, journal first. -/
def consumers : List Consumer :=
  [.journal, .generator 0, .generator 1, .lane 0, .lane 1, .lane 2, .lane 3]

/-- An accepted edge is handed to every consumer that takes it, in a free order (R111, log 12). -/
def deliver (e : AcceptedEdge) (s : State) : State :=
  let (work, s) := inFreeOrder (consumers.filter (takesEdge s e)) s
  State.each work (deliverEdge e) s

/-- An input line after it has accepted a transition: its dead time starts if it is above 0 (R109). -/
def InLine.accepted (x : InLine) (elapsed : Ticks) : InLine :=
  if x.deadTime = 0 then x else { x with deadRunning := true, deadEnd := Ticks.after elapsed x.deadTime.toNat }

/-- The edge of a transition detected now. -/
def edgeNow (s : State) (k : LineNo) (level : Level) : AcceptedEdge where
  line := k
  dir := Dir.toLevel level
  time := s.time.schedule
  count := s.time.elapsed

/-- A transition reaches the dead-time filter (R109). -/
def filterTransition (k : LineNo) (level : Level) (s : State) : State :=
  let x := s.input k
  if x.deadRunning then s else deliver (edgeNow s k level) (s.setInput k (x.accepted s.time.elapsed))

/-- The sampled level of a line changes, once per tick (R108); while RESET_N is LOW it follows its pin (R106). -/
def setInputLevel (k : LineNo) (level : Level) (s : State) : State :=
  s.setInput k { s.input k with level := level, moved := s.resetPin = .high }

/-- A line is sampled at a level: no transition where it is the level before, nor where one has been taken at this tick; a
transition reaches the filter while the inputs are live, and else changes only the sampled level (R108). -/
def sampleInput (k : LineNo) (level : Level) (s : State) : State :=
  if (s.input k).level = level || (s.input k).moved then s
  else if s.inputsLive then filterTransition k level (setInputLevel k level s)
  else setInputLevel k level s

/-- INPUT_TRANSITION (R108 to R114). -/
def execInputTransition (k : LineNo) (level : Level) (s : State) : Out :=
  .next (sampleInput k level s)

/-- The dead time of a line has reached its end, in any part state (R109, R110). -/
def deadTimeDue (s : State) (k : LineNo) : Bool :=
  (s.input k).deadRunning && reached s.time.elapsed (s.input k).deadEnd

/-- The dead-time running flag is cleared (R109). -/
def endDeadTime (k : LineNo) (s : State) : State :=
  s.setInput k { s.input k with deadRunning := false }

/-- DEAD_TIME_EXPIRY (R109, R110). -/
def execDeadTimeExpiry (k : LineNo) (s : State) : Out :=
  whenEvent s (deadTimeDue s k) (endDeadTime k s)

end Sys2Proof.Machine
end

