-- ==== Sys2Proof/Machine/Events.lean ====
section
/-!
DEFINITION. The time-driven events of the lanes, the lines, the generators, the surveys, the notices and the journal.
-/

namespace Sys2Proof.Machine

/-! ## Lanes -/

/-- DUE_REACHED (R6 to R8). -/
def execDueReached (n : LaneNo) (s : State) : Out :=
  whenEvent s (dueReady s n) (takeDue n s)

/-- WAIT_INPUT_EXPIRY (R13, R14). -/
def execWaitInputExpiry (n : LaneNo) (s : State) : Out :=
  whenEvent s (waitExpired s n) (expireWait n s)

/-- CLAIM_EXPIRY (R93, R104). -/
def execClaimExpiry (k : LineNo) (n : LaneNo) (s : State) : Out :=
  whenEvent s (claimExpired s k n) (expireClaim k n s)

/-! ## Lines -/

/-- A line's pulse has reached its end (R77). -/
def pulseDue (s : State) (k : LineNo) : Bool :=
  match (s.line k).mode with
  | .pulse _ _ pulseEnd => reached s.time.elapsed pulseEnd
  | .float => false
  | .static _ => false
  | .wave .. => false
  | .track .. => false

/-- PULSE_END (R77). -/
def execPulseEnd (k : LineNo) (s : State) : Out :=
  whenEvent s (pulseDue s k) (endPulse k s)

/-- A line's wave phase has reached its end (R79). -/
def wavePhaseDue (s : State) (k : LineNo) : Bool :=
  match (s.line k).mode with
  | .wave _ _ _ _ _ _ phaseEnd => reached s.time.elapsed phaseEnd
  | .float => false
  | .static _ => false
  | .pulse .. => false
  | .track .. => false

/-- WAVE_PHASE_END (R79). -/
def execWavePhaseEnd (k : LineNo) (s : State) : Out :=
  whenEvent s (wavePhaseDue s k) (endWavePhase k s)

/-! ## Generators -/

/-- DERIVED_EDGE (R128). -/
def execDerivedEdge (g : GenNo) (s : State) : Out :=
  whenEvent s (derivedEdgeDue s g) (emitDerivedEdge g s)

/-- VIRTUAL_EDGE (R123 to R125). -/
def execVirtualEdge (g : GenNo) (s : State) : Out :=
  whenEvent s (virtualEdgeDue s g) (virtualEdge g s)

/-! ## Surveys (R45, R46) -/

/-- The survey timer has reached its expiry. -/
def surveyDue (s : State) : Bool :=
  match s.survey.expiry with
  | none => false
  | some e => reached s.time.elapsed e

/-- The timer starts again at its expiry (R45). -/
def restartSurvey (s : State) : State :=
  { s with
    survey := { s.survey with
      expiry := s.survey.expiry.map fun e => Ticks.after e (Config.ticksPerUnit * s.survey.interval.toNat) } }

/-- SURVEY_EXPIRY (R45, R46, R142). -/
def execSurveyExpiry (s : State) : Out :=
  whenEvent s (surveyDue s) (surveyAll (restartSurvey s))

/-! ## Gather timer (R162, R167) -/

/-- The gather timer has reached its expiry; it is stopped in FAILED (R167). -/
def gatherDue (s : State) : Bool :=
  s.part ≠ .failed &&
    match s.notice.gather with
    | .idle => false
    | .running e => reached s.time.elapsed e
    | .opened => false

/-- The gather state at the expiry. -/
def expireGather (s : State) : State :=
  { s with notice := { s.notice with gather := if secondaryPending s then .opened else .idle } }

/-- GATHER_EXPIRY (R162). -/
def execGatherExpiry (s : State) : Out :=
  whenEvent s (gatherDue s) (expireGather s)

/-! ## Flush timer -/

/-- FLUSH_TIMER_EXPIRY: the current page closes TIMED (R145). -/
def execFlushTimerExpiry (s : State) : Out :=
  whenEvent s (flushTimerDue s) (closePage .timed s)

end Sys2Proof.Machine
end

