-- ==== Sys2Proof/Machine/MemoryAnswers.lean ====
section
/-!
DEFINITION. The memory port's rows: the answers to the reads of the fetchers and the journal, MEMORY_SERVICE,
WRITE_COMPLETE and WRITE_ERROR.
-/

namespace Sys2Proof.Machine

/-! ## Fetchers (R32 to R44) -/

/-- The head address read is loaded into the configuration copy and judged (R42). -/
def headFieldRead (n : LaneNo) (head : Addr) (s : State) : State :=
  judgeHead n head (s.setLane n { s.lane n with config := { (s.lane n).config with head := head } })

/-- HEAD_FIELD_READ_DONE (R42). -/
def execHeadFieldReadDone (n : LaneNo) (data : BitVec 64) (s : State) : Out :=
  .next (fetchAnswer n (fun r => r = .headField) (fun _ => headFieldRead n data) s)

/-- HEADER_READ_DONE (R34). -/
def execHeaderReadDone (n : LaneNo) (data : BitVec 256) (s : State) : Out :=
  .next (fetchAnswer n (fun r => r = .header) (fun _ => judgeHeader n data) s)

/-- A STARVED lane takes the head of its queue (R37). -/
def wakeLane (n : LaneNo) (s : State) : State :=
  if (s.lane n).state = .starved then runAfter n (takeNext n s) else s

/-- A burst has arrived: its cues are queued, the next read is issued, and a STARVED lane runs (R37). A number of cues
that is not the burst's is no answer to it (log 4). -/
def burstRead (n : LaneNo) (cues : List (BitVec 256)) (before s : State) : State :=
  if cues.length = (s.lane n).reserved then wakeLane n (fetchOn n (queueBurst n cues s)) else before

/-- CUE_BURST_DONE (R37, R39). -/
def execCueBurstDone (n : LaneNo) (cues : List (BitVec 256)) (s : State) : Out :=
  .next (fetchAnswer n (fun r => r = .burst) (fun _ => burstRead n cues s) s)

/-- LINK_READ_DONE (R41). -/
def execLinkReadDone (n : LaneNo) (data : BitVec 64) (s : State) : Out :=
  .next (fetchAnswer n (fun r => r = .link) (fun _ => judgeLink n data) s)

/-- A read met a bus error: the reserved slots are given up and BUS_ERROR is pending (R43). -/
def fetchErrored (n : LaneNo) (r : FetchRead) (s : State) : State :=
  fetchFault n .busError (readErrorAddr s n r) (s.setLane n { s.lane n with reserved := 0 })

/-- FETCH_READ_ERROR (R43, R44). -/
def execFetchReadError (n : LaneNo) (s : State) : Out :=
  .next (fetchAnswer n (fun _ => true) (fetchErrored n) s)

/-! ## Journal (R138 to R141, R148) -/

/-- The head address read is loaded and judged (R141). -/
def journalHeadRead (head : Addr) (s : State) : State :=
  judgeJournalHead head (s.setJournal { s.journal with head := head })

/-- JOURNAL_HEAD_FIELD_READ_DONE (R141). -/
def execJournalHeadFieldReadDone (data : BitVec 64) (s : State) : Out :=
  .next (journalAnswer (fun r => r = .headField) (fun _ => journalHeadRead data) s)

/-- JOURNAL_HEADER_READ_DONE (R140). -/
def execJournalHeaderReadDone (data : BitVec 256) (s : State) : Out :=
  .next (journalAnswer (fun r => r = .header) (fun _ => judgeJournalHeader data) s)

/-- JOURNAL_LINK_READ_DONE (R141). -/
def execJournalLinkReadDone (data : BitVec 64) (s : State) : Out :=
  .next (journalAnswer (fun r => r = .link) (fun _ => judgeJournalLink data) s)

/-- A read of the journal met a bus error (R140, R141, R148). -/
def journalErrored (r : JournalRead) (s : State) : State :=
  journalFault .busError (some (journalErrorAddr s r)) s

/-- JOURNAL_READ_ERROR (R140, R141, R148). -/
def execJournalReadError (s : State) : Out :=
  .next (journalAnswer (fun _ => true) journalErrored s)

/-! ## The port (R170, R171, R176) -/

/-- MEMORY_SERVICE: the port serves while it is live (R170, R177). -/
def execMemoryService (s : State) : Out :=
  whenEvent s s.port.live (serve s)

/-- WRITE_COMPLETE (R171). -/
def execWriteComplete (s : State) : Out :=
  .next (completeWrite s)

/-- WRITE_ERROR (R176, R177). -/
def execWriteError (s : State) : Out :=
  .next (errorWrite s)

end Sys2Proof.Machine
end

