-- ==== Sys2Proof/Machine/RegisterPort.lean ====
section
/-!
DEFINITION. The resets and the register writes outside COMMAND: RESET_N, SOFT_RESET, CONTROL_WRITE, REGISTER_WRITE and
NOTICE_ACK (R164, R179 to R181, R193, R194).
-/

namespace Sys2Proof.Machine

/-! ## Resets -/

/-- The writes whose answers are ignored after a reset: those left before and the one presented to memory (R168). -/
def writesLeft (s : State) : List Write :=
  s.port.leftWrites ++ s.port.path.take 1

/-- Every block and register at its reset value (R193 and the block rules it names). The two address registers, the
levels of the pins, what is left to the memory system, the bytes of memory and the model's own counters stay. -/
def resetKeepingAddress (s : State) : State where
  pending := s.pending
  resetPin := s.resetPin
  part := .config
  lanes := Vector.replicate 4 Lane.reset
  lines := Vector.replicate 16 OutLine.reset
  pins := pinsReleased
  inputs := s.inputs.mapIdx fun _ x => InLine.reset x.level
  inputsLive := false
  sync := SyncInput.reset s.sync.level
  time := Timekeeping.reset
  gens := Vector.replicate 2 Generator.reset
  journal := Journal.reset
  notice := NoticeUnit.reset
  handed := []
  port := Port.reset (readsLeft s) (writesLeft s)
  engine := Engine.reset
  regs := { s.regs with attnEnable := false, attnLowAsserted := false }
  survey := { interval := 0, expiry := none }
  memory := s.memory
  choices := s.choices

/-- The reset of RESET_N: EXB_LO and EXB_HI are 0 as well (R193). -/
def resetAll (s : State) : State :=
  let s := resetKeepingAddress s
  { s with regs := { s.regs with exbLo := 0, exbHi := 0 } }

/-- RESET_N: LOW brings every block to its reset values and holds it there; the rising edge leaves reset in CONFIG
(R193, log 5). -/
def execResetN (level : Level) (s : State) : Out :=
  match level with
  | .low => .next (resetAll { s with resetPin := .low })
  | .high => .next { s with resetPin := .high }

/-- SOFT_RESET: the reset values, with EXB_LO and EXB_HI kept (R194). -/
def execSoftReset (s : State) : Out :=
  unlessHeld s (resetKeepingAddress s)

/-! ## Registers -/

/-- The soft reset bit of CONTROL (Table 12-10). -/
def softResetBit (value : Word) : Bool :=
  value.getLsbD 31

/-- The attention fields of CONTROL take the written bits (R180). -/
def setAttention (value : Word) (s : State) : State :=
  { s with regs := { s.regs with attnEnable := value.getLsbD 0, attnLowAsserted := value.getLsbD 1 } }

/-- CONTROL_WRITE: enable and polarity, or a soft reset, which leaves both at their reset values (R180). -/
def execControlWrite (value : Word) (s : State) : Out :=
  unlessHeld s (if softResetBit value then resetKeepingAddress s else setAttention value s)

/-- The bits of EXB_LO that are held: 31 to 11 (R181). -/
def exbLoMask : Word := 0xFFFFF800#32

/-- A write to a register with no row of its own: EXB_LO and EXB_HI in CONFIG; the others are read-only (R179, R181). -/
def writePlain (reg : PlainReg) (value : Word) (s : State) : State :=
  match reg with
  | .exbLo => if s.part = .config then { s with regs := { s.regs with exbLo := value &&& exbLoMask } } else s
  | .exbHi => if s.part = .config then { s with regs := { s.regs with exbHi := value } } else s
  | .ident => s
  | .cmdStatus => s
  | .partState => s

/-- REGISTER_WRITE (R179, R181). -/
def execRegisterWrite (reg : PlainReg) (value : Word) (s : State) : Out :=
  unlessHeld s (writePlain reg value s)

/-! ## NOTICE_ACK (R162, R164) -/

/-- The slot field of a NOTICE_ACK write, bits 27 to 24 (Table 12-10). -/
def ackSlot (value : Word) : SlotNo :=
  (value.extractLsb' 24 4).toFin

/-- The count field, bits 23 to 0. -/
def ackCount (value : Word) : Count24 :=
  value.setWidth 24

/-- The write is taken when v is no further past the acknowledged count than the posted count is (R164). -/
def ackTaken (x : Slot) (v : Count24) : Bool :=
  (v - x.acknowledged).toNat ≤ (x.posted - x.acknowledged).toNat

/-- With no slot pending the gather state becomes IDLE (R162). -/
def settleGather (s : State) : State :=
  if anyPending s then s else { s with notice := { s.notice with gather := .idle } }

/-- A taken acknowledgement. In FAILED the gather state keeps its value (R167, log 33). -/
def acknowledge (k : SlotNo) (v : Count24) (s : State) : State :=
  let t := s.setSlot k { s.slot k with acknowledged := v }
  if s.part = .failed then t else settleGather t

/-- NOTICE_ACK, in every part state (R164). -/
def execNoticeAck (value : Word) (s : State) : Out :=
  let k := ackSlot value
  let v := ackCount value
  unlessHeld s (if ackTaken (s.slot k) v then acknowledge k v s else s)

end Sys2Proof.Machine
end

