-- ==== Sys2Proof/Machine/Dispatch.lean ====
section
/-!
DEFINITION. One arm per command: each calls its meaning.
-/

namespace Sys2Proof.Machine

def exec (i : Instr) (s : State) : Host.Outcome State Fault Refusal :=
  match i with
  | .resetN level => Sys2Proof.Machine.execResetN level s
  | .softReset => Sys2Proof.Machine.execSoftReset s
  | .controlWrite value => Sys2Proof.Machine.execControlWrite value s
  | .registerWrite reg value => Sys2Proof.Machine.execRegisterWrite reg value s
  | .noticeAck value => Sys2Proof.Machine.execNoticeAck value s
  | .undefinedCommand code operand => Sys2Proof.Machine.execUndefinedCommand code operand s
  | .start operand => Sys2Proof.Machine.execStart operand s
  | .startReadDone offset bytes => Sys2Proof.Machine.execStartReadDone offset bytes s
  | .startReadError => Sys2Proof.Machine.execStartReadError s
  | .startActivate => Sys2Proof.Machine.execStartActivate s
  | .stop operand => Sys2Proof.Machine.execStop operand s
  | .stopStatusStep => Sys2Proof.Machine.execStopStatusStep s
  | .stopFloatStep => Sys2Proof.Machine.execStopFloatStep s
  | .laneStop operand => Sys2Proof.Machine.execLaneStop operand s
  | .laneStopComplete => Sys2Proof.Machine.execLaneStopComplete s
  | .laneRestart operand => Sys2Proof.Machine.execLaneRestart operand s
  | .laneRestartReadDone data => Sys2Proof.Machine.execLaneRestartReadDone data s
  | .laneRestartReadError => Sys2Proof.Machine.execLaneRestartReadError s
  | .laneRestartComplete => Sys2Proof.Machine.execLaneRestartComplete s
  | .journalRestart operand => Sys2Proof.Machine.execJournalRestart operand s
  | .journalRestartReadDone data => Sys2Proof.Machine.execJournalRestartReadDone data s
  | .journalRestartReadError => Sys2Proof.Machine.execJournalRestartReadError s
  | .journalRestartComplete => Sys2Proof.Machine.execJournalRestartComplete s
  | .armAlign operand => Sys2Proof.Machine.execArmAlign operand s
  | .armAlignReadDone data => Sys2Proof.Machine.execArmAlignReadDone data s
  | .armAlignReadError => Sys2Proof.Machine.execArmAlignReadError s
  | .alignNow operand => Sys2Proof.Machine.execAlignNow operand s
  | .alignNowReadDone data => Sys2Proof.Machine.execAlignNowReadDone data s
  | .alignNowComplete => Sys2Proof.Machine.execAlignNowComplete s
  | .alignNowReadError => Sys2Proof.Machine.execAlignNowReadError s
  | .resurvey operand => Sys2Proof.Machine.execResurvey operand s
  | .laneHold operand => Sys2Proof.Machine.execLaneHold operand s
  | .laneResume operand => Sys2Proof.Machine.execLaneResume operand s
  | .journalFlush operand => Sys2Proof.Machine.execJournalFlush operand s
  | .disarmAlign operand => Sys2Proof.Machine.execDisarmAlign operand s
  | .dueReached lane => Sys2Proof.Machine.execDueReached lane s
  | .waitInputExpiry lane => Sys2Proof.Machine.execWaitInputExpiry lane s
  | .claimExpiry line lane => Sys2Proof.Machine.execClaimExpiry line lane s
  | .inputTransition line level => Sys2Proof.Machine.execInputTransition line level s
  | .deadTimeExpiry line => Sys2Proof.Machine.execDeadTimeExpiry line s
  | .syncEvent level => Sys2Proof.Machine.execSyncEvent level s
  | .pulseEnd line => Sys2Proof.Machine.execPulseEnd line s
  | .wavePhaseEnd line => Sys2Proof.Machine.execWavePhaseEnd line s
  | .derivedEdge gen => Sys2Proof.Machine.execDerivedEdge gen s
  | .virtualEdge gen => Sys2Proof.Machine.execVirtualEdge gen s
  | .surveyExpiry => Sys2Proof.Machine.execSurveyExpiry s
  | .gatherExpiry => Sys2Proof.Machine.execGatherExpiry s
  | .flushTimerExpiry => Sys2Proof.Machine.execFlushTimerExpiry s
  | .headFieldReadDone lane data => Sys2Proof.Machine.execHeadFieldReadDone lane data s
  | .headerReadDone lane data => Sys2Proof.Machine.execHeaderReadDone lane data s
  | .cueBurstDone lane cues => Sys2Proof.Machine.execCueBurstDone lane cues s
  | .linkReadDone lane data => Sys2Proof.Machine.execLinkReadDone lane data s
  | .fetchReadError lane => Sys2Proof.Machine.execFetchReadError lane s
  | .journalHeadFieldReadDone data => Sys2Proof.Machine.execJournalHeadFieldReadDone data s
  | .journalHeaderReadDone data => Sys2Proof.Machine.execJournalHeaderReadDone data s
  | .journalLinkReadDone data => Sys2Proof.Machine.execJournalLinkReadDone data s
  | .journalReadError => Sys2Proof.Machine.execJournalReadError s
  | .memoryService => Sys2Proof.Machine.execMemoryService s
  | .writeComplete => Sys2Proof.Machine.execWriteComplete s
  | .writeError => Sys2Proof.Machine.execWriteError s

end Sys2Proof.Machine
end

