-- ==== Sys2Proof/Machine/Idle.lean ====
section
/-!
DEFINITION. What the part does when nothing waits in the queue: the events that are due, in a free order, and when none
is due one tick of REFCLK (log 2).
-/

namespace Sys2Proof.Machine

/-- The event, if it is due. -/
def dueIf (due : Bool) (i : Instr) : List Instr :=
  if due then [i] else []

/-- The events of one lane that are due. -/
def laneEvents (s : State) (n : LaneNo) : List Instr :=
  dueIf (dueReady s n) (.dueReached n) ++ dueIf (waitExpired s n) (.waitInputExpiry n)

/-- The events of one output line and one input line that are due. -/
def lineEvents (s : State) (k : LineNo) : List Instr :=
  dueIf (pulseDue s k) (.pulseEnd k) ++ dueIf (wavePhaseDue s k) (.wavePhaseEnd k)
    ++ dueIf (deadTimeDue s k) (.deadTimeExpiry k)
    ++ allLanes.flatMap fun n => dueIf (claimExpired s k n) (.claimExpiry k n)

/-- The events of one generator that are due. -/
def genEvents (s : State) (g : GenNo) : List Instr :=
  dueIf (derivedEdgeDue s g) (.derivedEdge g) ++ dueIf (virtualEdgeDue s g) (.virtualEdge g)

/-- The timers that are due. -/
def timerEvents (s : State) : List Instr :=
  dueIf (surveyDue s) .surveyExpiry ++ dueIf (gatherDue s) .gatherExpiry
    ++ dueIf (flushTimerDue s) .flushTimerExpiry

/-- The steps of the command in progress whose conditions hold. -/
def engineEvents (s : State) : List Instr :=
  dueIf (startWritten s) .startActivate ++ dueIf (stopDrained s) .stopStatusStep
    ++ dueIf (stopWritten s) .stopFloatStep ++ dueIf (laneStopWritten s) .laneStopComplete
    ++ dueIf (laneRestartWritten s) .laneRestartComplete ++ dueIf (journalRestartWritten s) .journalRestartComplete
    ++ dueIf (alignmentIssued s) .alignNowComplete

/-- Every event that is due. -/
def dueEvents (s : State) : List Instr :=
  engineEvents s ++ allLanes.flatMap (laneEvents s) ++ allLines.flatMap (lineEvents s) ++ allGens.flatMap (genEvents s)
    ++ timerEvents s

/-- A generator at a new tick: no derived edge has been taken at it (R128). -/
def newTickGen (g : GenNo) (s : State) : State :=
  s.setGen g { s.gen g with edgeTaken := false }

/-- An input line at a new tick: no transition of it has been taken at it (R108). -/
def newTickInput (k : LineNo) (s : State) : State :=
  s.setInput k { s.input k with moved := false }

/-- One tick of REFCLK: the pins show what their lines drive after the tick's last event (R73), and both clocks advance by one,
modulo 2^48, in every part state (R54). -/
def tick (s : State) : State :=
  let pins := drivenPins s
  let s := State.each allLines newTickInput (State.each allGens newTickGen s)
  { s with
    pins := pins
    sync := { s.sync with moved := false }
    time := { s.time with elapsed := s.time.elapsed + 1, schedule := s.time.schedule + 1 } }

/-- One of several events as a free value gives; of one event there is no choice, and no value is drawn (log 3). -/
def chooseEvent (events : List Instr) (s : State) : Option Instr × State :=
  match events with
  | [] => (none, s)
  | [i] => (some i, s)
  | i :: j :: rest =>
    let (k, s) := s.drawBelow (i :: j :: rest).length
    ((i :: j :: rest)[k]?, s)

/-- The event an idle part takes next, or none where a tick is to be taken, with the state after the choice. -/
def nextEvent (s : State) : Option Instr × State :=
  chooseEvent (dueEvents s) s

end Sys2Proof.Machine
end

