-- ==== Sys2Proof/Machine/Step.lean ====
section
/-!
DEFINITION. One step: the command at the front of the queue, or what the idle part does.
-/

namespace Sys2Proof.Machine

/-- A step on an empty queue: nothing while RESET_N holds the part at its reset values (R193), else one event that is due,
or one tick where none is (log 2). -/
def idle (s : State) : Host.Outcome State Fault Refusal :=
  if s.resetPin = .low then .next s
  else
    match nextEvent s with
    | (some i, t) => exec i t
    | (none, t) => .next (tick t)

/-- One step: the command at the front of the queue is taken with the rest left waiting. -/
def step (s : State) : Host.Outcome State Fault Refusal :=
  match s.pending with
  | [] => idle s
  | c :: rest => exec c { s with pending := rest }

/-- No table word spells a command (log 29), so nothing is put into the queue. -/
def State.withFetchWord (s : State) (nbits w : Nat) : State :=
  match decodeTableWord nbits w with
  | none => s
  | some c => { s with pending := c :: s.pending }

end Sys2Proof.Machine
end

