-- ==== Sys2Proof/Safety.lean ====
section
/-!
DEFINITION. What every step keeps: the bounds of the buffers, the form of memory, the fields a reset or FAILED ties
together; and the frames the statements use.
-/

namespace Sys2Proof.Machine

/-! ## Invariants -/

/-- A header read is presented, or is under way and its answer is awaited. -/
def Lane.readsHeader (l : Lane) : Bool :=
  l.request = some .header || (match l.flight with
    | none => false
    | some f => f.kind = .header && !f.discard)

/-- The flight of a fetcher, if there is one, is to be discarded. -/
def Lane.awaitsNothing (l : Lane) : Bool :=
  match l.flight with
  | none => true
  | some f => f.discard

/-- The bounds of one lane: at most 16 cues queued or reserved (R36, R37), at most 17 pages in the list and a header read
only below that (R35), and one read at a time (R32). -/
def Lane.bounded (l : Lane) : Bool :=
  l.queue.length + l.reserved ≤ Config.queueCapacity
    && l.pages.length ≤ Config.pageListCapacity
    && (!l.readsHeader || l.pages.length < Config.pageListCapacity)
    && (l.request.isNone || l.awaitsNothing)

/-- Every lane is within its bounds. -/
def lanesBounded (s : State) : Bool :=
  allLanes.all fun n => (s.lane n).bounded

/-- The capture FIFO holds at most 64 records (R136). -/
def fifoBounded (s : State) : Bool :=
  s.journal.fifo.length ≤ Config.fifoCapacity

/-- The ordered write path holds at most 8 writes (R170). -/
def pathBounded (s : State) : Bool :=
  s.port.path.length ≤ Config.pathCapacity

/-- The exchange block address is a multiple of 2048: the low 11 bits of EXB_LO are 0 (R181). -/
def addressAligned (s : State) : Bool :=
  s.regs.exbLo &&& 0x7FF#32 = 0#32

/-- The port is live exactly outside FAILED, and in FAILED no command is in progress and no read of the engine is in flight
(R177). -/
def failedAgrees (s : State) : Bool :=
  (s.port.live = (s.part ≠ .failed))
    && (s.part ≠ .failed || (s.engine.command.isNone && s.engine.flight.isNone))

/-! ## Claims, bindings and the session -/

/-- A lane has an entry in the line's waiter list. -/
def OutLine.lists (x : OutLine) (n : LaneNo) : Bool :=
  x.waiters.any fun w => w.lane = n

/-- The claims of one line: no lane stands twice in its waiter list, its owner does not stand in it, and a line without owner
has no waiter (R91 to R94). -/
def OutLine.claimsSound (x : OutLine) : Bool :=
  decide (x.waiters.map Waiter.lane).Nodup
    && (match x.owner with
      | none => x.waiters.isEmpty
      | some n => !x.lists n)

/-- The lines in whose waiter lists a lane has an entry. -/
def linesListing (s : State) (n : LaneNo) : List LineNo :=
  allLines.filter fun k => (s.line k).lists n

/-- A lane in WAIT_LINE has an entry in the list of one line, and a lane in another state in none (R92). Outside FAILED, where
lanes have ceased, its wait names that line and its CLAIM cue is still queued. -/
def claimSound (s : State) (n : LaneNo) : Bool :=
  match linesListing s n with
  | [] => (s.lane n).state ≠ .waitLine
  | [k] =>
    (s.lane n).state = .waitLine
      && (s.part = .failed || ((s.lane n).wait = .claim k && !(s.lane n).queue.isEmpty))
  | _ :: _ :: _ => false

/-- The claim arbiter's tables agree with the lanes. -/
def claimsSound (s : State) : Bool :=
  allLines.all (fun k => (s.line k).claimsSound) && allLanes.all (claimSound s)

/-- A bound generator's line is in TRACK on it (R129). -/
def genBindingSound (s : State) (g : GenNo) : Bool :=
  match (s.gen g).bound with
  | none => true
  | some k =>
    match (s.line k).mode with
    | .track _ h => h = g
    | _ => false

/-- A line in TRACK is bound to its generator (R80, R129). -/
def lineBindingSound (s : State) (k : LineNo) : Bool :=
  match (s.line k).mode with
  | .track _ g => (s.gen g).bound = some k
  | _ => true

/-- A generator is bound to a line exactly where that line is in TRACK on it. -/
def bindingsSound (s : State) : Bool :=
  allGens.all (genBindingSound s) && allLines.all (lineBindingSound s)

/-- The command in progress fits the part state (R183, R186, R190). -/
def commandFits (s : State) : Bool :=
  match s.engine.command with
  | none => true
  | some (.start _) => s.part = .starting
  | some (.stop _) => s.part = .stopping
  | some _ => s.part = .active

/-- Outside ACTIVE and FAILED every lane is OFF (R1, R24, R190). -/
def lanesRest (s : State) : Bool :=
  s.part = .active || s.part = .failed || allLanes.all fun n => (s.lane n).state = .off

/-- In CONFIG and STARTING every line is in FLOAT (R69, R87). -/
def linesRest (s : State) : Bool :=
  !(s.part = .config || s.part = .starting) || allLines.all fun k => (s.line k).mode = .float

/-- In FAILED every block has ceased: no input is live, the port is not, no survey is to come and no read is in flight
(R177, Table 10-3). -/
def failedQuiet (s : State) : Bool :=
  s.part ≠ .failed
    || (!s.inputsLive && !s.sync.live && !s.port.live && s.survey.expiry.isNone && s.engine.flight.isNone
      && s.journal.flight.isNone && allLanes.all fun n => (s.lane n).flight.isNone)

/-- The session: the command in progress, the lanes and the lines fit the part state. -/
def sessionSound (s : State) : Bool :=
  commandFits s && lanesRest s && linesRest s && failedQuiet s

/-! ## Frames -/

/-- What no lane, line, generator, journal or notice does by itself: the queue of commands, RESET_N, the part state, what the
output pins show, the port with its path, the engine, the registers, the survey timer, the live flags and SYNC, both
clocks with the arm, and the bytes of memory. -/
structure Fixed where
  pending : List Instr
  resetPin : Level
  part : PartState
  pins : Vector (Option Level) 16
  inputsLive : Bool
  sync : SyncInput
  time : Timekeeping
  port : Port
  engine : Engine
  regs : Registers
  survey : Survey
  memory : List Host.Cell
  deriving DecidableEq, Repr

/-- These parts of a state. -/
def State.fixed (s : State) : Fixed where
  pending := s.pending
  resetPin := s.resetPin
  part := s.part
  pins := s.pins
  inputsLive := s.inputsLive
  sync := s.sync
  time := s.time
  port := s.port
  engine := s.engine
  regs := s.regs
  survey := s.survey
  memory := s.memory

/-- RESET_N is HIGH: commands and events act. -/
def State.awake (s : State) : Prop :=
  s.resetPin = .high

/-- No answer to a fetcher's earlier read is still to be ignored (R168). -/
def noLeftRead (s : State) (r : Requester) : Prop :=
  ∀ x ∈ s.port.leftReads, x.requester ≠ r

/-- A fetcher's read of this kind has been sent to memory and its answer is awaited. -/
def awaitsFetch (s : State) (n : LaneNo) (r : FetchRead) : Prop :=
  (s.lane n).flight = some { kind := r, discard := false, behind := 0 } ∧ noLeftRead s (.fetcher n)

/-- A journal read of this kind has been sent to memory and its answer is awaited. -/
def awaitsJournal (s : State) (r : JournalRead) : Prop :=
  s.journal.flight = some { kind := r, discard := false, behind := 0 } ∧ noLeftRead s .journal

/-- A read of the command engine has been sent to memory and its answer is awaited. -/
def awaitsEngine (s : State) (r : EngineRead) : Prop :=
  s.engine.flight = some { kind := r, discard := false, behind := 0 } ∧ noLeftRead s .engine

/-- A read of `len` bytes at an address, issued now, is held behind the first `b` writes of the path: the last of them overlaps
it and none after it does; 0 stands for a read sent at once (R172). -/
def heldBehind (s : State) (a : Addr) (len b : Nat) : Prop :=
  let overlapping : Write → Prop := fun w =>
    a.toNat < w.addr.toNat + w.bytes.length ∧ w.addr.toNat < a.toNat + len
  (∀ i w, s.port.path[i]? = some w → overlapping w → i < b)
    ∧ (b = 0 ∨ ∃ w, s.port.path[b - 1]? = some w ∧ overlapping w)

/-- The number that `len` bytes from an offset on spell, little-endian (12_memory_formats.md). -/
def numberAt (bytes : List Byte) (offset : Nat) : Nat → Nat
  | 0 => 0
  | len + 1 => ((bytes[offset]?).getD 0).toNat + 256 * numberAt bytes (offset + 1) len

/-! ## Lanes -/

/-- The lane's queue holds one cue, its current one, and nothing else is to be done when that has finished: no hold request,
no pending fault, no cue of its page still to be fetched. -/
def soleCue (s : State) (n : LaneNo) (c : Cue) (page : Addr) : Prop :=
  (s.lane n).queue = [{ cue := some c, page := page }] ∧ (s.lane n).hasCurrent = true
    ∧ (s.lane n).holdRequest = false ∧ (s.lane n).pendingFault = none ∧ (s.lane n).unfetched = 0

/-- A lane that waits for no line has faulted between two states (R19): it is FAULTED with the code, an empty queue, no wait,
no hold request and a stopped fetcher; its OPEN pages are retiring with the code; its lines take their fault action and stay
owned; an EXCEPTION with the code, the serial and the page is owed; and no other lane or line, no input, not the journal
and no notice slot has changed. -/
def laneFaulted (s t : State) (n : LaneNo) (code : FaultCode) (serial : Word) (page : Addr) : Prop :=
  (t.lane n).state = .faulted ∧ (t.lane n).fault = code ∧ (t.lane n).queue = [] ∧ (t.lane n).wait = .none
    ∧ (t.lane n).holdRequest = false ∧ (t.lane n).running = false ∧ (t.lane n).stall = .none
    ∧ (t.lane n).serial = serial
    ∧ (t.lane n).exceptions
        = (s.lane n).exceptions ++ [{ state := .faulted, code := code, serial := serial, page := page }]
    ∧ (t.lane n).pages = (s.lane n).pages.map (fun p => match p.retiring with
        | some _ => p
        | none => { p with
            discarded := p.count - p.executed - p.skipped
            retiring := some (.fault code, s.time.schedule) })
    ∧ (∀ k, (s.line k).owner = some n → t.line k =
        { s.line k with mode := faultMode (s.line k).faultAction (s.line k).mode })
    ∧ (∀ k, (s.line k).owner ≠ some n → t.line k = s.line k)
    ∧ (∀ m, m ≠ n → t.lane m = s.lane m)
    ∧ t.inputs = s.inputs ∧ t.journal = s.journal ∧ t.notice = s.notice

/-! ## Generators -/

/-- A phase of generator g has started between s and t, at the phase start t shows (R127, R128): the multiplier in force, the
sub-interval floor(P / M) raised to 16 with the clamped flag, and derived edge 0, which toggles the bound line unless a
derived edge of the generator has already fallen at this tick. -/
def phaseStarted (s t : State) (g : GenNo) : Prop :=
  let x := s.gen g
  let y := t.gen g
  let raw := y.period.toNat / x.multiplier
  y.phaseMultiplier = x.multiplier
    ∧ y.subInterval.toNat = max 16 raw ∧ (y.clamped = true ↔ raw < 16)
    ∧ (x.bound = none → y.nextIndex = x.multiplier ∧ y.edgeTaken = x.edgeTaken ∧ t.lines = s.lines)
    ∧ (∀ k, x.bound = some k → y.nextIndex = 1 ∧ y.edgeTaken = true
      ∧ (x.edgeTaken = true → t.lines = s.lines)
      ∧ (x.edgeTaken = false →
        ((s.line k).mode = .track .low g → t.line k = { s.line k with mode := .track .high g })
        ∧ ((s.line k).mode = .track .high g → t.line k = { s.line k with mode := .track .low g })
        ∧ ((∀ l, (s.line k).mode ≠ .track l g) → t.line k = s.line k)
        ∧ (∀ j, j ≠ k → t.line j = s.line j)))

/-! ## Commands written to COMMAND -/

/-- The code and the operand that CMD_STATUS shows for a command written to COMMAND (R184). -/
def commandShown : Instr → Option (Byte × Byte)
  | .start _ => some (codeStart, 0)
  | .stop _ => some (codeStop, 0)
  | .laneStop b => some (codeLaneStop, b)
  | .laneRestart b => some (codeLaneRestart, b)
  | .journalRestart _ => some (codeJournalRestart, 0)
  | .armAlign _ => some (codeArmAlign, 0)
  | .alignNow _ => some (codeAlignNow, 0)
  | .resurvey _ => some (codeResurvey, 0)
  | .laneHold b => some (codeLaneHold, b)
  | .laneResume b => some (codeLaneResume, b)
  | .journalFlush _ => some (codeJournalFlush, 0)
  | .disarmAlign _ => some (codeDisarmAlign, 0)
  | .undefinedCommand c _ => if c = codeNone then none else some (c, 0)
  | _ => none

/-- The code names a command and a lane operand is at most 3 (R183). -/
def commandKnown : Instr → Bool
  | .laneStop b => b.toNat < 4
  | .laneRestart b => b.toNat < 4
  | .laneHold b => b.toNat < 4
  | .laneResume b => b.toNat < 4
  | .undefinedCommand _ _ => false
  | _ => true

/-- A property of the lane an operand names. -/
def ofLane (s : State) (b : Byte) (p : Lane → Bool) : Bool :=
  if h : b.toNat < 4 then p (s.lane ⟨b.toNat, h⟩) else false

/-- Table 11-3, column Taken in. -/
def commandTakenIn (s : State) : Instr → Bool
  | .start _ => s.part = .config
  | .stop _ => s.part = .active
  | .laneStop _ => s.part = .active
  | .laneRestart b =>
    s.part = .active && ofLane s b fun l => l.state = .off || l.state = .faulted || l.state = .ended
  | .journalRestart _ => s.part = .active && (s.journal.state = .starved || s.journal.state = .faulted)
  | .armAlign _ => s.part = .active
  | .alignNow _ => s.part = .active
  | .resurvey _ => s.part = .active
  | .laneHold b =>
    s.part = .active && ofLane s b fun l => !(l.state = .off || l.state = .faulted || l.state = .ended)
  | .laneResume b => s.part = .active && ofLane s b fun l => l.state = .held || l.holdRequest
  | .journalFlush _ => s.part = .active
  | .disarmAlign _ => s.part = .active
  | _ => false

/-- The state with the last fields of CMD_STATUS changed and nothing else. -/
def withLast (s : State) (code operand : Byte) (o : CmdOutcome) : State :=
  { s with engine := { s.engine with lastCode := code, lastOperand := operand, lastOutcome := o } }

end Sys2Proof.Machine
end

