-- ==== Sys2Proof/WellFormed.lean ====
section
/-!
DEFINITION. Which operands a command can carry. The types already bound lanes, lines, generators and the widths of
data; what is left is checked here. `exec` is total on ill-formed commands too (log 4).
-/

namespace Sys2Proof

/-- UNDEFINED_COMMAND stands for the codes that name no command: NONE and 13 to 255 (Table 12-9, R196). -/
def Instr.codeNamesNoCommand (code : Byte) : Bool :=
  code = 0#8 || 13 ≤ code.toNat

/-- A configuration read covers at least one byte of offsets 0x000 to 0x2FF (R186). -/
def Instr.rangeInConfiguration (offset length : Nat) : Bool :=
  0 < length && offset + length ≤ 0x300

/-- A cue burst holds 1 to 4 cues (R32, R36). -/
def Instr.burstLengthOk (length : Nat) : Bool :=
  1 ≤ length && length ≤ 4

/-- The operand checks of every command. -/
def Instr.wellFormed (i : Instr) : Bool :=
  match i with
  | .undefinedCommand code _ => Instr.codeNamesNoCommand code
  | .startReadDone offset bytes => Instr.rangeInConfiguration offset bytes.length
  | .cueBurstDone _ cues => Instr.burstLengthOk cues.length
  | .resetN _ | .softReset | .controlWrite _ | .registerWrite _ _ | .noticeAck _ | .start _ | .startReadError
  | .startActivate | .stop _ | .stopStatusStep | .stopFloatStep | .laneStop _ | .laneStopComplete | .laneRestart _
  | .laneRestartReadDone _ | .laneRestartReadError | .laneRestartComplete | .journalRestart _
  | .journalRestartReadDone _ | .journalRestartReadError | .journalRestartComplete | .armAlign _ | .armAlignReadDone _
  | .armAlignReadError | .alignNow _ | .alignNowReadDone _ | .alignNowComplete | .alignNowReadError | .resurvey _
  | .laneHold _ | .laneResume _ | .journalFlush _ | .disarmAlign _ | .dueReached _ | .waitInputExpiry _
  | .claimExpiry _ _ | .inputTransition _ _ | .deadTimeExpiry _ | .syncEvent _ | .pulseEnd _ | .wavePhaseEnd _
  | .derivedEdge _ | .virtualEdge _ | .surveyExpiry | .gatherExpiry | .flushTimerExpiry | .headFieldReadDone _ _
  | .headerReadDone _ _ | .linkReadDone _ _ | .fetchReadError _ | .journalHeadFieldReadDone _
  | .journalHeaderReadDone _ | .journalLinkReadDone _ | .journalReadError | .memoryService | .writeComplete
  | .writeError => true

end Sys2Proof
end

