-- ==== Sys2Proof/Certificates/Slice0/Obligations.lean ====
section
/-!
DEFINITION. The statements for the provers. A statement that rests on a choice of the model names its log entry.
The bookkeeping fields that statements name (a pending request, a cue in flight, an awaited answer) are those of log 21.
-/

open Sys2Proof Sys2Proof.Machine

/-! ## The step -/

/-- A step on a queue with a command in front is that command on the state with the queue's rest (the model's form of a
step, log 2). -/
def Obligations.StepRunsFrontCommand : Prop :=
  ∀ (c : Instr) (rest : List Instr) (s : State),
    step { s with pending := c :: rest } = exec c { s with pending := rest }

/-- Every command answers a next state in every state, and leaves the queue of commands as it is: no behaviour of the manual
stops the part (log 4, log 30); the queue is the model's own field (log 21). -/
def Obligations.EveryCommandAnswersNext : Prop :=
  ∀ (c : Instr) (s : State), ∃ t, exec c s = .next t ∧ t.pending = s.pending

/-- A step with nothing queued. While RESET_N is LOW nothing changes. With an event due, the step takes one of those
due, which one a free value gives. With none due it is one tick, whatever the part state: both clocks advance by one
modulo 2^48, each output pin shows what its line drives after the tick's last event (a STATIC or TRACK line its level, a
PULSE its active level, a WAVE the level of its phase, a FLOAT line high impedance), and nothing else changes but the
notes that a generator has taken a derived edge and that an input or SYNC has been sampled at this tick (the step of an
idle part is the model's choice, log 2; that the tick latches the pins is log 22; the notes are log 21 and log 40). -/
def Obligations.TickAdvancesBothClocks : Prop :=
  ∀ s : State, s.pending = [] →
    (s.resetPin = .low → step s = .next s)
    ∧ (s.awake → dueEvents s ≠ [] → ∃ i ∈ dueEvents s, ∃ c, step s = exec i { s with choices := c })
    ∧ (s.awake → dueEvents s = [] →
      ∃ t, step s = .next t
        ∧ t.time = { s.time with elapsed := s.time.elapsed + 1, schedule := s.time.schedule + 1 }
        ∧ (∀ g, t.gen g = { s.gen g with edgeTaken := false })
        ∧ (∀ k, t.input k = { s.input k with moved := false })
        ∧ t.sync = { s.sync with moved := false }
        ∧ (∀ k, outPin t k = (s.line k).mode.level)
        ∧ (∀ k, t.pins[k] = match (s.line k).mode with
          | .float => none
          | .static level => some level
          | .pulse active _ _ => some active
          | .wave first _ _ _ _ .first _ => some first
          | .wave .low _ _ _ _ .second _ => some .high
          | .wave .high _ _ _ _ .second _ => some .low
          | .track level _ => some level)
        ∧ t = { s with time := t.time, gens := t.gens, inputs := t.inputs, sync := t.sync, pins := t.pins })

/-- Only a reset changes the elapsed count, and only a reset, a SYNC event with the arm armed and ALIGN_NOW's answer change
schedule time, among the commands (R54). -/
def Obligations.ClocksChangeOnlyByResetAndAlignment : Prop :=
  ∀ (c : Instr) (s t : State), exec c s = .next t →
    (∀ level, c ≠ .resetN level) → c ≠ .softReset → (∀ v, c = .controlWrite v → v.getLsbD 31 = false) →
    t.time.elapsed = s.time.elapsed
      ∧ ((∀ level, c ≠ .syncEvent level) → (∀ d, c ≠ .alignNowReadDone d) → t.time.schedule = s.time.schedule)
      ∧ (∀ level, c = .syncEvent level → s.time.armed = false → t.time.schedule = s.time.schedule)

/-- Only the answer to a write changes the bytes of memory, and only a write error brings the part to FAILED (R171, R176,
R177; the bytes are the model's record of them, log 6). -/
def Obligations.OnlyWriteAnswersReachMemoryOrFail : Prop :=
  ∀ (c : Instr) (s t : State), exec c s = .next t →
    (c ≠ .writeComplete → c ≠ .writeError → t.memory = s.memory)
      ∧ (t.part = .failed → s.part = .failed ∨ c = .writeError)

/-! ## Resets and registers -/

/-- The machine right after reset, each block at the value its chapter gives: CONFIG and the registers (R193), the lanes (R1)
and their fetchers (R30), the clocks and the arm (R54, R60), the lines and the claims (R69, R88), the inputs and SYNC (R106,
R58), the generators (R119), the journal (R137), the notice unit (R156), the port (R168), the survey timer (R45); every
buffer empty, ATTN LOW; and every bound that steps keep holds. -/
def Obligations.ResetStateReadsAsStated : Prop :=
  State.reset.part = .config
    ∧ State.reset.engine.command = none
    ∧ readRegister State.reset .control = 0
    ∧ readRegister State.reset .exbLo = 0
    ∧ readRegister State.reset .exbHi = 0
    ∧ readRegister State.reset .cmdStatus = 0
    ∧ readRegister State.reset .partState = 0
    ∧ readRegister State.reset .noticeAck = 0
    ∧ attnPin State.reset = .low
    ∧ (∀ k, outPin State.reset k = none)
    ∧ (∀ n, (State.reset.lane n).state = .off ∧ (State.reset.lane n).queue = [] ∧ (State.reset.lane n).pages = [])
    ∧ (∀ n, let l := State.reset.lane n;
        l.hasCurrent = false ∧ l.wait = .none ∧ l.due = 0 ∧ l.anchor = 0 ∧ l.holdRequest = false ∧ l.fault = .none
          ∧ l.serial = 0 ∧ l.executed = 0 ∧ l.lateRuns = 0 ∧ l.skipped = 0 ∧ l.discarded = 0 ∧ l.pagesRetired = 0
          ∧ l.lastTag = 0 ∧ l.config = { head := 0, tolerance := 0, starveWarn := false, enable := false })
    ∧ (∀ n, let l := State.reset.lane n;
        l.running = false ∧ l.step = .head ∧ l.nextAddr = 0 ∧ l.fetchPage = none ∧ l.stall = .none ∧ l.request = none
          ∧ l.flight = none ∧ l.reserved = 0 ∧ l.pendingFault = none)
    ∧ (∀ k, State.reset.line k =
        { driveEnable := false, rest := .low, faultAction := .float, preassigned := none, mode := .float, owner := none,
          waiters := [] })
    ∧ (∀ k, let x := State.reset.input k;
        x.edgeSelect = .none ∧ x.captureEnable = false ∧ x.deadTime = 0 ∧ x.deadRunning = false ∧ x.deadEnd = 0)
    ∧ State.reset.inputsLive = false
    ∧ State.reset.sync.select = none ∧ State.reset.sync.report = false ∧ State.reset.sync.live = false
    ∧ State.reset.time = { elapsed := 0, schedule := 0, armed := false, armValue := 0 }
    ∧ (∀ g, let x := State.reset.gen g;
        x.source = 0 ∧ x.select = .none ∧ x.state = .unlocked ∧ x.period = 0 ∧ x.multiplier = 1 ∧ x.phaseMultiplier = 1
          ∧ x.subInterval = 16 ∧ x.clamped = false ∧ x.phaseStart = 0 ∧ x.nextIndex = 0 ∧ x.lastReal = 0
          ∧ x.virtuals = 0 ∧ x.holdoverSeen = false ∧ x.bound = none)
    ∧ State.reset.journal.state = .off
    ∧ State.reset.journal.fifo = []
    ∧ (let j := State.reset.journal;
        j.stall = .none ∧ j.step = .head ∧ j.nextAddr = 0 ∧ j.page = none ∧ j.linkPage = none ∧ j.flight = none
          ∧ j.flushTimer = none ∧ j.flushRequest = 0 ∧ j.pendingLoss = 0 ∧ j.sessionLoss = 0 ∧ j.lossReported = false
          ∧ j.fault = .none ∧ j.faultAddr = none ∧ j.pagesClosed = 0 ∧ j.head = 0 ∧ j.flushInterval = 0)
    ∧ (∀ k, State.reset.slot k =
        { sequence := 0, posted := 0, acknowledged := 0, secondary := false, details := .cleared, writeDue := false })
    ∧ State.reset.notice.issueQueue = [] ∧ State.reset.notice.inProgress = none
    ∧ State.reset.notice.gatherInterval = 0 ∧ State.reset.notice.gather = .idle
    ∧ State.reset.handed = []
    ∧ State.reset.port.path = []
    ∧ State.reset.port.last = .engine ∧ State.reset.port.live = true
    ∧ (∀ w ∈ State.reset.port.windows.toList, w = { base := 0, size := 0, cueRead := false, journal := false })
    ∧ State.reset.survey.expiry = none
    ∧ State.reset.time.elapsed = 0
    ∧ State.reset.time.schedule = 0
    ∧ State.reset.engine.session = 0
    ∧ Memory.wf State.reset.memory = true
    ∧ pathBounded State.reset = true
    ∧ failedAgrees State.reset = true
    ∧ fifoBounded State.reset = true
    ∧ addressAligned State.reset = true
    ∧ lanesBounded State.reset = true
    ∧ claimsSound State.reset = true
    ∧ bindingsSound State.reset = true
    ∧ sessionSound State.reset = true

/-- RESET_N LOW brings every block to the values it has after reset, in whatever state it was, and writes no memory;
only the sampled levels of the inputs and of SYNC, which follow the pins, and the answers that memory still owes are not
reset. The rising edge changes nothing but the pin (R193; that the levels and what memory owes stay is log 1
and log 8). -/
def Obligations.ResetNBringsResetValues : Prop :=
  ∀ s : State, ∃ t, exec (.resetN .low) s = .next t
    ∧ t.resetPin = .low
    ∧ t.part = .config
    ∧ (∀ n, t.lane n = Lane.reset)
    ∧ (∀ k, t.line k = OutLine.reset)
    ∧ (∀ k, outPin t k = none)
    ∧ (∀ k, t.input k = { InLine.reset .low with level := (s.input k).level })
    ∧ t.inputsLive = false
    ∧ t.sync = { SyncInput.reset .low with level := s.sync.level }
    ∧ t.time = Timekeeping.reset
    ∧ (∀ g, t.gen g = Generator.reset)
    ∧ t.journal = Journal.reset
    ∧ (∀ k, t.slot k = Slot.reset)
    ∧ t.notice.issueQueue = [] ∧ t.notice.inProgress = none ∧ t.notice.gatherInterval = 0 ∧ t.notice.gather = .idle
    ∧ t.notice.loadedMask = 0 ∧ t.notice.loadedInterval = 0
    ∧ t.handed = []
    ∧ t.port.last = .engine ∧ t.port.path = [] ∧ t.port.live = true
    ∧ t.port.windows = Vector.replicate 4 { base := 0, size := 0, cueRead := false, journal := false }
    ∧ t.engine = Engine.reset
    ∧ t.regs = { attnEnable := false, attnLowAsserted := false, exbLo := 0, exbHi := 0 }
    ∧ t.survey.expiry = none
    ∧ t.memory = s.memory
    ∧ exec (.resetN .high) t = .next { t with resetPin := .high }

/-- A soft reset, in every part state, gives the state that RESET_N gives, with the two address registers kept. The part is
in CONFIG and a START may follow at once; the answers to what was in flight are ignored, an error on them included: they
change nothing but the list of the answers memory owes and, for a write, memory by that write's own bytes: a completion
lands them, an error lands them or none of them, as a free value gives (which answer is taken for an ignored one is log 8,
what a failed write leaves log 7, an answer that nothing awaits log 4). -/
def Obligations.SoftResetKeepsOnlyTheAddress : Prop :=
  ∀ s : State, s.awake → ∃ t u, exec (.resetN .low) s = .next t ∧ exec .softReset s = .next u
    ∧ u = { t with
        resetPin := .high
        regs := { t.regs with exbLo := s.regs.exbLo, exbHi := s.regs.exbHi } }
    ∧ u.part = .config
    ∧ (∀ b, ∃ v, exec (.start b) u = .next v ∧ v.part = .starting)
    ∧ (∀ (w : Write) (rest : List Write), u.port.leftWrites = w :: rest →
        let landed := (performWrite w u).memory
        let answered := { u with port := { u.port with leftWrites := rest } }
        exec .writeComplete u = .next { answered with memory := landed }
        ∧ ∃ m, (m = u.memory ∨ m = landed)
          ∧ exec .writeError u = .next { answered with memory := m, choices := u.choices + 1 })
    ∧ (u.port.leftWrites = [] → exec .writeComplete u = .next u ∧ exec .writeError u = .next u)
    ∧ (∀ (i : Instr) (v : State), exec i u = .next v →
        ((∃ n d, i = .headFieldReadDone n d) ∨ (∃ n d, i = .headerReadDone n d) ∨ (∃ n cs, i = .cueBurstDone n cs)
          ∨ (∃ n d, i = .linkReadDone n d) ∨ (∃ n, i = .fetchReadError n) ∨ (∃ d, i = .journalHeadFieldReadDone d)
          ∨ (∃ d, i = .journalHeaderReadDone d) ∨ (∃ d, i = .journalLinkReadDone d) ∨ i = .journalReadError
          ∨ (∃ o bs, i = .startReadDone o bs) ∨ i = .startReadError ∨ (∃ d, i = .laneRestartReadDone d)
          ∨ i = .laneRestartReadError ∨ (∃ d, i = .journalRestartReadDone d) ∨ i = .journalRestartReadError
          ∨ (∃ d, i = .armAlignReadDone d) ∨ i = .armAlignReadError ∨ (∃ d, i = .alignNowReadDone d)
          ∨ i = .alignNowReadError) →
        v = { u with port := { u.port with leftReads := v.port.leftReads } })

/-- While RESET_N is LOW the port ignores writes: no register write and no command written to COMMAND has any effect. -/
def Obligations.HeldPartIgnoresWrites : Prop :=
  ∀ s : State, s.resetPin = .low →
    exec .softReset s = .next s
      ∧ (∀ v, exec (.controlWrite v) s = .next s)
      ∧ (∀ r v, exec (.registerWrite r v) s = .next s)
      ∧ (∀ v, exec (.noticeAck v) s = .next s)
      ∧ (∀ c, (commandShown c).isSome → exec c s = .next s)

/-- A CONTROL write without the soft reset bit sets the enable from bit 0 and the polarity from bit 1 and changes nothing
else, so ATTN shows the request through the new fields at once; one with the bit is a soft reset, which leaves both at
their reset values. EXB_LO and EXB_HI take a write in CONFIG, EXB_LO without its low 11 bits; in any other part state the
write is ignored, and so is a write to a read-only register. -/
def Obligations.RegisterWritesSetTheirFields : Prop :=
  ∀ (v : Word) (s : State), s.awake →
    (v.getLsbD 31 = false →
      exec (.controlWrite v) s
        = .next { s with regs := { s.regs with attnEnable := v.getLsbD 0, attnLowAsserted := v.getLsbD 1 } })
    ∧ (v.getLsbD 31 = true →
      exec (.controlWrite v) s = exec .softReset s
        ∧ ∃ t, exec (.controlWrite v) s = .next t ∧ t.regs.attnEnable = false ∧ t.regs.attnLowAsserted = false)
    ∧ (s.part = .config →
      exec (.registerWrite .exbLo v) s = .next { s with regs := { s.regs with exbLo := v &&& 0xFFFFF800#32 } }
        ∧ exec (.registerWrite .exbHi v) s = .next { s with regs := { s.regs with exbHi := v } })
    ∧ (s.part ≠ .config →
      exec (.registerWrite .exbLo v) s = .next s ∧ exec (.registerWrite .exbHi v) s = .next s)
    ∧ exec (.registerWrite .ident v) s = .next s
    ∧ exec (.registerWrite .cmdStatus v) s = .next s
    ∧ exec (.registerWrite .partState v) s = .next s

/-- PART_STATE shows the part state, the align-armed flag, the four lane states and the journal state that the blocks hold,
each in its bits. It is read-only and needs no memory write. The entry to FAILED changes neither a lane's bits nor the
journal's, and a step in FAILED, in a state where the blocks have ceased as the entry leaves them, does not change it while
the part stays in FAILED. After RESET_N or a soft reset it shows CONFIG, disarmed, every lane OFF and the journal OFF. -/
def Obligations.PartStateShowsTheBlocks : Prop :=
  ∀ s : State,
    (readRegister s .partState).extractLsb' 0 3 = BitVec.ofNat 3 s.part.code
      ∧ (readRegister s .partState).getLsbD 3 = s.time.armed
      ∧ (readRegister s .partState).extractLsb' 4 2 = BitVec.ofNat 2 s.journal.state.code
      ∧ (readRegister s .partState).extractLsb' 8 3 = BitVec.ofNat 3 (s.lane 0).state.code
      ∧ (readRegister s .partState).extractLsb' 11 3 = BitVec.ofNat 3 (s.lane 1).state.code
      ∧ (readRegister s .partState).extractLsb' 14 3 = BitVec.ofNat 3 (s.lane 2).state.code
      ∧ (readRegister s .partState).extractLsb' 17 3 = BitVec.ofNat 3 (s.lane 3).state.code
      ∧ (∀ v, exec (.registerWrite .partState v) s = .next s)
      ∧ (∀ m, readRegister { s with memory := m } .partState = readRegister s .partState)
      ∧ (∀ t, exec .writeError s = .next t →
          t.journal.state = s.journal.state ∧ ∀ n, (t.lane n).state = (s.lane n).state)
      ∧ (∀ t, s.part = .failed → failedQuiet s = true → step s = .next t → t.part = .failed →
          readRegister t .partState = readRegister s .partState)
      ∧ (∀ t, exec (.resetN .low) s = .next t → readRegister t .partState = 0)
      ∧ (s.awake → ∀ t, exec .softReset s = .next t → readRegister t .partState = 0)

/-- ATTN shows the attention request through the two fields of CONTROL: with the enable clear or the request false it is at
its deasserted level, else at its asserted one. The request is true exactly while the part is FAILED, while some PRIMARY
slot is pending, or while some SECONDARY slot is pending and the gather state is OPEN. A CONTROL write shows at once, and
after either reset the pin is LOW, whatever was written with a soft reset. -/
def Obligations.AttnShowsTheRequest : Prop :=
  ∀ s : State,
    (attentionRequest s = true ↔
      s.part = .failed
        ∨ (∃ k, (s.slot k).posted ≠ (s.slot k).acknowledged ∧ (s.slot k).secondary = false)
        ∨ ((∃ k, (s.slot k).posted ≠ (s.slot k).acknowledged ∧ (s.slot k).secondary = true)
            ∧ s.notice.gather = .opened))
    ∧ (s.regs.attnLowAsserted = false →
        (attnPin s = .high ↔ s.regs.attnEnable = true ∧ attentionRequest s = true))
    ∧ (s.regs.attnLowAsserted = true →
        (attnPin s = .low ↔ s.regs.attnEnable = true ∧ attentionRequest s = true))
    ∧ (∀ v, s.awake → v.getLsbD 31 = false → ∃ t, exec (.controlWrite v) s = .next t
        ∧ t.regs.attnEnable = v.getLsbD 0 ∧ t.regs.attnLowAsserted = v.getLsbD 1
        ∧ attentionRequest t = attentionRequest s)
    ∧ (∀ t, exec (.resetN .low) s = .next t → attnPin t = .low)
    ∧ (∀ v t, s.awake → v.getLsbD 31 = true → exec (.controlWrite v) s = .next t → attnPin t = .low)

/-- A NOTICE_ACK write of value v to a slot is taken in every part state if (v − a) mod 2^24 is not above (p − a) mod
2^24; the slot's acknowledged count becomes v, and where no slot is left pending the gather state becomes IDLE. In
FAILED the gather state keeps its value (DEDUCED from R166 and R167, log 33). Otherwise nothing changes. CMD_STATUS is
not changed. -/
def Obligations.NoticeAckIsTakenUpToThePostedCount : Prop :=
  ∀ (v : Word) (s : State), s.awake →
    let k : SlotNo := (v.extractLsb' 24 4).toFin
    let x := s.slot k
    let c : Count24 := v.setWidth 24
    ((c - x.acknowledged).toNat ≤ (x.posted - x.acknowledged).toNat →
      ∃ t, exec (.noticeAck v) s = .next t
        ∧ t.slot k = { x with acknowledged := c }
        ∧ (∀ j, j ≠ k → t.slot j = s.slot j)
        ∧ (s.part ≠ .failed → (∀ j, (t.slot j).posted = (t.slot j).acknowledged) → t.notice.gather = .idle)
        ∧ ((∃ j, (t.slot j).posted ≠ (t.slot j).acknowledged) → t.notice.gather = s.notice.gather)
        ∧ (s.part = .failed → t.notice.gather = s.notice.gather)
        ∧ readRegister t .cmdStatus = readRegister s .cmdStatus
        ∧ t = { s with notice := { s.notice with slots := t.notice.slots, gather := t.notice.gather } })
    ∧ (¬(c - x.acknowledged).toNat ≤ (x.posted - x.acknowledged).toNat → exec (.noticeAck v) s = .next s)

/-! ## Commands (R183, R184) -/

/-- A word written to COMMAND carries its code in bits 7 to 0 and its operand in bits 15 to 8; bits 31 to 16 are ignored. A
command is judged by the first case that holds: NONE is ignored; in FAILED it is refused with REFUSED_STATE; while a command
is in progress or the part is STARTING or STOPPING with REFUSED_BUSY; with BAD_OPERAND where the code names no command or a
lane operand is above 3; with REFUSED_STATE where Table 11-3 does not take it. A refusal changes the last fields of
CMD_STATUS and nothing else. That a code which names no command shows operand 0 is DEDUCED (log 27). -/
def Obligations.CommandsAreRefusedByTheFirstCase : Prop :=
  (∀ (high : Half) (b : Byte),
    commandOfWord (high ++ b ++ 1#8) = .start b ∧ commandOfWord (high ++ b ++ 2#8) = .stop b
      ∧ commandOfWord (high ++ b ++ 3#8) = .laneStop b ∧ commandOfWord (high ++ b ++ 4#8) = .laneRestart b
      ∧ commandOfWord (high ++ b ++ 5#8) = .journalRestart b ∧ commandOfWord (high ++ b ++ 6#8) = .armAlign b
      ∧ commandOfWord (high ++ b ++ 7#8) = .alignNow b ∧ commandOfWord (high ++ b ++ 8#8) = .resurvey b
      ∧ commandOfWord (high ++ b ++ 9#8) = .laneHold b ∧ commandOfWord (high ++ b ++ 10#8) = .laneResume b
      ∧ commandOfWord (high ++ b ++ 11#8) = .journalFlush b ∧ commandOfWord (high ++ b ++ 12#8) = .disarmAlign b
      ∧ (∀ code : Byte, code = 0#8 ∨ 13 ≤ code.toNat →
          commandOfWord (high ++ b ++ code) = .undefinedCommand code b))
  ∧ ∀ (c : Instr) (s : State), s.awake → c.wellFormed = true →
    (∀ operand, exec (.undefinedCommand 0 operand) s = .next s)
    ∧ ∀ code shown, commandShown c = some (code, shown) →
      let busy : Prop := s.engine.command ≠ none ∨ s.part = .starting ∨ s.part = .stopping
      (s.part = .failed → exec c s = .next (withLast s code shown .refusedState))
      ∧ (s.part ≠ .failed → busy → exec c s = .next (withLast s code shown .refusedBusy))
      ∧ (s.part ≠ .failed → ¬busy → commandKnown c = false →
          exec c s = .next (withLast s code shown .badOperand))
      ∧ (s.part ≠ .failed → ¬busy → commandKnown c = true → commandTakenIn s c = false →
          exec c s = .next (withLast s code shown .refusedState))

/-- A taken time-taking command sets busy and the busy code and leaves the last fields; a taken immediate command leaves busy
clear and sets the last fields to itself with DONE. No write to COMMAND changes a clock, a register or memory. -/
def Obligations.TakenCommandsShowInCmdStatus : Prop :=
  ∀ (c : Instr) (s : State), s.awake → s.engine.command = none → commandKnown c = true → commandTakenIn s c = true →
    ∀ code shown, commandShown c = some (code, shown) →
      ∃ t, exec c s = .next t
        ∧ t.regs = s.regs ∧ t.memory = s.memory ∧ t.time.elapsed = s.time.elapsed
        ∧ t.time.schedule = s.time.schedule
        ∧ (code.toNat ≤ 7 →
            (∃ d, t.engine.command = some d ∧ d.code = code)
              ∧ t.engine.lastCode = s.engine.lastCode ∧ t.engine.lastOperand = s.engine.lastOperand
              ∧ t.engine.lastOutcome = s.engine.lastOutcome)
        ∧ (8 ≤ code.toNat →
            t.engine.command = none ∧ t.engine.lastCode = code ∧ t.engine.lastOperand = shown
              ∧ t.engine.lastOutcome = .done)

/-- START in CONFIG enters STARTING and reads the configuration part. LANE_RESTART on a lane that is OFF, FAULTED or ENDED
reads the lane record, ARM_ALIGN disarms and reads the align value, ALIGN_NOW reads it: nothing else changes.
JOURNAL_RESTART on a STARVED or FAULTED journal reads its head field; a read presented or in flight is given up, and state,
stall point, fault code, FIFO and losses are kept. -/
def Obligations.ReadingCommandsPresentTheirRead : Prop :=
  ∀ (b : Byte) (s : State), s.awake → s.engine.command = none →
    let began : Command → EngineRead → Engine := fun c r =>
      { s.engine with command := some c, request := some r, await := .none, alignPost := .idle }
    (s.part = .config →
      exec (.start b) s = .next
        { s with
          part := .starting
          engine := { began (.start .first) .configuration with image := { bytes := 0, seen := 0 } } })
    ∧ (s.part = .active →
      (∀ n : LaneNo, (s.lane n).state = .off ∨ (s.lane n).state = .faulted ∨ (s.lane n).state = .ended →
        exec (.laneRestart (BitVec.ofNat 8 n.val)) s = .next { s with engine := began (.laneRestart n) .laneRecord })
      ∧ exec (.armAlign b) s = .next
          { s with time := { s.time with armed := false }, engine := began .armAlign .alignValue }
      ∧ exec (.alignNow b) s = .next { s with engine := began .alignNow .alignValue }
      ∧ (s.journal.state = .starved ∨ s.journal.state = .faulted →
        ∃ t, exec (.journalRestart b) s = .next t
          ∧ t = { s with engine := began .journalRestart .journalHead, journal := t.journal }
          ∧ t.journal.request = none ∧ (∀ f, t.journal.flight = some f → f.discard = true)
          ∧ t.journal = { s.journal with
              request := none
              flight := t.journal.flight
              resume := t.journal.resume }))

/-! ## START -/

/-- START's first read covers the magic field, the four bytes at 0x000, and the version field, the byte at 0x004: where they
do not hold 0x5A31D7C4 and 0x01 START ends with BAD_EXCHANGE; a read error ends it with BUS_ERROR. Either way the part is in
CONFIG, no block is changed and nothing is posted. While a field has not been read START reads on. Each read puts its bytes
at their offsets of the image held (how START cuts the part into reads is the model's choice: an answer names its offset and
its bytes, log 9). -/
def Obligations.StartReadsEndOrGoOn : Prop :=
  ∀ (offset : Nat) (bytes : List Byte) (s : State), awaitsEngine s .configuration →
    let im := s.engine.image.putAll offset bytes
    let ended : CmdOutcome → State := fun o =>
      { s with
        part := .config
        engine := { s.engine with
          flight := none
          command := none
          await := .none
          alignPost := .idle
          lastCode := codeStart
          lastOperand := 0
          lastOutcome := o } }
    (im.headRead = true ↔ ∀ k, k < 5 → im.seen.getLsbD k = true)
    ∧ (im.exchangeOk = true ↔
        im.bytes.extractLsb' 0 32 = 0x5A31D7C4#32 ∧ im.bytes.extractLsb' 32 8 = 0x01#8)
    ∧ (offset + bytes.length ≤ 0x300 → ∀ k, k < 0x300 →
        (∀ i, i < bytes.length → k = offset + i →
          im.bytes.extractLsb' (8 * k) 8 = bytes.getD i 0 ∧ im.seen.getLsbD k = true)
        ∧ (k < offset ∨ offset + bytes.length ≤ k →
          im.bytes.extractLsb' (8 * k) 8 = s.engine.image.bytes.extractLsb' (8 * k) 8
            ∧ im.seen.getLsbD k = s.engine.image.seen.getLsbD k))
    ∧ ((∃ p, s.engine.command = some (.start p)) → exec .startReadError s = .next (ended .busError))
    ∧ (0 < bytes.length → offset + bytes.length ≤ 0x300 →
      (s.engine.command = some (.start .first) → im.headRead = true → im.exchangeOk = false →
        exec (.startReadDone offset bytes) s = .next (ended .badExchange))
      ∧ ((s.engine.command = some (.start .first) ∧ im.headRead = true ∧ im.exchangeOk = true
            ∨ s.engine.command = some (.start .reading)) →
        im.complete = false →
        exec (.startReadDone offset bytes) s = .next
          { s with
            engine := { s.engine with
              flight := none
              request := some .configuration
              command := some (.start .reading)
              image := im
              await := .none
              alignPost := .idle } }))

/-- The last configuration read, which may be the first one where it covers everything: an invalid field ends START with
BAD_CONFIG and changes no configuration; valid values are loaded into the configuration copies of the lanes, lines, inputs,
SYNC, generators, journal, windows, survey timer and notice unit, the session number rises by one, and the engine is to write
the part status record. Neither a line's mode nor its owner changes, no count or class changes and no memory write is made.
What is valid is R187's table, at the offsets of Tables 12-1 and 12-2, and every loaded field is the one at its offset there.
An access passes the window check for a right where some loaded entry has the right and holds every byte of it (R174). The
notice step is at the issue of the part status
record: the record, OPEN with the session number, joins the path, the classes and the gather interval come into force, every
slot's counts become 0, nothing is left in the issue queue, the gather state is IDLE, no count write issued before carries a
count any more, and the engine is to write the sixteen slots (that they are the engine's writes is log 19). -/
def Obligations.StartValidatesAndLoads : Prop :=
  (∀ (offset : Nat) (bytes : List Byte) (s : State), awaitsEngine s .configuration →
    0 < bytes.length → offset + bytes.length ≤ 0x300 →
    let im := s.engine.image.putAll offset bytes
    s.engine.command = some (.start .reading) ∨ s.engine.command = some (.start .first) ∧ im.exchangeOk = true →
    im.complete = true →
    (im.valid = false → ∃ t, exec (.startReadDone offset bytes) s = .next t
      ∧ t.part = .config ∧ t.engine.command = none ∧ t.engine.session = s.engine.session
      ∧ t.engine.lastCode = codeStart ∧ t.engine.lastOperand = 0 ∧ t.engine.lastOutcome = .badConfig
      ∧ t = { s with part := t.part, engine := t.engine })
    ∧ (im.valid = true → ∃ t, exec (.startReadDone offset bytes) s = .next t
      ∧ t.part = s.part ∧ t.engine.command = some (.start .opening)
      ∧ t.engine.session = s.engine.session + 1
      ∧ t.engine.writes = [.partStatus true]
      ∧ (∀ n, t.lane n = { s.lane n with config := im.lane n })
      ∧ (∀ k x, im.out? k = some x → t.line k =
          { s.line k with
            driveEnable := x.driveEnable
            rest := x.rest
            faultAction := x.faultAction
            preassigned := x.preassigned })
      ∧ (∀ k e, im.edgeSelect? k = some e → t.input k =
          { s.input k with edgeSelect := e, captureEnable := im.captureEnable k, deadTime := im.deadTime k })
      ∧ (∀ e, im.syncSelect? = some e → t.sync = { s.sync with select := e, report := im.timeMarkReport })
      ∧ (∀ g k e, im.gen? g = some (k, e) → t.gen g = { s.gen g with source := k, select := e })
      ∧ t.journal = { s.journal with head := im.journalHead, flushInterval := im.flushInterval }
      ∧ t.port = { s.port with windows := #v[im.window 0, im.window 1, im.window 2, im.window 3] }
      ∧ t.survey = { s.survey with interval := im.surveyInterval }
      ∧ t.notice = { s.notice with loadedMask := im.classMask, loadedInterval := im.gatherInterval }
      ∧ t.inputsLive = s.inputsLive ∧ t.time = s.time ∧ t.handed = s.handed ∧ t.regs = s.regs
      ∧ t.memory = s.memory))
  ∧ (∀ im : ConfigImage,
    let byte : Nat → Nat := fun o => (im.bytes.extractLsb' (8 * o) 8).toNat
    let half : Nat → Nat := fun o => (im.bytes.extractLsb' (8 * o) 16).toNat
    let addr : Nat → Nat := fun o => (im.bytes.extractLsb' (8 * o) 64).toNat
    let bit : Nat → Nat → Bool := fun o k => im.bytes.getLsbD (8 * o + k)
    let edgeCode : EdgeSelect → Nat := fun e => match e with
      | .none => 0
      | .rise => 1
      | .fall => 2
      | .either => 3
    (im.valid = true ↔
      (∀ n : LaneNo, bit (0x04A + 16 * n.val) 0 = true → addr (0x040 + 16 * n.val) % 512 = 0)
        ∧ addr 0x080 % 512 = 0
        ∧ (∀ k : LineNo, byte (0x101 + 4 * k.val) ≤ 1 ∧ byte (0x102 + 4 * k.val) ≤ 3
            ∧ (byte (0x103 + 4 * k.val) = 0xFF
              ∨ byte (0x103 + 4 * k.val) ≤ 3 ∧ bit (0x100 + 4 * k.val) 0 = true))
        ∧ (∀ k : LineNo, byte (0x140 + 4 * k.val) ≤ 3)
        ∧ byte 0x096 ≤ 2
        ∧ (∀ g : GenNo, byte (0x0A0 + 4 * g.val) ≤ 15 ∧ byte (0x0A1 + 4 * g.val) ≤ 3)
        ∧ (∀ i : Fin 4, bit (0x0C9 + 16 * i.val) 0 = false ∧ bit (0x0C9 + 16 * i.val) 1 = false
            ∨ byte (0x0C8 + 16 * i.val) ≤ 20
              ∧ addr (0x0C0 + 16 * i.val) % (4096 * 2 ^ byte (0x0C8 + 16 * i.val)) = 0))
    ∧ (∀ n : LaneNo, (im.lane n).head.toNat = addr (0x040 + 16 * n.val)
        ∧ (im.lane n).tolerance.toNat = half (0x048 + 16 * n.val)
        ∧ (im.lane n).enable = bit (0x04A + 16 * n.val) 0 ∧ (im.lane n).starveWarn = bit (0x04A + 16 * n.val) 1)
    ∧ im.journalHead.toNat = addr 0x080 ∧ im.flushInterval.toNat = half 0x088
    ∧ im.surveyInterval.toNat = half 0x090 ∧ im.gatherInterval.toNat = half 0x092
    ∧ im.classMask.toNat = half 0x094 ∧ im.timeMarkReport = bit 0x097 0
    ∧ (∀ k : LineNo, im.captureEnable k = bit (0x141 + 4 * k.val) 0
        ∧ (im.deadTime k).toNat = half (0x142 + 4 * k.val))
    ∧ (∀ i : Fin 4, (im.window i.val).base.toNat = addr (0x0C0 + 16 * i.val)
        ∧ (im.window i.val).size.toNat = byte (0x0C8 + 16 * i.val)
        ∧ (im.window i.val).cueRead = bit (0x0C9 + 16 * i.val) 0
        ∧ (im.window i.val).journal = bit (0x0C9 + 16 * i.val) 1)
    ∧ (∀ k x, im.out? k = some x → x.driveEnable = bit (0x100 + 4 * k.val) 0
        ∧ byte (0x101 + 4 * k.val) = (match x.rest with
          | .low => 0
          | .high => 1)
        ∧ byte (0x102 + 4 * k.val) = (match x.faultAction with
          | .driveLow => 0
          | .driveHigh => 1
          | .hold => 2
          | .float => 3)
        ∧ byte (0x103 + 4 * k.val) = (match x.preassigned with
          | none => 0xFF
          | some n => n.val))
    ∧ (∀ k e, im.edgeSelect? k = some e → byte (0x140 + 4 * k.val) = edgeCode e)
    ∧ (∀ e, im.syncSelect? = some e → byte 0x096 = match e with
        | none => 0
        | some .rise => 1
        | some .fall => 2)
    ∧ (∀ g k e, im.gen? g = some (k, e) → byte (0x0A0 + 4 * g.val) = k.val ∧ byte (0x0A1 + 4 * g.val) = edgeCode e))
  ∧ (∀ (s : State) (right : Right) (a : Addr) (len : Nat), windowOk s right a len = true ↔
      ∃ i : Fin 4, (match right with
          | .cueRead => s.port.windows[i].cueRead
          | .journal => s.port.windows[i].journal) = true
        ∧ s.port.windows[i].base.toNat ≤ a.toNat
        ∧ a.toNat + len ≤ s.port.windows[i].base.toNat + 4096 * 2 ^ s.port.windows[i].size.toNat)
  ∧ (∀ s : State, s.engine.command = some (.start .opening) → s.engine.writes = [.partStatus true] →
    let u := issueAccess (.engineWrite (.partStatus true)) s
    u.engine = { s.engine with command := some (.start .writing), writes := allSlots.map EngineWrite.clearSlot }
      ∧ u.port.path.map (fun w => (w.addr, w.bytes))
          = s.port.path.map (fun w => (w.addr, w.bytes))
            ++ [(exbAddr s + 0x500#64, partStatusBytes true s.engine.session s.time.schedule)]
      ∧ (∀ w ∈ u.port.path, ∀ k c, w.tag ≠ .noticeCount k c)
      ∧ (∀ k : SlotNo, (u.slot k).sequence = 0 ∧ (u.slot k).posted = 0 ∧ (u.slot k).acknowledged = 0
          ∧ (u.slot k).secondary = s.notice.loadedMask.getLsbD k.val ∧ (u.slot k).writeDue = false)
      ∧ u.notice.issueQueue = [] ∧ u.notice.gather = .idle ∧ u.notice.gatherInterval = s.notice.loadedInterval
      ∧ (∀ k, StatusItem.noticeDetails k ∉ u.handed)
      ∧ u.lanes = s.lanes ∧ u.lines = s.lines ∧ u.journal = s.journal ∧ u.memory = s.memory)

/-- Once START's last write has been issued: the part is ACTIVE, busy is clear, the last fields show START with DONE,
COMMAND is posted, the inputs and SYNC are live, the arm is disarmed with value 0 and the clocks are as they were. Every
drive-enabled line is STATIC at its rest level and owned by its pre-assigned lane if that is enabled, else free, with no
waiter (a lane that faults at this start gives its lines their fault action); every disabled line is as it was. Each
generator has its START values; each disabled lane is OFF; each enabled lane and the journal start at the head address:
0 stalls at HEAD_FIELD, a page that the windows hold has its header read presented, a page outside them is WINDOW. The
survey timer starts where its interval is above 0. -/
def Obligations.StartActivatesThePart : Prop :=
  ∀ s : State, s.awake → s.part = .starting → s.engine.command = some (.start .writing) → s.engine.writes = [] →
    ∃ t, exec .startActivate s = .next t
      ∧ t.part = .active ∧ t.engine.command = none
      ∧ t.engine.lastCode = codeStart ∧ t.engine.lastOperand = 0 ∧ t.engine.lastOutcome = .done
      ∧ (t.slot commandSlot).details = .command codeStart 0 .done
      ∧ t.inputsLive = true ∧ t.sync = { s.sync with live := true }
      ∧ t.time = { s.time with armed := false, armValue := 0 }
      ∧ (∀ k, (s.line k).driveEnable = true →
          ((s.line k).preassigned.filter fun n => (s.lane n).config.enable) = none →
          t.line k = { s.line k with mode := .static (s.line k).rest, owner := none, waiters := [] })
      ∧ (∀ k n, (s.line k).driveEnable = true → (s.line k).preassigned = some n → (s.lane n).config.enable = true →
          (t.line k).owner = some n ∧ (t.line k).waiters = []
            ∧ ((t.lane n).state ≠ .faulted → (t.line k).mode = .static (s.line k).rest))
      ∧ (∀ k, (s.line k).driveEnable = false → (s.line k).mode = .float → (s.line k).owner = none →
          (s.line k).waiters = [] → t.line k = s.line k)
      ∧ (∀ k, t.input k = { s.input k with deadRunning := false, deadEnd := 0 })
      ∧ (∀ g, t.gen g =
          { s.gen g with
            state := .unlocked
            period := 0
            multiplier := 1
            phaseMultiplier := 1
            subInterval := 16
            clamped := false
            virtuals := 0
            holdoverSeen := false
            bound := none })
      ∧ (∀ n, (s.lane n).config.enable = false → (t.lane n).state = .off ∧ (t.lane n).anchor = 0)
      ∧ (∀ n, (s.lane n).config.enable = true → (s.lane n).config.head = 0 →
          (t.lane n).state = .starved ∧ (t.lane n).anchor = s.time.schedule ∧ (t.lane n).serial = 0
            ∧ (t.lane n).stall = .headField ∧ (t.lane n).request = none)
      ∧ (∀ n, let head := (s.lane n).config.head;
          (s.lane n).config.enable = true → head ≠ 0 → head.toNat % 512 = 0 → (s.lane n).pages.length < 17 →
          (t.lane n).anchor = s.time.schedule ∧ (t.lane n).serial = 0
            ∧ (windowOk s .cueRead head 32 = true →
                (t.lane n).state = .starved ∧ (t.lane n).stall = .none ∧ (t.lane n).step = .header
                  ∧ (t.lane n).nextAddr = head ∧ (t.lane n).request = some .header ∧ (t.lane n).fault = .none)
            ∧ (windowOk s .cueRead head 32 = false →
                (t.lane n).state = .faulted ∧ (t.lane n).fault = .window ∧ (t.lane n).running = false))
      ∧ (let j := s.journal;
          t.journal.fifo = j.fifo ∧ t.journal.page = none ∧ t.journal.linkPage = none ∧ t.journal.flushTimer = none
            ∧ t.journal.flushRequest = 0 ∧ t.journal.pendingLoss = 0 ∧ t.journal.sessionLoss = 0
            ∧ t.journal.lossReported = false ∧ t.journal.pagesClosed = 0
            ∧ (j.head = 0 → t.journal.state = .starved ∧ t.journal.stall = .headField ∧ t.journal.request = none)
            ∧ (j.head ≠ 0 → j.head.toNat % 512 = 0 → windowOk s .journal j.head 32 = true →
                t.journal.state = .starved ∧ t.journal.stall = .none ∧ t.journal.nextAddr = j.head
                  ∧ t.journal.request = some .header ∧ t.journal.fault = .none)
            ∧ (j.head ≠ 0 → j.head.toNat % 512 = 0 → windowOk s .journal j.head 32 = false →
                t.journal.state = .faulted ∧ t.journal.fault = .window ∧ t.journal.faultAddr = some j.head))
      ∧ (s.survey.interval = 0 → t.survey = s.survey)
      ∧ (s.survey.interval ≠ 0 → t.survey =
          { s.survey with
            expiry := some (s.time.elapsed + BitVec.ofNat 48 (125 * s.survey.interval.toNat)) })
      ∧ t.regs = s.regs ∧ t.port = s.port ∧ t.memory = s.memory

/-! ## STOP -/

/-- STOP is taken in ACTIVE: the part enters STOPPING, the inputs and SYNC are no longer live, the arm is disarmed with
its value kept, the survey timer stops, every lane is OFF with an empty queue, and the flush timer and request are
dropped. The stops release the lanes' lines: with no waiter anywhere each owned line goes STATIC at its rest level and
free and each other line is as it was; and whatever waits, in a state whose claims are sound no line is owned or waited
for afterwards, and a line that was owned is STATIC at its rest level. -/
def Obligations.StopQuietsThePart : Prop :=
  ∀ (b : Byte) (s : State), s.awake → s.part = .active → s.engine.command = none →
    ∃ t, exec (.stop b) s = .next t
      ∧ t.part = .stopping ∧ t.engine.command = some (.stop false)
      ∧ t.inputsLive = false ∧ t.sync.live = false
      ∧ t.time = { s.time with armed := false }
      ∧ t.survey.expiry = none
      ∧ (∀ n, (t.lane n).state = .off ∧ (t.lane n).queue = [] ∧ (t.lane n).running = false)
      ∧ t.journal.flushTimer = none ∧ t.journal.flushRequest = 0
      ∧ t.memory = s.memory
      ∧ ((∀ k, (s.line k).waiters = []) →
          (∀ k, (s.line k).owner ≠ none →
            t.line k = { s.line k with mode := .static (s.line k).rest, owner := none })
          ∧ (∀ k, (s.line k).owner = none → t.line k = s.line k))
      ∧ (claimsSound s = true → ∀ k, (t.line k).owner = none ∧ (t.line k).waiters = []
          ∧ ((s.line k).owner ≠ none → (t.line k).mode = .static (s.line k).rest))

/-- STOP's status step, when the drain has ended and every retirement and lane status write has been issued: the journal's
and both generators' records are among the writes to be made and the engine is to write the part status record CLOSED.
STOP's float step, when every write of STOP has been issued and has completed: every line is FLOAT with no owner, each
generator has its float values, the part is in CONFIG, busy is clear, the last fields show STOP with DONE and COMMAND is
posted; the configuration fields and the lanes are kept. The issue of a journal, generator or part status record appends one
write to the path, whose bytes hold the fields of Table 12-3 as they are at that moment (its length is log 39). -/
def Obligations.StopTakesItsStepsAndCompletes : Prop :=
  ∀ s : State,
    (s.awake → s.engine.command = some (.stop false) → s.journal.draining = false →
      (∀ n, StatusItem.laneStatus n ∉ s.handed ∧ StatusItem.retireSummary n ∉ s.handed
        ∧ StatusItem.retireOwner n ∉ s.handed) →
      ∃ t, exec .stopStatusStep s = .next t
        ∧ StatusItem.journalStatus ∈ t.handed ∧ (∀ g, StatusItem.genStatus g ∈ t.handed)
        ∧ (∀ it ∈ s.handed, it ∈ t.handed)
        ∧ t = { s with
            handed := t.handed
            engine := { s.engine with command := some (.stop true), writes := [.partStatus false] } })
    ∧ (s.awake → s.engine.command = some (.stop true) → s.engine.writes = [] →
      (∀ it ∈ s.handed, it.isNotice = true) → (∀ w ∈ s.port.path, w.tag ≠ .data) →
      ∃ t, exec .stopFloatStep s = .next t
        ∧ t.part = .config ∧ t.engine.command = none
        ∧ t.engine.lastCode = codeStop ∧ t.engine.lastOperand = 0 ∧ t.engine.lastOutcome = .done
        ∧ (∀ k, t.line k = { s.line k with mode := .float, owner := none, waiters := [] })
        ∧ (∀ g, t.gen g =
            { s.gen g with state := .unlocked, period := 0, virtuals := 0, holdoverSeen := false, bound := none })
        ∧ (t.slot commandSlot).details = .command codeStop 0 .done
        ∧ t.lanes = s.lanes ∧ t.inputs = s.inputs ∧ t.journal = s.journal ∧ t.port = s.port ∧ t.time = s.time
        ∧ t.regs = s.regs ∧ t.memory = s.memory)
    ∧ (∃ w, (issueAccess (.status .journalStatus) s).port.path = s.port.path ++ [w]
        ∧ w.addr = exbAddr s + 0x510#64 ∧ w.bytes.length = 48 ∧ w.tag = .data
        ∧ numberAt w.bytes 0 1 = s.journal.state.code ∧ numberAt w.bytes 1 1 = s.journal.stall.code
        ∧ numberAt w.bytes 2 1 = s.journal.fault.code
        ∧ (∀ a i, s.journal.page = some (a, i) → numberAt w.bytes 3 1 = i % 256 ∧ numberAt w.bytes 8 8 = a.toNat)
        ∧ (s.journal.page = none → numberAt w.bytes 8 8 = 0)
        ∧ numberAt w.bytes 4 1 = s.journal.fifo.length % 256
        ∧ numberAt w.bytes 5 1 = s.journal.flushRequest % 256
        ∧ numberAt w.bytes 16 4 = s.journal.pendingLoss.toNat ∧ numberAt w.bytes 20 4 = s.journal.sessionLoss.toNat
        ∧ numberAt w.bytes 24 4 = s.journal.pagesClosed.toNat ∧ numberAt w.bytes 32 8 = s.time.schedule.toNat)
    ∧ (∀ g : GenNo, ∃ w, (issueAccess (.status (.genStatus g)) s).port.path = s.port.path ++ [w]
        ∧ w.addr = exbAddr s + BitVec.ofNat 64 (0x540 + 32 * g.val) ∧ w.bytes.length = 32 ∧ w.tag = .data
        ∧ numberAt w.bytes 0 1 = (s.gen g).state.code
        ∧ numberAt w.bytes 1 1 = (if (s.gen g).clamped then 1 else 0) + (if (s.gen g).holdoverSeen then 2 else 0)
        ∧ (∀ k, (s.gen g).bound = some k → numberAt w.bytes 2 1 = k.val)
        ∧ ((s.gen g).bound = none → numberAt w.bytes 2 1 = 0xFF)
        ∧ numberAt w.bytes 4 2 = (s.gen g).multiplier % 65536
        ∧ numberAt w.bytes 6 2 = (s.gen g).virtuals.toNat
        ∧ numberAt w.bytes 8 4 = (s.gen g).period.toNat ∧ numberAt w.bytes 12 4 = (s.gen g).subInterval.toNat
        ∧ numberAt w.bytes 16 8 = s.time.schedule.toNat)
    ∧ (∀ opened : Bool, s.engine.command ≠ some (.start .opening) →
        ∃ w, (issueAccess (.engineWrite (.partStatus opened)) s).port.path = s.port.path ++ [w]
          ∧ w.addr = exbAddr s + 0x500#64 ∧ w.tag = .data
          ∧ w.bytes = partStatusBytes opened s.engine.session s.time.schedule)
    ∧ (∀ opened : Bool, let bytes := partStatusBytes opened s.engine.session s.time.schedule;
        bytes.length = 16 ∧ numberAt bytes 0 1 = (if opened then 1 else 2)
          ∧ numberAt bytes 4 4 = s.engine.session.toNat ∧ numberAt bytes 8 8 = s.time.schedule.toNat)

/-! ## Commands on lanes -/

/-- LANE_STOP leaves the lane OFF with no cue, no wait, no hold request and a stopped fetcher; every page of its list is
retiring, an OPEN one with STOPPED at the schedule time of the stop, and the engine waits for the status write. The fault
code is kept. Its lines are released: with no waiter anywhere each goes STATIC at its rest level and free, and no other line
and no other lane changes; and whatever waits, in a state whose claims are sound the lane owns and waits for no line
afterwards. The lane status record, whenever it is issued and so also while LANE_STOP waits for it, holds the fields of Table
12-3 as they are at that moment (its length is log 39); the write that LANE_STOP waits for is marked so. -/
def Obligations.LaneStopClosesTheLane : Prop :=
  (∀ (n : LaneNo) (s : State), s.awake → s.part = .active → s.engine.command = none →
    ∃ t, exec (.laneStop (BitVec.ofNat 8 n.val)) s = .next t
      ∧ t.engine.command = some (.laneStop n) ∧ t.engine.await = .toIssue
      ∧ (t.lane n).state = .off ∧ (t.lane n).queue = [] ∧ (t.lane n).wait = .none
      ∧ (t.lane n).holdRequest = false ∧ (t.lane n).running = false ∧ (t.lane n).stall = .none
      ∧ (t.lane n).fault = (s.lane n).fault
      ∧ (t.lane n).pages = (s.lane n).pages.map (fun p => match p.retiring with
          | some _ => p
          | none => { p with
              discarded := p.count - p.executed - p.skipped
              retiring := some (.stopped, s.time.schedule) })
      ∧ ((∀ k, (s.line k).waiters = []) →
          (∀ k, (s.line k).owner = some n →
            t.line k = { s.line k with mode := .static (s.line k).rest, owner := none })
          ∧ (∀ k, (s.line k).owner ≠ some n → t.line k = s.line k)
          ∧ (∀ m, m ≠ n → t.lane m = s.lane m))
      ∧ (claimsSound s = true → ∀ k, (t.line k).owner ≠ some n ∧ (t.line k).lists n = false))
  ∧ ∀ (n : LaneNo) (s : State),
      ∃ w, (issueAccess (.status (.laneStatus n)) s).port.path = s.port.path ++ [w]
        ∧ (s.engine.command = some (.laneStop n) → s.engine.await = .toIssue → w.awaited = true)
        ∧ w.addr = exbAddr s + BitVec.ofNat 64 (0x580 + 64 * n.val) ∧ w.bytes.length = 64 ∧ w.tag = .data
        ∧ numberAt w.bytes 0 1 = (s.lane n).state.code
        ∧ numberAt w.bytes 1 1 = (if (s.lane n).holdRequest then 1 else 0)
        ∧ numberAt w.bytes 2 1 = (s.lane n).fault.code ∧ numberAt w.bytes 3 1 = (s.lane n).stall.code
        ∧ (∀ v, (s.lane n).wait = .input v → numberAt w.bytes 4 1 = v.line.val)
        ∧ (∀ k, (s.lane n).wait = .claim k → numberAt w.bytes 4 1 = k.val)
        ∧ ((s.lane n).wait = .none → numberAt w.bytes 4 1 = 0xFF)
        ∧ numberAt w.bytes 5 1 = (s.lane n).queue.length % 256
        ∧ numberAt w.bytes 6 1 = (s.lane n).pages.length % 256
        ∧ numberAt w.bytes 8 4 = (s.lane n).serial.toNat ∧ numberAt w.bytes 16 8 = (s.lane n).anchor.toNat
        ∧ numberAt w.bytes 24 4 = (s.lane n).executed.toNat ∧ numberAt w.bytes 28 4 = (s.lane n).lateRuns.toNat
        ∧ numberAt w.bytes 32 4 = (s.lane n).skipped.toNat ∧ numberAt w.bytes 36 4 = (s.lane n).discarded.toNat
        ∧ numberAt w.bytes 40 4 = (s.lane n).pagesRetired.toNat
        ∧ numberAt w.bytes 48 8 = s.time.schedule.toNat

/-- The lane record read by LANE_RESTART completes: the configuration copy is loaded, the counts, the serial and the last
retired tag are 0, the anchor is the schedule time, and the status write is awaited. A lane whose head address is 0 is
STARVED with its fetcher stalled at HEAD_FIELD; one whose head address is a multiple of 512 in a CUE_READ window is STARVED
with that page's header read presented. A head address that is no multiple of 512 faults the STARVED lane with BAD_LINK, and
one outside every CUE_READ window with WINDOW; its EXCEPTION is owed with the head address (log 17). Else the fault code is
NONE. Its lines are released: with no waiter anywhere each goes STATIC at its rest level and free, and no other line and no
other lane changes; and whatever waits, in a state whose claims are sound the lane owns no line when it starts. -/
def Obligations.LaneRestartStartsTheLane : Prop :=
  ∀ (n : LaneNo) (data : BitVec 128) (s : State), awaitsEngine s .laneRecord →
    s.engine.command = some (.laneRestart n) →
    ((s.lane n).state = .off ∨ (s.lane n).state = .faulted ∨ (s.lane n).state = .ended) →
    let head : Addr := data.extractLsb' 0 64
    let runs : State → Prop := fun t =>
      (t.lane n).state = .starved ∧ (t.lane n).running = true ∧ (t.lane n).fault = .none ∧ (t.lane n).discarded = 0
    let faults : State → FaultCode → Prop := fun t c =>
      (t.lane n).state = .faulted ∧ (t.lane n).fault = c ∧ (t.lane n).running = false ∧ (t.lane n).stall = .none
        ∧ (t.lane n).request = none ∧ (t.lane n).queue = []
        ∧ ((s.lane n).queue = [] → (t.lane n).discarded = 0)
        ∧ (t.lane n).exceptions =
            (s.lane n).exceptions ++ [{ state := .faulted, code := c, serial := 0, page := head }]
    ∃ t, exec (.laneRestartReadDone data) s = .next t
      ∧ t.engine.command = some (.laneRestart n) ∧ t.engine.await = .toIssue ∧ t.engine.flight = none
      ∧ (t.lane n).config = { head := head, tolerance := data.extractLsb' 64 16, enable := data.getLsbD 80,
                              starveWarn := data.getLsbD 81 }
      ∧ (t.lane n).executed = 0 ∧ (t.lane n).lateRuns = 0 ∧ (t.lane n).skipped = 0
      ∧ (t.lane n).pagesRetired = 0 ∧ (t.lane n).serial = 0 ∧ (t.lane n).lastTag = 0
      ∧ (t.lane n).anchor = s.time.schedule
      ∧ (head = 0 → runs t ∧ (t.lane n).stall = .headField)
      ∧ (head.toNat % 512 ≠ 0 → faults t .badLink)
      ∧ (head ≠ 0 → head.toNat % 512 = 0 → (s.lane n).pages.length < 17 → windowOk s .cueRead head 32 = true →
          runs t ∧ (t.lane n).stall = .none ∧ (t.lane n).request = some .header ∧ (t.lane n).nextAddr = head
            ∧ (t.lane n).step = .header)
      ∧ (head ≠ 0 → head.toNat % 512 = 0 → (s.lane n).pages.length < 17 → windowOk s .cueRead head 32 = false →
          faults t .window)
      ∧ t.memory = s.memory ∧ t.time = s.time
      ∧ ((∀ k, (s.line k).waiters = []) →
          (∀ k, (s.line k).owner = some n →
            t.line k = { s.line k with mode := .static (s.line k).rest, owner := none })
          ∧ (∀ k, (s.line k).owner ≠ some n → t.line k = s.line k)
          ∧ (∀ m, m ≠ n → t.lane m = s.lane m))
      ∧ (claimsSound s = true → ∀ k, (t.line k).owner ≠ some n)

/-- A read error ends LANE_RESTART, JOURNAL_RESTART, ARM_ALIGN and ALIGN_NOW with BUS_ERROR: busy clears, the last fields
show the command, COMMAND is posted, and neither a lane, a line nor the clocks and the arm change. -/
def Obligations.ReadErrorsEndCommandsWithBusError : Prop :=
  ∀ (c : Command) (i : Instr) (r : EngineRead) (s : State), awaitsEngine s r → s.engine.command = some c →
    ((i = .laneRestartReadError ∧ r = .laneRecord ∧ ∃ n, c = .laneRestart n)
      ∨ (i = .journalRestartReadError ∧ r = .journalHead ∧ c = .journalRestart)
      ∨ (i = .armAlignReadError ∧ r = .alignValue ∧ c = .armAlign)
      ∨ (i = .alignNowReadError ∧ r = .alignValue ∧ c = .alignNow)) →
    ∃ t, exec i s = .next t
      ∧ t.engine = { s.engine with
          flight := none
          command := none
          await := .none
          alignPost := .idle
          lastCode := c.code
          lastOperand := c.operand
          lastOutcome := .busError }
      ∧ (t.slot commandSlot).details = .command c.code c.operand .busError
      ∧ t.lanes = s.lanes ∧ t.lines = s.lines ∧ t.time = s.time ∧ t.part = s.part ∧ t.memory = s.memory
      ∧ (i ≠ .journalRestartReadError → t.journal = s.journal)
      ∧ (i = .journalRestartReadError → t.journal.state = s.journal.state ∧ t.journal.stall = s.journal.stall
          ∧ t.journal.fault = s.journal.fault ∧ t.journal.fifo = s.journal.fifo
          ∧ (∀ k, s.journal.resume = some k → t.journal.request = some k)
          ∧ (s.journal.resume = none → t.journal.request = s.journal.request))

/-- LANE_STOP, LANE_RESTART and JOURNAL_RESTART complete with DONE once their status write has completed, ALIGN_NOW once its
ALIGNMENT posting has been issued: busy clears, the last fields show the command, and COMMAND is posted with its code,
operand and outcome. -/
def Obligations.CommandsCompleteWithDone : Prop :=
  ∀ (c : Command) (i : Instr) (s : State), s.awake → s.engine.command = some c →
    ((i = .laneStopComplete ∧ (∃ n, c = .laneStop n) ∧ s.engine.await = .completed)
      ∨ (i = .laneRestartComplete ∧ (∃ n, c = .laneRestart n) ∧ s.engine.await = .completed)
      ∨ (i = .journalRestartComplete ∧ c = .journalRestart ∧ s.engine.await = .completed)
      ∨ (i = .alignNowComplete ∧ c = .alignNow ∧ s.engine.alignPost = .issued)) →
    ∃ t, exec i s = .next t
      ∧ t.engine = { s.engine with
          command := none
          await := .none
          alignPost := .idle
          lastCode := c.code
          lastOperand := c.operand
          lastOutcome := .done }
      ∧ (t.slot commandSlot).details = .command c.code c.operand .done
      ∧ (∀ k, k ≠ commandSlot → t.slot k = s.slot k)
      ∧ t = { s with engine := t.engine, notice := t.notice, handed := t.handed }

/-- LANE_HOLD is taken with DONE on a lane that is not OFF, FAULTED or ENDED: STARVED and PENDING enter HELD with the current
cue and its due kept, a waiting lane's hold request is set, a HELD lane does not change. LANE_RESUME clears a waiting lane's
hold request and the wait runs on; a HELD lane whose current cue's due is not reached enters PENDING. Nothing else of any
lane, line, input, generator or the journal changes. A HELD lane without a current cue takes the head of its queue with the
next serial: the bad mark faults with BAD_CUE; an ABS cue whose due lies before the anchor faults with ORDER; else the due is
the field's value, or for a REL cue the anchor plus it, the anchor takes the due, and a due not reached leaves the lane
PENDING. With an empty queue it takes the pending fault, or else is STARVED. -/
def Obligations.HoldAndResumeActByTheLaneState : Prop :=
  ∀ (n : LaneNo) (s : State), s.awake → s.part = .active → s.engine.command = none →
    let shown : Byte → Engine := fun code =>
      { s.engine with lastCode := code, lastOperand := BitVec.ofNat 8 n.val, lastOutcome := .done }
    let became : State → Byte → Lane → Prop := fun t code l =>
      t = { s with engine := shown code, lanes := t.lanes, handed := t.handed }
        ∧ t.lane n = l ∧ ∀ m, m ≠ n → t.lane m = s.lane m
    let x := s.lane n
    (x.state = .starved ∨ x.state = .pending →
      ∃ t, exec (.laneHold (BitVec.ofNat 8 n.val)) s = .next t ∧ became t codeLaneHold { x with state := .held }
        ∧ StatusItem.laneStatus n ∈ t.handed)
    ∧ (x.state = .waitInput ∨ x.state = .waitLine →
      ∃ t, exec (.laneHold (BitVec.ofNat 8 n.val)) s = .next t ∧ became t codeLaneHold { x with holdRequest := true })
    ∧ (x.state = .held →
      exec (.laneHold (BitVec.ofNat 8 n.val)) s = .next { s with engine := shown codeLaneHold })
    ∧ ((x.state = .waitInput ∨ x.state = .waitLine) ∧ x.holdRequest = true →
      ∃ t, exec (.laneResume (BitVec.ofNat 8 n.val)) s = .next t
        ∧ became t codeLaneResume { x with holdRequest := false })
    ∧ (x.state = .held → (∃ c, x.current = some c) → ¬(s.time.schedule - x.due).toNat < 2 ^ 47 →
      ∃ t, exec (.laneResume (BitVec.ofNat 8 n.val)) s = .next t
        ∧ became t codeLaneResume { x with state := .pending } ∧ StatusItem.laneStatus n ∈ t.handed)
    ∧ (x.state = .held → x.hasCurrent = false → x.holdRequest = false → x.wait = .none →
      let faults : FaultCode → Word → Addr → Prop := fun code serial page =>
        ∃ t, exec (.laneResume (BitVec.ofNat 8 n.val)) s = .next t
          ∧ laneFaulted s t n code serial page
          ∧ t.fixed = { s.fixed with engine := shown codeLaneResume }
      (∀ page rest, x.queue = { cue := none, page := page } :: rest → faults .badCue (x.serial + 1) page)
      ∧ (∀ c page rest, x.queue = { cue := some c, page := page } :: rest →
          let due : Ticks := if c.rel then x.anchor + c.due else c.due
          (c.rel = false → c.due ≠ x.anchor → (x.anchor - c.due).toNat < 2 ^ 47 →
            faults .order (x.serial + 1) page)
          ∧ ((c.rel = true ∨ c.due = x.anchor ∨ ¬(x.anchor - c.due).toNat < 2 ^ 47) →
              ¬(s.time.schedule - due).toNat < 2 ^ 47 →
              ∃ t, exec (.laneResume (BitVec.ofNat 8 n.val)) s = .next t
                ∧ became t codeLaneResume
                    { x with state := .pending, hasCurrent := true, serial := x.serial + 1, due := due, anchor := due }))
      ∧ (x.queue = [] → ∀ code addr, x.pendingFault = some (code, addr) → faults code x.serial addr)
      ∧ (x.queue = [] → x.pendingFault = none →
          ∃ t, exec (.laneResume (BitVec.ofNat 8 n.val)) s = .next t
            ∧ t.lane n = { x with state := .starved } ∧ (∀ m, m ≠ n → t.lane m = s.lane m)
            ∧ t.lines = s.lines ∧ t.inputs = s.inputs ∧ t.gens = s.gens ∧ t.journal = s.journal
            ∧ t.fixed = { s.fixed with engine := shown codeLaneResume }))

/-! ## Lanes: cues, waits, claims -/

/-- A schedule time D is reached at T when (T − D) mod 2^48 is below 2^47, and its lateness is then that number, 0 to
2^47 − 1; one that is not reached lies 1 to 2^47 ticks ahead. The executors use it for a due and for the ORDER condition. -/
def Obligations.ReachedIsHalfRange : Prop :=
  ∀ t d : Ticks,
    (reached t d = true ↔ (t.toNat + 2 ^ 48 - d.toNat) % 2 ^ 48 < 2 ^ 47)
      ∧ lateness t d = (t.toNat + 2 ^ 48 - d.toNat) % 2 ^ 48
      ∧ (reached t d = true → lateness t d ≤ 2 ^ 47 - 1)
      ∧ (reached t d = false →
          1 ≤ (d.toNat + 2 ^ 48 - t.toNat) % 2 ^ 48 ∧ (d.toNat + 2 ^ 48 - t.toNat) % 2 ^ 48 ≤ 2 ^ 47)
      ∧ (∀ (s : State) (n : LaneNo), dueReady s n = true → reached s.time.schedule (s.lane n).due = true)
      ∧ (∀ c : Cue, ordersBack t c = true ↔ c.rel = false ∧ c.due ≠ t ∧ reached t c.due = true)

/-- The due of a PENDING lane's only queued cue is reached, on time, or late under RUN, which counts it late-run as
well: the cue is carried out by its kind. NOP does nothing; SET_LINES makes each line of the mask STATIC at its level;
PULSE and WAVE start at the elapsed count, PULSE with the base level as its return; TRACK keeps the base level and binds
the generator; CAPTURE_ON and CAPTURE_OFF change the capture enables of the mask; MARK appends its record; a CLAIM of a
line the lane owns or of a free one is granted; a RELEASE makes the lines STATIC at their rest levels and free, or
passes one to its oldest waiter, whose CLAIM has then executed. Each of them finishes executed and leaves the lane
STARVED. WAIT_INPUT and a CLAIM that must wait enter their waiting state with the expiry on the elapsed count; END ends
the lane, releases its lines and retires its pages. A late cue under SKIP is skipped without effect. Nothing else of any
other lane, line or input changes. The base level of a line is the level in STATIC and TRACK, the return level in PULSE and the
rest level in WAVE. -/
def Obligations.OnTimeSetLinesIsCarriedOut : Prop :=
  ∀ (n : LaneNo) (c : Cue) (page : Addr) (s : State), s.awake → s.part = .active →
    (s.lane n).state = .pending → soleCue s n c page →
    reached s.time.schedule (s.lane n).due = true →
    let late : Prop := (s.lane n).config.tolerance.toNat < lateness s.time.schedule (s.lane n).due
    let owned : LineNo → Prop := fun k => (s.line k).owner = some n
    let others : State → Prop := fun t => ∀ m, m ≠ n → t.lane m = s.lane m
    let counted : State → Prop := fun t =>
      (t.lane n).executed = (s.lane n).executed + 1
        ∧ (late → (t.lane n).lateRuns = (s.lane n).lateRuns + 1)
        ∧ (¬late → (t.lane n).lateRuns = (s.lane n).lateRuns)
        ∧ (t.lane n).skipped = (s.lane n).skipped ∧ (t.lane n).anchor = (s.lane n).anchor
        ∧ (t.lane n).fault = (s.lane n).fault ∧ t.fixed = s.fixed
    let finished : State → Prop := fun t =>
      (t.lane n).state = .starved ∧ (t.lane n).queue = [] ∧ counted t
    let waits : State → Prop := fun t =>
      (t.lane n).queue = (s.lane n).queue ∧ (t.lane n).executed = (s.lane n).executed
        ∧ (t.lane n).anchor = (s.lane n).anchor ∧ StatusItem.laneStatus n ∈ t.handed ∧ others t
        ∧ t.inputs = s.inputs ∧ t.gens = s.gens ∧ t.journal = s.journal ∧ t.notice = s.notice ∧ t.fixed = s.fixed
    ((late → c.policy = .run) →
      (c.action = .nop →
        ∃ t, exec (.dueReached n) s = .next t ∧ finished t ∧ others t
          ∧ t.lines = s.lines ∧ t.inputs = s.inputs ∧ t.gens = s.gens ∧ t.journal = s.journal)
      ∧ (∀ mask levels, c.action = .setLines mask levels → (∀ k : LineNo, mask.getLsbD k.val = true → owned k) →
        ∃ t, exec (.dueReached n) s = .next t ∧ finished t ∧ others t
          ∧ (∀ k : LineNo, mask.getLsbD k.val = true →
              t.line k = { s.line k with mode := .static (if levels.getLsbD k.val then .high else .low) })
          ∧ (∀ k : LineNo, mask.getLsbD k.val = false → t.line k = s.line k)
          ∧ t.inputs = s.inputs ∧ t.journal = s.journal)
      ∧ (∀ k active width base, c.action = .pulse k active width → owned k → (s.line k).baseLevel = some base →
        ∃ t, exec (.dueReached n) s = .next t ∧ finished t ∧ others t
          ∧ t.line k = { s.line k with
              mode := .pulse active base (s.time.elapsed + BitVec.ofNat 48 width.toNat) }
          ∧ (∀ j, j ≠ k → t.line j = s.line j) ∧ t.inputs = s.inputs ∧ t.journal = s.journal)
      ∧ (∀ k first d1 d2 periods, c.action = .wave k first d1 d2 periods → owned k →
        ∃ t, exec (.dueReached n) s = .next t ∧ finished t ∧ others t
          ∧ t.line k = { s.line k with
              mode := .wave first d1 d2 periods 0 .first (s.time.elapsed + BitVec.ofNat 48 d1.toNat) }
          ∧ (∀ j, j ≠ k → t.line j = s.line j) ∧ t.inputs = s.inputs ∧ t.journal = s.journal)
      ∧ (∀ k g m base, c.action = .track k g m → owned k → (s.line k).baseLevel = some base →
        ((s.gen g).bound = none ∨ (s.gen g).bound = some k) →
        ∃ t, exec (.dueReached n) s = .next t ∧ finished t ∧ others t
          ∧ t.line k = { s.line k with mode := .track base g }
          ∧ t.gen g = { s.gen g with bound := some k, multiplier := m }
          ∧ (∀ j, j ≠ k → t.line j = s.line j) ∧ t.inputs = s.inputs ∧ t.journal = s.journal)
      ∧ (∀ on mask, c.action = (if on then .captureOn mask else .captureOff mask) →
        ∃ t, exec (.dueReached n) s = .next t ∧ finished t ∧ others t
          ∧ (∀ k : LineNo, mask.getLsbD k.val = true → t.input k = { s.input k with captureEnable := on })
          ∧ (∀ k : LineNo, mask.getLsbD k.val = false → t.input k = s.input k)
          ∧ t.lines = s.lines ∧ t.gens = s.gens ∧ t.journal = s.journal)
      ∧ (∀ v, c.action = .mark v → s.journal.fifo.length < 64 →
        ∃ t, exec (.dueReached n) s = .next t ∧ finished t ∧ others t
          ∧ t.journal = { s.journal with fifo := s.journal.fifo ++ [.mark n v s.time.schedule] }
          ∧ t.lines = s.lines ∧ t.inputs = s.inputs ∧ t.gens = s.gens)
      ∧ (∀ k e timeout continues, c.action = .waitInput k e timeout continues →
        ∃ t, exec (.dueReached n) s = .next t ∧ waits t
          ∧ (t.lane n).state = .waitInput
          ∧ (t.lane n).wait = .input
              { line := k, edge := e, timeout := timeout,
                expiry := s.time.elapsed + BitVec.ofNat 48 timeout.toNat, continues := continues }
          ∧ t.lines = s.lines)
      ∧ (∀ k timeout, c.action = .claim k timeout → (s.line k).driveEnable = true →
        ((s.line k).owner = some n ∨ (s.line k).owner = none →
          ∃ t, exec (.dueReached n) s = .next t ∧ finished t ∧ others t
            ∧ t.line k = { s.line k with owner := some n }
            ∧ (∀ j, j ≠ k → t.line j = s.line j) ∧ t.inputs = s.inputs ∧ t.gens = s.gens ∧ t.journal = s.journal)
        ∧ (∀ m, m ≠ n → (s.line k).owner = some m → timeout ≠ 0 →
          ∃ t, exec (.dueReached n) s = .next t ∧ waits t
            ∧ (t.lane n).state = .waitLine ∧ (t.lane n).wait = .claim k
            ∧ t.line k = { s.line k with
                waiters := (s.line k).waiters ++
                  [{ lane := n, expiry := s.time.elapsed + BitVec.ofNat 48 (125 * timeout.toNat) }] }
            ∧ (∀ j, j ≠ k → t.line j = s.line j)))
      ∧ (∀ mask, c.action = .release mask → (∀ k : LineNo, mask.getLsbD k.val = true → owned k) →
        ((∀ k : LineNo, mask.getLsbD k.val = true → (s.line k).waiters = []) →
          ∃ t, exec (.dueReached n) s = .next t ∧ finished t ∧ others t
            ∧ (∀ k : LineNo, mask.getLsbD k.val = true →
                t.line k = { s.line k with mode := .static (s.line k).rest, owner := none })
            ∧ (∀ k : LineNo, mask.getLsbD k.val = false → t.line k = s.line k)
            ∧ t.inputs = s.inputs ∧ t.journal = s.journal)
        ∧ (∀ k w rest d page', (∀ j : LineNo, mask.getLsbD j.val = true ↔ j = k) → (s.line k).waiters = w :: rest →
            w.lane ≠ n → (s.lane w.lane).state = .waitLine → soleCue s w.lane d page' →
          ∃ t, exec (.dueReached n) s = .next t ∧ finished t
            ∧ t.line k = { s.line k with
                mode := .static (s.line k).rest, owner := some w.lane, waiters := rest }
            ∧ (t.lane w.lane).state = .starved ∧ (t.lane w.lane).wait = .none ∧ (t.lane w.lane).queue = []
            ∧ (t.lane w.lane).executed = (s.lane w.lane).executed + 1
            ∧ (∀ j, j ≠ k → t.line j = s.line j)
            ∧ (∀ m, m ≠ n → m ≠ w.lane → t.lane m = s.lane m) ∧ t.inputs = s.inputs ∧ t.journal = s.journal))
      ∧ (c.action = .endLane → (∀ k, owned k → (s.line k).waiters = []) →
        ∃ t, exec (.dueReached n) s = .next t ∧ counted t ∧ others t
          ∧ (t.lane n).state = .ended ∧ (t.lane n).queue = [] ∧ (t.lane n).running = false
          ∧ (t.lane n).wait = .none ∧ (t.lane n).stall = .none
          ∧ (∀ p ∈ (t.lane n).pages, p.retiring.isSome = true)
          ∧ (t.lane n).exceptions = (s.lane n).exceptions ++
              [{ state := .ended, code := .none, serial := (s.lane n).serial, page := page }]
          ∧ StatusItem.laneStatus n ∈ t.handed
          ∧ (∀ k, owned k → t.line k = { s.line k with mode := .static (s.line k).rest, owner := none })
          ∧ (∀ k, ¬owned k → (s.lane n).wait = .none → t.line k = s.line k)
          ∧ t.inputs = s.inputs ∧ t.journal = s.journal))
    ∧ (late → c.policy = .skip →
        ∃ t, exec (.dueReached n) s = .next t
          ∧ (t.lane n).state = .starved ∧ (t.lane n).queue = []
          ∧ (t.lane n).skipped = (s.lane n).skipped + 1 ∧ (t.lane n).executed = (s.lane n).executed
          ∧ (t.lane n).lateRuns = (s.lane n).lateRuns ∧ (t.lane n).anchor = (s.lane n).anchor
          ∧ others t ∧ t.lines = s.lines ∧ t.inputs = s.inputs ∧ t.gens = s.gens ∧ t.journal = s.journal
          ∧ t.fixed = s.fixed)
    ∧ (∀ x : OutLine, x.baseLevel = match x.mode with
        | .float => none
        | .static level => some level
        | .pulse _ ret _ => some ret
        | .wave .. => some x.rest
        | .track level _ => some level)

/-- The faults of a current cue whose due is reached. A late cue under FAULT faults its lane with LATE. On time, or late
under RUN, a cue that touches a line the lane does not own faults with NOT_OWNER, a TRACK of an owned line whose
generator is bound to another line with TRACK_BUSY, a CLAIM of a line that is not drive-enabled with LINE_DISABLED, and
a CLAIM with timeout 0 of a line that another lane owns with CLAIM_TIMEOUT. Each time the lane is FAULTED with an empty
queue and a stopped fetcher, its lines take their fault actions and stay owned, no other line changes, and its OPEN
pages retire with the fault code. A fault action leaves a FLOAT line FLOAT; DRIVE_LOW and DRIVE_HIGH drive LOW and HIGH, HOLD
the level the line has (a PULSE its active level, a WAVE the level of its phase), and FLOAT brings FLOAT. -/
def Obligations.LateCueUnderFaultFaultsTheLane : Prop :=
  ∀ (n : LaneNo) (c : Cue) (s : State), s.awake → s.part = .active →
    (s.lane n).state = .pending → (s.lane n).wait = .none → (s.lane n).current = some c →
    reached s.time.schedule (s.lane n).due = true →
    let late : Prop := (s.lane n).config.tolerance.toNat < lateness s.time.schedule (s.lane n).due
    let owned : LineNo → Prop := fun k => (s.line k).owner = some n
    let faults : FaultCode → Prop := fun code =>
      ∃ t, exec (.dueReached n) s = .next t
        ∧ laneFaulted s t n code (s.lane n).serial (s.lane n).cuePage ∧ t.fixed = s.fixed
    (late → c.policy = .fault → faults .late)
    ∧ ((late → c.policy = .run) →
      (∀ mask levels (k : LineNo), c.action = .setLines mask levels → mask.getLsbD k.val = true → ¬owned k →
        faults .notOwner)
      ∧ (∀ k active width, c.action = .pulse k active width → ¬owned k → faults .notOwner)
      ∧ (∀ k first d1 d2 periods, c.action = .wave k first d1 d2 periods → ¬owned k → faults .notOwner)
      ∧ (∀ k g m, c.action = .track k g m → ¬owned k → faults .notOwner)
      ∧ (∀ k g m j, c.action = .track k g m → owned k → (s.gen g).bound = some j → j ≠ k → faults .trackBusy)
      ∧ (∀ mask (k : LineNo), c.action = .release mask → mask.getLsbD k.val = true → ¬owned k → faults .notOwner)
      ∧ (∀ k timeout, c.action = .claim k timeout → (s.line k).driveEnable = false → faults .lineDisabled)
      ∧ (∀ k m, c.action = .claim k 0 → (s.line k).driveEnable = true → m ≠ n → (s.line k).owner = some m →
        faults .claimTimeout))
    ∧ (∀ action, faultMode action .float = .float)
    ∧ (∀ m : OutMode, m ≠ .float →
        faultMode .driveLow m = .static .low ∧ faultMode .driveHigh m = .static .high ∧ faultMode .float m = .float
        ∧ faultMode .hold m = match m with
          | .float => .float
          | .static level => .static level
          | .pulse active _ _ => .static active
          | .wave first _ _ _ _ .first _ => .static first
          | .wave .low _ _ _ _ .second _ => .static .high
          | .wave .high _ _ _ _ .second _ => .static .low
          | .track level _ => .static level)

/-- An input wait with TIMEOUT_CONTINUES clear expires: the lane faults with WAIT_TIMEOUT. With the flag set, its only queued
cue finishes as executed, the anchor is due plus timeout, and a lane with no hold request and no pending fault is
STARVED. A waiter entry expires: it leaves the list, the others keep their order, the owner is not changed, and its lane,
in WAIT_LINE on that line, faults with CLAIM_TIMEOUT. -/
def Obligations.WaitsExpire : Prop :=
  ∀ (n : LaneNo) (s : State), s.awake →
    (∀ (w : InputWait) (c : Cue) (page : Addr), s.part = .active →
      (s.lane n).state = .waitInput → (s.lane n).wait = .input w → w.timeout ≠ 0 →
      reached s.time.elapsed w.expiry = true →
      (w.continues = false → ∃ t, exec (.waitInputExpiry n) s = .next t
        ∧ (t.lane n).state = .faulted ∧ (t.lane n).fault = .waitTimeout ∧ (t.lane n).wait = .none
        ∧ (t.lane n).queue = [] ∧ (t.lane n).holdRequest = false ∧ (t.lane n).anchor = (s.lane n).anchor
        ∧ (∀ m, m ≠ n → t.lane m = s.lane m) ∧ t.inputs = s.inputs ∧ t.journal = s.journal ∧ t.fixed = s.fixed)
      ∧ (w.continues = true → (s.lane n).queue = [{ cue := some c, page := page }] →
        (s.lane n).holdRequest = false → (s.lane n).pendingFault = none → (s.lane n).unfetched = 0 →
        ∃ t, exec (.waitInputExpiry n) s = .next t
          ∧ (t.lane n).state = .starved ∧ (t.lane n).wait = .none ∧ (t.lane n).queue = []
          ∧ (t.lane n).anchor = (s.lane n).due + BitVec.ofNat 48 w.timeout.toNat
          ∧ (t.lane n).executed = (s.lane n).executed + 1
          ∧ (∀ m, m ≠ n → t.lane m = s.lane m)
          ∧ t.lines = s.lines ∧ t.inputs = s.inputs ∧ t.journal = s.journal ∧ t.fixed = s.fixed))
    ∧ (∀ k : LineNo, s.part ≠ .failed → (s.lane n).state = .waitLine → (s.lane n).wait = .claim k →
      (∃ w ∈ (s.line k).waiters, w.lane = n ∧ reached s.time.elapsed w.expiry = true) →
      ∃ t, exec (.claimExpiry k n) s = .next t
        ∧ (t.lane n).state = .faulted ∧ (t.lane n).fault = .claimTimeout ∧ (t.lane n).wait = .none
        ∧ (t.lane n).queue = []
        ∧ (t.line k).waiters = (s.line k).waiters.filter (fun w => w.lane ≠ n)
        ∧ (t.line k).owner = (s.line k).owner
        ∧ (∀ m, m ≠ n → t.lane m = s.lane m) ∧ t.inputs = s.inputs ∧ t.journal = s.journal ∧ t.fixed = s.fixed)

/-- An accepted edge that a lane waits for, and that nothing else takes, ends the wait: the lane's only queued cue finishes
as executed, the anchor is the edge's schedule time, and a lane with no hold request and no pending fault is STARVED. -/
def Obligations.EdgeEndsTheInputWait : Prop :=
  ∀ (n : LaneNo) (k : LineNo) (level : Level) (w : InputWait) (c : Cue) (page : Addr) (s : State),
    s.inputsLive = true → (s.input k).level ≠ level → (s.input k).moved = false → (s.input k).deadRunning = false →
    (s.lane n).state = .waitInput → (s.lane n).wait = .input w → w.line = k → w.edge.admits (Dir.toLevel level) = true →
    (∀ m v, m ≠ n → (s.lane m).wait = .input v → v.line ≠ k) → (∀ g, (s.gen g).source ≠ k) →
    (s.input k).captureEnable = false →
    (s.lane n).queue = [{ cue := some c, page := page }] → (s.lane n).holdRequest = false →
    (s.lane n).pendingFault = none → (s.lane n).unfetched = 0 →
    ∃ t, exec (.inputTransition k level) s = .next t
      ∧ (t.lane n).state = .starved ∧ (t.lane n).wait = .none ∧ (t.lane n).queue = []
      ∧ (t.lane n).anchor = s.time.schedule ∧ (t.lane n).executed = (s.lane n).executed + 1
      ∧ (∀ m, m ≠ n → t.lane m = s.lane m)
      ∧ t.lines = s.lines ∧ t.gens = s.gens ∧ t.journal = s.journal ∧ t.fixed = s.fixed

/-- A release of a line: whatever its mode, it is STATIC at its rest level; its oldest waiter becomes its owner and leaves
the list, or with no waiter it is free. No other line and no lane changes. -/
def Obligations.ReleasePassesToTheOldestWaiter : Prop :=
  ∀ (k : LineNo) (s : State),
    ((s.line k).waiters = [] → (releaseLine k s).2 = none
      ∧ (releaseLine k s).1.line k = { s.line k with mode := .static (s.line k).rest, owner := none })
    ∧ (∀ w rest, (s.line k).waiters = w :: rest → (releaseLine k s).2 = some w.lane
      ∧ (releaseLine k s).1.line k =
          { s.line k with mode := .static (s.line k).rest, owner := some w.lane, waiters := rest })
    ∧ (∀ j, j ≠ k → (releaseLine k s).1.line j = s.line j)
    ∧ (releaseLine k s).1.lanes = s.lanes ∧ (releaseLine k s).1.fixed = s.fixed

/-- Events of the lanes, the lines, the inputs, the generators and the flush timer change no clock, no register, no command,
no access of the port and no byte of memory. -/
def Obligations.BlockEventsKeepTheFixedPart : Prop :=
  ∀ (c : Instr) (s t : State), exec c s = .next t →
    ((∃ n, c = .dueReached n) ∨ (∃ n, c = .waitInputExpiry n) ∨ (∃ k n, c = .claimExpiry k n)
      ∨ (∃ k l, c = .inputTransition k l) ∨ (∃ k, c = .deadTimeExpiry k) ∨ (∃ k, c = .pulseEnd k)
      ∨ (∃ k, c = .wavePhaseEnd k) ∨ (∃ g, c = .derivedEdge g) ∨ (∃ g, c = .virtualEdge g)
      ∨ c = .flushTimerExpiry) →
    t.fixed = s.fixed

/-! ## Lines, inputs and generators -/

/-- A pulse end: the line is STATIC at its return level, whatever its owner's state, and nothing else changes: no lane, no
notice. A line that is not in PULSE, or whose pulse end is not reached, is left as it is. -/
def Obligations.PulseEndReturnsTheLine : Prop :=
  ∀ (k : LineNo) (s : State), s.awake →
    (∀ active ret e, (s.line k).mode = .pulse active ret e → reached s.time.elapsed e = true →
      exec (.pulseEnd k) s = .next (s.setLine k { s.line k with mode := .static ret }))
    ∧ (∀ active ret e, (s.line k).mode = .pulse active ret e → reached s.time.elapsed e = false →
      exec (.pulseEnd k) s = .next s)
    ∧ ((∀ active ret e, (s.line k).mode ≠ .pulse active ret e) → exec (.pulseEnd k) s = .next s)

/-- A wave phase ends, by Table of R79: FIRST turns to SECOND; SECOND starts a new period at the old phase end plus the first
duration, or with the last period the line goes STATIC at its rest level. -/
def Obligations.WavePhaseEndActsByThePhase : Prop :=
  ∀ (k : LineNo) (first : Level) (d1 d2 : BitVec 24) (periods completed : Half) (e : Ticks) (s : State), s.awake →
    reached s.time.elapsed e = true →
    ((s.line k).mode = .wave first d1 d2 periods completed .first e →
      exec (.wavePhaseEnd k) s = .next (s.setLine k { s.line k with
        mode := .wave first d1 d2 periods completed .second (e + BitVec.ofNat 48 d2.toNat) }))
    ∧ ((s.line k).mode = .wave first d1 d2 periods completed .second e →
      (periods = 0 ∨ completed + 1 ≠ periods) →
      exec (.wavePhaseEnd k) s = .next (s.setLine k { s.line k with
        mode := .wave first d1 d2 periods (completed + 1) .first (e + BitVec.ofNat 48 d1.toNat) }))
    ∧ ((s.line k).mode = .wave first d1 d2 periods completed .second e → periods ≠ 0 → completed + 1 = periods →
      exec (.wavePhaseEnd k) s = .next (s.setLine k { s.line k with mode := .static (s.line k).rest }))

/-- A level that is no transition changes nothing, nor does a second one at a tick at which the line has made a transition
already: the line is sampled once per tick (log 40). A transition while the inputs are not live, or within the dead time,
changes the sampled level and nothing else. Else it is accepted: the dead time starts if it is above 0, the dead time of
no other line changes, and an EDGE record with the schedule time enters a FIFO with room where capture selects it; with no
lane waiting for it and no generator on the line nothing else changes. A dead time that is reached is cleared, whatever
the part state. -/
def Obligations.TransitionsAreFiltered : Prop :=
  ∀ (k : LineNo) (level : Level) (s : State),
    let d := Dir.toLevel level
    let dead : InLine → InLine → Prop := fun x y => y.deadRunning = x.deadRunning ∧ y.deadEnd = x.deadEnd
    ((s.input k).level = level ∨ (s.input k).moved = true → exec (.inputTransition k level) s = .next s)
    ∧ ((s.input k).level ≠ level → (s.input k).moved = false →
        s.inputsLive = false ∨ (s.input k).deadRunning = true →
        exec (.inputTransition k level) s
          = .next (s.setInput k { s.input k with level := level, moved := decide (s.resetPin = .high) }))
    ∧ (s.inputsLive = true → (s.input k).level ≠ level → (s.input k).moved = false →
      (s.input k).deadRunning = false →
      ∃ t, exec (.inputTransition k level) s = .next t
        ∧ (t.input k).level = level ∧ (t.input k).moved = decide (s.resetPin = .high)
        ∧ ((s.input k).deadTime = 0 → dead (s.input k) (t.input k))
        ∧ ((s.input k).deadTime ≠ 0 → (t.input k).deadRunning = true
            ∧ (t.input k).deadEnd = s.time.elapsed + BitVec.ofNat 48 (s.input k).deadTime.toNat)
        ∧ (∀ j, j ≠ k → (t.input j).level = (s.input j).level ∧ dead (s.input j) (t.input j))
        ∧ ((∀ n w, (s.lane n).wait = .input w → w.line ≠ k) → (∀ g, (s.gen g).source ≠ k) →
            s.journal.fifo.length < 64 →
            t = { s with inputs := t.inputs, journal := t.journal }
              ∧ t.journal =
                if (s.input k).captureEnable && (s.input k).edgeSelect.admits d then
                  { s.journal with fifo := s.journal.fifo ++ [.edge k d s.time.schedule] }
                else s.journal))
    ∧ (s.awake → (s.input k).deadRunning = true → reached s.time.elapsed (s.input k).deadEnd = true →
      exec (.deadTimeExpiry k) s = .next (s.setInput k { s.input k with deadRunning := false }))

/-- A real edge by the generator's state, on a line that no lane waits for and capture does not record, with interval P:
the period is measured where 0 < P < 2^32, at least 16; a longer gap abandons the phase. LOCKED, or REACQUIRING after a
real edge, measures; COASTING and HOLDOVER start a phase with the old period. A change of state marks the status record
stale. A transition that R132 names places a TRACK record with the new state and P in a FIFO with room, marks the record
stale and owes a posting with these details, which the status write brings (that it holds them from the transition on is
log 17); any other places no record. Where a phase starts, the multiplier in force becomes M, the sub-interval floor(P / M),
raised to 16 with the clamped flag, and edge 0 toggles the bound line in TRACK unless a derived edge of the generator has
already fallen at this tick (that it does so also after an edge of the other generator is log 35); a long gap abandons the
derived edges. No line changes otherwise. -/
def Obligations.RealEdgeActsByTheState : Prop :=
  ∀ (g : GenNo) (k : LineNo) (level : Level) (s : State), s.inputsLive = true → (s.input k).level ≠ level →
    (s.input k).moved = false →
    (s.input k).deadRunning = false → (s.input k).captureEnable = false →
    (∀ n w, (s.lane n).wait = .input w → w.line ≠ k) →
    (s.gen g).source = k → (s.gen g).select.admits (Dir.toLevel level) = true →
    (∀ h, h ≠ g → (s.gen h).source ≠ k) →
    let x := s.gen g
    let gap := (s.time.elapsed - x.lastReal).toNat
    let p : Word := BitVec.ofNat 32 (if gap < 16 then 16 else gap)
    let measures := 0 < gap ∧ gap < 2 ^ 32
    let starts := x.state = .coasting ∨ x.state = .holdover
      ∨ measures ∧ (x.state = .firstEdge ∨ x.state = .locked ∨ x.state = .reacquiring)
    ∃ t, exec (.inputTransition k level) s = .next t
      ∧ (t.gen g).lastReal = s.time.elapsed ∧ (t.gen g).virtuals = 0 ∧ (t.gen g).bound = x.bound
      ∧ (t.gen g).multiplier = x.multiplier
      ∧ (x.state = .unlocked → (t.gen g).state = .firstEdge ∧ (t.gen g).period = x.period ∧ (t.gen g).posts = x.posts)
      ∧ (x.state = .firstEdge → measures → (t.gen g).state = .locked ∧ (t.gen g).period = p
          ∧ (t.gen g).phaseStart = s.time.elapsed ∧ (t.gen g).posts = x.posts ++ [(.locked, p)])
      ∧ (x.state = .firstEdge → 2 ^ 32 ≤ gap → (t.gen g).state = .firstEdge ∧ (t.gen g).posts = x.posts)
      ∧ (x.state = .locked → measures → (t.gen g).state = .locked ∧ (t.gen g).period = p
          ∧ (t.gen g).phaseStart = s.time.elapsed ∧ (t.gen g).posts = x.posts)
      ∧ (x.state = .locked ∨ x.state = .reacquiring → 2 ^ 32 ≤ gap → (t.gen g).state = .firstEdge
          ∧ (t.gen g).period = x.period ∧ (t.gen g).posts = x.posts ++ [(.firstEdge, x.period)])
      ∧ (x.state = .coasting ∨ x.state = .holdover → (t.gen g).state = .reacquiring ∧ (t.gen g).period = x.period
          ∧ (t.gen g).phaseStart = s.time.elapsed ∧ (t.gen g).posts = x.posts)
      ∧ (x.state = .reacquiring → measures → (t.gen g).state = .locked ∧ (t.gen g).period = p
          ∧ (t.gen g).phaseStart = s.time.elapsed ∧ (t.gen g).holdoverSeen = false
          ∧ (t.gen g).posts = if x.holdoverSeen then x.posts ++ [(.locked, p)] else x.posts)
      ∧ (starts → phaseStarted s t g)
      ∧ (x.state = .locked ∨ x.state = .reacquiring → 2 ^ 32 ≤ gap →
          (t.gen g).nextIndex = (t.gen g).phaseMultiplier ∧ (t.gen g).phaseMultiplier = x.phaseMultiplier
            ∧ t.lines = s.lines)
      ∧ (x.state = .unlocked ∨ x.state = .firstEdge ∧ 2 ^ 32 ≤ gap → t.lines = s.lines
          ∧ (t.gen g).nextIndex = x.nextIndex)
      ∧ ((t.gen g).state ≠ x.state → StatusItem.genStatus g ∈ t.handed)
      ∧ ((t.gen g).posts = x.posts → t.journal = s.journal)
      ∧ (∀ st per, (t.gen g).posts = x.posts ++ [(st, per)] → StatusItem.genStatus g ∈ t.handed
          ∧ (s.journal.fifo.length < 64 → t.journal =
              { s.journal with fifo := s.journal.fifo ++ [.track g st per s.time.schedule] }))
      ∧ (∀ h, h ≠ g → t.gen h = s.gen h)
      ∧ t.lanes = s.lanes ∧ t.fixed = s.fixed

/-- A derived edge i falls at phase start + i × sub-interval: it toggles the bound line in TRACK and raises the index; no second
one falls at this tick. -/
def Obligations.DerivedEdgeTogglesTheLine : Prop :=
  ∀ (g : GenNo) (k : LineNo) (level : Level) (s : State), s.awake → s.part = .active →
    (s.gen g).state ≠ .unlocked → (s.gen g).state ≠ .firstEdge → (s.gen g).bound = some k →
    (s.line k).mode = .track level g →
    (s.gen g).nextIndex < (s.gen g).phaseMultiplier → (s.gen g).edgeTaken = false →
    reached s.time.elapsed
      ((s.gen g).phaseStart + BitVec.ofNat 48 ((s.gen g).nextIndex * (s.gen g).subInterval.toNat)) = true →
    exec (.derivedEdge g) s = .next
      ((s.setGen g { s.gen g with nextIndex := (s.gen g).nextIndex + 1, edgeTaken := true }).setLine k
        { s.line k with
          mode := .track (match level with
            | .low => .high
            | .high => .low) g })

/-- A virtual edge by the generator's state: LOCKED and REACQUIRING become COASTING with one virtual edge, COASTING becomes
HOLDOVER with two, HOLDOVER stays with one more; P is kept and a phase starts at the expected end. A change of state marks
the status record stale. The entry to HOLDOVER places a TRACK record in a FIFO with room and owes a posting with these
details, which the status write brings (that it holds them from the transition on is log 17). With the phase the multiplier in
force becomes M, the sub-interval floor(P / M), raised to 16 with the clamped flag, and edge 0 toggles the bound line in TRACK
unless a derived edge of the generator has already fallen at this tick (that it does so also after an edge of the other
generator is log 35). -/
def Obligations.VirtualEdgeActsByTheState : Prop :=
  ∀ (g : GenNo) (s : State), s.awake → s.part = .active →
    (s.gen g).state ≠ .unlocked → (s.gen g).state ≠ .firstEdge →
    reached s.time.elapsed ((s.gen g).phaseStart + BitVec.ofNat 48 (s.gen g).period.toNat) = true →
    ∃ t, exec (.virtualEdge g) s = .next t
      ∧ (t.gen g).period = (s.gen g).period ∧ (t.gen g).lastReal = (s.gen g).lastReal
      ∧ (t.gen g).bound = (s.gen g).bound
      ∧ (t.gen g).phaseStart = (s.gen g).phaseStart + BitVec.ofNat 48 (s.gen g).period.toNat
      ∧ (t.gen g).phaseMultiplier = (s.gen g).multiplier ∧ phaseStarted s t g
      ∧ ((s.gen g).state = .locked ∨ (s.gen g).state = .reacquiring →
          (t.gen g).state = .coasting ∧ (t.gen g).virtuals = 1 ∧ (t.gen g).posts = (s.gen g).posts)
      ∧ ((s.gen g).state = .coasting →
          (t.gen g).state = .holdover ∧ (t.gen g).virtuals = 2 ∧ (t.gen g).holdoverSeen = true
            ∧ (t.gen g).posts = (s.gen g).posts ++ [(.holdover, (s.gen g).period)])
      ∧ ((s.gen g).state = .holdover →
          (t.gen g).state = .holdover ∧ (t.gen g).posts = (s.gen g).posts
            ∧ (t.gen g).virtuals =
                if (s.gen g).virtuals = 0xFFFF#16 then 0xFFFF#16 else (s.gen g).virtuals + 1)
      ∧ ((t.gen g).state ≠ (s.gen g).state → StatusItem.genStatus g ∈ t.handed)
      ∧ ((t.gen g).posts = (s.gen g).posts → t.journal = s.journal)
      ∧ (∀ st per, (t.gen g).posts = (s.gen g).posts ++ [(st, per)] → StatusItem.genStatus g ∈ t.handed
          ∧ (s.journal.fifo.length < 64 → t.journal =
              { s.journal with fifo := s.journal.fifo ++ [.track g st per s.time.schedule] }))
      ∧ (∀ h, h ≠ g → t.gen h = s.gen h)
      ∧ t.lanes = s.lanes ∧ t.fixed = s.fixed

/-! ## Alignment -/

/-- ARM_ALIGN's read completes: the arm is armed with the low 48 bits read, the command completes with DONE and COMMAND is
posted; schedule time does not change. ALIGN_NOW's read completes: schedule time becomes the low 48 bits read, ALIGNMENT is
posted with the old and the new time, the elapsed count and the arm do not change, and the command waits for the posting.
DISARM_ALIGN in ACTIVE disarms the arm, keeps its value and has outcome DONE, armed or not. -/
def Obligations.AlignmentCommandsAct : Prop :=
  ∀ (data : BitVec 64) (b : Byte) (s : State),
    (awaitsEngine s .alignValue → s.engine.command = some .armAlign →
      ∃ t, exec (.armAlignReadDone data) s = .next t
        ∧ t.time = { s.time with armed := true, armValue := data.setWidth 48 }
        ∧ t.engine.command = none ∧ t.engine.lastCode = codeArmAlign ∧ t.engine.lastOperand = 0
        ∧ t.engine.lastOutcome = .done
        ∧ (t.slot commandSlot).details = .command codeArmAlign 0 .done
        ∧ t = { s with time := t.time, engine := t.engine, notice := t.notice, handed := t.handed })
    ∧ (awaitsEngine s .alignValue → s.engine.command = some .alignNow →
      ∃ t, exec (.alignNowReadDone data) s = .next t
        ∧ t.time = { s.time with schedule := data.setWidth 48 }
        ∧ (t.slot alignmentSlot).details = .alignment s.time.schedule (data.setWidth 48)
        ∧ t.engine = { s.engine with flight := none, alignPost := .details }
        ∧ t.part = s.part ∧ t.port = s.port ∧ t.regs = s.regs ∧ t.memory = s.memory)
    ∧ (s.awake → s.part = .active → s.engine.command = none →
      exec (.disarmAlign b) s = .next
        { s with
          time := { s.time with armed := false }
          engine := { s.engine with lastCode := codeDisarmAlign, lastOperand := 0, lastOutcome := .done } })

/-- A level of SYNC that is no transition changes nothing, nor does a second one at a tick at which SYNC has made a
transition already (log 40). Without SYNC live, or in a direction that is not selected, only the sampled level changes.
Else it is a SYNC event: with room in the FIFO a SYNC record with the old time T and the aligned flag is appended.
Unaligned, the clocks and the arm do not change; aligned, schedule time becomes the armed value, the arm is disarmed
with its value kept, and ALIGNMENT is posted with both times. -/
def Obligations.SyncEventRecordsAndSteps : Prop :=
  ∀ (level : Level) (s : State),
    (s.sync.level = level ∨ s.sync.moved = true → exec (.syncEvent level) s = .next s)
    ∧ (s.sync.level ≠ level → s.sync.moved = false →
      (s.sync.live = false ∨ s.sync.select ≠ some (Dir.toLevel level) →
        exec (.syncEvent level) s
          = .next { s with sync := { s.sync with level := level, moved := decide (s.resetPin = .high) } })
      ∧ (s.sync.live = true → s.sync.select = some (Dir.toLevel level) → s.journal.fifo.length < 64 →
        (s.time.armed = false → ∃ t, exec (.syncEvent level) s = .next t
          ∧ t.time = s.time
          ∧ t.sync = { s.sync with level := level, moved := decide (s.resetPin = .high) }
          ∧ t.journal = { s.journal with fifo := s.journal.fifo ++ [.sync false s.time.schedule] }
          ∧ (s.sync.report = true → (t.slot timeMarkSlot).details = .timeMark s.time.schedule)
          ∧ (s.sync.report = false → t.notice = s.notice)
          ∧ t.lanes = s.lanes ∧ t.lines = s.lines ∧ t.memory = s.memory)
        ∧ (s.time.armed = true → ∃ t, exec (.syncEvent level) s = .next t
          ∧ t.time = { s.time with schedule := s.time.armValue, armed := false }
          ∧ t.sync = { s.sync with level := level, moved := decide (s.resetPin = .high) }
          ∧ (∃ more, t.journal.fifo = s.journal.fifo ++ .sync true s.time.schedule :: more)
          ∧ (t.slot alignmentSlot).details = .alignment s.time.schedule s.time.armValue
          ∧ (s.sync.report = true → (t.slot timeMarkSlot).details = .timeMark s.time.schedule)
          ∧ t.memory = s.memory)))

/-! ## Surveys and fetchers -/

/-- RESURVEY re-reads every stalled place without a read under way: a lane stalled at HEAD_FIELD its head field, at LINK
its link, at HEADER the page's header, and the journal the same while no JOURNAL_RESTART runs; link and header reads
outside the windows are a WINDOW fault with the page's address instead, pending at a lane that is not STARVED, at once at
a STARVED one (whose EXCEPTION is then owed, log 17) and at the journal. A place that is not stalled, or stands at
FETCH_FAULT, presents nothing. The survey timer is not touched and the outcome is DONE. A survey expiry does the same and
sets the next expiry one interval on. -/
def Obligations.SurveysReadTheStalledPlaces : Prop :=
  ∀ (b : Byte) (s : State), s.awake →
    let laneAsks : State → LaneNo → Prop := fun t n =>
      let l := s.lane n
      let refused : Addr → Prop := fun a =>
        (l.state ≠ .starved → (t.lane n).stall = .fetchFault ∧ (t.lane n).pendingFault = some (.window, a)
          ∧ (t.lane n).state = l.state ∧ (t.lane n).request = none)
        ∧ (l.state = .starved → (t.lane n).state = .faulted ∧ (t.lane n).fault = .window
          ∧ (t.lane n).running = false
          ∧ (t.lane n).exceptions =
              l.exceptions ++ [{ state := .faulted, code := .window, serial := l.serial, page := a }])
      l.running = true → l.request = none → l.flight = none →
        (l.stall = .headField → t.lane n = { l with request := some .headField })
        ∧ (l.stall = .link → windowOk s .cueRead (l.fetchPage.getD 0 + 8#64) 8 = true →
            t.lane n = { l with request := some .link })
        ∧ (l.stall = .header → l.pages.length < 17 → windowOk s .cueRead l.nextAddr 32 = true →
            t.lane n = { l with request := some .header })
        ∧ (l.stall = .link → windowOk s .cueRead (l.fetchPage.getD 0 + 8#64) 8 = false → refused (l.fetchPage.getD 0))
        ∧ (l.stall = .header → l.pages.length < 17 → windowOk s .cueRead l.nextAddr 32 = false → refused l.nextAddr)
        ∧ (l.stall = .none ∨ l.stall = .fetchFault → t.lane n = l)
    let journalAsks : State → Prop := fun t =>
      let j := s.journal
      let refused : Addr → Prop := fun a =>
        t.journal.state = .faulted ∧ t.journal.fault = .window ∧ t.journal.faultAddr = some a
          ∧ t.journal.stall = .none ∧ t.journal.flushRequest = 0 ∧ t.journal.request = none ∧ t.journal.fifo = j.fifo
      j.state = .starved → j.request = none → j.flight = none → s.engine.command ≠ some .journalRestart →
        (j.stall = .headField → t.journal = { j with request := some .headField })
        ∧ (j.stall = .link → windowOk s .journal (j.linkPage.getD 0 + 8#64) 8 = true →
            t.journal = { j with request := some .link })
        ∧ (j.stall = .header → windowOk s .journal j.nextAddr 32 = true →
            t.journal = { j with request := some .header })
        ∧ (j.stall = .link → j.draining = false → windowOk s .journal (j.linkPage.getD 0 + 8#64) 8 = false →
            refused (j.linkPage.getD 0))
        ∧ (j.stall = .header → j.draining = false → windowOk s .journal j.nextAddr 32 = false → refused j.nextAddr)
        ∧ (j.stall = .none → t.journal = j)
    let asks : State → Prop := fun t =>
      (∀ n, laneAsks t n) ∧ journalAsks t
        ∧ (s.journal.state ≠ .starved ∨ s.engine.command = some .journalRestart → t.journal = s.journal)
        ∧ t.inputs = s.inputs ∧ t.notice = s.notice ∧ t.port = s.port ∧ t.time = s.time ∧ t.memory = s.memory
    (s.part = .active → s.engine.command = none → ∃ t, exec (.resurvey b) s = .next t ∧ asks t
      ∧ t.survey = s.survey
      ∧ t.engine = { s.engine with lastCode := codeResurvey, lastOperand := 0, lastOutcome := .done })
    ∧ (∀ e, s.survey.expiry = some e → reached s.time.elapsed e = true → ∃ t, exec .surveyExpiry s = .next t ∧ asks t
      ∧ t.survey = { s.survey with expiry := some (e + BitVec.ofNat 48 (125 * s.survey.interval.toNat)) }
      ∧ t.engine = s.engine)

/-- A head field or link read completes, for a lane whose list has fewer than 17 pages where a page follows: a head address
is loaded as such; 0 stalls at HEAD_FIELD or LINK; a multiple of 512 whose header lies in a CUE_READ window presents the
header read, and one whose header lies outside every CUE_READ window is WINDOW at its own address; a value that is no
multiple of 512 is BAD_LINK. A fault is pending while the lane is not STARVED, and faults a STARVED lane at once. -/
def Obligations.HeadFieldAndLinkAreJudged : Prop :=
  ∀ (n : LaneNo) (v : BitVec 64) (s : State),
    let goesOn : State → Prop := fun t =>
      (t.lane n).request = some .header ∧ (t.lane n).nextAddr = v ∧ (t.lane n).step = .header ∧ (t.lane n).stall = .none
    let bad : State → FaultCode → Addr → Prop := fun t c a =>
      ((s.lane n).state ≠ .starved →
        (t.lane n).stall = .fetchFault ∧ (t.lane n).pendingFault = some (c, a)
          ∧ (t.lane n).state = (s.lane n).state)
      ∧ ((s.lane n).state = .starved → (t.lane n).state = .faulted ∧ (t.lane n).fault = c)
    (awaitsFetch s n .headField →
      ∃ t, exec (.headFieldReadDone n v) s = .next t
        ∧ (t.lane n).config = { (s.lane n).config with head := v }
        ∧ (v = 0 → (t.lane n).stall = .headField ∧ (t.lane n).state = (s.lane n).state)
        ∧ (v.toNat % 512 = 0 → v ≠ 0 → windowOk s .cueRead v 32 = true → (s.lane n).pages.length < 17 → goesOn t)
        ∧ (v.toNat % 512 = 0 → v ≠ 0 → windowOk s .cueRead v 32 = false → (s.lane n).pages.length < 17 →
            bad t .window v)
        ∧ (v.toNat % 512 ≠ 0 → bad t .badLink v)
        ∧ (∀ m, m ≠ n → t.lane m = s.lane m) ∧ t.inputs = s.inputs ∧ t.journal = s.journal ∧ t.fixed = s.fixed)
    ∧ (awaitsFetch s n .link →
      ∃ t, exec (.linkReadDone n v) s = .next t
        ∧ (t.lane n).config = (s.lane n).config
        ∧ (v = 0 → (t.lane n).stall = .link ∧ (t.lane n).state = (s.lane n).state)
        ∧ (v.toNat % 512 = 0 → v ≠ 0 → windowOk s .cueRead v 32 = true → (s.lane n).pages.length < 17 → goesOn t)
        ∧ (v.toNat % 512 = 0 → v ≠ 0 → windowOk s .cueRead v 32 = false → (s.lane n).pages.length < 17 →
            bad t .window v)
        ∧ (v.toNat % 512 ≠ 0 → bad t .badLink ((s.lane n).fetchPage.getD 0))
        ∧ (∀ m, m ≠ n → t.lane m = s.lane m) ∧ t.inputs = s.inputs ∧ t.journal = s.journal ∧ t.fixed = s.fixed)

/-- A page header is judged: owner PART with 1 to 15 cues takes the page as the last of the list; HOST and DONE stall at
HEADER; anything else is BAD_PAGE at the page's address. At a STARVED lane, as at a lane's first page, the page is taken and
its first burst presented where the windows hold it, and BAD_PAGE faults the lane at once; at another lane the fault is
pending at FETCH_FAULT. -/
def Obligations.PageHeaderIsJudged : Prop :=
  ∀ (n : LaneNo) (h : BitVec 256) (s : State), awaitsFetch s n .header →
    let l := s.lane n
    let owner : Byte := h.extractLsb' 0 8
    let count : Byte := h.extractLsb' 16 8
    let entry : PageEntry :=
      { addr := l.nextAddr, tag := h.extractLsb' 32 16, notifyRetire := h.getLsbD 8,
        count := count.toNat, fetched := 0, executed := 0, lateRun := 0, skipped := 0, discarded := 0,
        retiring := none }
    let size := min 4 (min count.toNat (16 - l.queue.length - l.reserved))
    ∃ t, exec (.headerReadDone n h) s = .next t
      ∧ (owner = 0x5A#8 → 1 ≤ count.toNat → count.toNat ≤ 15 →
          (l.state ≠ .starved ∨ windowOk s .cueRead (l.nextAddr + 32#64) (32 * size) = true →
            (t.lane n).pages = l.pages ++ [entry]
              ∧ (t.lane n).fetchPage = some l.nextAddr ∧ (t.lane n).step = .cues
              ∧ (t.lane n).state = l.state)
          ∧ (windowOk s .cueRead (l.nextAddr + 32#64) (32 * size) = true →
              l.running = true → l.request = none → 0 < size →
              (t.lane n).request = some .burst ∧ (t.lane n).stall = .none))
      ∧ (owner = 0x00#8 ∨ owner = 0xA5#8 →
          (t.lane n).stall = .header ∧ (t.lane n).pages = l.pages ∧ (t.lane n).state = l.state)
      ∧ (owner = 0x5A#8 ∧ (count.toNat = 0 ∨ 16 ≤ count.toNat)
            ∨ (owner ≠ 0x5A#8 ∧ owner ≠ 0x00#8 ∧ owner ≠ 0xA5#8) →
          (l.state ≠ .starved → (t.lane n).stall = .fetchFault
            ∧ (t.lane n).pendingFault = some (.badPage, l.nextAddr)
            ∧ (t.lane n).pages = l.pages ∧ (t.lane n).state = l.state)
          ∧ (l.state = .starved → l.wait = .none → laneFaulted s t n .badPage l.serial l.nextAddr))
      ∧ t.fixed = s.fixed

/-- A cue burst of the size reserved arrives at a lane that is not STARVED: every cue joins the tail of the queue in order
with its page, a cue that fails validation with the bad mark, the reserved slots are given up, and the page's fetched count
rises by the burst. At a STARVED lane with an empty queue, where the burst brings the last cues of its page and the windows
hold the page's link, the lane takes the first cue at once with the next serial: the bad mark faults it with BAD_CUE, and a
cue whose due is not reached leaves it PENDING. What passes validation is Table 2-3, and the fields lie as Tables 12-5 and
12-6 give. -/
def Obligations.CueBurstIsQueued : Prop :=
  (∀ (n : LaneNo) (cues : List (BitVec 256)) (s : State), awaitsFetch s n .burst →
    cues.length = (s.lane n).reserved →
    let l := s.lane n
    let queued : List QueuedCue := cues.map (fun raw => { cue := parseCue raw, page := l.fetchPage.getD 0 })
    (l.state ≠ .starved → ∃ t, exec (.cueBurstDone n cues) s = .next t
      ∧ (t.lane n).queue = l.queue ++ queued
      ∧ (t.lane n).reserved = 0
      ∧ (∀ before p, l.pages = before ++ [p] →
          (t.lane n).pages = before ++ [{ p with fetched := p.fetched + cues.length }])
      ∧ (t.lane n).state = l.state
      ∧ t.lines = s.lines ∧ t.journal = s.journal ∧ t.fixed = s.fixed)
    ∧ (∀ before p raw more, l.state = .starved → l.queue = [] → l.holdRequest = false → l.wait = .none →
        l.pages = before ++ [p] → p.fetched + cues.length = p.count →
        windowOk s .cueRead (l.fetchPage.getD 0 + 8#64) 8 = true → cues = raw :: more →
        let taken : State → Prop := fun t =>
          exec (.cueBurstDone n cues) s = .next t
            ∧ (t.lane n).serial = l.serial + 1 ∧ (t.lane n).reserved = 0 ∧ t.journal = s.journal ∧ t.fixed = s.fixed
        (parseCue raw = none →
          ∃ t, taken t ∧ (t.lane n).state = .faulted ∧ (t.lane n).fault = .badCue ∧ (t.lane n).queue = [])
        ∧ (∀ c, parseCue raw = some c →
            (c.rel = true ∨ c.due = l.anchor ∨ ¬(l.anchor - c.due).toNat < 2 ^ 47) →
            let due : Ticks := if c.rel then l.anchor + c.due else c.due
            ¬(s.time.schedule - due).toNat < 2 ^ 47 →
            ∃ t, taken t
              ∧ (t.lane n).state = .pending ∧ (t.lane n).due = due ∧ (t.lane n).anchor = due
              ∧ (t.lane n).queue = queued ∧ (t.lane n).hasCurrent = true
              ∧ (t.lane n).request = some .link ∧ (t.lane n).step = .link
              ∧ (t.lane n).pages = before ++ [{ p with fetched := p.count }] ∧ t.lines = s.lines)))
  ∧ (∀ raw : BitVec 256,
    let byte : Nat → Nat := fun o => (raw.extractLsb' (8 * o) 8).toNat
    let half : Nat → Nat := fun o => (raw.extractLsb' (8 * o) 16).toNat
    let word : Nat → Nat := fun o => (raw.extractLsb' (8 * o) 32).toNat
    let duration : Nat → Prop := fun o => 2 ≤ word o ∧ word o < 2 ^ 24
    ((parseCue raw).isSome = true ↔
      byte 0 ≤ 11 ∧ raw.extractLsb' 10 2 ≠ 3#2 ∧ (raw.getLsbD 12 = true → byte 0 = 8)
        ∧ (raw.getLsbD 8 = true → (raw.extractLsb' 16 48).toNat < 2 ^ 47)
        ∧ (byte 0 = 2 → byte 8 < 16 ∧ byte 9 ≤ 1 ∧ duration 12)
        ∧ (byte 0 = 3 → byte 8 < 16 ∧ byte 9 ≤ 1 ∧ duration 12 ∧ duration 16)
        ∧ (byte 0 = 4 → byte 8 < 16 ∧ byte 9 ≤ 1 ∧ 1 ≤ half 10 ∧ half 10 ≤ 256)
        ∧ (byte 0 = 8 → byte 8 < 16 ∧ 1 ≤ byte 9 ∧ byte 9 ≤ 3)
        ∧ (byte 0 = 9 → byte 8 < 16))
    ∧ (∀ c, parseCue raw = some c →
      c.rel = raw.getLsbD 8 ∧ c.notify = raw.getLsbD 9 ∧ c.due = raw.extractLsb' 16 48
        ∧ (c.policy = .run ↔ raw.extractLsb' 10 2 = 0#2) ∧ (c.policy = .skip ↔ raw.extractLsb' 10 2 = 1#2)
        ∧ (c.policy = .fault ↔ raw.extractLsb' 10 2 = 2#2)
        ∧ (match c.action with
          | .nop => byte 0 = 0
          | .setLines mask levels =>
            byte 0 = 1 ∧ mask = raw.extractLsb' (8 * 8) 16 ∧ levels = raw.extractLsb' (8 * 10) 16
          | .pulse k active width =>
            byte 0 = 2 ∧ k.val = byte 8 ∧ (active = .high ↔ byte 9 = 1) ∧ width.toNat = word 12
          | .wave k first d1 d2 periods =>
            byte 0 = 3 ∧ k.val = byte 8 ∧ (first = .high ↔ byte 9 = 1) ∧ periods.toNat = half 10
              ∧ d1.toNat = word 12 ∧ d2.toNat = word 16
          | .track k g m => byte 0 = 4 ∧ k.val = byte 8 ∧ g.val = byte 9 ∧ m = half 10
          | .captureOn mask => byte 0 = 5 ∧ mask = raw.extractLsb' (8 * 8) 16
          | .captureOff mask => byte 0 = 6 ∧ mask = raw.extractLsb' (8 * 8) 16
          | .mark v => byte 0 = 7 ∧ v.toNat = word 8
          | .waitInput k e timeout continues =>
            byte 0 = 8 ∧ k.val = byte 8 ∧ (e = .rise ↔ byte 9 = 1) ∧ (e = .fall ↔ byte 9 = 2)
              ∧ (e = .either ↔ byte 9 = 3) ∧ timeout.toNat = word 12 ∧ continues = raw.getLsbD 12
          | .claim k timeout => byte 0 = 9 ∧ k.val = byte 8 ∧ timeout.toNat = half 10
          | .release mask => byte 0 = 10 ∧ mask = raw.extractLsb' (8 * 8) 16
          | .endLane => byte 0 = 11)))

/-- A fetcher's read is answered with a bus error: none of a burst's cues is queued and its slots are given up; the fault is
pending at FETCH_FAULT while the lane is not STARVED, and a STARVED lane faults at once with BUS_ERROR. The address recorded
is the one R43 gives: the head field's for a head field read, the page's for a header, cue or link read. -/
def Obligations.FetchErrorIsPendingBusError : Prop :=
  ∀ (n : LaneNo) (r : FetchRead) (s : State), awaitsFetch s n r →
    readErrorAddr s n r = (match r with
      | .headField => exbAddr s + BitVec.ofNat 64 (0x040 + 16 * n.val)
      | .header => (s.lane n).nextAddr
      | .burst => (s.lane n).fetchPage.getD 0
      | .link => (s.lane n).fetchPage.getD 0)
    ∧ ∃ t, exec (.fetchReadError n) s = .next t
      ∧ (t.lane n).reserved = 0
      ∧ ((s.lane n).state ≠ .starved → (t.lane n).stall = .fetchFault ∧ (t.lane n).queue = (s.lane n).queue
          ∧ (t.lane n).pages = (s.lane n).pages ∧ (t.lane n).state = (s.lane n).state
          ∧ (t.lane n).pendingFault = some (.busError, readErrorAddr s n r)
          ∧ (∀ m, m ≠ n → t.lane m = s.lane m) ∧ t.lines = s.lines)
      ∧ ((s.lane n).state = .starved → (t.lane n).state = .faulted ∧ (t.lane n).fault = .busError
          ∧ (t.lane n).stall = .none
          ∧ (t.lane n).exceptions = (s.lane n).exceptions ++
              [{ state := .faulted, code := .busError, serial := (s.lane n).serial, page := readErrorAddr s n r }])
      ∧ t.fixed = s.fixed

/-! ## Journal -/

/-- A record that meets a FIFO of 64 is lost: both loss counts rise, saturating, the FIFO does not change, and the first loss
since the last close posts JOURNAL_TROUBLE with the session total; with fewer than 64 it is placed at the tail. -/
def Obligations.FullFifoLosesTheRecord : Prop :=
  ∀ (r : CaptureRecord) (s : State),
    (s.journal.fifo.length < 64 →
      capture r s = { s with journal := { s.journal with fifo := s.journal.fifo ++ [r] } })
    ∧ (64 ≤ s.journal.fifo.length →
      let up : Word → Word := fun x => if x = 0xFFFFFFFF#32 then x else x + 1
      (capture r s).journal =
          { s.journal with
            pendingLoss := up s.journal.pendingLoss
            sessionLoss := up s.journal.sessionLoss
            lossReported := true }
        ∧ (s.journal.lossReported = true → (capture r s).notice = s.notice)
        ∧ (s.journal.lossReported = false → ((capture r s).slot troubleSlot).details
            = .journalTrouble (up s.journal.sessionLoss) s.journal.fault)
        ∧ (capture r s).lanes = s.lanes ∧ (capture r s).fixed = s.fixed)

/-- JOURNAL_FLUSH: with an empty FIFO a page of 1 record or more closes FLUSHED, an empty page does not; with n records the
flush request is n; without a page nothing changes. The outcome is DONE. The flush timer of the current page expires: the
page closes TIMED. A close fixes the record count and the pending loss, which becomes 0, clears loss reported, stops the
timer, hands the summary write and leaves the journal STARVED with its FIFO. -/
def Obligations.FlushAndTimerCloseThePage : Prop :=
  ∀ (b : Byte) (s : State), s.awake →
    let closed : Addr → Nat → EndCode → Journal := fun a i code =>
      { s.journal with
        state := .starved
        step := .link
        page := none
        pendingLoss := 0
        flushTimer := none
        lossReported := false
        closing := s.journal.closing ++
          [{ addr := a, count := i, lost := s.journal.pendingLoss, code := code, time := s.time.schedule,
             follow := true }] }
    (s.part = .active → s.engine.command = none →
      ∃ t, exec (.journalFlush b) s = .next t
        ∧ t.engine = { s.engine with lastCode := codeJournalFlush, lastOperand := 0, lastOutcome := .done }
        ∧ (s.journal.page = none → t.journal = s.journal)
        ∧ (∀ a i, s.journal.page = some (a, i) →
            (s.journal.fifo = [] → i = 0 → t.journal = s.journal)
            ∧ (s.journal.fifo = [] → i ≠ 0 → t.journal = closed a i .flushed ∧ StatusItem.closeSummary ∈ t.handed)
            ∧ (s.journal.fifo ≠ [] → t.journal = { s.journal with flushRequest := s.journal.fifo.length }))
        ∧ t = { s with engine := t.engine, journal := t.journal, handed := t.handed })
    ∧ (∀ a i e, s.part ≠ .failed → s.journal.page = some (a, i) → s.journal.flushTimer = some e →
      reached s.time.elapsed e = true →
      ∃ t, exec .flushTimerExpiry s = .next t
        ∧ t.journal = closed a i .timed
        ∧ StatusItem.closeSummary ∈ t.handed
        ∧ t = { s with journal := t.journal, handed := t.handed })

/-- JOURNAL_RESTART's read completes: the head address is the value read, the link page is dropped, FIFO, losses and pages
closed are kept, and the status write is awaited. Head address 0 leaves the journal STARVED and stalled at HEAD_FIELD; a
multiple of 512 in a JOURNAL window leaves it STARVED with that page's header read presented; both with fault code NONE. A
value that is no multiple of 512 is BAD_LINK, and one outside every JOURNAL window is WINDOW at its own address. That the
restart clears the address recorded with the code, and that BAD_LINK on a head address records none, is the model's choice
(log 34). -/
def Obligations.JournalRestartStartsAnew : Prop :=
  ∀ (v : BitVec 64) (s : State), awaitsEngine s .journalHead → s.engine.command = some .journalRestart →
    s.journal.draining = false →
    let starved : State → Stall → Prop := fun t st =>
      t.journal.state = .starved ∧ t.journal.stall = st ∧ t.journal.fault = .none ∧ t.journal.faultAddr = none
    let faulted : State → FaultCode → Option Addr → Prop := fun t c a =>
      t.journal.state = .faulted ∧ t.journal.stall = .none ∧ t.journal.fault = c ∧ t.journal.faultAddr = a
        ∧ t.journal.flushRequest = 0 ∧ t.journal.request = none
    ∃ t, exec (.journalRestartReadDone v) s = .next t
      ∧ t.engine = { s.engine with flight := none, await := .toIssue }
      ∧ (v = 0 → starved t .headField ∧ t.journal.step = .head)
      ∧ (v.toNat % 512 ≠ 0 → faulted t .badLink none)
      ∧ (v ≠ 0 → v.toNat % 512 = 0 → windowOk s .journal v 32 = true →
          starved t .none ∧ t.journal.step = .header ∧ t.journal.nextAddr = v ∧ t.journal.request = some .header)
      ∧ (v ≠ 0 → v.toNat % 512 = 0 → windowOk s .journal v 32 = false → faulted t .window (some v))
      ∧ t.journal.head = v ∧ t.journal.linkPage = none
      ∧ t.journal.fifo = s.journal.fifo ∧ t.journal.pendingLoss = s.journal.pendingLoss
      ∧ t.journal.sessionLoss = s.journal.sessionLoss ∧ t.journal.lossReported = s.journal.lossReported
      ∧ t.journal.pagesClosed = s.journal.pagesClosed
      ∧ StatusItem.journalStatus ∈ t.handed
      ∧ t = { s with engine := t.engine, journal := t.journal, handed := t.handed }

/-- The answers to the journal's reads outside the drain: a header with owner PART is taken as the current page, HOST
and DONE stall at HEADER, another owner is BAD_PAGE; a link or head address of 0 stalls at LINK or HEAD_FIELD, one that
is no multiple of 512 is BAD_LINK, one whose header the windows do not hold is WINDOW; a bus error is BUS_ERROR. A fault
brings FAULTED with the code and drops a flush request. The address recorded with the code is the page's for BAD_PAGE,
WINDOW and an error on a header, the link page's for BAD_LINK and an error on a link, the head field's for an error on
it; with BAD_LINK on a head address none is recorded (log 34). -/
def Obligations.JournalAnswersAreJudged : Prop :=
  ∀ (h : BitVec 256) (v : BitVec 64) (s : State), s.journal.draining = false → s.journal.state = .starved →
    let owner : Byte := h.extractLsb' 0 8
    let linked : Addr := s.journal.linkPage.getD 0
    let faulted : State → FaultCode → Option Addr → Prop := fun t c a =>
      t.journal.state = .faulted ∧ t.journal.fault = c ∧ t.journal.faultAddr = a ∧ t.journal.stall = .none
        ∧ t.journal.flushRequest = 0
        ∧ t.journal.request = none ∧ t.journal.fifo = s.journal.fifo ∧ t.fixed = s.fixed
    let stalled : State → Stall → Prop := fun t st =>
      t.journal.state = .starved ∧ t.journal.stall = st ∧ t.journal.flushRequest = 0
        ∧ t.journal.fifo = s.journal.fifo ∧ t.fixed = s.fixed
    (awaitsJournal s .header → ∃ t, exec (.journalHeaderReadDone h) s = .next t
      ∧ (owner = 0x5A#8 → t.journal.state = .filling ∧ t.journal.page = some (s.journal.nextAddr, 0)
          ∧ t.journal.stall = .none ∧ t.fixed = s.fixed)
      ∧ (owner = 0x00#8 ∨ owner = 0xA5#8 → stalled t .header)
      ∧ (owner ≠ 0x5A#8 → owner ≠ 0x00#8 → owner ≠ 0xA5#8 → faulted t .badPage (some s.journal.nextAddr)))
    ∧ (awaitsJournal s .link → ∃ t, exec (.journalLinkReadDone v) s = .next t
      ∧ (v = 0 → stalled t .link)
      ∧ (v.toNat % 512 ≠ 0 → faulted t .badLink (some linked))
      ∧ (v ≠ 0 → v.toNat % 512 = 0 → windowOk s .journal v 32 = true →
          t.journal.request = some .header ∧ t.journal.nextAddr = v ∧ t.journal.stall = .none)
      ∧ (v ≠ 0 → v.toNat % 512 = 0 → windowOk s .journal v 32 = false → faulted t .window (some v)))
    ∧ (awaitsJournal s .headField → ∃ t, exec (.journalHeadFieldReadDone v) s = .next t
      ∧ t.journal.head = v
      ∧ (v = 0 → stalled t .headField)
      ∧ (v.toNat % 512 ≠ 0 → faulted t .badLink none)
      ∧ (v ≠ 0 → v.toNat % 512 = 0 → windowOk s .journal v 32 = true →
          t.journal.request = some .header ∧ t.journal.nextAddr = v ∧ t.journal.stall = .none)
      ∧ (v ≠ 0 → v.toNat % 512 = 0 → windowOk s .journal v 32 = false → faulted t .window (some v)))
    ∧ (∀ r, awaitsJournal s r → ∃ t, exec .journalReadError s = .next t
      ∧ faulted t .busError (some (match r with
        | .headField => exbAddr s + 0x080#64
        | .header => s.journal.nextAddr
        | .link => linked)))

/-! ## Notices -/

/-- A posting raises the slot's sequence count by one, or leaves it at its limit, takes its details, and puts the slot at the
tail of the issue queue unless it is in it; no other slot changes. At the slot's details write it leaves the issue queue,
write due is cleared and the count is fixed at the sequence count; the count write carries that count, and no write is in
progress afterwards. The details write is the 28 bytes from +4 on, with the fields of Table 12-7 at their offsets in the
slot. -/
def Obligations.PostingsRaiseAndWritesFixTheCount : Prop :=
  ∀ (k : SlotNo) (s : State),
    (∀ d : Details,
      ((post k d s).slot k).details = d
        ∧ ((post k d s).slot k).writeDue = true
        ∧ ((s.slot k).sequence - (s.slot k).acknowledged ≠ 0xFFFFFF#24 →
            ((post k d s).slot k).sequence = (s.slot k).sequence + 1)
        ∧ ((s.slot k).sequence - (s.slot k).acknowledged = 0xFFFFFF#24 →
            ((post k d s).slot k).sequence = (s.slot k).sequence)
        ∧ ((post k d s).slot k).posted = (s.slot k).posted
        ∧ ((post k d s).slot k).acknowledged = (s.slot k).acknowledged
        ∧ ((s.slot k).writeDue = false → (post k d s).notice.issueQueue = s.notice.issueQueue ++ [k])
        ∧ ((s.slot k).writeDue = true → (post k d s).notice.issueQueue = s.notice.issueQueue)
        ∧ (∀ j, j ≠ k → (post k d s).slot j = s.slot j)
        ∧ (post k d s).notice.gather = s.notice.gather)
    ∧ ((issueAccess (.status (.noticeDetails k)) s).notice.inProgress = some (k, (s.slot k).sequence)
      ∧ ((issueAccess (.status (.noticeDetails k)) s).slot k) = { s.slot k with writeDue := false }
      ∧ k ∉ (issueAccess (.status (.noticeDetails k)) s).notice.issueQueue
      ∧ StatusItem.noticeCount k ∈ (issueAccess (.status (.noticeDetails k)) s).handed)
    ∧ (∃ w, (issueAccess (.status (.noticeDetails k)) s).port.path = s.port.path ++ [w]
        ∧ w.addr = exbAddr s + BitVec.ofNat 64 (0x304 + 32 * k.val) ∧ w.bytes.length = 28 ∧ w.tag = .notice
        ∧ let field : Nat → Nat → Nat := fun offset len => numberAt w.bytes (offset - 4) len
          match (s.slot k).details with
          | .cleared => ∀ b ∈ w.bytes, b = 0
          | .progress serial tag => field 8 4 = serial.toNat ∧ field 12 2 = tag.toNat
          | .exception e =>
            field 8 1 = e.state.code ∧ field 9 1 = e.code.code ∧ field 12 4 = e.serial.toNat
              ∧ field 16 8 = e.page.toNat
          | .journalReady page count => field 8 1 = count % 256 ∧ field 16 8 = page.toNat
          | .journalTrouble total code => field 8 4 = total.toNat ∧ field 12 1 = code.code
          | .generator st period => field 8 1 = st.code ∧ field 12 4 = period.toNat
          | .timeMark time => field 8 8 = time.toNat
          | .command code operand outcome =>
            field 8 1 = code.toNat ∧ field 9 1 = operand.toNat ∧ field 10 1 = outcome.code
          | .starvation =>
            ∀ n : LaneNo, (field 8 1).testBit n.val
              = ((s.lane n).config.starveWarn && decide ((s.lane n).state = .starved))
          | .alignment old new => field 8 8 = old.toNat ∧ field 16 8 = new.toNat)
    ∧ (∀ c, s.notice.inProgress = some (k, c) → s.engine.command ≠ some (.start .writing) →
      (issueAccess (.status (.noticeCount k)) s).notice.inProgress = none
        ∧ (issueAccess (.status (.noticeCount k)) s).port.path = s.port.path ++
          [{ addr := exbAddr s + BitVec.ofNat 64 (0x300 + 32 * k.val), bytes := littleEndian 4 c.toNat,
             tag := .noticeCount k c, awaited := false }])

/-- The gather timer expires outside FAILED: OPEN if some SECONDARY slot is pending, else IDLE; nothing else changes. -/
def Obligations.GatherExpiryOpensOrIdles : Prop :=
  ∀ (e : Ticks) (s : State), s.awake → s.part ≠ .failed → s.notice.gather = .running e →
    reached s.time.elapsed e = true →
    ((∃ k, (s.slot k).posted ≠ (s.slot k).acknowledged ∧ (s.slot k).secondary = true) →
      exec .gatherExpiry s = .next { s with notice := { s.notice with gather := .opened } })
    ∧ ((∀ k, (s.slot k).secondary = true → (s.slot k).posted = (s.slot k).acknowledged) →
      exec .gatherExpiry s = .next { s with notice := { s.notice with gather := .idle } })

/-! ## Memory port -/

/-- The arbiter serves the first requester after the last served, in the ring fetcher 0 to 3, journal, status writer, command
engine, that has an access that can be taken; it becomes the last served and its access is issued. When none has one, nothing
changes. A waiting read can always be taken, a waiting write while the path holds fewer than 8 writes. What a requester has
waiting is the read it presents, unless one of its reads is in flight; else the journal's next record in FILLING, the oldest
write handed to the status writer, or the engine's next write (computed from the state as log 26 has it). LANE_RESTART's read
waits for the retirement writes of its lane, and the clearing of a notice slot for a count write (log 19). A read is issued
at the address and with the length its field has in the exchange block or the page; a burst takes the least of 4, the page's
unfetched cues and the free room, and reserves as many; the range of a configuration read is log 9. A read that overlaps
writes of the path is held until the last of them has completed, and no answer reaches it before (log 4). -/
def Obligations.ArbiterServesTheRing : Prop :=
  (∀ s : State, s.awake →
    (s.port.live = true →
      (∀ before r a after, ringAfter s.port.last = before ++ r :: after →
        (∀ q ∈ before, takeable s q = none) → takeable s r = some a →
        exec .memoryService s = .next (issueAccess a { s with port := { s.port with last := r } }))
      ∧ ((∀ q, takeable s q = none) → exec .memoryService s = .next s))
    ∧ (s.port.live = false → exec .memoryService s = .next s))
  ∧ ringAfter (.fetcher 0) = [.fetcher 1, .fetcher 2, .fetcher 3, .journal, .statusWriter, .engine, .fetcher 0]
  ∧ ringAfter (.fetcher 1) = [.fetcher 2, .fetcher 3, .journal, .statusWriter, .engine, .fetcher 0, .fetcher 1]
  ∧ ringAfter (.fetcher 2) = [.fetcher 3, .journal, .statusWriter, .engine, .fetcher 0, .fetcher 1, .fetcher 2]
  ∧ ringAfter (.fetcher 3) = [.journal, .statusWriter, .engine, .fetcher 0, .fetcher 1, .fetcher 2, .fetcher 3]
  ∧ ringAfter .journal = [.statusWriter, .engine, .fetcher 0, .fetcher 1, .fetcher 2, .fetcher 3, .journal]
  ∧ ringAfter .statusWriter = [.engine, .fetcher 0, .fetcher 1, .fetcher 2, .fetcher 3, .journal, .statusWriter]
  ∧ ringAfter .engine = [.fetcher 0, .fetcher 1, .fetcher 2, .fetcher 3, .journal, .statusWriter, .engine]
  ∧ (∀ s q,
      (waiting s q = none → takeable s q = none)
      ∧ (∀ a, waiting s q = some a →
        ((∃ n r, a = .fetch n r) ∨ (∃ r, a = .journalRead r) ∨ (∃ r, a = .engineRead r) → takeable s q = some a)
        ∧ (a = .record ∨ (∃ it, a = .status it) ∨ (∃ w, a = .engineWrite w) →
          (s.port.path.length < 8 → takeable s q = some a) ∧ (8 ≤ s.port.path.length → takeable s q = none))))
  ∧ (∀ s : State,
      (∀ n, ((s.lane n).flight ≠ none → waiting s (.fetcher n) = none)
        ∧ ((s.lane n).flight = none → waiting s (.fetcher n) = (s.lane n).request.map (Access.fetch n)))
      ∧ (∀ r, s.journal.request = some r →
          (s.journal.flight ≠ none → waiting s .journal = none)
          ∧ (s.journal.flight = none → waiting s .journal = some (.journalRead r)))
      ∧ (s.journal.request = none →
          (s.journal.state = .filling ∧ s.journal.page ≠ none ∧ s.journal.fifo ≠ [] →
            waiting s .journal = some .record)
          ∧ (s.journal.state ≠ .filling ∨ s.journal.page = none ∨ s.journal.fifo = [] → waiting s .journal = none))
      ∧ waiting s .statusWriter = s.handed.head?.map Access.status
      ∧ (∀ r, s.engine.request = some r →
          let behind := ∃ n, s.engine.command = some (.laneRestart n)
            ∧ (StatusItem.retireSummary n ∈ s.handed ∨ StatusItem.retireOwner n ∈ s.handed)
          (s.engine.flight ≠ none ∨ behind → waiting s .engine = none)
          ∧ (s.engine.flight = none → ¬behind → waiting s .engine = some (.engineRead r)))
      ∧ (s.engine.request = none →
          (s.engine.writes = [] → waiting s .engine = none)
          ∧ (∀ o rest, s.engine.writes = .partStatus o :: rest → waiting s .engine = some (.engineWrite (.partStatus o)))
          ∧ (∀ k rest, s.engine.writes = .clearSlot k :: rest →
            let behind := ∃ j, StatusItem.noticeCount j ∈ s.handed
            (behind → waiting s .engine = none) ∧ (¬behind → waiting s .engine = some (.engineWrite (.clearSlot k))))))
  ∧ (∀ (n : LaneNo) (r : FetchRead) (s : State),
      let l := s.lane n
      let unfetched := (l.pages.getLast?.map fun p => p.count - p.fetched).getD 0
      let fetched := (l.pages.getLast?.map fun p => p.fetched).getD 0
      let size := min 4 (min unfetched (16 - l.queue.length - l.reserved))
      let page : Addr := l.fetchPage.getD 0
      let range : Addr × Nat := match r with
        | .headField => (exbAddr s + BitVec.ofNat 64 (0x040 + 16 * n.val), 8)
        | .header => (l.nextAddr, 32)
        | .burst => (page + BitVec.ofNat 64 (32 + 32 * fetched), 32 * size)
        | .link => (page + 8#64, 8)
      ∃ b, heldBehind s range.1 range.2 b
        ∧ issueAccess (.fetch n r) s = s.setLane n { l with
            request := none
            flight := some { kind := r, discard := false, behind := b }
            reserved := if r = .burst then size else l.reserved })
  ∧ (∀ (r : JournalRead) (s : State),
      let range : Addr × Nat := match r with
        | .headField => (exbAddr s + 0x080#64, 8)
        | .header => (s.journal.nextAddr, 32)
        | .link => (s.journal.linkPage.getD 0 + 8#64, 8)
      ∃ b, heldBehind s range.1 range.2 b
        ∧ issueAccess (.journalRead r) s = { s with
            journal := { s.journal with
              request := none
              flight := some { kind := r, discard := false, behind := b } } })
  ∧ (∀ (r : EngineRead) (n : LaneNo) (s : State), (r = .laneRecord → s.engine.command = some (.laneRestart n)) →
      let range : Addr × Nat := match r with
        | .configuration => (exbAddr s, 0x300)
        | .laneRecord => (exbAddr s + BitVec.ofNat 64 (0x040 + 16 * n.val), 16)
        | .journalHead => (exbAddr s + 0x080#64, 8)
        | .alignValue => (exbAddr s + 0x098#64, 8)
      ∃ b, heldBehind s range.1 range.2 b
        ∧ issueAccess (.engineRead r) s = { s with
            engine := { s.engine with
              request := none
              flight := some { kind := r, discard := false, behind := b } } })
  ∧ (∀ (n : LaneNo) (f : Flight FetchRead) (s : State), (s.lane n).flight = some f → 0 < f.behind →
      noLeftRead s (.fetcher n) →
      (∀ v, exec (.headFieldReadDone n v) s = .next s) ∧ (∀ h, exec (.headerReadDone n h) s = .next s)
        ∧ (∀ cs, exec (.cueBurstDone n cs) s = .next s) ∧ (∀ v, exec (.linkReadDone n v) s = .next s)
        ∧ exec (.fetchReadError n) s = .next s)
  ∧ (∀ (f : Flight JournalRead) (s : State), s.journal.flight = some f → 0 < f.behind → noLeftRead s .journal →
      (∀ v, exec (.journalHeadFieldReadDone v) s = .next s) ∧ (∀ h, exec (.journalHeaderReadDone h) s = .next s)
        ∧ (∀ v, exec (.journalLinkReadDone v) s = .next s) ∧ exec .journalReadError s = .next s)

/-- The journal's record write: the head of the FIFO is appended to the path at the record's place in the page, leaves the
FIFO, and the record index rises; the write that brings it to 30 closes the page FULL. Under a flush request each record
brings it one nearer its end, and the last one closes the page FLUSHED, or, where the flush timer expires at this tick, as
a free value gives (log 3). In STOP's drain the last record closes the page STOPPED and the journal is OFF; that a page's
first record does not start the flush timer in the drain is the model's choice (log 31). A record the windows do not hold
is not written and faults with WINDOW at the page's address (log 30). The retirement writes of a lane's oldest page: the
summary write carries its end code, counts and retire time, and with the owner write DONE the page leaves the list, pages
retired rises by one and the last retired tag is the page's; a running fetcher that waited for room then presents its
header read. The close writes of a capture page: the summary write carries the end code, the record count, the loss and
the close time, and with the owner write DONE the page leaves the closing pages, pages closed rises by one and
JOURNAL_READY is posted. The bytes of records and summaries lie as Tables 12-4 and 12-7 give. -/
def Obligations.RecordAndRetirementWritesAreIssued : Prop :=
  ∀ s : State,
    (∀ (a : Addr) (i : Nat) (r : CaptureRecord) (rest : List CaptureRecord),
      s.journal.page = some (a, i) → s.journal.fifo = r :: rest →
      let at_ := a + BitVec.ofNat 64 (32 + 16 * i)
      let t := issueAccess .record s
      let close : Nat → EndCode → Bool → Closing := fun count code follow =>
        { addr := a, count := count, lost := s.journal.pendingLoss, code := code, time := s.time.schedule,
          follow := follow }
      (windowOk s .journal at_ 16 = false → s.journal.draining = false →
        t.journal.state = .faulted ∧ t.journal.fault = .window ∧ t.journal.faultAddr = some a
          ∧ t.journal.fifo = s.journal.fifo ∧ t.port = s.port)
      ∧ (windowOk s .journal at_ 16 = true →
        t.port.path = s.port.path ++ [{ addr := at_, bytes := r.bytes, tag := .data, awaited := false }]
        ∧ t.lanes = s.lanes ∧ t.memory = s.memory
        ∧ (s.journal.draining = false ∨ s.journal.state = .filling ∧ s.journal.stall = .none → t.journal.fifo = rest)
        ∧ (s.journal.draining = false → i < 29 → s.journal.flushRequest ≠ 1 →
            t.journal.page = some (a, i + 1) ∧ t.journal.flushRequest = s.journal.flushRequest - 1
              ∧ t.journal.state = s.journal.state ∧ t.journal.closing = s.journal.closing
              ∧ (i = 0 → s.journal.flushInterval ≠ 0 → t.journal.flushTimer
                  = some (s.time.elapsed + BitVec.ofNat 48 (2000 * s.journal.flushInterval.toNat)))
              ∧ (i ≠ 0 → t.journal.flushTimer = s.journal.flushTimer))
        ∧ (s.journal.draining = false → i < 29 → s.journal.flushRequest = 1 →
            t.journal.page = none ∧ t.journal.state = .starved ∧ t.journal.flushRequest = 0
              ∧ (t.journal.closing = s.journal.closing ++ [close (i + 1) .flushed true]
                ∨ (∃ e, s.journal.flushTimer = some e ∧ reached s.time.elapsed e = true)
                  ∧ t.journal.closing = s.journal.closing ++ [close (i + 1) .timed true]))
        ∧ (s.journal.draining = false → i = 29 →
            t.journal.page = none ∧ t.journal.state = .starved
              ∧ t.journal.closing = s.journal.closing ++ [close 30 .full true])
        ∧ (s.journal.draining = true → s.journal.state = .filling → s.journal.stall = .none →
            s.journal.flushRequest = 0 →
            (rest ≠ [] → i < 29 → t.journal.page = some (a, i + 1) ∧ t.journal.draining = true
              ∧ t.journal.flushTimer = s.journal.flushTimer)
            ∧ (rest = [] → i < 29 → t.journal.state = .off ∧ t.journal.draining = false ∧ t.journal.page = none
              ∧ (∃ before, t.journal.closing = before ++ [close (i + 1) .stopped false]))
            ∧ (rest ≠ [] → i = 29 → t.journal.state = .starved ∧ t.journal.draining = true ∧ t.journal.page = none
              ∧ t.journal.closing = s.journal.closing ++ [close 30 .full true]))))
    ∧ (∀ (n : LaneNo) (p : PageEntry) (rest : List PageEntry) (code : EndCode) (time : Ticks),
      (s.lane n).pages = p :: rest → p.retiring = some (code, time) →
      let t := issueAccess (.status (.retireSummary n)) s
      let u := issueAccess (.status (.retireOwner n)) s
      let bytes := p.summaryBytes code time
      t.port.path = s.port.path ++
          [{ addr := p.addr + BitVec.ofNat 64 16, bytes := bytes, tag := .data, awaited := false }]
        ∧ bytes.length = 16 ∧ numberAt bytes 0 1 = code.code ∧ numberAt bytes 2 2 = p.executed % 65536
        ∧ numberAt bytes 4 2 = p.lateRun % 65536 ∧ numberAt bytes 6 2 = p.skipped % 65536
        ∧ numberAt bytes 8 2 = p.discarded % 65536 ∧ numberAt bytes 10 6 = time.toNat
        ∧ StatusItem.retireOwner n ∈ t.handed
        ∧ t.lanes = s.lanes
        ∧ u.port.path = s.port.path ++ [{ addr := p.addr, bytes := [0xA5#8], tag := .data, awaited := false }]
        ∧ (u.lane n).pagesRetired = (s.lane n).pagesRetired + 1
        ∧ (u.lane n).lastTag = p.tag
        ∧ ((s.lane n).running = false ∨ (s.lane n).state ≠ .starved ∨ (s.lane n).step ≠ .header
            ∨ windowOk s .cueRead (s.lane n).nextAddr 32 = true → (u.lane n).pages = rest)
        ∧ ((s.lane n).running = true → (s.lane n).stall = .none → (s.lane n).request = none →
            (s.lane n).flight = none → (s.lane n).step = .header → rest.length < 17 →
            windowOk s .cueRead (s.lane n).nextAddr 32 = true → (u.lane n).request = some .header)
        ∧ (∀ m, m ≠ n → u.lane m = s.lane m))
    ∧ (∀ (c : Closing) (rest : List Closing), s.journal.closing = c :: rest →
      let t := issueAccess (.status .closeSummary) s
      let u := issueAccess (.status .closeOwner) s
      t.port.path = s.port.path ++
          [{ addr := c.addr + BitVec.ofNat 64 16, bytes := c.summaryBytes, tag := .data, awaited := false }]
        ∧ c.summaryBytes.length = 16 ∧ numberAt c.summaryBytes 0 1 = c.code.code
        ∧ numberAt c.summaryBytes 1 1 = c.count % 256 ∧ numberAt c.summaryBytes 4 4 = c.lost.toNat
        ∧ numberAt c.summaryBytes 10 6 = c.time.toNat
        ∧ StatusItem.closeOwner ∈ t.handed
        ∧ u.port.path = s.port.path ++ [{ addr := c.addr, bytes := [0xA5#8], tag := .data, awaited := false }]
        ∧ u.journal.closing = rest ∧ u.journal.pagesClosed = s.journal.pagesClosed + 1
        ∧ (u.slot readySlot).details = .journalReady c.addr c.count
        ∧ (c.follow = true → u.journal.linkPage = some c.addr))
    ∧ (∀ r : CaptureRecord, r.bytes.length = 16
      ∧ match r with
        | .edge k d time =>
          numberAt r.bytes 0 1 = 1 ∧ numberAt r.bytes 1 1 = k.val ∧ numberAt r.bytes 2 6 = time.toNat
            ∧ numberAt r.bytes 8 1 = (match d with
              | .rise => 1
              | .fall => 2)
        | .mark n v time =>
          numberAt r.bytes 0 1 = 2 ∧ numberAt r.bytes 1 1 = n.val ∧ numberAt r.bytes 2 6 = time.toNat
            ∧ numberAt r.bytes 8 4 = v.toNat
        | .sync aligned time =>
          numberAt r.bytes 0 1 = 3 ∧ numberAt r.bytes 1 1 = (if aligned then 1 else 0)
            ∧ numberAt r.bytes 2 6 = time.toNat
        | .track g st period time =>
          numberAt r.bytes 0 1 = 4 ∧ numberAt r.bytes 1 1 = g.val ∧ numberAt r.bytes 2 6 = time.toNat
            ∧ numberAt r.bytes 8 1 = st.code ∧ numberAt r.bytes 12 4 = period.toNat)

/-- Memory completes the oldest write of the path: it leaves the path, its bytes are in memory and every other byte is as it
was; a slot's count write makes the posted count the count it carried and acts on the gather state by the table of R162: a
PRIMARY slot's opens it, a SECONDARY slot's starts the gather timer in IDLE, or opens it where the interval is 0, and changes
no other gather state. Another write leaves the gather state as it is. A read held behind writes of the path is one write
nearer its sending, and is sent at once with the last of them. -/
def Obligations.WriteCompletionLandsTheBytes : Prop :=
  ∀ (w : Write) (rest : List Write) (s : State), s.port.leftWrites = [] → s.port.path = w :: rest →
    w.addr.toNat + w.bytes.length ≤ 2 ^ 64 →
    ∃ t, exec .writeComplete s = .next t
      ∧ t.port = { s.port with path := rest }
      ∧ (∀ i b, w.bytes[i]? = some b → Memory.get t.memory (w.addr.toNat + i) = some b)
      ∧ (∀ a, (a < w.addr.toNat ∨ w.addr.toNat + w.bytes.length ≤ a) → Memory.get t.memory a = Memory.get s.memory a)
      ∧ (∀ k c, w.tag = .noticeCount k c → t.slot k = { s.slot k with posted := c })
      ∧ (∀ k, (∀ c, w.tag ≠ .noticeCount k c) → t.slot k = s.slot k)
      ∧ ((∀ k c, w.tag ≠ .noticeCount k c) → t.notice.gather = s.notice.gather)
      ∧ (∀ k c, w.tag = .noticeCount k c →
          ((s.slot k).secondary = false → t.notice.gather = .opened)
          ∧ ((s.slot k).secondary = true → s.notice.gather = .idle → s.notice.gatherInterval = 0 →
              t.notice.gather = .opened)
          ∧ ((s.slot k).secondary = true → s.notice.gather = .idle → s.notice.gatherInterval ≠ 0 →
              t.notice.gather
                = .running (s.time.elapsed + BitVec.ofNat 48 (125 * s.notice.gatherInterval.toNat)))
          ∧ ((s.slot k).secondary = true → s.notice.gather ≠ .idle → t.notice.gather = s.notice.gather))
      ∧ t.notice.issueQueue = s.notice.issueQueue ∧ t.notice.gatherInterval = s.notice.gatherInterval
      ∧ (∀ n, t.lane n = { s.lane n with
          flight := (s.lane n).flight.map fun f => { f with behind := f.behind - 1 } })
      ∧ t.journal = { s.journal with flight := s.journal.flight.map fun f => { f with behind := f.behind - 1 } }
      ∧ t.engine.flight = s.engine.flight.map (fun f => { f with behind := f.behind - 1 })
      ∧ t.lines = s.lines ∧ t.gens = s.gens ∧ t.time = s.time ∧ t.part = s.part ∧ t.regs = s.regs

/-- A bus error on a write puts the part in FAILED, whatever its state: the path is emptied, the port is no longer live, the
command in progress ends with the last fields unchanged, every line not FLOAT takes its fault action and keeps its owner
and waiters, lanes and journal keep state, counts and contents and stop reading, a generator whose line was in TRACK on it is
bound no more and keeps its other fields, no due, derived edge or virtual edge is taken any more, the inputs and SYNC are no
longer live, the timers stop, the arm and the clocks are kept, and the attention request is true (that the fetchers stop is
log 18). -/
def Obligations.WriteErrorFailsThePart : Prop :=
  ∀ (w : Write) (rest : List Write) (s : State), s.port.leftWrites = [] → s.port.path = w :: rest →
    ∃ t, exec .writeError s = .next t
      ∧ t.part = .failed ∧ t.port.live = false ∧ t.port.path = [] ∧ t.port.windows = s.port.windows
      ∧ t.engine.command = none ∧ t.engine.lastCode = s.engine.lastCode
      ∧ t.engine.lastOperand = s.engine.lastOperand ∧ t.engine.lastOutcome = s.engine.lastOutcome
      ∧ (∀ k, t.line k = { s.line k with mode := faultMode (s.line k).faultAction (s.line k).mode })
      ∧ (∀ n, (t.lane n).state = (s.lane n).state ∧ (t.lane n).queue = (s.lane n).queue
          ∧ (t.lane n).pages = (s.lane n).pages ∧ (t.lane n).executed = (s.lane n).executed
          ∧ (t.lane n).running = false ∧ (t.lane n).flight = none)
      ∧ (∀ n, t.lane n = { s.lane n with
          wait := .none, running := false, stall := .none, request := none, flight := none, reserved := 0 })
      ∧ (∀ g, t.gen g = { s.gen g with bound := (t.gen g).bound, nextIndex := (t.gen g).nextIndex })
      ∧ (∀ g k l, (s.gen g).bound = some k → (s.line k).mode = .track l g → (t.gen g).bound = none)
      ∧ (∀ g, (s.gen g).bound = none → t.gen g = s.gen g)
      ∧ (∀ n, exec (.dueReached n) t = .next t) ∧ (∀ g, exec (.derivedEdge g) t = .next t)
      ∧ (∀ g, exec (.virtualEdge g) t = .next t)
      ∧ t.journal = { s.journal with flushTimer := none, request := none, flight := none }
      ∧ t.journal.state = s.journal.state ∧ t.journal.fifo = s.journal.fifo ∧ t.journal.page = s.journal.page
      ∧ t.journal.flushTimer = none
      ∧ t.notice = s.notice
      ∧ t.inputsLive = false ∧ t.sync.live = false ∧ t.survey.expiry = none
      ∧ t.time = s.time ∧ t.regs = s.regs ∧ attentionRequest t = true

/-! ## What every step keeps -/

/-- Every step keeps the capture FIFO at 64 records or fewer. -/
def Obligations.StepKeepsTheFifoBound : Prop :=
  ∀ s t : State, fifoBounded s = true → step s = .next t → fifoBounded t = true

/-- Every step keeps the ordered write path at 8 writes or fewer, the port live exactly outside FAILED, where no command is in
progress, the exchange block address a multiple of 2048, and the bytes of memory in rising order (the model's own form of
memory, log 6). -/
def Obligations.StepKeepsThePortSound : Prop :=
  ∀ s t : State,
    pathBounded s = true ∧ Memory.wf s.memory = true ∧ failedAgrees s = true ∧ addressAligned s = true →
    step s = .next t →
    pathBounded t = true ∧ Memory.wf t.memory = true ∧ failedAgrees t = true ∧ addressAligned t = true

/-- Every step keeps each lane at 16 cues queued or reserved, at 17 pages in its list, and at one read at a time. -/
def Obligations.StepKeepsTheLaneBounds : Prop :=
  ∀ s t : State, lanesBounded s = true → step s = .next t → lanesBounded t = true

/-- Every step keeps the claim arbiter and the bindings sound: an owner never stands in its line's waiter list, no lane
stands in a list twice, a lane has a waiter entry in one list while it is in WAIT_LINE and in none else, and a generator
is bound to a line exactly where that line is in TRACK on it. It needs and keeps that the command in progress, the lanes
and the lines fit the part state and that in FAILED every block has ceased. -/
def Obligations.StepKeepsClaimsAndBindings : Prop :=
  ∀ s t : State,
    claimsSound s = true ∧ bindingsSound s = true ∧ sessionSound s = true →
    step s = .next t →
    claimsSound t = true ∧ bindingsSound t = true ∧ sessionSound t = true
end

