-- ==== Sys2Proof/Laws/State.lean ====
section
/-!
SUPPORT. One lemma per field per update: what replacing one lane, line, input line, generator, notice slot or the journal
leaves, and what it reads back.
-/

namespace Sys2Proof.Machine

/-! ## setLane -/

@[simp] theorem setLane_pending (s : State) (n : LaneNo) (x : Lane) : (s.setLane n x).pending = s.pending := rfl

@[simp] theorem setLane_resetPin (s : State) (n : LaneNo) (x : Lane) : (s.setLane n x).resetPin = s.resetPin := rfl

@[simp] theorem setLane_pins (s : State) (n : LaneNo) (x : Lane) : (s.setLane n x).pins = s.pins := rfl

@[simp] theorem setLane_part (s : State) (n : LaneNo) (x : Lane) : (s.setLane n x).part = s.part := rfl

@[simp] theorem setLane_lines (s : State) (n : LaneNo) (x : Lane) : (s.setLane n x).lines = s.lines := rfl

@[simp] theorem setLane_inputs (s : State) (n : LaneNo) (x : Lane) : (s.setLane n x).inputs = s.inputs := rfl

@[simp] theorem setLane_inputsLive (s : State) (n : LaneNo) (x : Lane) : (s.setLane n x).inputsLive = s.inputsLive := rfl

@[simp] theorem setLane_sync (s : State) (n : LaneNo) (x : Lane) : (s.setLane n x).sync = s.sync := rfl

@[simp] theorem setLane_time (s : State) (n : LaneNo) (x : Lane) : (s.setLane n x).time = s.time := rfl

@[simp] theorem setLane_gens (s : State) (n : LaneNo) (x : Lane) : (s.setLane n x).gens = s.gens := rfl

@[simp] theorem setLane_journal (s : State) (n : LaneNo) (x : Lane) : (s.setLane n x).journal = s.journal := rfl

@[simp] theorem setLane_notice (s : State) (n : LaneNo) (x : Lane) : (s.setLane n x).notice = s.notice := rfl

@[simp] theorem setLane_handed (s : State) (n : LaneNo) (x : Lane) : (s.setLane n x).handed = s.handed := rfl

@[simp] theorem setLane_port (s : State) (n : LaneNo) (x : Lane) : (s.setLane n x).port = s.port := rfl

@[simp] theorem setLane_engine (s : State) (n : LaneNo) (x : Lane) : (s.setLane n x).engine = s.engine := rfl

@[simp] theorem setLane_regs (s : State) (n : LaneNo) (x : Lane) : (s.setLane n x).regs = s.regs := rfl

@[simp] theorem setLane_survey (s : State) (n : LaneNo) (x : Lane) : (s.setLane n x).survey = s.survey := rfl

@[simp] theorem setLane_memory (s : State) (n : LaneNo) (x : Lane) : (s.setLane n x).memory = s.memory := rfl

@[simp] theorem setLane_choices (s : State) (n : LaneNo) (x : Lane) : (s.setLane n x).choices = s.choices := rfl

@[simp] theorem lane_setLane_self (s : State) (n : LaneNo) (x : Lane) : (s.setLane n x).lane n = x := by
  simp [State.setLane, State.lane]

theorem lane_setLane (s : State) (n j : LaneNo) (x : Lane) :
    (s.setLane n x).lane j = if n = j then x else s.lane j := by
  simp only [State.setLane, State.lane, Fin.getElem_fin, Vector.getElem_set, Fin.val_inj]

theorem lane_setLane_ne (s : State) {n j : LaneNo} (h : n ≠ j) (x : Lane) : (s.setLane n x).lane j = s.lane j := by
  rw [lane_setLane, if_neg h]

@[simp] theorem line_setLane (s : State) (i : LaneNo) (j : LineNo) (x : Lane) : (s.setLane i x).line j = s.line j := rfl

@[simp] theorem input_setLane (s : State) (i : LaneNo) (j : LineNo) (x : Lane) : (s.setLane i x).input j = s.input j := rfl

@[simp] theorem gen_setLane (s : State) (i : LaneNo) (j : GenNo) (x : Lane) : (s.setLane i x).gen j = s.gen j := rfl

@[simp] theorem slot_setLane (s : State) (i : LaneNo) (j : SlotNo) (x : Lane) : (s.setLane i x).slot j = s.slot j := rfl

/-! ## setLine -/

@[simp] theorem setLine_pending (s : State) (k : LineNo) (x : OutLine) : (s.setLine k x).pending = s.pending := rfl

@[simp] theorem setLine_resetPin (s : State) (k : LineNo) (x : OutLine) : (s.setLine k x).resetPin = s.resetPin := rfl

@[simp] theorem setLine_pins (s : State) (k : LineNo) (x : OutLine) : (s.setLine k x).pins = s.pins := rfl

@[simp] theorem setLine_part (s : State) (k : LineNo) (x : OutLine) : (s.setLine k x).part = s.part := rfl

@[simp] theorem setLine_lanes (s : State) (k : LineNo) (x : OutLine) : (s.setLine k x).lanes = s.lanes := rfl

@[simp] theorem setLine_inputs (s : State) (k : LineNo) (x : OutLine) : (s.setLine k x).inputs = s.inputs := rfl

@[simp] theorem setLine_inputsLive (s : State) (k : LineNo) (x : OutLine) : (s.setLine k x).inputsLive = s.inputsLive := rfl

@[simp] theorem setLine_sync (s : State) (k : LineNo) (x : OutLine) : (s.setLine k x).sync = s.sync := rfl

@[simp] theorem setLine_time (s : State) (k : LineNo) (x : OutLine) : (s.setLine k x).time = s.time := rfl

@[simp] theorem setLine_gens (s : State) (k : LineNo) (x : OutLine) : (s.setLine k x).gens = s.gens := rfl

@[simp] theorem setLine_journal (s : State) (k : LineNo) (x : OutLine) : (s.setLine k x).journal = s.journal := rfl

@[simp] theorem setLine_notice (s : State) (k : LineNo) (x : OutLine) : (s.setLine k x).notice = s.notice := rfl

@[simp] theorem setLine_handed (s : State) (k : LineNo) (x : OutLine) : (s.setLine k x).handed = s.handed := rfl

@[simp] theorem setLine_port (s : State) (k : LineNo) (x : OutLine) : (s.setLine k x).port = s.port := rfl

@[simp] theorem setLine_engine (s : State) (k : LineNo) (x : OutLine) : (s.setLine k x).engine = s.engine := rfl

@[simp] theorem setLine_regs (s : State) (k : LineNo) (x : OutLine) : (s.setLine k x).regs = s.regs := rfl

@[simp] theorem setLine_survey (s : State) (k : LineNo) (x : OutLine) : (s.setLine k x).survey = s.survey := rfl

@[simp] theorem setLine_memory (s : State) (k : LineNo) (x : OutLine) : (s.setLine k x).memory = s.memory := rfl

@[simp] theorem setLine_choices (s : State) (k : LineNo) (x : OutLine) : (s.setLine k x).choices = s.choices := rfl

@[simp] theorem line_setLine_self (s : State) (k : LineNo) (x : OutLine) : (s.setLine k x).line k = x := by
  simp [State.setLine, State.line]

theorem line_setLine (s : State) (k j : LineNo) (x : OutLine) :
    (s.setLine k x).line j = if k = j then x else s.line j := by
  simp only [State.setLine, State.line, Fin.getElem_fin, Vector.getElem_set, Fin.val_inj]

theorem line_setLine_ne (s : State) {k j : LineNo} (h : k ≠ j) (x : OutLine) : (s.setLine k x).line j = s.line j := by
  rw [line_setLine, if_neg h]

@[simp] theorem lane_setLine (s : State) (i : LineNo) (j : LaneNo) (x : OutLine) : (s.setLine i x).lane j = s.lane j := rfl

@[simp] theorem input_setLine (s : State) (i : LineNo) (j : LineNo) (x : OutLine) : (s.setLine i x).input j = s.input j := rfl

@[simp] theorem gen_setLine (s : State) (i : LineNo) (j : GenNo) (x : OutLine) : (s.setLine i x).gen j = s.gen j := rfl

@[simp] theorem slot_setLine (s : State) (i : LineNo) (j : SlotNo) (x : OutLine) : (s.setLine i x).slot j = s.slot j := rfl

/-! ## setInput -/

@[simp] theorem setInput_pending (s : State) (k : LineNo) (x : InLine) : (s.setInput k x).pending = s.pending := rfl

@[simp] theorem setInput_resetPin (s : State) (k : LineNo) (x : InLine) : (s.setInput k x).resetPin = s.resetPin := rfl

@[simp] theorem setInput_pins (s : State) (k : LineNo) (x : InLine) : (s.setInput k x).pins = s.pins := rfl

@[simp] theorem setInput_part (s : State) (k : LineNo) (x : InLine) : (s.setInput k x).part = s.part := rfl

@[simp] theorem setInput_lanes (s : State) (k : LineNo) (x : InLine) : (s.setInput k x).lanes = s.lanes := rfl

@[simp] theorem setInput_lines (s : State) (k : LineNo) (x : InLine) : (s.setInput k x).lines = s.lines := rfl

@[simp] theorem setInput_inputsLive (s : State) (k : LineNo) (x : InLine) : (s.setInput k x).inputsLive = s.inputsLive := rfl

@[simp] theorem setInput_sync (s : State) (k : LineNo) (x : InLine) : (s.setInput k x).sync = s.sync := rfl

@[simp] theorem setInput_time (s : State) (k : LineNo) (x : InLine) : (s.setInput k x).time = s.time := rfl

@[simp] theorem setInput_gens (s : State) (k : LineNo) (x : InLine) : (s.setInput k x).gens = s.gens := rfl

@[simp] theorem setInput_journal (s : State) (k : LineNo) (x : InLine) : (s.setInput k x).journal = s.journal := rfl

@[simp] theorem setInput_notice (s : State) (k : LineNo) (x : InLine) : (s.setInput k x).notice = s.notice := rfl

@[simp] theorem setInput_handed (s : State) (k : LineNo) (x : InLine) : (s.setInput k x).handed = s.handed := rfl

@[simp] theorem setInput_port (s : State) (k : LineNo) (x : InLine) : (s.setInput k x).port = s.port := rfl

@[simp] theorem setInput_engine (s : State) (k : LineNo) (x : InLine) : (s.setInput k x).engine = s.engine := rfl

@[simp] theorem setInput_regs (s : State) (k : LineNo) (x : InLine) : (s.setInput k x).regs = s.regs := rfl

@[simp] theorem setInput_survey (s : State) (k : LineNo) (x : InLine) : (s.setInput k x).survey = s.survey := rfl

@[simp] theorem setInput_memory (s : State) (k : LineNo) (x : InLine) : (s.setInput k x).memory = s.memory := rfl

@[simp] theorem setInput_choices (s : State) (k : LineNo) (x : InLine) : (s.setInput k x).choices = s.choices := rfl

@[simp] theorem input_setInput_self (s : State) (k : LineNo) (x : InLine) : (s.setInput k x).input k = x := by
  simp [State.setInput, State.input]

theorem input_setInput (s : State) (k j : LineNo) (x : InLine) :
    (s.setInput k x).input j = if k = j then x else s.input j := by
  simp only [State.setInput, State.input, Fin.getElem_fin, Vector.getElem_set, Fin.val_inj]

theorem input_setInput_ne (s : State) {k j : LineNo} (h : k ≠ j) (x : InLine) : (s.setInput k x).input j = s.input j := by
  rw [input_setInput, if_neg h]

@[simp] theorem lane_setInput (s : State) (i : LineNo) (j : LaneNo) (x : InLine) : (s.setInput i x).lane j = s.lane j := rfl

@[simp] theorem line_setInput (s : State) (i : LineNo) (j : LineNo) (x : InLine) : (s.setInput i x).line j = s.line j := rfl

@[simp] theorem gen_setInput (s : State) (i : LineNo) (j : GenNo) (x : InLine) : (s.setInput i x).gen j = s.gen j := rfl

@[simp] theorem slot_setInput (s : State) (i : LineNo) (j : SlotNo) (x : InLine) : (s.setInput i x).slot j = s.slot j := rfl

/-! ## setGen -/

@[simp] theorem setGen_pending (s : State) (g : GenNo) (x : Generator) : (s.setGen g x).pending = s.pending := rfl

@[simp] theorem setGen_resetPin (s : State) (g : GenNo) (x : Generator) : (s.setGen g x).resetPin = s.resetPin := rfl

@[simp] theorem setGen_pins (s : State) (g : GenNo) (x : Generator) : (s.setGen g x).pins = s.pins := rfl

@[simp] theorem setGen_part (s : State) (g : GenNo) (x : Generator) : (s.setGen g x).part = s.part := rfl

@[simp] theorem setGen_lanes (s : State) (g : GenNo) (x : Generator) : (s.setGen g x).lanes = s.lanes := rfl

@[simp] theorem setGen_lines (s : State) (g : GenNo) (x : Generator) : (s.setGen g x).lines = s.lines := rfl

@[simp] theorem setGen_inputs (s : State) (g : GenNo) (x : Generator) : (s.setGen g x).inputs = s.inputs := rfl

@[simp] theorem setGen_inputsLive (s : State) (g : GenNo) (x : Generator) : (s.setGen g x).inputsLive = s.inputsLive := rfl

@[simp] theorem setGen_sync (s : State) (g : GenNo) (x : Generator) : (s.setGen g x).sync = s.sync := rfl

@[simp] theorem setGen_time (s : State) (g : GenNo) (x : Generator) : (s.setGen g x).time = s.time := rfl

@[simp] theorem setGen_journal (s : State) (g : GenNo) (x : Generator) : (s.setGen g x).journal = s.journal := rfl

@[simp] theorem setGen_notice (s : State) (g : GenNo) (x : Generator) : (s.setGen g x).notice = s.notice := rfl

@[simp] theorem setGen_handed (s : State) (g : GenNo) (x : Generator) : (s.setGen g x).handed = s.handed := rfl

@[simp] theorem setGen_port (s : State) (g : GenNo) (x : Generator) : (s.setGen g x).port = s.port := rfl

@[simp] theorem setGen_engine (s : State) (g : GenNo) (x : Generator) : (s.setGen g x).engine = s.engine := rfl

@[simp] theorem setGen_regs (s : State) (g : GenNo) (x : Generator) : (s.setGen g x).regs = s.regs := rfl

@[simp] theorem setGen_survey (s : State) (g : GenNo) (x : Generator) : (s.setGen g x).survey = s.survey := rfl

@[simp] theorem setGen_memory (s : State) (g : GenNo) (x : Generator) : (s.setGen g x).memory = s.memory := rfl

@[simp] theorem setGen_choices (s : State) (g : GenNo) (x : Generator) : (s.setGen g x).choices = s.choices := rfl

@[simp] theorem gen_setGen_self (s : State) (g : GenNo) (x : Generator) : (s.setGen g x).gen g = x := by
  simp [State.setGen, State.gen]

theorem gen_setGen (s : State) (g j : GenNo) (x : Generator) :
    (s.setGen g x).gen j = if g = j then x else s.gen j := by
  simp only [State.setGen, State.gen, Fin.getElem_fin, Vector.getElem_set, Fin.val_inj]

theorem gen_setGen_ne (s : State) {g j : GenNo} (h : g ≠ j) (x : Generator) : (s.setGen g x).gen j = s.gen j := by
  rw [gen_setGen, if_neg h]

@[simp] theorem lane_setGen (s : State) (i : GenNo) (j : LaneNo) (x : Generator) : (s.setGen i x).lane j = s.lane j := rfl

@[simp] theorem line_setGen (s : State) (i : GenNo) (j : LineNo) (x : Generator) : (s.setGen i x).line j = s.line j := rfl

@[simp] theorem input_setGen (s : State) (i : GenNo) (j : LineNo) (x : Generator) : (s.setGen i x).input j = s.input j := rfl

@[simp] theorem slot_setGen (s : State) (i : GenNo) (j : SlotNo) (x : Generator) : (s.setGen i x).slot j = s.slot j := rfl

/-! ## setSlot -/

@[simp] theorem setSlot_pending (s : State) (k : SlotNo) (x : Slot) : (s.setSlot k x).pending = s.pending := rfl

@[simp] theorem setSlot_resetPin (s : State) (k : SlotNo) (x : Slot) : (s.setSlot k x).resetPin = s.resetPin := rfl

@[simp] theorem setSlot_pins (s : State) (k : SlotNo) (x : Slot) : (s.setSlot k x).pins = s.pins := rfl

@[simp] theorem setSlot_part (s : State) (k : SlotNo) (x : Slot) : (s.setSlot k x).part = s.part := rfl

@[simp] theorem setSlot_lanes (s : State) (k : SlotNo) (x : Slot) : (s.setSlot k x).lanes = s.lanes := rfl

@[simp] theorem setSlot_lines (s : State) (k : SlotNo) (x : Slot) : (s.setSlot k x).lines = s.lines := rfl

@[simp] theorem setSlot_inputs (s : State) (k : SlotNo) (x : Slot) : (s.setSlot k x).inputs = s.inputs := rfl

@[simp] theorem setSlot_inputsLive (s : State) (k : SlotNo) (x : Slot) : (s.setSlot k x).inputsLive = s.inputsLive := rfl

@[simp] theorem setSlot_sync (s : State) (k : SlotNo) (x : Slot) : (s.setSlot k x).sync = s.sync := rfl

@[simp] theorem setSlot_time (s : State) (k : SlotNo) (x : Slot) : (s.setSlot k x).time = s.time := rfl

@[simp] theorem setSlot_gens (s : State) (k : SlotNo) (x : Slot) : (s.setSlot k x).gens = s.gens := rfl

@[simp] theorem setSlot_journal (s : State) (k : SlotNo) (x : Slot) : (s.setSlot k x).journal = s.journal := rfl

@[simp] theorem setSlot_handed (s : State) (k : SlotNo) (x : Slot) : (s.setSlot k x).handed = s.handed := rfl

@[simp] theorem setSlot_port (s : State) (k : SlotNo) (x : Slot) : (s.setSlot k x).port = s.port := rfl

@[simp] theorem setSlot_engine (s : State) (k : SlotNo) (x : Slot) : (s.setSlot k x).engine = s.engine := rfl

@[simp] theorem setSlot_regs (s : State) (k : SlotNo) (x : Slot) : (s.setSlot k x).regs = s.regs := rfl

@[simp] theorem setSlot_survey (s : State) (k : SlotNo) (x : Slot) : (s.setSlot k x).survey = s.survey := rfl

@[simp] theorem setSlot_memory (s : State) (k : SlotNo) (x : Slot) : (s.setSlot k x).memory = s.memory := rfl

@[simp] theorem setSlot_choices (s : State) (k : SlotNo) (x : Slot) : (s.setSlot k x).choices = s.choices := rfl

@[simp] theorem slot_setSlot_self (s : State) (k : SlotNo) (x : Slot) : (s.setSlot k x).slot k = x := by
  simp [State.setSlot, State.slot]

theorem slot_setSlot (s : State) (k j : SlotNo) (x : Slot) :
    (s.setSlot k x).slot j = if k = j then x else s.slot j := by
  simp only [State.setSlot, State.slot, Fin.getElem_fin, Vector.getElem_set, Fin.val_inj]

theorem slot_setSlot_ne (s : State) {k j : SlotNo} (h : k ≠ j) (x : Slot) : (s.setSlot k x).slot j = s.slot j := by
  rw [slot_setSlot, if_neg h]

@[simp] theorem lane_setSlot (s : State) (i : SlotNo) (j : LaneNo) (x : Slot) : (s.setSlot i x).lane j = s.lane j := rfl

@[simp] theorem line_setSlot (s : State) (i : SlotNo) (j : LineNo) (x : Slot) : (s.setSlot i x).line j = s.line j := rfl

@[simp] theorem input_setSlot (s : State) (i : SlotNo) (j : LineNo) (x : Slot) : (s.setSlot i x).input j = s.input j := rfl

@[simp] theorem gen_setSlot (s : State) (i : SlotNo) (j : GenNo) (x : Slot) : (s.setSlot i x).gen j = s.gen j := rfl

/-! ## setJournal -/

@[simp] theorem setJournal_pending (s : State) (j : Journal) : (s.setJournal j).pending = s.pending := rfl

@[simp] theorem setJournal_resetPin (s : State) (j : Journal) : (s.setJournal j).resetPin = s.resetPin := rfl

@[simp] theorem setJournal_pins (s : State) (j : Journal) : (s.setJournal j).pins = s.pins := rfl

@[simp] theorem setJournal_part (s : State) (j : Journal) : (s.setJournal j).part = s.part := rfl

@[simp] theorem setJournal_lanes (s : State) (j : Journal) : (s.setJournal j).lanes = s.lanes := rfl

@[simp] theorem setJournal_lines (s : State) (j : Journal) : (s.setJournal j).lines = s.lines := rfl

@[simp] theorem setJournal_inputs (s : State) (j : Journal) : (s.setJournal j).inputs = s.inputs := rfl

@[simp] theorem setJournal_inputsLive (s : State) (j : Journal) : (s.setJournal j).inputsLive = s.inputsLive := rfl

@[simp] theorem setJournal_sync (s : State) (j : Journal) : (s.setJournal j).sync = s.sync := rfl

@[simp] theorem setJournal_time (s : State) (j : Journal) : (s.setJournal j).time = s.time := rfl

@[simp] theorem setJournal_gens (s : State) (j : Journal) : (s.setJournal j).gens = s.gens := rfl

@[simp] theorem setJournal_journal (s : State) (j : Journal) : (s.setJournal j).journal = j := rfl

@[simp] theorem setJournal_notice (s : State) (j : Journal) : (s.setJournal j).notice = s.notice := rfl

@[simp] theorem setJournal_handed (s : State) (j : Journal) : (s.setJournal j).handed = s.handed := rfl

@[simp] theorem setJournal_port (s : State) (j : Journal) : (s.setJournal j).port = s.port := rfl

@[simp] theorem setJournal_engine (s : State) (j : Journal) : (s.setJournal j).engine = s.engine := rfl

@[simp] theorem setJournal_regs (s : State) (j : Journal) : (s.setJournal j).regs = s.regs := rfl

@[simp] theorem setJournal_survey (s : State) (j : Journal) : (s.setJournal j).survey = s.survey := rfl

@[simp] theorem setJournal_memory (s : State) (j : Journal) : (s.setJournal j).memory = s.memory := rfl

@[simp] theorem setJournal_choices (s : State) (j : Journal) : (s.setJournal j).choices = s.choices := rfl

@[simp] theorem lane_setJournal (s : State) (j : Journal) (i : LaneNo) : (s.setJournal j).lane i = s.lane i := rfl

@[simp] theorem line_setJournal (s : State) (j : Journal) (i : LineNo) : (s.setJournal j).line i = s.line i := rfl

@[simp] theorem input_setJournal (s : State) (j : Journal) (i : LineNo) : (s.setJournal j).input i = s.input i := rfl

@[simp] theorem gen_setJournal (s : State) (j : Journal) (i : GenNo) : (s.setJournal j).gen i = s.gen i := rfl

@[simp] theorem slot_setJournal (s : State) (j : Journal) (i : SlotNo) : (s.setJournal j).slot i = s.slot i := rfl

/-! ## Drawing a free value -/

@[simp] theorem drawBelow_pending (s : State) (k : Nat) : (s.drawBelow k).2.pending = s.pending := rfl

@[simp] theorem drawBelow_resetPin (s : State) (k : Nat) : (s.drawBelow k).2.resetPin = s.resetPin := rfl

@[simp] theorem drawBelow_pins (s : State) (k : Nat) : (s.drawBelow k).2.pins = s.pins := rfl

@[simp] theorem drawBelow_part (s : State) (k : Nat) : (s.drawBelow k).2.part = s.part := rfl

@[simp] theorem drawBelow_lanes (s : State) (k : Nat) : (s.drawBelow k).2.lanes = s.lanes := rfl

@[simp] theorem drawBelow_lines (s : State) (k : Nat) : (s.drawBelow k).2.lines = s.lines := rfl

@[simp] theorem drawBelow_inputs (s : State) (k : Nat) : (s.drawBelow k).2.inputs = s.inputs := rfl

@[simp] theorem drawBelow_inputsLive (s : State) (k : Nat) : (s.drawBelow k).2.inputsLive = s.inputsLive := rfl

@[simp] theorem drawBelow_sync (s : State) (k : Nat) : (s.drawBelow k).2.sync = s.sync := rfl

@[simp] theorem drawBelow_time (s : State) (k : Nat) : (s.drawBelow k).2.time = s.time := rfl

@[simp] theorem drawBelow_gens (s : State) (k : Nat) : (s.drawBelow k).2.gens = s.gens := rfl

@[simp] theorem drawBelow_journal (s : State) (k : Nat) : (s.drawBelow k).2.journal = s.journal := rfl

@[simp] theorem drawBelow_notice (s : State) (k : Nat) : (s.drawBelow k).2.notice = s.notice := rfl

@[simp] theorem drawBelow_handed (s : State) (k : Nat) : (s.drawBelow k).2.handed = s.handed := rfl

@[simp] theorem drawBelow_port (s : State) (k : Nat) : (s.drawBelow k).2.port = s.port := rfl

@[simp] theorem drawBelow_engine (s : State) (k : Nat) : (s.drawBelow k).2.engine = s.engine := rfl

@[simp] theorem drawBelow_regs (s : State) (k : Nat) : (s.drawBelow k).2.regs = s.regs := rfl

@[simp] theorem drawBelow_survey (s : State) (k : Nat) : (s.drawBelow k).2.survey = s.survey := rfl

@[simp] theorem drawBelow_memory (s : State) (k : Nat) : (s.drawBelow k).2.memory = s.memory := rfl

/-! ## The pins -/

/-- The pins of a state whose pins are what its lines drive. -/
@[simp] theorem getElem_drivenPins (s : State) (k : LineNo) : (drivenPins s)[k] = (s.line k).mode.level := by
  simp [drivenPins, State.line]

@[simp] theorem getElem_pinsReleased (k : LineNo) : pinsReleased[k] = none := by
  simp [pinsReleased]

end Sys2Proof.Machine
end

