-- ==== Sys2Proof/Laws/Each.lean ====
section
/-!
SUPPORT. An operation done for each lane, line, generator or slot: what it leaves of each one, and that the lists of all of
them are complete.
-/

namespace Sys2Proof.Machine

theorem mem_allLanes (n : LaneNo) : n ∈ allLanes := by fin_cases n <;> decide

theorem mem_allLines (k : LineNo) : k ∈ allLines := by fin_cases k <;> decide

theorem mem_allGens (g : GenNo) : g ∈ allGens := by fin_cases g <;> decide

theorem mem_allSlots (k : SlotNo) : k ∈ allSlots := by fin_cases k <;> decide

theorem nodup_allLanes : allLanes.Nodup := by decide

theorem nodup_allLines : allLines.Nodup := by decide

theorem nodup_allGens : allGens.Nodup := by decide

theorem nodup_allSlots : allSlots.Nodup := by decide

/-- An operation done for each member of a list that holds each at most once, each acting on its own item: each item is
changed once. `keep` is what every operation keeps and the change may depend on. -/
theorem each_at {α β : Type} [DecidableEq α] {get : State → α → β} {f : α → State → State} {g : α → β → β}
    (keep : State → Prop) (hkeep : ∀ x s, keep s → keep (f x s))
    (hself : ∀ x s, keep s → get (f x s) x = g x (get s x))
    (hother : ∀ x y s, x ≠ y → get (f x s) y = get s y)
    (xs : List α) (hxs : xs.Nodup) (s : State) (hs : keep s) (y : α) :
    get (State.each xs f s) y = if y ∈ xs then g y (get s y) else get s y := by
  unfold State.each
  induction xs generalizing s with
  | nil => simp
  | cons x xs ih =>
    rw [List.foldl_cons, ih (List.nodup_cons.mp hxs).2 _ (hkeep x s hs)]
    by_cases hyx : y = x
    · subst hyx
      rw [if_neg (List.nodup_cons.mp hxs).1, if_pos (List.mem_cons_self ..), hself _ _ hs]
    · rw [hother x y s (Ne.symm hyx)]
      simp [hyx]

end Sys2Proof.Machine
end

