-- ==== Sys2Proof/Laws/Fixed.lean ====
section
/-!
SUPPORT. No lane, line, generator, journal or notice operation changes the fixed part of the state: the queue of commands,
the part state, the port, the engine, the registers, the timers, the clocks and the bytes of memory.
-/

namespace Sys2Proof.Machine

/-! ## Lists of operations and free values -/

/-- What each operation of a list keeps, the whole keeps. -/
theorem each_keeps {α β : Type} (p : State → β) {f : α → State → State} (h : ∀ x s, p (f x s) = p s) (xs : List α)
    (s : State) : p (State.each xs f s) = p s := by
  unfold State.each
  induction xs generalizing s with
  | nil => rfl
  | cons x xs ih => rw [List.foldl_cons, ih, h]

/-- A property that each operation of a list keeps, the whole keeps. -/
theorem each_induct {α : Type} (p : State → Prop) {f : α → State → State} (h : ∀ x s, p s → p (f x s)) (xs : List α)
    (s : State) (hs : p s) : p (State.each xs f s) := by
  unfold State.each
  induction xs generalizing s with
  | nil => exact hs
  | cons x xs ih => rw [List.foldl_cons]; exact ih _ (h x s hs)

@[simp] theorem drawBelow_fixed (s : State) (k : Nat) : (s.drawBelow k).2.fixed = s.fixed := rfl

/-- A free order changes the counter of free values and nothing else. -/
theorem shuffle_state {α : Type} (fuel : Nat) (xs : List α) (s : State) :
    ∃ n, (shuffle fuel xs s).2 = { s with choices := n } := by
  induction fuel generalizing xs s with
  | zero =>
    match xs with
    | [] => exact ⟨s.choices, rfl⟩
    | [_] => exact ⟨s.choices, rfl⟩
    | _ :: _ :: _ => exact ⟨s.choices, rfl⟩
  | succ fuel ih =>
    match xs with
    | [] => exact ⟨s.choices, rfl⟩
    | [_] => exact ⟨s.choices, rfl⟩
    | a :: b :: rest =>
      unfold shuffle
      dsimp only
      split
      · exact ⟨_, rfl⟩
      · obtain ⟨n, hn⟩ := ih ((a :: b :: rest).eraseIdx (s.drawBelow (a :: b :: rest).length).1)
          (s.drawBelow (a :: b :: rest).length).2
        exact ⟨n, by rw [hn]; rfl⟩

/-- A free order changes the counter of free values and nothing else. -/
theorem inFreeOrder_state {α : Type} (xs : List α) (s : State) :
    ∃ n, (inFreeOrder xs s).2 = { s with choices := n } :=
  shuffle_state _ _ _

@[simp] theorem inFreeOrder_fixed {α : Type} (xs : List α) (s : State) : (inFreeOrder xs s).2.fixed = s.fixed := by
  obtain ⟨n, hn⟩ := inFreeOrder_state xs s
  rw [hn]; rfl

/-! ## Setters -/

@[simp] theorem setLane_fixed (s : State) (n : LaneNo) (l : Lane) : (s.setLane n l).fixed = s.fixed := rfl

@[simp] theorem setLine_fixed (s : State) (k : LineNo) (l : OutLine) : (s.setLine k l).fixed = s.fixed := rfl

@[simp] theorem setInput_fixed (s : State) (k : LineNo) (l : InLine) : (s.setInput k l).fixed = s.fixed := rfl

@[simp] theorem setGen_fixed (s : State) (g : GenNo) (x : Generator) : (s.setGen g x).fixed = s.fixed := rfl

@[simp] theorem setSlot_fixed (s : State) (k : SlotNo) (x : Slot) : (s.setSlot k x).fixed = s.fixed := rfl

@[simp] theorem setJournal_fixed (s : State) (j : Journal) : (s.setJournal j).fixed = s.fixed := rfl

/-! ## Notices and the status writer -/

@[simp] theorem markStale_fixed (it : StatusItem) (s : State) : (markStale it s).fixed = s.fixed := by
  unfold markStale; split <;> rfl

@[simp] theorem handWrites_fixed (its : List StatusItem) (s : State) : (handWrites its s).fixed = s.fixed := rfl

@[simp] theorem handNotice_fixed (s : State) : (handNotice s).fixed = s.fixed := by
  unfold handNotice; split
  · rfl
  · split <;> rfl

@[simp] theorem post_fixed (k : SlotNo) (d : Details) (s : State) : (post k d s).fixed = s.fixed := by
  unfold post; rw [handNotice_fixed]; rfl

@[simp] theorem capture_fixed (r : CaptureRecord) (s : State) : (capture r s).fixed = s.fixed := by
  unfold capture; split
  · rfl
  · dsimp only; split
    · rfl
    · rw [post_fixed]; rfl

/-! ## Lines -/

@[simp] theorem unbindGen_fixed (g : GenNo) (s : State) : (unbindGen g s).fixed = s.fixed := by
  unfold unbindGen; dsimp only; split <;> simp

@[simp] theorem bindGen_fixed (g : GenNo) (k : LineNo) (m : Nat) (s : State) : (bindGen g k m s).fixed = s.fixed := by
  unfold bindGen; dsimp only; split <;> simp

@[simp] theorem setMode_fixed (k : LineNo) (m : OutMode) (s : State) : (setMode k m s).fixed = s.fixed := rfl

@[simp] theorem endActivity_fixed (k : LineNo) (s : State) : (endActivity k s).fixed = s.fixed := by
  unfold endActivity; split <;> first | rfl | (split <;> simp)

@[simp] theorem driveStatic_fixed (k : LineNo) (l : Level) (s : State) : (driveStatic k l s).fixed = s.fixed := by
  simp [driveStatic]

@[simp] theorem setLineLevel_fixed (v : Half) (k : LineNo) (s : State) : (setLineLevel v k s).fixed = s.fixed := by
  simp [setLineLevel]

@[simp] theorem startPulse_fixed (k : LineNo) (a : Level) (w : BitVec 24) (s : State) :
    (startPulse k a w s).fixed = s.fixed := by
  simp [startPulse]

@[simp] theorem startWave_fixed (k : LineNo) (a : Level) (d1 d2 : BitVec 24) (p : Half) (s : State) :
    (startWave k a d1 d2 p s).fixed = s.fixed := by
  simp [startWave]

@[simp] theorem startTrack_fixed (k : LineNo) (g : GenNo) (s : State) : (startTrack k g s).fixed = s.fixed := by
  unfold startTrack; split <;> first | simp | (split <;> simp)

@[simp] theorem endPulse_fixed (k : LineNo) (s : State) : (endPulse k s).fixed = s.fixed := by
  unfold endPulse; split <;> simp

@[simp] theorem endWavePhase_fixed (k : LineNo) (s : State) : (endWavePhase k s).fixed = s.fixed := by
  unfold endWavePhase; split <;> simp

@[simp] theorem toggleLine_fixed (k : LineNo) (g : GenNo) (s : State) : (toggleLine k g s).fixed = s.fixed := by
  unfold toggleLine; split <;> first | rfl | (split <;> simp)

@[simp] theorem takeFaultAction_fixed (k : LineNo) (s : State) : (takeFaultAction k s).fixed = s.fixed := by
  simp [takeFaultAction]

@[simp] theorem faultOwnedLines_fixed (n : LaneNo) (s : State) : (faultOwnedLines n s).fixed = s.fixed :=
  each_keeps State.fixed (fun k s => takeFaultAction_fixed k s) _ s

@[simp] theorem grantLine_fixed (k : LineNo) (n : LaneNo) (s : State) : (grantLine k n s).fixed = s.fixed := rfl

@[simp] theorem joinWaiters_fixed (k : LineNo) (n : LaneNo) (t : Half) (s : State) :
    (joinWaiters k n t s).fixed = s.fixed := rfl

@[simp] theorem leaveWaiters_fixed (k : LineNo) (n : LaneNo) (s : State) : (leaveWaiters k n s).fixed = s.fixed := rfl

@[simp] theorem passOwnership_fixed (k : LineNo) (s : State) : (passOwnership k s).1.fixed = s.fixed := by
  unfold passOwnership; dsimp only; split <;> rfl

@[simp] theorem releaseLine_fixed (k : LineNo) (s : State) : (releaseLine k s).1.fixed = s.fixed := by
  simp [releaseLine]

@[simp] theorem releaseLines_fixed (ks : List LineNo) (s : State) : (releaseLines ks s).1.fixed = s.fixed := by
  induction ks generalizing s with
  | nil => rfl
  | cons k ks ih => simp [releaseLines, ih]

/-! ## Generators -/

@[simp] theorem emitDerivedEdge_fixed (g : GenNo) (s : State) : (emitDerivedEdge g s).fixed = s.fixed := by
  unfold emitDerivedEdge; dsimp only; split <;> simp

@[simp] theorem startPhase_fixed (g : GenNo) (t : Ticks) (s : State) : (startPhase g t s).fixed = s.fixed := by
  unfold startPhase; dsimp only; split
  · simp
  · split <;> simp

@[simp] theorem setGenState_fixed (g : GenNo) (st : GenState) (s : State) : (setGenState g st s).fixed = s.fixed := by
  unfold setGenState; split <;> simp

@[simp] theorem reportTransition_fixed (g : GenNo) (t : Ticks) (s : State) :
    (reportTransition g t s).fixed = s.fixed := by
  simp [reportTransition]

@[simp] theorem noteRealEdge_fixed (g : GenNo) (c : Ticks) (s : State) : (noteRealEdge g c s).fixed = s.fixed := rfl

@[simp] theorem lockOn_fixed (g : GenNo) (p : Word) (c : Ticks) (s : State) : (lockOn g p c s).fixed = s.fixed := by
  simp [lockOn]

@[simp] theorem loseByGap_fixed (g : GenNo) (t : Ticks) (s : State) : (loseByGap g t s).fixed = s.fixed := by
  simp [loseByGap]

@[simp] theorem realEdge_fixed (g : GenNo) (c t : Ticks) (s : State) : (realEdge g c t s).fixed = s.fixed := by
  unfold realEdge; dsimp only
  split <;> first | (simp; done) | (split <;> first | (simp; done) | (split <;> simp))

@[simp] theorem virtualEdge_fixed (g : GenNo) (s : State) : (virtualEdge g s).fixed = s.fixed := by
  unfold virtualEdge; dsimp only; split <;> simp

@[simp] theorem trackLine_fixed (k : LineNo) (g : GenNo) (m : Nat) (s : State) :
    (trackLine k g m s).fixed = s.fixed := by
  simp [trackLine]

/-! ## Lanes -/

@[simp] theorem markLane_fixed (n : LaneNo) (s : State) : (markLane n s).fixed = s.fixed := by
  simp [markLane]

@[simp] theorem setLaneState_fixed (n : LaneNo) (st : LaneState) (s : State) :
    (setLaneState n st s).fixed = s.fixed := by
  unfold setLaneState; split <;> simp

@[simp] theorem setHold_fixed (n : LaneNo) (b : Bool) (s : State) : (setHold n b s).fixed = s.fixed := by
  unfold setHold; split <;> simp

@[simp] theorem setStall_fixed (n : LaneNo) (st : Stall) (s : State) : (setStall n st s).fixed = s.fixed := by
  unfold setStall; split <;> simp

@[simp] theorem stopFetcher_fixed (n : LaneNo) (s : State) : (stopFetcher n s).fixed = s.fixed := by
  simp [stopFetcher]

@[simp] theorem withdrawWait_fixed (n : LaneNo) (s : State) : (withdrawWait n s).fixed = s.fixed := by
  unfold withdrawWait; dsimp only; split <;> simp

@[simp] theorem ceaseLane_fixed (n : LaneNo) (st : LaneState) (s : State) : (ceaseLane n st s).fixed = s.fixed := by
  simp [ceaseLane]

@[simp] theorem retirePages_fixed (n : LaneNo) (c : EndCode) (s : State) : (retirePages n c s).fixed = s.fixed := rfl

@[simp] theorem oweException_fixed (n : LaneNo) (e : Exception) (s : State) :
    (oweException n e s).fixed = s.fixed := rfl

@[simp] theorem laneFault_fixed (n : LaneNo) (c : FaultCode) (a : Addr) (s : State) :
    (laneFault n c a s).fixed = s.fixed := by
  simp [laneFault]

@[simp] theorem fetchFault_fixed (n : LaneNo) (c : FaultCode) (a : Addr) (s : State) :
    (fetchFault n c a s).fixed = s.fixed := by
  unfold fetchFault; dsimp only; split <;> simp

@[simp] theorem presentFetch_fixed (n : LaneNo) (r : FetchRead) (s : State) : (presentFetch n r s).fixed = s.fixed :=
  rfl

@[simp] theorem presentHeader_fixed (n : LaneNo) (s : State) : (presentHeader n s).fixed = s.fixed := by
  unfold presentHeader; dsimp only; split
  · split <;> simp
  · rfl

@[simp] theorem presentBurst_fixed (n : LaneNo) (s : State) : (presentBurst n s).fixed = s.fixed := by
  unfold presentBurst; dsimp only; split
  · split <;> simp
  · rfl

@[simp] theorem presentLink_fixed (n : LaneNo) (s : State) : (presentLink n s).fixed = s.fixed := by
  unfold presentLink; dsimp only; split <;> simp

@[simp] theorem goToHeader_fixed (n : LaneNo) (a : Addr) (s : State) : (goToHeader n a s).fixed = s.fixed := by
  simp [goToHeader]

@[simp] theorem judgeHead_fixed (n : LaneNo) (a : Addr) (s : State) : (judgeHead n a s).fixed = s.fixed := by
  unfold judgeHead; split
  · simp
  · split <;> simp

@[simp] theorem startFetcher_fixed (n : LaneNo) (s : State) : (startFetcher n s).fixed = s.fixed := by
  simp [startFetcher]

@[simp] theorem takePage_fixed (n : LaneNo) (h : BitVec 256) (s : State) : (takePage n h s).fixed = s.fixed := by
  simp [takePage]

@[simp] theorem judgeHeader_fixed (n : LaneNo) (h : BitVec 256) (s : State) : (judgeHeader n h s).fixed = s.fixed := by
  unfold judgeHeader; dsimp only; split
  · simp
  · split <;> simp

@[simp] theorem judgeLink_fixed (n : LaneNo) (a : Addr) (s : State) : (judgeLink n a s).fixed = s.fixed := by
  unfold judgeLink; split
  · simp
  · split <;> simp

@[simp] theorem queueBurst_fixed (n : LaneNo) (cs : List (BitVec 256)) (s : State) :
    (queueBurst n cs s).fixed = s.fixed := rfl

@[simp] theorem fetchOn_fixed (n : LaneNo) (s : State) : (fetchOn n s).fixed = s.fixed := by
  unfold fetchOn; dsimp only; split <;> simp

@[simp] theorem surveyFetcher_fixed (n : LaneNo) (s : State) : (surveyFetcher n s).fixed = s.fixed := by
  unfold surveyFetcher; dsimp only; split
  · split <;> simp
  · rfl

@[simp] theorem retireFinished_fixed (n : LaneNo) (s : State) : (retireFinished n s).fixed = s.fixed := by
  unfold retireFinished; dsimp only; split
  · rfl
  · split <;> simp

/-! ## Cues -/

@[simp] theorem postProgress_fixed (n : LaneNo) (s : State) : (postProgress n s).fixed = s.fixed := by
  simp [postProgress]

@[simp] theorem countCue_fixed (n : LaneNo) (f : Finish) (s : State) : (countCue n f s).fixed = s.fixed := by
  unfold countCue; dsimp only; split <;> simp

@[simp] theorem finishCue_fixed (n : LaneNo) (f : Finish) (s : State) : (finishCue n f s).fixed = s.fixed := by
  simp [finishCue]

@[simp] theorem acceptGrant_fixed (n : LaneNo) (s : State) : (acceptGrant n s).fixed = s.fixed := by
  simp [acceptGrant]

@[simp] theorem releaseAndGrant_fixed (ks : List LineNo) (s : State) : (releaseAndGrant ks s).1.fixed = s.fixed := by
  unfold releaseAndGrant; dsimp only
  rw [each_keeps State.fixed (fun n s => acceptGrant_fixed n s), releaseLines_fixed]

@[simp] theorem starve_fixed (n : LaneNo) (s : State) : (starve n s).fixed = s.fixed := by
  unfold starve; dsimp only; split <;> simp

@[simp] theorem setCapture_fixed (b : Bool) (k : LineNo) (s : State) : (setCapture b k s).fixed = s.fixed := rfl

@[simp] theorem enterWait_fixed (n : LaneNo) (st : LaneState) (w : Wait) (s : State) :
    (enterWait n st w s).fixed = s.fixed := by
  simp [enterWait]

@[simp] theorem beginInputWait_fixed (n : LaneNo) (k : LineNo) (e : EdgeSelect) (t : Word) (c : Bool) (s : State) :
    (beginInputWait n k e t c s).fixed = s.fixed := by
  simp [beginInputWait]

@[simp] theorem beginClaimWait_fixed (n : LaneNo) (k : LineNo) (t : Half) (s : State) :
    (beginClaimWait n k t s).fixed = s.fixed := by
  simp [beginClaimWait]

@[simp] theorem cueFault_fixed (n : LaneNo) (c : FaultCode) (s : State) : (cueFault n c s).state.fixed = s.fixed := by
  simp [cueFault, Ran.rest]

@[simp] theorem done_fixed (n : LaneNo) (f : Finish) (s : State) : (Ran.done n f s).state.fixed = s.fixed := by
  simp [Ran.done]

@[simp] theorem rest_fixed (s : State) : (Ran.rest s).state.fixed = s.fixed := rfl

@[simp] theorem carryEnd_fixed (n : LaneNo) (s : State) : (carryEnd n s).state.fixed = s.fixed := by
  simp [carryEnd]

@[simp] theorem carryClaim_fixed (n : LaneNo) (k : LineNo) (t : Half) (s : State) :
    (carryClaim n k t s).state.fixed = s.fixed := by
  unfold carryClaim; split <;> simp

@[simp] theorem carryRelease_fixed (n : LaneNo) (m : Half) (s : State) :
    (carryRelease n m s).state.fixed = s.fixed := by
  simp [carryRelease]

@[simp] theorem setLineLevels_fixed (ks : List LineNo) (v : Half) (s : State) :
    (State.each ks (setLineLevel v) s).fixed = s.fixed :=
  each_keeps State.fixed (fun k s => setLineLevel_fixed v k s) ks s

@[simp] theorem setCaptures_fixed (ks : List LineNo) (b : Bool) (s : State) :
    (State.each ks (setCapture b) s).fixed = s.fixed :=
  each_keeps State.fixed (fun k s => setCapture_fixed b k s) ks s

@[simp] theorem carryOut_fixed (n : LaneNo) (a : Action) (s : State) : (carryOut n a s).state.fixed = s.fixed := by
  unfold carryOut
  split <;> first | (simp; done) | (split <;> first | simp | (split <;> simp))

@[simp] theorem setLateRun_fixed (n : LaneNo) (b : Bool) (s : State) : (setLateRun n b s).fixed = s.fixed := rfl

@[simp] theorem judgeCue_fixed (n : LaneNo) (c : Cue) (s : State) : (judgeCue n c s).state.fixed = s.fixed := by
  unfold judgeCue; dsimp only; split
  · simp
  · split <;> simp

@[simp] theorem resolveCue_fixed (n : LaneNo) (c : Cue) (s : State) : (resolveCue n c s).state.fixed = s.fixed := by
  unfold resolveCue; dsimp only; split
  · simp
  · split <;> simp

@[simp] theorem startCue_fixed (n : LaneNo) (q : QueuedCue) (s : State) : (startCue n q s).state.fixed = s.fixed := by
  unfold startCue; dsimp only; split <;> simp

@[simp] theorem takeNext_fixed (n : LaneNo) (s : State) : (takeNext n s).state.fixed = s.fixed := by
  unfold takeNext; dsimp only; split
  · simp
  · split
    · simp
    · split <;> simp

/-! ## Runs -/

/-- Who goes on after a micro-step changes the counter of free values and nothing else. -/
theorem goOn_state (n : LaneNo) (r : Ran) (others : List LaneNo) :
    ∃ k, (goOn n r others).2 = { r.state with choices := k } := by
  unfold goOn
  dsimp only
  split
  · exact ⟨r.state.choices, rfl⟩
  · rename_i g gs _
    obtain ⟨k, hk⟩ := inFreeOrder_state (g :: gs) r.state
    dsimp only
    rw [hk]
    exact ⟨_, rfl⟩

@[simp] theorem goOn_fixed (n : LaneNo) (r : Ran) (others : List LaneNo) :
    (goOn n r others).2.fixed = r.state.fixed := by
  obtain ⟨k, hk⟩ := goOn_state n r others
  rw [hk]; rfl

/-- A property that every micro-step and every draw keep, a run keeps. -/
theorem runLanes_induct (p : State → Prop) (hnext : ∀ n s, p s → p (takeNext n s).state)
    (hdraw : ∀ s k, p s → p { s with choices := k }) (fuel : Nat) (work : List LaneNo) (s : State) (hs : p s) :
    p (runLanes fuel work s) := by
  induction fuel generalizing work s with
  | zero => cases work <;> exact hs
  | succ fuel ih =>
    match work with
    | [] => exact hs
    | n :: others =>
      unfold runLanes
      obtain ⟨k, hk⟩ := goOn_state n (takeNext n s) others
      dsimp only
      rw [hk]
      exact ih _ _ (hdraw _ _ (hnext n s hs))

@[simp] theorem runLanes_fixed (fuel : Nat) (work : List LaneNo) (s : State) :
    (runLanes fuel work s).fixed = s.fixed :=
  runLanes_induct (fun t => t.fixed = s.fixed) (fun n t h => by simp [h]) (fun _ _ h => h) fuel work s rfl

@[simp] theorem runAll_fixed (work : List LaneNo) (s : State) : (runAll work s).fixed = s.fixed := by
  simp [runAll]

@[simp] theorem runAfter_fixed (n : LaneNo) (r : Ran) : (runAfter n r).fixed = r.state.fixed := by
  simp [runAfter]

@[simp] theorem takeDue_fixed (n : LaneNo) (s : State) : (takeDue n s).fixed = s.fixed := by
  unfold takeDue; split <;> simp

@[simp] theorem endWait_fixed (n : LaneNo) (a : Ticks) (s : State) : (endWait n a s).fixed = s.fixed := by
  simp [endWait]

@[simp] theorem expireWait_fixed (n : LaneNo) (s : State) : (expireWait n s).fixed = s.fixed := by
  unfold expireWait; split
  · rfl
  · split <;> simp

@[simp] theorem expireClaim_fixed (k : LineNo) (n : LaneNo) (s : State) : (expireClaim k n s).fixed = s.fixed := by
  unfold expireClaim; dsimp only; split <;> simp

@[simp] theorem stopLane_fixed (n : LaneNo) (s : State) : (stopLane n s).fixed = s.fixed := by
  simp [stopLane]

@[simp] theorem runDueLanes_fixed (s : State) : (runDueLanes s).fixed = s.fixed := by
  unfold runDueLanes; dsimp only
  rw [each_keeps State.fixed (fun n s => by split <;> simp), inFreeOrder_fixed]

/-! ## Journal -/

@[simp] theorem markJournal_fixed (s : State) : (markJournal s).fixed = s.fixed := by
  simp [markJournal]

@[simp] theorem setJournalState_fixed (st : JournalState) (s : State) : (setJournalState st s).fixed = s.fixed := by
  unfold setJournalState; split <;> simp

@[simp] theorem setJournalStall_fixed (st : Stall) (s : State) : (setJournalStall st s).fixed = s.fixed := by
  unfold setJournalStall; split <;> simp

@[simp] theorem closePage_fixed (c : EndCode) (s : State) : (closePage c s).fixed = s.fixed := by
  unfold closePage; split <;> simp

@[simp] theorem endDrain_fixed (s : State) : (endDrain s).fixed = s.fixed := by
  simp [endDrain]

@[simp] theorem drainCheck_fixed (s : State) : (drainCheck s).fixed = s.fixed := by
  unfold drainCheck; dsimp only; split
  · rfl
  · split
    · simp
    · split <;> simp

@[simp] theorem beginDrain_fixed (s : State) : (beginDrain s).fixed = s.fixed := by
  simp [beginDrain]

@[simp] theorem journalFault_fixed (c : FaultCode) (a : Option Addr) (s : State) :
    (journalFault c a s).fixed = s.fixed := by
  simp [journalFault]

@[simp] theorem stallJournal_fixed (st : Stall) (s : State) : (stallJournal st s).fixed = s.fixed := by
  simp [stallJournal]

@[simp] theorem presentJournal_fixed (r : JournalRead) (s : State) : (presentJournal r s).fixed = s.fixed := rfl

@[simp] theorem presentJournalHeader_fixed (s : State) : (presentJournalHeader s).fixed = s.fixed := by
  unfold presentJournalHeader; split <;> simp

@[simp] theorem presentJournalLink_fixed (s : State) : (presentJournalLink s).fixed = s.fixed := by
  unfold presentJournalLink; split <;> simp

@[simp] theorem goToJournalHeader_fixed (a : Addr) (s : State) : (goToJournalHeader a s).fixed = s.fixed := by
  simp [goToJournalHeader]

@[simp] theorem judgeJournalHead_fixed (a : Addr) (s : State) : (judgeJournalHead a s).fixed = s.fixed := by
  unfold judgeJournalHead; split
  · simp
  · split <;> simp

@[simp] theorem takeCapturePage_fixed (s : State) : (takeCapturePage s).fixed = s.fixed := by
  simp [takeCapturePage]

@[simp] theorem judgeJournalHeader_fixed (h : BitVec 256) (s : State) : (judgeJournalHeader h s).fixed = s.fixed := by
  unfold judgeJournalHeader; dsimp only; split
  · simp
  · split <;> simp

@[simp] theorem judgeJournalLink_fixed (a : Addr) (s : State) : (judgeJournalLink a s).fixed = s.fixed := by
  unfold judgeJournalLink; split
  · simp
  · split <;> simp

@[simp] theorem surveyJournal_fixed (s : State) : (surveyJournal s).fixed = s.fixed := by
  unfold surveyJournal; dsimp only; split
  · split <;> simp
  · rfl

@[simp] theorem surveyAll_fixed (s : State) : (surveyAll s).fixed = s.fixed := by
  unfold surveyAll
  rw [surveyJournal_fixed, each_keeps State.fixed (fun n s => surveyFetcher_fixed n s)]

@[simp] theorem followLink_fixed (s : State) : (followLink s).fixed = s.fixed := by
  unfold followLink; dsimp only; split <;> simp

@[simp] theorem closeFlushed_fixed (s : State) : (closeFlushed s).fixed = s.fixed := by
  unfold closeFlushed; split <;> simp

@[simp] theorem afterRecord_fixed (a : Addr) (i : Nat) (s : State) : (afterRecord a i s).fixed = s.fixed := by
  unfold afterRecord; dsimp only; split
  · simp
  · split <;> simp

@[simp] theorem flushJournal_fixed (s : State) : (flushJournal s).fixed = s.fixed := by
  unfold flushJournal; dsimp only; split
  · rfl
  · split
    · split <;> simp
    · simp

@[simp] theorem startJournal_fixed (s : State) : (startJournal s).fixed = s.fixed := by
  simp [startJournal]

/-! ## Reading one part of the fixed state -/

theorem time_of_fixed {s t : State} (h : s.fixed = t.fixed) : s.time = t.time := congrArg Fixed.time h

theorem port_of_fixed {s t : State} (h : s.fixed = t.fixed) : s.port = t.port := congrArg Fixed.port h

theorem engine_of_fixed {s t : State} (h : s.fixed = t.fixed) : s.engine = t.engine := congrArg Fixed.engine h

theorem memory_of_fixed {s t : State} (h : s.fixed = t.fixed) : s.memory = t.memory := congrArg Fixed.memory h

theorem part_of_fixed {s t : State} (h : s.fixed = t.fixed) : s.part = t.part := congrArg Fixed.part h

theorem pins_of_fixed {s t : State} (h : s.fixed = t.fixed) : s.pins = t.pins := congrArg Fixed.pins h

theorem pending_of_fixed {s t : State} (h : s.fixed = t.fixed) : s.pending = t.pending := congrArg Fixed.pending h

theorem regs_of_fixed {s t : State} (h : s.fixed = t.fixed) : s.regs = t.regs := congrArg Fixed.regs h

end Sys2Proof.Machine
end

