-- ==== Sys2Proof/Laws/Frames.lean ====
section
/-!
SUPPORT. Which of the lanes, lines, inputs, generators, journal and notices each shared operation leaves as they are: one
lemma per operation and field.
-/

namespace Sys2Proof.Machine

set_option linter.unusedSimpArgs false
set_option linter.unusedTactic false
set_option linter.unreachableTactic false

/-! ## Notices and the status writer -/

@[simp] theorem markStale_lanes (s : State) (it : StatusItem) : (markStale it s).lanes = s.lanes := by
  unfold markStale; split <;> simp

@[simp] theorem markStale_lane (s : State) (it : StatusItem) (n' : LaneNo) :
    (markStale it s).lane n' = s.lane n' :=
  congrArg (fun v => v[n']) (markStale_lanes s it)

@[simp] theorem markStale_lines (s : State) (it : StatusItem) : (markStale it s).lines = s.lines := by
  unfold markStale; split <;> simp

@[simp] theorem markStale_line (s : State) (it : StatusItem) (k' : LineNo) :
    (markStale it s).line k' = s.line k' :=
  congrArg (fun v => v[k']) (markStale_lines s it)

@[simp] theorem markStale_inputs (s : State) (it : StatusItem) : (markStale it s).inputs = s.inputs := by
  unfold markStale; split <;> simp

@[simp] theorem markStale_input (s : State) (it : StatusItem) (k' : LineNo) :
    (markStale it s).input k' = s.input k' :=
  congrArg (fun v => v[k']) (markStale_inputs s it)

@[simp] theorem markStale_gens (s : State) (it : StatusItem) : (markStale it s).gens = s.gens := by
  unfold markStale; split <;> simp

@[simp] theorem markStale_gen (s : State) (it : StatusItem) (g' : GenNo) :
    (markStale it s).gen g' = s.gen g' :=
  congrArg (fun v => v[g']) (markStale_gens s it)

@[simp] theorem markStale_journal (s : State) (it : StatusItem) : (markStale it s).journal = s.journal := by
  unfold markStale; split <;> simp

@[simp] theorem markStale_notice (s : State) (it : StatusItem) : (markStale it s).notice = s.notice := by
  unfold markStale; split <;> simp

@[simp] theorem markStale_slot (s : State) (it : StatusItem) (i' : SlotNo) :
    (markStale it s).slot i' = s.slot i' :=
  congrArg (fun v : NoticeUnit => v.slots[i']) (markStale_notice s it)

@[simp] theorem handWrites_lanes (s : State) (its : List StatusItem) : (handWrites its s).lanes = s.lanes := rfl

@[simp] theorem handWrites_lane (s : State) (its : List StatusItem) (n' : LaneNo) :
    (handWrites its s).lane n' = s.lane n' :=
  congrArg (fun v => v[n']) (handWrites_lanes s its)

@[simp] theorem handWrites_lines (s : State) (its : List StatusItem) : (handWrites its s).lines = s.lines := rfl

@[simp] theorem handWrites_line (s : State) (its : List StatusItem) (k' : LineNo) :
    (handWrites its s).line k' = s.line k' :=
  congrArg (fun v => v[k']) (handWrites_lines s its)

@[simp] theorem handWrites_inputs (s : State) (its : List StatusItem) :
    (handWrites its s).inputs = s.inputs := rfl

@[simp] theorem handWrites_input (s : State) (its : List StatusItem) (k' : LineNo) :
    (handWrites its s).input k' = s.input k' :=
  congrArg (fun v => v[k']) (handWrites_inputs s its)

@[simp] theorem handWrites_gens (s : State) (its : List StatusItem) : (handWrites its s).gens = s.gens := rfl

@[simp] theorem handWrites_gen (s : State) (its : List StatusItem) (g' : GenNo) :
    (handWrites its s).gen g' = s.gen g' :=
  congrArg (fun v => v[g']) (handWrites_gens s its)

@[simp] theorem handWrites_journal (s : State) (its : List StatusItem) :
    (handWrites its s).journal = s.journal := rfl

@[simp] theorem handWrites_notice (s : State) (its : List StatusItem) :
    (handWrites its s).notice = s.notice := rfl

@[simp] theorem handWrites_slot (s : State) (its : List StatusItem) (i' : SlotNo) :
    (handWrites its s).slot i' = s.slot i' :=
  congrArg (fun v : NoticeUnit => v.slots[i']) (handWrites_notice s its)

@[simp] theorem handNotice_lanes (s : State) : (handNotice s).lanes = s.lanes := by
  unfold handNotice; split <;> first | (simp; done) | (split <;> simp)

@[simp] theorem handNotice_lane (s : State) (n' : LaneNo) : (handNotice s).lane n' = s.lane n' :=
  congrArg (fun v => v[n']) (handNotice_lanes s)

@[simp] theorem handNotice_lines (s : State) : (handNotice s).lines = s.lines := by
  unfold handNotice; split <;> first | (simp; done) | (split <;> simp)

@[simp] theorem handNotice_line (s : State) (k' : LineNo) : (handNotice s).line k' = s.line k' :=
  congrArg (fun v => v[k']) (handNotice_lines s)

@[simp] theorem handNotice_inputs (s : State) : (handNotice s).inputs = s.inputs := by
  unfold handNotice; split <;> first | (simp; done) | (split <;> simp)

@[simp] theorem handNotice_input (s : State) (k' : LineNo) : (handNotice s).input k' = s.input k' :=
  congrArg (fun v => v[k']) (handNotice_inputs s)

@[simp] theorem handNotice_gens (s : State) : (handNotice s).gens = s.gens := by
  unfold handNotice; split <;> first | (simp; done) | (split <;> simp)

@[simp] theorem handNotice_gen (s : State) (g' : GenNo) : (handNotice s).gen g' = s.gen g' :=
  congrArg (fun v => v[g']) (handNotice_gens s)

@[simp] theorem handNotice_journal (s : State) : (handNotice s).journal = s.journal := by
  unfold handNotice; split <;> first | (simp; done) | (split <;> simp)

@[simp] theorem handNotice_notice (s : State) : (handNotice s).notice = s.notice := by
  unfold handNotice; split <;> first | (simp; done) | (split <;> simp)

@[simp] theorem handNotice_slot (s : State) (i' : SlotNo) : (handNotice s).slot i' = s.slot i' :=
  congrArg (fun v : NoticeUnit => v.slots[i']) (handNotice_notice s)

@[simp] theorem post_lanes (s : State) (k : SlotNo) (d : Details) : (post k d s).lanes = s.lanes := by
  simp [post]

@[simp] theorem post_lane (s : State) (k : SlotNo) (d : Details) (n' : LaneNo) :
    (post k d s).lane n' = s.lane n' :=
  congrArg (fun v => v[n']) (post_lanes s k d)

@[simp] theorem post_lines (s : State) (k : SlotNo) (d : Details) : (post k d s).lines = s.lines := by
  simp [post]

@[simp] theorem post_line (s : State) (k : SlotNo) (d : Details) (k' : LineNo) :
    (post k d s).line k' = s.line k' :=
  congrArg (fun v => v[k']) (post_lines s k d)

@[simp] theorem post_inputs (s : State) (k : SlotNo) (d : Details) : (post k d s).inputs = s.inputs := by
  simp [post]

@[simp] theorem post_input (s : State) (k : SlotNo) (d : Details) (k' : LineNo) :
    (post k d s).input k' = s.input k' :=
  congrArg (fun v => v[k']) (post_inputs s k d)

@[simp] theorem post_gens (s : State) (k : SlotNo) (d : Details) : (post k d s).gens = s.gens := by simp [post]

@[simp] theorem post_gen (s : State) (k : SlotNo) (d : Details) (g' : GenNo) :
    (post k d s).gen g' = s.gen g' :=
  congrArg (fun v => v[g']) (post_gens s k d)

@[simp] theorem post_journal (s : State) (k : SlotNo) (d : Details) : (post k d s).journal = s.journal := by
  simp [post]

@[simp] theorem capture_lanes (s : State) (r : CaptureRecord) : (capture r s).lanes = s.lanes := by
  unfold capture; dsimp only; split <;> first | rfl | (simp; done) | (split <;> simp)

@[simp] theorem capture_lane (s : State) (r : CaptureRecord) (n' : LaneNo) :
    (capture r s).lane n' = s.lane n' :=
  congrArg (fun v => v[n']) (capture_lanes s r)

@[simp] theorem capture_lines (s : State) (r : CaptureRecord) : (capture r s).lines = s.lines := by
  unfold capture; dsimp only; split <;> first | rfl | (simp; done) | (split <;> simp)

@[simp] theorem capture_line (s : State) (r : CaptureRecord) (k' : LineNo) :
    (capture r s).line k' = s.line k' :=
  congrArg (fun v => v[k']) (capture_lines s r)

@[simp] theorem capture_inputs (s : State) (r : CaptureRecord) : (capture r s).inputs = s.inputs := by
  unfold capture; dsimp only; split <;> first | rfl | (simp; done) | (split <;> simp)

@[simp] theorem capture_input (s : State) (r : CaptureRecord) (k' : LineNo) :
    (capture r s).input k' = s.input k' :=
  congrArg (fun v => v[k']) (capture_inputs s r)

@[simp] theorem capture_gens (s : State) (r : CaptureRecord) : (capture r s).gens = s.gens := by
  unfold capture; dsimp only; split <;> first | rfl | (simp; done) | (split <;> simp)

@[simp] theorem capture_gen (s : State) (r : CaptureRecord) (g' : GenNo) :
    (capture r s).gen g' = s.gen g' :=
  congrArg (fun v => v[g']) (capture_gens s r)

/-! ## Lines -/

@[simp] theorem unbindGen_lanes (s : State) (g : GenNo) : (unbindGen g s).lanes = s.lanes := by
  unfold unbindGen; dsimp only; split <;> simp

@[simp] theorem unbindGen_lane (s : State) (g : GenNo) (n' : LaneNo) :
    (unbindGen g s).lane n' = s.lane n' :=
  congrArg (fun v => v[n']) (unbindGen_lanes s g)

@[simp] theorem unbindGen_lines (s : State) (g : GenNo) : (unbindGen g s).lines = s.lines := by
  unfold unbindGen; dsimp only; split <;> simp

@[simp] theorem unbindGen_line (s : State) (g : GenNo) (k' : LineNo) :
    (unbindGen g s).line k' = s.line k' :=
  congrArg (fun v => v[k']) (unbindGen_lines s g)

@[simp] theorem unbindGen_inputs (s : State) (g : GenNo) : (unbindGen g s).inputs = s.inputs := by
  unfold unbindGen; dsimp only; split <;> simp

@[simp] theorem unbindGen_input (s : State) (g : GenNo) (k' : LineNo) :
    (unbindGen g s).input k' = s.input k' :=
  congrArg (fun v => v[k']) (unbindGen_inputs s g)

@[simp] theorem unbindGen_journal (s : State) (g : GenNo) : (unbindGen g s).journal = s.journal := by
  unfold unbindGen; dsimp only; split <;> simp

@[simp] theorem unbindGen_notice (s : State) (g : GenNo) : (unbindGen g s).notice = s.notice := by
  unfold unbindGen; dsimp only; split <;> simp

@[simp] theorem unbindGen_slot (s : State) (g : GenNo) (i' : SlotNo) :
    (unbindGen g s).slot i' = s.slot i' :=
  congrArg (fun v : NoticeUnit => v.slots[i']) (unbindGen_notice s g)

@[simp] theorem bindGen_lanes (s : State) (g : GenNo) (k : LineNo) (m : Nat) :
    (bindGen g k m s).lanes = s.lanes := by
  unfold bindGen; dsimp only; split <;> simp

@[simp] theorem bindGen_lane (s : State) (g : GenNo) (k : LineNo) (m : Nat) (n' : LaneNo) :
    (bindGen g k m s).lane n' = s.lane n' :=
  congrArg (fun v => v[n']) (bindGen_lanes s g k m)

@[simp] theorem bindGen_lines (s : State) (g : GenNo) (k : LineNo) (m : Nat) :
    (bindGen g k m s).lines = s.lines := by
  unfold bindGen; dsimp only; split <;> simp

@[simp] theorem bindGen_line (s : State) (g : GenNo) (k : LineNo) (m : Nat) (k' : LineNo) :
    (bindGen g k m s).line k' = s.line k' :=
  congrArg (fun v => v[k']) (bindGen_lines s g k m)

@[simp] theorem bindGen_inputs (s : State) (g : GenNo) (k : LineNo) (m : Nat) :
    (bindGen g k m s).inputs = s.inputs := by
  unfold bindGen; dsimp only; split <;> simp

@[simp] theorem bindGen_input (s : State) (g : GenNo) (k : LineNo) (m : Nat) (k' : LineNo) :
    (bindGen g k m s).input k' = s.input k' :=
  congrArg (fun v => v[k']) (bindGen_inputs s g k m)

@[simp] theorem bindGen_journal (s : State) (g : GenNo) (k : LineNo) (m : Nat) :
    (bindGen g k m s).journal = s.journal := by
  unfold bindGen; dsimp only; split <;> simp

@[simp] theorem bindGen_notice (s : State) (g : GenNo) (k : LineNo) (m : Nat) :
    (bindGen g k m s).notice = s.notice := by
  unfold bindGen; dsimp only; split <;> simp

@[simp] theorem bindGen_slot (s : State) (g : GenNo) (k : LineNo) (m : Nat) (i' : SlotNo) :
    (bindGen g k m s).slot i' = s.slot i' :=
  congrArg (fun v : NoticeUnit => v.slots[i']) (bindGen_notice s g k m)

@[simp] theorem setMode_lanes (s : State) (k : LineNo) (m : OutMode) : (setMode k m s).lanes = s.lanes := rfl

@[simp] theorem setMode_lane (s : State) (k : LineNo) (m : OutMode) (n' : LaneNo) :
    (setMode k m s).lane n' = s.lane n' :=
  congrArg (fun v => v[n']) (setMode_lanes s k m)

@[simp] theorem setMode_inputs (s : State) (k : LineNo) (m : OutMode) : (setMode k m s).inputs = s.inputs := rfl

@[simp] theorem setMode_input (s : State) (k : LineNo) (m : OutMode) (k' : LineNo) :
    (setMode k m s).input k' = s.input k' :=
  congrArg (fun v => v[k']) (setMode_inputs s k m)

@[simp] theorem setMode_gens (s : State) (k : LineNo) (m : OutMode) : (setMode k m s).gens = s.gens := rfl

@[simp] theorem setMode_gen (s : State) (k : LineNo) (m : OutMode) (g' : GenNo) :
    (setMode k m s).gen g' = s.gen g' :=
  congrArg (fun v => v[g']) (setMode_gens s k m)

@[simp] theorem setMode_journal (s : State) (k : LineNo) (m : OutMode) :
    (setMode k m s).journal = s.journal := rfl

@[simp] theorem setMode_notice (s : State) (k : LineNo) (m : OutMode) : (setMode k m s).notice = s.notice := rfl

@[simp] theorem setMode_slot (s : State) (k : LineNo) (m : OutMode) (i' : SlotNo) :
    (setMode k m s).slot i' = s.slot i' :=
  congrArg (fun v : NoticeUnit => v.slots[i']) (setMode_notice s k m)

@[simp] theorem endActivity_lanes (s : State) (k : LineNo) : (endActivity k s).lanes = s.lanes := by
  unfold endActivity; split <;> first | (simp; done) | (split <;> simp)

@[simp] theorem endActivity_lane (s : State) (k : LineNo) (n' : LaneNo) :
    (endActivity k s).lane n' = s.lane n' :=
  congrArg (fun v => v[n']) (endActivity_lanes s k)

@[simp] theorem endActivity_lines (s : State) (k : LineNo) : (endActivity k s).lines = s.lines := by
  unfold endActivity; split <;> first | (simp; done) | (split <;> simp)

@[simp] theorem endActivity_line (s : State) (k : LineNo) (k' : LineNo) :
    (endActivity k s).line k' = s.line k' :=
  congrArg (fun v => v[k']) (endActivity_lines s k)

@[simp] theorem endActivity_inputs (s : State) (k : LineNo) : (endActivity k s).inputs = s.inputs := by
  unfold endActivity; split <;> first | (simp; done) | (split <;> simp)

@[simp] theorem endActivity_input (s : State) (k : LineNo) (k' : LineNo) :
    (endActivity k s).input k' = s.input k' :=
  congrArg (fun v => v[k']) (endActivity_inputs s k)

@[simp] theorem endActivity_journal (s : State) (k : LineNo) : (endActivity k s).journal = s.journal := by
  unfold endActivity; split <;> first | (simp; done) | (split <;> simp)

@[simp] theorem endActivity_notice (s : State) (k : LineNo) : (endActivity k s).notice = s.notice := by
  unfold endActivity; split <;> first | (simp; done) | (split <;> simp)

@[simp] theorem endActivity_slot (s : State) (k : LineNo) (i' : SlotNo) :
    (endActivity k s).slot i' = s.slot i' :=
  congrArg (fun v : NoticeUnit => v.slots[i']) (endActivity_notice s k)

@[simp] theorem driveStatic_lanes (s : State) (k : LineNo) (l : Level) :
    (driveStatic k l s).lanes = s.lanes := by simp [driveStatic]

@[simp] theorem driveStatic_lane (s : State) (k : LineNo) (l : Level) (n' : LaneNo) :
    (driveStatic k l s).lane n' = s.lane n' :=
  congrArg (fun v => v[n']) (driveStatic_lanes s k l)

@[simp] theorem driveStatic_inputs (s : State) (k : LineNo) (l : Level) :
    (driveStatic k l s).inputs = s.inputs := by simp [driveStatic]

@[simp] theorem driveStatic_input (s : State) (k : LineNo) (l : Level) (k' : LineNo) :
    (driveStatic k l s).input k' = s.input k' :=
  congrArg (fun v => v[k']) (driveStatic_inputs s k l)

@[simp] theorem driveStatic_journal (s : State) (k : LineNo) (l : Level) :
    (driveStatic k l s).journal = s.journal := by simp [driveStatic]

@[simp] theorem driveStatic_notice (s : State) (k : LineNo) (l : Level) :
    (driveStatic k l s).notice = s.notice := by simp [driveStatic]

@[simp] theorem driveStatic_slot (s : State) (k : LineNo) (l : Level) (i' : SlotNo) :
    (driveStatic k l s).slot i' = s.slot i' :=
  congrArg (fun v : NoticeUnit => v.slots[i']) (driveStatic_notice s k l)

@[simp] theorem setLineLevel_lanes (s : State) (v : Half) (k : LineNo) :
    (setLineLevel v k s).lanes = s.lanes := by simp [setLineLevel]

@[simp] theorem setLineLevel_lane (s : State) (v : Half) (k : LineNo) (n' : LaneNo) :
    (setLineLevel v k s).lane n' = s.lane n' :=
  congrArg (fun v => v[n']) (setLineLevel_lanes s v k)

@[simp] theorem setLineLevel_inputs (s : State) (v : Half) (k : LineNo) :
    (setLineLevel v k s).inputs = s.inputs := by simp [setLineLevel]

@[simp] theorem setLineLevel_input (s : State) (v : Half) (k : LineNo) (k' : LineNo) :
    (setLineLevel v k s).input k' = s.input k' :=
  congrArg (fun v => v[k']) (setLineLevel_inputs s v k)

@[simp] theorem setLineLevel_journal (s : State) (v : Half) (k : LineNo) :
    (setLineLevel v k s).journal = s.journal := by simp [setLineLevel]

@[simp] theorem setLineLevel_notice (s : State) (v : Half) (k : LineNo) :
    (setLineLevel v k s).notice = s.notice := by simp [setLineLevel]

@[simp] theorem setLineLevel_slot (s : State) (v : Half) (k : LineNo) (i' : SlotNo) :
    (setLineLevel v k s).slot i' = s.slot i' :=
  congrArg (fun v : NoticeUnit => v.slots[i']) (setLineLevel_notice s v k)

@[simp] theorem setLineLevels_lanes (s : State) (ks : List LineNo) (v : Half) :
    (State.each ks (setLineLevel v) s).lanes = s.lanes :=
  each_keeps State.lanes (fun k s => setLineLevel_lanes s v k) ks s

@[simp] theorem setLineLevels_inputs (s : State) (ks : List LineNo) (v : Half) :
    (State.each ks (setLineLevel v) s).inputs = s.inputs :=
  each_keeps State.inputs (fun k s => setLineLevel_inputs s v k) ks s

@[simp] theorem setLineLevels_journal (s : State) (ks : List LineNo) (v : Half) :
    (State.each ks (setLineLevel v) s).journal = s.journal :=
  each_keeps State.journal (fun k s => setLineLevel_journal s v k) ks s

@[simp] theorem setLineLevels_notice (s : State) (ks : List LineNo) (v : Half) :
    (State.each ks (setLineLevel v) s).notice = s.notice :=
  each_keeps State.notice (fun k s => setLineLevel_notice s v k) ks s

@[simp] theorem startPulse_lanes (s : State) (k : LineNo) (a : Level) (w : BitVec 24) :
    (startPulse k a w s).lanes = s.lanes := by simp [startPulse]

@[simp] theorem startPulse_lane (s : State) (k : LineNo) (a : Level) (w : BitVec 24) (n' : LaneNo) :
    (startPulse k a w s).lane n' = s.lane n' :=
  congrArg (fun v => v[n']) (startPulse_lanes s k a w)

@[simp] theorem startPulse_inputs (s : State) (k : LineNo) (a : Level) (w : BitVec 24) :
    (startPulse k a w s).inputs = s.inputs := by simp [startPulse]

@[simp] theorem startPulse_input (s : State) (k : LineNo) (a : Level) (w : BitVec 24) (k' : LineNo) :
    (startPulse k a w s).input k' = s.input k' :=
  congrArg (fun v => v[k']) (startPulse_inputs s k a w)

@[simp] theorem startPulse_journal (s : State) (k : LineNo) (a : Level) (w : BitVec 24) :
    (startPulse k a w s).journal = s.journal := by simp [startPulse]

@[simp] theorem startPulse_notice (s : State) (k : LineNo) (a : Level) (w : BitVec 24) :
    (startPulse k a w s).notice = s.notice := by simp [startPulse]

@[simp] theorem startPulse_slot (s : State) (k : LineNo) (a : Level) (w : BitVec 24) (i' : SlotNo) :
    (startPulse k a w s).slot i' = s.slot i' :=
  congrArg (fun v : NoticeUnit => v.slots[i']) (startPulse_notice s k a w)

@[simp] theorem startWave_lanes (s : State) (k : LineNo) (a : Level) (d1 d2 : BitVec 24) (p : Half) :
    (startWave k a d1 d2 p s).lanes = s.lanes := by simp [startWave]

@[simp] theorem startWave_lane (s : State) (k : LineNo) (a : Level) (d1 d2 : BitVec 24) (p : Half) (n' : LaneNo) :
    (startWave k a d1 d2 p s).lane n' = s.lane n' :=
  congrArg (fun v => v[n']) (startWave_lanes s k a d1 d2 p)

@[simp] theorem startWave_inputs (s : State) (k : LineNo) (a : Level) (d1 d2 : BitVec 24) (p : Half) :
    (startWave k a d1 d2 p s).inputs = s.inputs := by simp [startWave]

@[simp] theorem startWave_input (s : State) (k : LineNo) (a : Level) (d1 d2 : BitVec 24) (p : Half) (k' : LineNo) :
    (startWave k a d1 d2 p s).input k' = s.input k' :=
  congrArg (fun v => v[k']) (startWave_inputs s k a d1 d2 p)

@[simp] theorem startWave_journal (s : State) (k : LineNo) (a : Level) (d1 d2 : BitVec 24) (p : Half) :
    (startWave k a d1 d2 p s).journal = s.journal := by simp [startWave]

@[simp] theorem startWave_notice (s : State) (k : LineNo) (a : Level) (d1 d2 : BitVec 24) (p : Half) :
    (startWave k a d1 d2 p s).notice = s.notice := by simp [startWave]

@[simp] theorem startWave_slot (s : State) (k : LineNo) (a : Level) (d1 d2 : BitVec 24) (p : Half) (i' : SlotNo) :
    (startWave k a d1 d2 p s).slot i' = s.slot i' :=
  congrArg (fun v : NoticeUnit => v.slots[i']) (startWave_notice s k a d1 d2 p)

@[simp] theorem startTrack_lanes (s : State) (k : LineNo) (g : GenNo) :
    (startTrack k g s).lanes = s.lanes := by
  unfold startTrack; split <;> first | (simp; done) | (split <;> simp)

@[simp] theorem startTrack_lane (s : State) (k : LineNo) (g : GenNo) (n' : LaneNo) :
    (startTrack k g s).lane n' = s.lane n' :=
  congrArg (fun v => v[n']) (startTrack_lanes s k g)

@[simp] theorem startTrack_inputs (s : State) (k : LineNo) (g : GenNo) :
    (startTrack k g s).inputs = s.inputs := by
  unfold startTrack; split <;> first | (simp; done) | (split <;> simp)

@[simp] theorem startTrack_input (s : State) (k : LineNo) (g : GenNo) (k' : LineNo) :
    (startTrack k g s).input k' = s.input k' :=
  congrArg (fun v => v[k']) (startTrack_inputs s k g)

@[simp] theorem startTrack_journal (s : State) (k : LineNo) (g : GenNo) :
    (startTrack k g s).journal = s.journal := by
  unfold startTrack; split <;> first | (simp; done) | (split <;> simp)

@[simp] theorem startTrack_notice (s : State) (k : LineNo) (g : GenNo) :
    (startTrack k g s).notice = s.notice := by
  unfold startTrack; split <;> first | (simp; done) | (split <;> simp)

@[simp] theorem startTrack_slot (s : State) (k : LineNo) (g : GenNo) (i' : SlotNo) :
    (startTrack k g s).slot i' = s.slot i' :=
  congrArg (fun v : NoticeUnit => v.slots[i']) (startTrack_notice s k g)

@[simp] theorem endPulse_lanes (s : State) (k : LineNo) : (endPulse k s).lanes = s.lanes := by
  unfold endPulse; split <;> simp

@[simp] theorem endPulse_lane (s : State) (k : LineNo) (n' : LaneNo) : (endPulse k s).lane n' = s.lane n' :=
  congrArg (fun v => v[n']) (endPulse_lanes s k)

@[simp] theorem endPulse_inputs (s : State) (k : LineNo) : (endPulse k s).inputs = s.inputs := by
  unfold endPulse; split <;> simp

@[simp] theorem endPulse_input (s : State) (k : LineNo) (k' : LineNo) :
    (endPulse k s).input k' = s.input k' :=
  congrArg (fun v => v[k']) (endPulse_inputs s k)

@[simp] theorem endPulse_gens (s : State) (k : LineNo) : (endPulse k s).gens = s.gens := by
  unfold endPulse; split <;> simp

@[simp] theorem endPulse_gen (s : State) (k : LineNo) (g' : GenNo) : (endPulse k s).gen g' = s.gen g' :=
  congrArg (fun v => v[g']) (endPulse_gens s k)

@[simp] theorem endPulse_journal (s : State) (k : LineNo) : (endPulse k s).journal = s.journal := by
  unfold endPulse; split <;> simp

@[simp] theorem endPulse_notice (s : State) (k : LineNo) : (endPulse k s).notice = s.notice := by
  unfold endPulse; split <;> simp

@[simp] theorem endPulse_slot (s : State) (k : LineNo) (i' : SlotNo) : (endPulse k s).slot i' = s.slot i' :=
  congrArg (fun v : NoticeUnit => v.slots[i']) (endPulse_notice s k)

@[simp] theorem endWavePhase_lanes (s : State) (k : LineNo) : (endWavePhase k s).lanes = s.lanes := by
  unfold endWavePhase; split <;> simp

@[simp] theorem endWavePhase_lane (s : State) (k : LineNo) (n' : LaneNo) :
    (endWavePhase k s).lane n' = s.lane n' :=
  congrArg (fun v => v[n']) (endWavePhase_lanes s k)

@[simp] theorem endWavePhase_inputs (s : State) (k : LineNo) : (endWavePhase k s).inputs = s.inputs := by
  unfold endWavePhase; split <;> simp

@[simp] theorem endWavePhase_input (s : State) (k : LineNo) (k' : LineNo) :
    (endWavePhase k s).input k' = s.input k' :=
  congrArg (fun v => v[k']) (endWavePhase_inputs s k)

@[simp] theorem endWavePhase_gens (s : State) (k : LineNo) : (endWavePhase k s).gens = s.gens := by
  unfold endWavePhase; split <;> simp

@[simp] theorem endWavePhase_gen (s : State) (k : LineNo) (g' : GenNo) :
    (endWavePhase k s).gen g' = s.gen g' :=
  congrArg (fun v => v[g']) (endWavePhase_gens s k)

@[simp] theorem endWavePhase_journal (s : State) (k : LineNo) : (endWavePhase k s).journal = s.journal := by
  unfold endWavePhase; split <;> simp

@[simp] theorem endWavePhase_notice (s : State) (k : LineNo) : (endWavePhase k s).notice = s.notice := by
  unfold endWavePhase; split <;> simp

@[simp] theorem endWavePhase_slot (s : State) (k : LineNo) (i' : SlotNo) :
    (endWavePhase k s).slot i' = s.slot i' :=
  congrArg (fun v : NoticeUnit => v.slots[i']) (endWavePhase_notice s k)

@[simp] theorem toggleLine_lanes (s : State) (k : LineNo) (g : GenNo) :
    (toggleLine k g s).lanes = s.lanes := by
  unfold toggleLine; split <;> first | (simp; done) | (split <;> simp)

@[simp] theorem toggleLine_lane (s : State) (k : LineNo) (g : GenNo) (n' : LaneNo) :
    (toggleLine k g s).lane n' = s.lane n' :=
  congrArg (fun v => v[n']) (toggleLine_lanes s k g)

@[simp] theorem toggleLine_inputs (s : State) (k : LineNo) (g : GenNo) :
    (toggleLine k g s).inputs = s.inputs := by
  unfold toggleLine; split <;> first | (simp; done) | (split <;> simp)

@[simp] theorem toggleLine_input (s : State) (k : LineNo) (g : GenNo) (k' : LineNo) :
    (toggleLine k g s).input k' = s.input k' :=
  congrArg (fun v => v[k']) (toggleLine_inputs s k g)

@[simp] theorem toggleLine_gens (s : State) (k : LineNo) (g : GenNo) : (toggleLine k g s).gens = s.gens := by
  unfold toggleLine; split <;> first | (simp; done) | (split <;> simp)

@[simp] theorem toggleLine_gen (s : State) (k : LineNo) (g : GenNo) (g' : GenNo) :
    (toggleLine k g s).gen g' = s.gen g' :=
  congrArg (fun v => v[g']) (toggleLine_gens s k g)

@[simp] theorem toggleLine_journal (s : State) (k : LineNo) (g : GenNo) :
    (toggleLine k g s).journal = s.journal := by
  unfold toggleLine; split <;> first | (simp; done) | (split <;> simp)

@[simp] theorem toggleLine_notice (s : State) (k : LineNo) (g : GenNo) :
    (toggleLine k g s).notice = s.notice := by
  unfold toggleLine; split <;> first | (simp; done) | (split <;> simp)

@[simp] theorem toggleLine_slot (s : State) (k : LineNo) (g : GenNo) (i' : SlotNo) :
    (toggleLine k g s).slot i' = s.slot i' :=
  congrArg (fun v : NoticeUnit => v.slots[i']) (toggleLine_notice s k g)

@[simp] theorem takeFaultAction_lanes (s : State) (k : LineNo) : (takeFaultAction k s).lanes = s.lanes := by
  simp [takeFaultAction]

@[simp] theorem takeFaultAction_lane (s : State) (k : LineNo) (n' : LaneNo) :
    (takeFaultAction k s).lane n' = s.lane n' :=
  congrArg (fun v => v[n']) (takeFaultAction_lanes s k)

@[simp] theorem takeFaultAction_inputs (s : State) (k : LineNo) : (takeFaultAction k s).inputs = s.inputs := by
  simp [takeFaultAction]

@[simp] theorem takeFaultAction_input (s : State) (k : LineNo) (k' : LineNo) :
    (takeFaultAction k s).input k' = s.input k' :=
  congrArg (fun v => v[k']) (takeFaultAction_inputs s k)

@[simp] theorem takeFaultAction_journal (s : State) (k : LineNo) :
    (takeFaultAction k s).journal = s.journal := by simp [takeFaultAction]

@[simp] theorem takeFaultAction_notice (s : State) (k : LineNo) : (takeFaultAction k s).notice = s.notice := by
  simp [takeFaultAction]

@[simp] theorem takeFaultAction_slot (s : State) (k : LineNo) (i' : SlotNo) :
    (takeFaultAction k s).slot i' = s.slot i' :=
  congrArg (fun v : NoticeUnit => v.slots[i']) (takeFaultAction_notice s k)

@[simp] theorem faultOwnedLines_lanes (s : State) (n : LaneNo) : (faultOwnedLines n s).lanes = s.lanes :=
  each_keeps State.lanes (fun k s => takeFaultAction_lanes s k) _ s

@[simp] theorem faultOwnedLines_lane (s : State) (n : LaneNo) (n' : LaneNo) :
    (faultOwnedLines n s).lane n' = s.lane n' :=
  congrArg (fun v => v[n']) (faultOwnedLines_lanes s n)

@[simp] theorem faultOwnedLines_inputs (s : State) (n : LaneNo) : (faultOwnedLines n s).inputs = s.inputs :=
  each_keeps State.inputs (fun k s => takeFaultAction_inputs s k) _ s

@[simp] theorem faultOwnedLines_input (s : State) (n : LaneNo) (k' : LineNo) :
    (faultOwnedLines n s).input k' = s.input k' :=
  congrArg (fun v => v[k']) (faultOwnedLines_inputs s n)

@[simp] theorem faultOwnedLines_journal (s : State) (n : LaneNo) :
    (faultOwnedLines n s).journal = s.journal := each_keeps State.journal (fun k s => takeFaultAction_journal s k) _ s

@[simp] theorem faultOwnedLines_notice (s : State) (n : LaneNo) : (faultOwnedLines n s).notice = s.notice :=
  each_keeps State.notice (fun k s => takeFaultAction_notice s k) _ s

@[simp] theorem faultOwnedLines_slot (s : State) (n : LaneNo) (i' : SlotNo) :
    (faultOwnedLines n s).slot i' = s.slot i' :=
  congrArg (fun v : NoticeUnit => v.slots[i']) (faultOwnedLines_notice s n)

@[simp] theorem grantLine_lanes (s : State) (k : LineNo) (n : LaneNo) : (grantLine k n s).lanes = s.lanes := rfl

@[simp] theorem grantLine_lane (s : State) (k : LineNo) (n : LaneNo) (n' : LaneNo) :
    (grantLine k n s).lane n' = s.lane n' :=
  congrArg (fun v => v[n']) (grantLine_lanes s k n)

@[simp] theorem grantLine_inputs (s : State) (k : LineNo) (n : LaneNo) :
    (grantLine k n s).inputs = s.inputs := rfl

@[simp] theorem grantLine_input (s : State) (k : LineNo) (n : LaneNo) (k' : LineNo) :
    (grantLine k n s).input k' = s.input k' :=
  congrArg (fun v => v[k']) (grantLine_inputs s k n)

@[simp] theorem grantLine_gens (s : State) (k : LineNo) (n : LaneNo) : (grantLine k n s).gens = s.gens := rfl

@[simp] theorem grantLine_gen (s : State) (k : LineNo) (n : LaneNo) (g' : GenNo) :
    (grantLine k n s).gen g' = s.gen g' :=
  congrArg (fun v => v[g']) (grantLine_gens s k n)

@[simp] theorem grantLine_journal (s : State) (k : LineNo) (n : LaneNo) :
    (grantLine k n s).journal = s.journal := rfl

@[simp] theorem grantLine_notice (s : State) (k : LineNo) (n : LaneNo) :
    (grantLine k n s).notice = s.notice := rfl

@[simp] theorem grantLine_slot (s : State) (k : LineNo) (n : LaneNo) (i' : SlotNo) :
    (grantLine k n s).slot i' = s.slot i' :=
  congrArg (fun v : NoticeUnit => v.slots[i']) (grantLine_notice s k n)

@[simp] theorem joinWaiters_lanes (s : State) (k : LineNo) (n : LaneNo) (t : Half) :
    (joinWaiters k n t s).lanes = s.lanes := rfl

@[simp] theorem joinWaiters_lane (s : State) (k : LineNo) (n : LaneNo) (t : Half) (n' : LaneNo) :
    (joinWaiters k n t s).lane n' = s.lane n' :=
  congrArg (fun v => v[n']) (joinWaiters_lanes s k n t)

@[simp] theorem joinWaiters_inputs (s : State) (k : LineNo) (n : LaneNo) (t : Half) :
    (joinWaiters k n t s).inputs = s.inputs := rfl

@[simp] theorem joinWaiters_input (s : State) (k : LineNo) (n : LaneNo) (t : Half) (k' : LineNo) :
    (joinWaiters k n t s).input k' = s.input k' :=
  congrArg (fun v => v[k']) (joinWaiters_inputs s k n t)

@[simp] theorem joinWaiters_gens (s : State) (k : LineNo) (n : LaneNo) (t : Half) :
    (joinWaiters k n t s).gens = s.gens := rfl

@[simp] theorem joinWaiters_gen (s : State) (k : LineNo) (n : LaneNo) (t : Half) (g' : GenNo) :
    (joinWaiters k n t s).gen g' = s.gen g' :=
  congrArg (fun v => v[g']) (joinWaiters_gens s k n t)

@[simp] theorem joinWaiters_journal (s : State) (k : LineNo) (n : LaneNo) (t : Half) :
    (joinWaiters k n t s).journal = s.journal := rfl

@[simp] theorem joinWaiters_notice (s : State) (k : LineNo) (n : LaneNo) (t : Half) :
    (joinWaiters k n t s).notice = s.notice := rfl

@[simp] theorem joinWaiters_slot (s : State) (k : LineNo) (n : LaneNo) (t : Half) (i' : SlotNo) :
    (joinWaiters k n t s).slot i' = s.slot i' :=
  congrArg (fun v : NoticeUnit => v.slots[i']) (joinWaiters_notice s k n t)

@[simp] theorem leaveWaiters_lanes (s : State) (k : LineNo) (n : LaneNo) :
    (leaveWaiters k n s).lanes = s.lanes := rfl

@[simp] theorem leaveWaiters_lane (s : State) (k : LineNo) (n : LaneNo) (n' : LaneNo) :
    (leaveWaiters k n s).lane n' = s.lane n' :=
  congrArg (fun v => v[n']) (leaveWaiters_lanes s k n)

@[simp] theorem leaveWaiters_inputs (s : State) (k : LineNo) (n : LaneNo) :
    (leaveWaiters k n s).inputs = s.inputs := rfl

@[simp] theorem leaveWaiters_input (s : State) (k : LineNo) (n : LaneNo) (k' : LineNo) :
    (leaveWaiters k n s).input k' = s.input k' :=
  congrArg (fun v => v[k']) (leaveWaiters_inputs s k n)

@[simp] theorem leaveWaiters_gens (s : State) (k : LineNo) (n : LaneNo) :
    (leaveWaiters k n s).gens = s.gens := rfl

@[simp] theorem leaveWaiters_gen (s : State) (k : LineNo) (n : LaneNo) (g' : GenNo) :
    (leaveWaiters k n s).gen g' = s.gen g' :=
  congrArg (fun v => v[g']) (leaveWaiters_gens s k n)

@[simp] theorem leaveWaiters_journal (s : State) (k : LineNo) (n : LaneNo) :
    (leaveWaiters k n s).journal = s.journal := rfl

@[simp] theorem leaveWaiters_notice (s : State) (k : LineNo) (n : LaneNo) :
    (leaveWaiters k n s).notice = s.notice := rfl

@[simp] theorem leaveWaiters_slot (s : State) (k : LineNo) (n : LaneNo) (i' : SlotNo) :
    (leaveWaiters k n s).slot i' = s.slot i' :=
  congrArg (fun v : NoticeUnit => v.slots[i']) (leaveWaiters_notice s k n)

@[simp] theorem passOwnership_lanes (s : State) (k : LineNo) : (passOwnership k s).1.lanes = s.lanes := by
  unfold passOwnership; dsimp only; split <;> simp

@[simp] theorem passOwnership_lane (s : State) (k : LineNo) (n' : LaneNo) :
    (passOwnership k s).1.lane n' = s.lane n' :=
  congrArg (fun v => v[n']) (passOwnership_lanes s k)

@[simp] theorem passOwnership_inputs (s : State) (k : LineNo) : (passOwnership k s).1.inputs = s.inputs := by
  unfold passOwnership; dsimp only; split <;> simp

@[simp] theorem passOwnership_input (s : State) (k : LineNo) (k' : LineNo) :
    (passOwnership k s).1.input k' = s.input k' :=
  congrArg (fun v => v[k']) (passOwnership_inputs s k)

@[simp] theorem passOwnership_gens (s : State) (k : LineNo) : (passOwnership k s).1.gens = s.gens := by
  unfold passOwnership; dsimp only; split <;> simp

@[simp] theorem passOwnership_gen (s : State) (k : LineNo) (g' : GenNo) :
    (passOwnership k s).1.gen g' = s.gen g' :=
  congrArg (fun v => v[g']) (passOwnership_gens s k)

@[simp] theorem passOwnership_journal (s : State) (k : LineNo) :
    (passOwnership k s).1.journal = s.journal := by
  unfold passOwnership; dsimp only; split <;> simp

@[simp] theorem passOwnership_notice (s : State) (k : LineNo) : (passOwnership k s).1.notice = s.notice := by
  unfold passOwnership; dsimp only; split <;> simp

@[simp] theorem passOwnership_slot (s : State) (k : LineNo) (i' : SlotNo) :
    (passOwnership k s).1.slot i' = s.slot i' :=
  congrArg (fun v : NoticeUnit => v.slots[i']) (passOwnership_notice s k)

@[simp] theorem releaseLine_lanes (s : State) (k : LineNo) : (releaseLine k s).1.lanes = s.lanes := by
  simp [releaseLine]

@[simp] theorem releaseLine_lane (s : State) (k : LineNo) (n' : LaneNo) :
    (releaseLine k s).1.lane n' = s.lane n' :=
  congrArg (fun v => v[n']) (releaseLine_lanes s k)

@[simp] theorem releaseLine_inputs (s : State) (k : LineNo) : (releaseLine k s).1.inputs = s.inputs := by
  simp [releaseLine]

@[simp] theorem releaseLine_input (s : State) (k : LineNo) (k' : LineNo) :
    (releaseLine k s).1.input k' = s.input k' :=
  congrArg (fun v => v[k']) (releaseLine_inputs s k)

@[simp] theorem releaseLine_journal (s : State) (k : LineNo) : (releaseLine k s).1.journal = s.journal := by
  simp [releaseLine]

@[simp] theorem releaseLine_notice (s : State) (k : LineNo) : (releaseLine k s).1.notice = s.notice := by
  simp [releaseLine]

@[simp] theorem releaseLine_slot (s : State) (k : LineNo) (i' : SlotNo) :
    (releaseLine k s).1.slot i' = s.slot i' :=
  congrArg (fun v : NoticeUnit => v.slots[i']) (releaseLine_notice s k)

@[simp] theorem releaseLines_lanes (s : State) (ks : List LineNo) : (releaseLines ks s).1.lanes = s.lanes := by
  induction ks generalizing s with
  | nil => rfl
  | cons k ks ih => simp [releaseLines, ih]

@[simp] theorem releaseLines_lane (s : State) (ks : List LineNo) (n' : LaneNo) :
    (releaseLines ks s).1.lane n' = s.lane n' :=
  congrArg (fun v => v[n']) (releaseLines_lanes s ks)

@[simp] theorem releaseLines_inputs (s : State) (ks : List LineNo) :
    (releaseLines ks s).1.inputs = s.inputs := by
  induction ks generalizing s with
  | nil => rfl
  | cons k ks ih => simp [releaseLines, ih]

@[simp] theorem releaseLines_input (s : State) (ks : List LineNo) (k' : LineNo) :
    (releaseLines ks s).1.input k' = s.input k' :=
  congrArg (fun v => v[k']) (releaseLines_inputs s ks)

@[simp] theorem releaseLines_journal (s : State) (ks : List LineNo) :
    (releaseLines ks s).1.journal = s.journal := by
  induction ks generalizing s with
  | nil => rfl
  | cons k ks ih => simp [releaseLines, ih]

@[simp] theorem releaseLines_notice (s : State) (ks : List LineNo) :
    (releaseLines ks s).1.notice = s.notice := by
  induction ks generalizing s with
  | nil => rfl
  | cons k ks ih => simp [releaseLines, ih]

@[simp] theorem releaseLines_slot (s : State) (ks : List LineNo) (i' : SlotNo) :
    (releaseLines ks s).1.slot i' = s.slot i' :=
  congrArg (fun v : NoticeUnit => v.slots[i']) (releaseLines_notice s ks)

/-! ## Generators -/

@[simp] theorem emitDerivedEdge_lanes (s : State) (g : GenNo) : (emitDerivedEdge g s).lanes = s.lanes := by
  unfold emitDerivedEdge; dsimp only; split <;> simp

@[simp] theorem emitDerivedEdge_lane (s : State) (g : GenNo) (n' : LaneNo) :
    (emitDerivedEdge g s).lane n' = s.lane n' :=
  congrArg (fun v => v[n']) (emitDerivedEdge_lanes s g)

@[simp] theorem emitDerivedEdge_inputs (s : State) (g : GenNo) : (emitDerivedEdge g s).inputs = s.inputs := by
  unfold emitDerivedEdge; dsimp only; split <;> simp

@[simp] theorem emitDerivedEdge_input (s : State) (g : GenNo) (k' : LineNo) :
    (emitDerivedEdge g s).input k' = s.input k' :=
  congrArg (fun v => v[k']) (emitDerivedEdge_inputs s g)

@[simp] theorem emitDerivedEdge_journal (s : State) (g : GenNo) :
    (emitDerivedEdge g s).journal = s.journal := by
  unfold emitDerivedEdge; dsimp only; split <;> simp

@[simp] theorem emitDerivedEdge_notice (s : State) (g : GenNo) : (emitDerivedEdge g s).notice = s.notice := by
  unfold emitDerivedEdge; dsimp only; split <;> simp

@[simp] theorem emitDerivedEdge_slot (s : State) (g : GenNo) (i' : SlotNo) :
    (emitDerivedEdge g s).slot i' = s.slot i' :=
  congrArg (fun v : NoticeUnit => v.slots[i']) (emitDerivedEdge_notice s g)

@[simp] theorem startPhase_lanes (s : State) (g : GenNo) (t : Ticks) : (startPhase g t s).lanes = s.lanes := by
  unfold startPhase; dsimp only; split <;> first | rfl | (simp; done) | (split <;> simp)

@[simp] theorem startPhase_lane (s : State) (g : GenNo) (t : Ticks) (n' : LaneNo) :
    (startPhase g t s).lane n' = s.lane n' :=
  congrArg (fun v => v[n']) (startPhase_lanes s g t)

@[simp] theorem startPhase_inputs (s : State) (g : GenNo) (t : Ticks) :
    (startPhase g t s).inputs = s.inputs := by
  unfold startPhase; dsimp only; split <;> first | rfl | (simp; done) | (split <;> simp)

@[simp] theorem startPhase_input (s : State) (g : GenNo) (t : Ticks) (k' : LineNo) :
    (startPhase g t s).input k' = s.input k' :=
  congrArg (fun v => v[k']) (startPhase_inputs s g t)

@[simp] theorem startPhase_journal (s : State) (g : GenNo) (t : Ticks) :
    (startPhase g t s).journal = s.journal := by
  unfold startPhase; dsimp only; split <;> first | rfl | (simp; done) | (split <;> simp)

@[simp] theorem startPhase_notice (s : State) (g : GenNo) (t : Ticks) :
    (startPhase g t s).notice = s.notice := by
  unfold startPhase; dsimp only; split <;> first | rfl | (simp; done) | (split <;> simp)

@[simp] theorem startPhase_slot (s : State) (g : GenNo) (t : Ticks) (i' : SlotNo) :
    (startPhase g t s).slot i' = s.slot i' :=
  congrArg (fun v : NoticeUnit => v.slots[i']) (startPhase_notice s g t)

@[simp] theorem setGenState_lanes (s : State) (g : GenNo) (st : GenState) :
    (setGenState g st s).lanes = s.lanes := by
  unfold setGenState; split <;> simp

@[simp] theorem setGenState_lane (s : State) (g : GenNo) (st : GenState) (n' : LaneNo) :
    (setGenState g st s).lane n' = s.lane n' :=
  congrArg (fun v => v[n']) (setGenState_lanes s g st)

@[simp] theorem setGenState_lines (s : State) (g : GenNo) (st : GenState) :
    (setGenState g st s).lines = s.lines := by
  unfold setGenState; split <;> simp

@[simp] theorem setGenState_line (s : State) (g : GenNo) (st : GenState) (k' : LineNo) :
    (setGenState g st s).line k' = s.line k' :=
  congrArg (fun v => v[k']) (setGenState_lines s g st)

@[simp] theorem setGenState_inputs (s : State) (g : GenNo) (st : GenState) :
    (setGenState g st s).inputs = s.inputs := by
  unfold setGenState; split <;> simp

@[simp] theorem setGenState_input (s : State) (g : GenNo) (st : GenState) (k' : LineNo) :
    (setGenState g st s).input k' = s.input k' :=
  congrArg (fun v => v[k']) (setGenState_inputs s g st)

@[simp] theorem setGenState_journal (s : State) (g : GenNo) (st : GenState) :
    (setGenState g st s).journal = s.journal := by
  unfold setGenState; split <;> simp

@[simp] theorem setGenState_notice (s : State) (g : GenNo) (st : GenState) :
    (setGenState g st s).notice = s.notice := by
  unfold setGenState; split <;> simp

@[simp] theorem setGenState_slot (s : State) (g : GenNo) (st : GenState) (i' : SlotNo) :
    (setGenState g st s).slot i' = s.slot i' :=
  congrArg (fun v : NoticeUnit => v.slots[i']) (setGenState_notice s g st)

@[simp] theorem reportTransition_lanes (s : State) (g : GenNo) (t : Ticks) :
    (reportTransition g t s).lanes = s.lanes := by simp [reportTransition]

@[simp] theorem reportTransition_lane (s : State) (g : GenNo) (t : Ticks) (n' : LaneNo) :
    (reportTransition g t s).lane n' = s.lane n' :=
  congrArg (fun v => v[n']) (reportTransition_lanes s g t)

@[simp] theorem reportTransition_lines (s : State) (g : GenNo) (t : Ticks) :
    (reportTransition g t s).lines = s.lines := by simp [reportTransition]

@[simp] theorem reportTransition_line (s : State) (g : GenNo) (t : Ticks) (k' : LineNo) :
    (reportTransition g t s).line k' = s.line k' :=
  congrArg (fun v => v[k']) (reportTransition_lines s g t)

@[simp] theorem reportTransition_inputs (s : State) (g : GenNo) (t : Ticks) :
    (reportTransition g t s).inputs = s.inputs := by simp [reportTransition]

@[simp] theorem reportTransition_input (s : State) (g : GenNo) (t : Ticks) (k' : LineNo) :
    (reportTransition g t s).input k' = s.input k' :=
  congrArg (fun v => v[k']) (reportTransition_inputs s g t)

@[simp] theorem noteRealEdge_lanes (s : State) (g : GenNo) (c : Ticks) :
    (noteRealEdge g c s).lanes = s.lanes := rfl

@[simp] theorem noteRealEdge_lane (s : State) (g : GenNo) (c : Ticks) (n' : LaneNo) :
    (noteRealEdge g c s).lane n' = s.lane n' :=
  congrArg (fun v => v[n']) (noteRealEdge_lanes s g c)

@[simp] theorem noteRealEdge_lines (s : State) (g : GenNo) (c : Ticks) :
    (noteRealEdge g c s).lines = s.lines := rfl

@[simp] theorem noteRealEdge_line (s : State) (g : GenNo) (c : Ticks) (k' : LineNo) :
    (noteRealEdge g c s).line k' = s.line k' :=
  congrArg (fun v => v[k']) (noteRealEdge_lines s g c)

@[simp] theorem noteRealEdge_inputs (s : State) (g : GenNo) (c : Ticks) :
    (noteRealEdge g c s).inputs = s.inputs := rfl

@[simp] theorem noteRealEdge_input (s : State) (g : GenNo) (c : Ticks) (k' : LineNo) :
    (noteRealEdge g c s).input k' = s.input k' :=
  congrArg (fun v => v[k']) (noteRealEdge_inputs s g c)

@[simp] theorem noteRealEdge_journal (s : State) (g : GenNo) (c : Ticks) :
    (noteRealEdge g c s).journal = s.journal := rfl

@[simp] theorem noteRealEdge_notice (s : State) (g : GenNo) (c : Ticks) :
    (noteRealEdge g c s).notice = s.notice := rfl

@[simp] theorem noteRealEdge_slot (s : State) (g : GenNo) (c : Ticks) (i' : SlotNo) :
    (noteRealEdge g c s).slot i' = s.slot i' :=
  congrArg (fun v : NoticeUnit => v.slots[i']) (noteRealEdge_notice s g c)

@[simp] theorem lockOn_lanes (s : State) (g : GenNo) (p : Word) (c : Ticks) :
    (lockOn g p c s).lanes = s.lanes := by simp [lockOn]

@[simp] theorem lockOn_lane (s : State) (g : GenNo) (p : Word) (c : Ticks) (n' : LaneNo) :
    (lockOn g p c s).lane n' = s.lane n' :=
  congrArg (fun v => v[n']) (lockOn_lanes s g p c)

@[simp] theorem lockOn_inputs (s : State) (g : GenNo) (p : Word) (c : Ticks) :
    (lockOn g p c s).inputs = s.inputs := by simp [lockOn]

@[simp] theorem lockOn_input (s : State) (g : GenNo) (p : Word) (c : Ticks) (k' : LineNo) :
    (lockOn g p c s).input k' = s.input k' :=
  congrArg (fun v => v[k']) (lockOn_inputs s g p c)

@[simp] theorem lockOn_journal (s : State) (g : GenNo) (p : Word) (c : Ticks) :
    (lockOn g p c s).journal = s.journal := by simp [lockOn]

@[simp] theorem lockOn_notice (s : State) (g : GenNo) (p : Word) (c : Ticks) :
    (lockOn g p c s).notice = s.notice := by simp [lockOn]

@[simp] theorem lockOn_slot (s : State) (g : GenNo) (p : Word) (c : Ticks) (i' : SlotNo) :
    (lockOn g p c s).slot i' = s.slot i' :=
  congrArg (fun v : NoticeUnit => v.slots[i']) (lockOn_notice s g p c)

@[simp] theorem loseByGap_lanes (s : State) (g : GenNo) (t : Ticks) : (loseByGap g t s).lanes = s.lanes := by
  simp [loseByGap]

@[simp] theorem loseByGap_lane (s : State) (g : GenNo) (t : Ticks) (n' : LaneNo) :
    (loseByGap g t s).lane n' = s.lane n' :=
  congrArg (fun v => v[n']) (loseByGap_lanes s g t)

@[simp] theorem loseByGap_lines (s : State) (g : GenNo) (t : Ticks) : (loseByGap g t s).lines = s.lines := by
  simp [loseByGap]

@[simp] theorem loseByGap_line (s : State) (g : GenNo) (t : Ticks) (k' : LineNo) :
    (loseByGap g t s).line k' = s.line k' :=
  congrArg (fun v => v[k']) (loseByGap_lines s g t)

@[simp] theorem loseByGap_inputs (s : State) (g : GenNo) (t : Ticks) :
    (loseByGap g t s).inputs = s.inputs := by simp [loseByGap]

@[simp] theorem loseByGap_input (s : State) (g : GenNo) (t : Ticks) (k' : LineNo) :
    (loseByGap g t s).input k' = s.input k' :=
  congrArg (fun v => v[k']) (loseByGap_inputs s g t)

@[simp] theorem realEdge_lanes (s : State) (g : GenNo) (c t : Ticks) : (realEdge g c t s).lanes = s.lanes := by
  unfold realEdge; dsimp only
  split <;> first | (simp; done) | (split <;> first | (simp; done) | (split <;> simp))

@[simp] theorem realEdge_lane (s : State) (g : GenNo) (c t : Ticks) (n' : LaneNo) :
    (realEdge g c t s).lane n' = s.lane n' :=
  congrArg (fun v => v[n']) (realEdge_lanes s g c t)

@[simp] theorem realEdge_inputs (s : State) (g : GenNo) (c t : Ticks) :
    (realEdge g c t s).inputs = s.inputs := by
  unfold realEdge; dsimp only
  split <;> first | (simp; done) | (split <;> first | (simp; done) | (split <;> simp))

@[simp] theorem realEdge_input (s : State) (g : GenNo) (c t : Ticks) (k' : LineNo) :
    (realEdge g c t s).input k' = s.input k' :=
  congrArg (fun v => v[k']) (realEdge_inputs s g c t)

@[simp] theorem virtualEdge_lanes (s : State) (g : GenNo) : (virtualEdge g s).lanes = s.lanes := by
  unfold virtualEdge; dsimp only; split <;> simp

@[simp] theorem virtualEdge_lane (s : State) (g : GenNo) (n' : LaneNo) :
    (virtualEdge g s).lane n' = s.lane n' :=
  congrArg (fun v => v[n']) (virtualEdge_lanes s g)

@[simp] theorem virtualEdge_inputs (s : State) (g : GenNo) : (virtualEdge g s).inputs = s.inputs := by
  unfold virtualEdge; dsimp only; split <;> simp

@[simp] theorem virtualEdge_input (s : State) (g : GenNo) (k' : LineNo) :
    (virtualEdge g s).input k' = s.input k' :=
  congrArg (fun v => v[k']) (virtualEdge_inputs s g)

@[simp] theorem trackLine_lanes (s : State) (k : LineNo) (g : GenNo) (m : Nat) :
    (trackLine k g m s).lanes = s.lanes := by simp [trackLine]

@[simp] theorem trackLine_lane (s : State) (k : LineNo) (g : GenNo) (m : Nat) (n' : LaneNo) :
    (trackLine k g m s).lane n' = s.lane n' :=
  congrArg (fun v => v[n']) (trackLine_lanes s k g m)

@[simp] theorem trackLine_inputs (s : State) (k : LineNo) (g : GenNo) (m : Nat) :
    (trackLine k g m s).inputs = s.inputs := by simp [trackLine]

@[simp] theorem trackLine_input (s : State) (k : LineNo) (g : GenNo) (m : Nat) (k' : LineNo) :
    (trackLine k g m s).input k' = s.input k' :=
  congrArg (fun v => v[k']) (trackLine_inputs s k g m)

@[simp] theorem trackLine_journal (s : State) (k : LineNo) (g : GenNo) (m : Nat) :
    (trackLine k g m s).journal = s.journal := by simp [trackLine]

@[simp] theorem trackLine_notice (s : State) (k : LineNo) (g : GenNo) (m : Nat) :
    (trackLine k g m s).notice = s.notice := by simp [trackLine]

@[simp] theorem trackLine_slot (s : State) (k : LineNo) (g : GenNo) (m : Nat) (i' : SlotNo) :
    (trackLine k g m s).slot i' = s.slot i' :=
  congrArg (fun v : NoticeUnit => v.slots[i']) (trackLine_notice s k g m)

/-! ## Lanes -/

@[simp] theorem markLane_lanes (s : State) (n : LaneNo) : (markLane n s).lanes = s.lanes := by simp [markLane]

@[simp] theorem markLane_lane (s : State) (n : LaneNo) (n' : LaneNo) : (markLane n s).lane n' = s.lane n' :=
  congrArg (fun v => v[n']) (markLane_lanes s n)

@[simp] theorem markLane_lines (s : State) (n : LaneNo) : (markLane n s).lines = s.lines := by simp [markLane]

@[simp] theorem markLane_line (s : State) (n : LaneNo) (k' : LineNo) : (markLane n s).line k' = s.line k' :=
  congrArg (fun v => v[k']) (markLane_lines s n)

@[simp] theorem markLane_inputs (s : State) (n : LaneNo) : (markLane n s).inputs = s.inputs := by simp [markLane]

@[simp] theorem markLane_input (s : State) (n : LaneNo) (k' : LineNo) :
    (markLane n s).input k' = s.input k' :=
  congrArg (fun v => v[k']) (markLane_inputs s n)

@[simp] theorem markLane_gens (s : State) (n : LaneNo) : (markLane n s).gens = s.gens := by simp [markLane]

@[simp] theorem markLane_gen (s : State) (n : LaneNo) (g' : GenNo) : (markLane n s).gen g' = s.gen g' :=
  congrArg (fun v => v[g']) (markLane_gens s n)

@[simp] theorem markLane_journal (s : State) (n : LaneNo) : (markLane n s).journal = s.journal := by
  simp [markLane]

@[simp] theorem markLane_notice (s : State) (n : LaneNo) : (markLane n s).notice = s.notice := by simp [markLane]

@[simp] theorem markLane_slot (s : State) (n : LaneNo) (i' : SlotNo) : (markLane n s).slot i' = s.slot i' :=
  congrArg (fun v : NoticeUnit => v.slots[i']) (markLane_notice s n)

@[simp] theorem setLaneState_lines (s : State) (n : LaneNo) (st : LaneState) :
    (setLaneState n st s).lines = s.lines := by
  unfold setLaneState; split <;> simp

@[simp] theorem setLaneState_line (s : State) (n : LaneNo) (st : LaneState) (k' : LineNo) :
    (setLaneState n st s).line k' = s.line k' :=
  congrArg (fun v => v[k']) (setLaneState_lines s n st)

@[simp] theorem setLaneState_inputs (s : State) (n : LaneNo) (st : LaneState) :
    (setLaneState n st s).inputs = s.inputs := by
  unfold setLaneState; split <;> simp

@[simp] theorem setLaneState_input (s : State) (n : LaneNo) (st : LaneState) (k' : LineNo) :
    (setLaneState n st s).input k' = s.input k' :=
  congrArg (fun v => v[k']) (setLaneState_inputs s n st)

@[simp] theorem setLaneState_gens (s : State) (n : LaneNo) (st : LaneState) :
    (setLaneState n st s).gens = s.gens := by
  unfold setLaneState; split <;> simp

@[simp] theorem setLaneState_gen (s : State) (n : LaneNo) (st : LaneState) (g' : GenNo) :
    (setLaneState n st s).gen g' = s.gen g' :=
  congrArg (fun v => v[g']) (setLaneState_gens s n st)

@[simp] theorem setLaneState_journal (s : State) (n : LaneNo) (st : LaneState) :
    (setLaneState n st s).journal = s.journal := by
  unfold setLaneState; split <;> simp

@[simp] theorem setLaneState_notice (s : State) (n : LaneNo) (st : LaneState) :
    (setLaneState n st s).notice = s.notice := by
  unfold setLaneState; split <;> simp

@[simp] theorem setLaneState_slot (s : State) (n : LaneNo) (st : LaneState) (i' : SlotNo) :
    (setLaneState n st s).slot i' = s.slot i' :=
  congrArg (fun v : NoticeUnit => v.slots[i']) (setLaneState_notice s n st)

@[simp] theorem setHold_lines (s : State) (n : LaneNo) (b : Bool) : (setHold n b s).lines = s.lines := by
  unfold setHold; split <;> simp

@[simp] theorem setHold_line (s : State) (n : LaneNo) (b : Bool) (k' : LineNo) :
    (setHold n b s).line k' = s.line k' :=
  congrArg (fun v => v[k']) (setHold_lines s n b)

@[simp] theorem setHold_inputs (s : State) (n : LaneNo) (b : Bool) : (setHold n b s).inputs = s.inputs := by
  unfold setHold; split <;> simp

@[simp] theorem setHold_input (s : State) (n : LaneNo) (b : Bool) (k' : LineNo) :
    (setHold n b s).input k' = s.input k' :=
  congrArg (fun v => v[k']) (setHold_inputs s n b)

@[simp] theorem setHold_gens (s : State) (n : LaneNo) (b : Bool) : (setHold n b s).gens = s.gens := by
  unfold setHold; split <;> simp

@[simp] theorem setHold_gen (s : State) (n : LaneNo) (b : Bool) (g' : GenNo) :
    (setHold n b s).gen g' = s.gen g' :=
  congrArg (fun v => v[g']) (setHold_gens s n b)

@[simp] theorem setHold_journal (s : State) (n : LaneNo) (b : Bool) : (setHold n b s).journal = s.journal := by
  unfold setHold; split <;> simp

@[simp] theorem setHold_notice (s : State) (n : LaneNo) (b : Bool) : (setHold n b s).notice = s.notice := by
  unfold setHold; split <;> simp

@[simp] theorem setHold_slot (s : State) (n : LaneNo) (b : Bool) (i' : SlotNo) :
    (setHold n b s).slot i' = s.slot i' :=
  congrArg (fun v : NoticeUnit => v.slots[i']) (setHold_notice s n b)

@[simp] theorem setStall_lines (s : State) (n : LaneNo) (st : Stall) : (setStall n st s).lines = s.lines := by
  unfold setStall; split <;> simp

@[simp] theorem setStall_line (s : State) (n : LaneNo) (st : Stall) (k' : LineNo) :
    (setStall n st s).line k' = s.line k' :=
  congrArg (fun v => v[k']) (setStall_lines s n st)

@[simp] theorem setStall_inputs (s : State) (n : LaneNo) (st : Stall) :
    (setStall n st s).inputs = s.inputs := by
  unfold setStall; split <;> simp

@[simp] theorem setStall_input (s : State) (n : LaneNo) (st : Stall) (k' : LineNo) :
    (setStall n st s).input k' = s.input k' :=
  congrArg (fun v => v[k']) (setStall_inputs s n st)

@[simp] theorem setStall_gens (s : State) (n : LaneNo) (st : Stall) : (setStall n st s).gens = s.gens := by
  unfold setStall; split <;> simp

@[simp] theorem setStall_gen (s : State) (n : LaneNo) (st : Stall) (g' : GenNo) :
    (setStall n st s).gen g' = s.gen g' :=
  congrArg (fun v => v[g']) (setStall_gens s n st)

@[simp] theorem setStall_journal (s : State) (n : LaneNo) (st : Stall) :
    (setStall n st s).journal = s.journal := by
  unfold setStall; split <;> simp

@[simp] theorem setStall_notice (s : State) (n : LaneNo) (st : Stall) :
    (setStall n st s).notice = s.notice := by
  unfold setStall; split <;> simp

@[simp] theorem setStall_slot (s : State) (n : LaneNo) (st : Stall) (i' : SlotNo) :
    (setStall n st s).slot i' = s.slot i' :=
  congrArg (fun v : NoticeUnit => v.slots[i']) (setStall_notice s n st)

@[simp] theorem stopFetcher_lines (s : State) (n : LaneNo) : (stopFetcher n s).lines = s.lines := by
  simp [stopFetcher]

@[simp] theorem stopFetcher_line (s : State) (n : LaneNo) (k' : LineNo) :
    (stopFetcher n s).line k' = s.line k' :=
  congrArg (fun v => v[k']) (stopFetcher_lines s n)

@[simp] theorem stopFetcher_inputs (s : State) (n : LaneNo) : (stopFetcher n s).inputs = s.inputs := by
  simp [stopFetcher]

@[simp] theorem stopFetcher_input (s : State) (n : LaneNo) (k' : LineNo) :
    (stopFetcher n s).input k' = s.input k' :=
  congrArg (fun v => v[k']) (stopFetcher_inputs s n)

@[simp] theorem stopFetcher_gens (s : State) (n : LaneNo) : (stopFetcher n s).gens = s.gens := by
  simp [stopFetcher]

@[simp] theorem stopFetcher_gen (s : State) (n : LaneNo) (g' : GenNo) :
    (stopFetcher n s).gen g' = s.gen g' :=
  congrArg (fun v => v[g']) (stopFetcher_gens s n)

@[simp] theorem stopFetcher_journal (s : State) (n : LaneNo) : (stopFetcher n s).journal = s.journal := by
  simp [stopFetcher]

@[simp] theorem stopFetcher_notice (s : State) (n : LaneNo) : (stopFetcher n s).notice = s.notice := by
  simp [stopFetcher]

@[simp] theorem stopFetcher_slot (s : State) (n : LaneNo) (i' : SlotNo) :
    (stopFetcher n s).slot i' = s.slot i' :=
  congrArg (fun v : NoticeUnit => v.slots[i']) (stopFetcher_notice s n)

@[simp] theorem withdrawWait_inputs (s : State) (n : LaneNo) : (withdrawWait n s).inputs = s.inputs := by
  unfold withdrawWait; split <;> simp

@[simp] theorem withdrawWait_input (s : State) (n : LaneNo) (k' : LineNo) :
    (withdrawWait n s).input k' = s.input k' :=
  congrArg (fun v => v[k']) (withdrawWait_inputs s n)

@[simp] theorem withdrawWait_gens (s : State) (n : LaneNo) : (withdrawWait n s).gens = s.gens := by
  unfold withdrawWait; split <;> simp

@[simp] theorem withdrawWait_gen (s : State) (n : LaneNo) (g' : GenNo) :
    (withdrawWait n s).gen g' = s.gen g' :=
  congrArg (fun v => v[g']) (withdrawWait_gens s n)

@[simp] theorem withdrawWait_journal (s : State) (n : LaneNo) : (withdrawWait n s).journal = s.journal := by
  unfold withdrawWait; split <;> simp

@[simp] theorem withdrawWait_notice (s : State) (n : LaneNo) : (withdrawWait n s).notice = s.notice := by
  unfold withdrawWait; split <;> simp

@[simp] theorem withdrawWait_slot (s : State) (n : LaneNo) (i' : SlotNo) :
    (withdrawWait n s).slot i' = s.slot i' :=
  congrArg (fun v : NoticeUnit => v.slots[i']) (withdrawWait_notice s n)

@[simp] theorem ceaseLane_inputs (s : State) (n : LaneNo) (st : LaneState) :
    (ceaseLane n st s).inputs = s.inputs := by simp [ceaseLane]

@[simp] theorem ceaseLane_input (s : State) (n : LaneNo) (st : LaneState) (k' : LineNo) :
    (ceaseLane n st s).input k' = s.input k' :=
  congrArg (fun v => v[k']) (ceaseLane_inputs s n st)

@[simp] theorem ceaseLane_gens (s : State) (n : LaneNo) (st : LaneState) :
    (ceaseLane n st s).gens = s.gens := by simp [ceaseLane]

@[simp] theorem ceaseLane_gen (s : State) (n : LaneNo) (st : LaneState) (g' : GenNo) :
    (ceaseLane n st s).gen g' = s.gen g' :=
  congrArg (fun v => v[g']) (ceaseLane_gens s n st)

@[simp] theorem ceaseLane_journal (s : State) (n : LaneNo) (st : LaneState) :
    (ceaseLane n st s).journal = s.journal := by simp [ceaseLane]

@[simp] theorem ceaseLane_notice (s : State) (n : LaneNo) (st : LaneState) :
    (ceaseLane n st s).notice = s.notice := by simp [ceaseLane]

@[simp] theorem ceaseLane_slot (s : State) (n : LaneNo) (st : LaneState) (i' : SlotNo) :
    (ceaseLane n st s).slot i' = s.slot i' :=
  congrArg (fun v : NoticeUnit => v.slots[i']) (ceaseLane_notice s n st)

@[simp] theorem retirePages_lines (s : State) (n : LaneNo) (c : EndCode) :
    (retirePages n c s).lines = s.lines := rfl

@[simp] theorem retirePages_line (s : State) (n : LaneNo) (c : EndCode) (k' : LineNo) :
    (retirePages n c s).line k' = s.line k' :=
  congrArg (fun v => v[k']) (retirePages_lines s n c)

@[simp] theorem retirePages_inputs (s : State) (n : LaneNo) (c : EndCode) :
    (retirePages n c s).inputs = s.inputs := rfl

@[simp] theorem retirePages_input (s : State) (n : LaneNo) (c : EndCode) (k' : LineNo) :
    (retirePages n c s).input k' = s.input k' :=
  congrArg (fun v => v[k']) (retirePages_inputs s n c)

@[simp] theorem retirePages_gens (s : State) (n : LaneNo) (c : EndCode) :
    (retirePages n c s).gens = s.gens := rfl

@[simp] theorem retirePages_gen (s : State) (n : LaneNo) (c : EndCode) (g' : GenNo) :
    (retirePages n c s).gen g' = s.gen g' :=
  congrArg (fun v => v[g']) (retirePages_gens s n c)

@[simp] theorem retirePages_journal (s : State) (n : LaneNo) (c : EndCode) :
    (retirePages n c s).journal = s.journal := rfl

@[simp] theorem retirePages_notice (s : State) (n : LaneNo) (c : EndCode) :
    (retirePages n c s).notice = s.notice := rfl

@[simp] theorem retirePages_slot (s : State) (n : LaneNo) (c : EndCode) (i' : SlotNo) :
    (retirePages n c s).slot i' = s.slot i' :=
  congrArg (fun v : NoticeUnit => v.slots[i']) (retirePages_notice s n c)

@[simp] theorem oweException_lines (s : State) (n : LaneNo) (e : Exception) :
    (oweException n e s).lines = s.lines := rfl

@[simp] theorem oweException_line (s : State) (n : LaneNo) (e : Exception) (k' : LineNo) :
    (oweException n e s).line k' = s.line k' :=
  congrArg (fun v => v[k']) (oweException_lines s n e)

@[simp] theorem oweException_inputs (s : State) (n : LaneNo) (e : Exception) :
    (oweException n e s).inputs = s.inputs := rfl

@[simp] theorem oweException_input (s : State) (n : LaneNo) (e : Exception) (k' : LineNo) :
    (oweException n e s).input k' = s.input k' :=
  congrArg (fun v => v[k']) (oweException_inputs s n e)

@[simp] theorem oweException_gens (s : State) (n : LaneNo) (e : Exception) :
    (oweException n e s).gens = s.gens := rfl

@[simp] theorem oweException_gen (s : State) (n : LaneNo) (e : Exception) (g' : GenNo) :
    (oweException n e s).gen g' = s.gen g' :=
  congrArg (fun v => v[g']) (oweException_gens s n e)

@[simp] theorem oweException_journal (s : State) (n : LaneNo) (e : Exception) :
    (oweException n e s).journal = s.journal := rfl

@[simp] theorem oweException_notice (s : State) (n : LaneNo) (e : Exception) :
    (oweException n e s).notice = s.notice := rfl

@[simp] theorem oweException_slot (s : State) (n : LaneNo) (e : Exception) (i' : SlotNo) :
    (oweException n e s).slot i' = s.slot i' :=
  congrArg (fun v : NoticeUnit => v.slots[i']) (oweException_notice s n e)

@[simp] theorem laneFault_inputs (s : State) (n : LaneNo) (c : FaultCode) (a : Addr) :
    (laneFault n c a s).inputs = s.inputs := by simp [laneFault]

@[simp] theorem laneFault_input (s : State) (n : LaneNo) (c : FaultCode) (a : Addr) (k' : LineNo) :
    (laneFault n c a s).input k' = s.input k' :=
  congrArg (fun v => v[k']) (laneFault_inputs s n c a)

@[simp] theorem laneFault_journal (s : State) (n : LaneNo) (c : FaultCode) (a : Addr) :
    (laneFault n c a s).journal = s.journal := by simp [laneFault]

@[simp] theorem laneFault_notice (s : State) (n : LaneNo) (c : FaultCode) (a : Addr) :
    (laneFault n c a s).notice = s.notice := by simp [laneFault]

@[simp] theorem laneFault_slot (s : State) (n : LaneNo) (c : FaultCode) (a : Addr) (i' : SlotNo) :
    (laneFault n c a s).slot i' = s.slot i' :=
  congrArg (fun v : NoticeUnit => v.slots[i']) (laneFault_notice s n c a)

@[simp] theorem fetchFault_inputs (s : State) (n : LaneNo) (c : FaultCode) (a : Addr) :
    (fetchFault n c a s).inputs = s.inputs := by
  unfold fetchFault; dsimp only; split <;> simp

@[simp] theorem fetchFault_input (s : State) (n : LaneNo) (c : FaultCode) (a : Addr) (k' : LineNo) :
    (fetchFault n c a s).input k' = s.input k' :=
  congrArg (fun v => v[k']) (fetchFault_inputs s n c a)

@[simp] theorem fetchFault_journal (s : State) (n : LaneNo) (c : FaultCode) (a : Addr) :
    (fetchFault n c a s).journal = s.journal := by
  unfold fetchFault; dsimp only; split <;> simp

@[simp] theorem fetchFault_notice (s : State) (n : LaneNo) (c : FaultCode) (a : Addr) :
    (fetchFault n c a s).notice = s.notice := by
  unfold fetchFault; dsimp only; split <;> simp

@[simp] theorem fetchFault_slot (s : State) (n : LaneNo) (c : FaultCode) (a : Addr) (i' : SlotNo) :
    (fetchFault n c a s).slot i' = s.slot i' :=
  congrArg (fun v : NoticeUnit => v.slots[i']) (fetchFault_notice s n c a)

@[simp] theorem presentFetch_lines (s : State) (n : LaneNo) (r : FetchRead) :
    (presentFetch n r s).lines = s.lines := rfl

@[simp] theorem presentFetch_line (s : State) (n : LaneNo) (r : FetchRead) (k' : LineNo) :
    (presentFetch n r s).line k' = s.line k' :=
  congrArg (fun v => v[k']) (presentFetch_lines s n r)

@[simp] theorem presentFetch_inputs (s : State) (n : LaneNo) (r : FetchRead) :
    (presentFetch n r s).inputs = s.inputs := rfl

@[simp] theorem presentFetch_input (s : State) (n : LaneNo) (r : FetchRead) (k' : LineNo) :
    (presentFetch n r s).input k' = s.input k' :=
  congrArg (fun v => v[k']) (presentFetch_inputs s n r)

@[simp] theorem presentFetch_gens (s : State) (n : LaneNo) (r : FetchRead) :
    (presentFetch n r s).gens = s.gens := rfl

@[simp] theorem presentFetch_gen (s : State) (n : LaneNo) (r : FetchRead) (g' : GenNo) :
    (presentFetch n r s).gen g' = s.gen g' :=
  congrArg (fun v => v[g']) (presentFetch_gens s n r)

@[simp] theorem presentFetch_journal (s : State) (n : LaneNo) (r : FetchRead) :
    (presentFetch n r s).journal = s.journal := rfl

@[simp] theorem presentFetch_notice (s : State) (n : LaneNo) (r : FetchRead) :
    (presentFetch n r s).notice = s.notice := rfl

@[simp] theorem presentFetch_slot (s : State) (n : LaneNo) (r : FetchRead) (i' : SlotNo) :
    (presentFetch n r s).slot i' = s.slot i' :=
  congrArg (fun v : NoticeUnit => v.slots[i']) (presentFetch_notice s n r)

@[simp] theorem presentHeader_inputs (s : State) (n : LaneNo) : (presentHeader n s).inputs = s.inputs := by
  unfold presentHeader; dsimp only; split <;> first | rfl | (simp; done) | (split <;> simp)

@[simp] theorem presentHeader_input (s : State) (n : LaneNo) (k' : LineNo) :
    (presentHeader n s).input k' = s.input k' :=
  congrArg (fun v => v[k']) (presentHeader_inputs s n)

@[simp] theorem presentHeader_journal (s : State) (n : LaneNo) : (presentHeader n s).journal = s.journal := by
  unfold presentHeader; dsimp only; split <;> first | rfl | (simp; done) | (split <;> simp)

@[simp] theorem presentHeader_notice (s : State) (n : LaneNo) : (presentHeader n s).notice = s.notice := by
  unfold presentHeader; dsimp only; split <;> first | rfl | (simp; done) | (split <;> simp)

@[simp] theorem presentHeader_slot (s : State) (n : LaneNo) (i' : SlotNo) :
    (presentHeader n s).slot i' = s.slot i' :=
  congrArg (fun v : NoticeUnit => v.slots[i']) (presentHeader_notice s n)

@[simp] theorem presentBurst_inputs (s : State) (n : LaneNo) : (presentBurst n s).inputs = s.inputs := by
  unfold presentBurst; dsimp only; split <;> first | rfl | (simp; done) | (split <;> simp)

@[simp] theorem presentBurst_input (s : State) (n : LaneNo) (k' : LineNo) :
    (presentBurst n s).input k' = s.input k' :=
  congrArg (fun v => v[k']) (presentBurst_inputs s n)

@[simp] theorem presentBurst_journal (s : State) (n : LaneNo) : (presentBurst n s).journal = s.journal := by
  unfold presentBurst; dsimp only; split <;> first | rfl | (simp; done) | (split <;> simp)

@[simp] theorem presentBurst_notice (s : State) (n : LaneNo) : (presentBurst n s).notice = s.notice := by
  unfold presentBurst; dsimp only; split <;> first | rfl | (simp; done) | (split <;> simp)

@[simp] theorem presentBurst_slot (s : State) (n : LaneNo) (i' : SlotNo) :
    (presentBurst n s).slot i' = s.slot i' :=
  congrArg (fun v : NoticeUnit => v.slots[i']) (presentBurst_notice s n)

@[simp] theorem presentLink_inputs (s : State) (n : LaneNo) : (presentLink n s).inputs = s.inputs := by
  unfold presentLink; dsimp only; split <;> simp

@[simp] theorem presentLink_input (s : State) (n : LaneNo) (k' : LineNo) :
    (presentLink n s).input k' = s.input k' :=
  congrArg (fun v => v[k']) (presentLink_inputs s n)

@[simp] theorem presentLink_journal (s : State) (n : LaneNo) : (presentLink n s).journal = s.journal := by
  unfold presentLink; dsimp only; split <;> simp

@[simp] theorem presentLink_notice (s : State) (n : LaneNo) : (presentLink n s).notice = s.notice := by
  unfold presentLink; dsimp only; split <;> simp

@[simp] theorem presentLink_slot (s : State) (n : LaneNo) (i' : SlotNo) :
    (presentLink n s).slot i' = s.slot i' :=
  congrArg (fun v : NoticeUnit => v.slots[i']) (presentLink_notice s n)

@[simp] theorem goToHeader_inputs (s : State) (n : LaneNo) (a : Addr) :
    (goToHeader n a s).inputs = s.inputs := by simp [goToHeader]

@[simp] theorem goToHeader_input (s : State) (n : LaneNo) (a : Addr) (k' : LineNo) :
    (goToHeader n a s).input k' = s.input k' :=
  congrArg (fun v => v[k']) (goToHeader_inputs s n a)

@[simp] theorem goToHeader_journal (s : State) (n : LaneNo) (a : Addr) :
    (goToHeader n a s).journal = s.journal := by simp [goToHeader]

@[simp] theorem goToHeader_notice (s : State) (n : LaneNo) (a : Addr) :
    (goToHeader n a s).notice = s.notice := by simp [goToHeader]

@[simp] theorem goToHeader_slot (s : State) (n : LaneNo) (a : Addr) (i' : SlotNo) :
    (goToHeader n a s).slot i' = s.slot i' :=
  congrArg (fun v : NoticeUnit => v.slots[i']) (goToHeader_notice s n a)

@[simp] theorem judgeHead_inputs (s : State) (n : LaneNo) (a : Addr) :
    (judgeHead n a s).inputs = s.inputs := by
  unfold judgeHead; split <;> first | (simp; done) | (split <;> simp)

@[simp] theorem judgeHead_input (s : State) (n : LaneNo) (a : Addr) (k' : LineNo) :
    (judgeHead n a s).input k' = s.input k' :=
  congrArg (fun v => v[k']) (judgeHead_inputs s n a)

@[simp] theorem judgeHead_journal (s : State) (n : LaneNo) (a : Addr) :
    (judgeHead n a s).journal = s.journal := by
  unfold judgeHead; split <;> first | (simp; done) | (split <;> simp)

@[simp] theorem judgeHead_notice (s : State) (n : LaneNo) (a : Addr) :
    (judgeHead n a s).notice = s.notice := by
  unfold judgeHead; split <;> first | (simp; done) | (split <;> simp)

@[simp] theorem judgeHead_slot (s : State) (n : LaneNo) (a : Addr) (i' : SlotNo) :
    (judgeHead n a s).slot i' = s.slot i' :=
  congrArg (fun v : NoticeUnit => v.slots[i']) (judgeHead_notice s n a)

@[simp] theorem startFetcher_inputs (s : State) (n : LaneNo) : (startFetcher n s).inputs = s.inputs := by
  simp [startFetcher]

@[simp] theorem startFetcher_input (s : State) (n : LaneNo) (k' : LineNo) :
    (startFetcher n s).input k' = s.input k' :=
  congrArg (fun v => v[k']) (startFetcher_inputs s n)

@[simp] theorem startFetcher_journal (s : State) (n : LaneNo) : (startFetcher n s).journal = s.journal := by
  simp [startFetcher]

@[simp] theorem startFetcher_notice (s : State) (n : LaneNo) : (startFetcher n s).notice = s.notice := by
  simp [startFetcher]

@[simp] theorem startFetcher_slot (s : State) (n : LaneNo) (i' : SlotNo) :
    (startFetcher n s).slot i' = s.slot i' :=
  congrArg (fun v : NoticeUnit => v.slots[i']) (startFetcher_notice s n)

@[simp] theorem takePage_inputs (s : State) (n : LaneNo) (h : BitVec 256) :
    (takePage n h s).inputs = s.inputs := by simp [takePage]

@[simp] theorem takePage_input (s : State) (n : LaneNo) (h : BitVec 256) (k' : LineNo) :
    (takePage n h s).input k' = s.input k' :=
  congrArg (fun v => v[k']) (takePage_inputs s n h)

@[simp] theorem takePage_journal (s : State) (n : LaneNo) (h : BitVec 256) :
    (takePage n h s).journal = s.journal := by simp [takePage]

@[simp] theorem takePage_notice (s : State) (n : LaneNo) (h : BitVec 256) :
    (takePage n h s).notice = s.notice := by simp [takePage]

@[simp] theorem takePage_slot (s : State) (n : LaneNo) (h : BitVec 256) (i' : SlotNo) :
    (takePage n h s).slot i' = s.slot i' :=
  congrArg (fun v : NoticeUnit => v.slots[i']) (takePage_notice s n h)

@[simp] theorem judgeHeader_inputs (s : State) (n : LaneNo) (h : BitVec 256) :
    (judgeHeader n h s).inputs = s.inputs := by
  unfold judgeHeader; dsimp only; split <;> first | rfl | (simp; done) | (split <;> simp)

@[simp] theorem judgeHeader_input (s : State) (n : LaneNo) (h : BitVec 256) (k' : LineNo) :
    (judgeHeader n h s).input k' = s.input k' :=
  congrArg (fun v => v[k']) (judgeHeader_inputs s n h)

@[simp] theorem judgeHeader_journal (s : State) (n : LaneNo) (h : BitVec 256) :
    (judgeHeader n h s).journal = s.journal := by
  unfold judgeHeader; dsimp only; split <;> first | rfl | (simp; done) | (split <;> simp)

@[simp] theorem judgeHeader_notice (s : State) (n : LaneNo) (h : BitVec 256) :
    (judgeHeader n h s).notice = s.notice := by
  unfold judgeHeader; dsimp only; split <;> first | rfl | (simp; done) | (split <;> simp)

@[simp] theorem judgeHeader_slot (s : State) (n : LaneNo) (h : BitVec 256) (i' : SlotNo) :
    (judgeHeader n h s).slot i' = s.slot i' :=
  congrArg (fun v : NoticeUnit => v.slots[i']) (judgeHeader_notice s n h)

@[simp] theorem judgeLink_inputs (s : State) (n : LaneNo) (a : Addr) :
    (judgeLink n a s).inputs = s.inputs := by
  unfold judgeLink; split <;> first | (simp; done) | (split <;> simp)

@[simp] theorem judgeLink_input (s : State) (n : LaneNo) (a : Addr) (k' : LineNo) :
    (judgeLink n a s).input k' = s.input k' :=
  congrArg (fun v => v[k']) (judgeLink_inputs s n a)

@[simp] theorem judgeLink_journal (s : State) (n : LaneNo) (a : Addr) :
    (judgeLink n a s).journal = s.journal := by
  unfold judgeLink; split <;> first | (simp; done) | (split <;> simp)

@[simp] theorem judgeLink_notice (s : State) (n : LaneNo) (a : Addr) :
    (judgeLink n a s).notice = s.notice := by
  unfold judgeLink; split <;> first | (simp; done) | (split <;> simp)

@[simp] theorem judgeLink_slot (s : State) (n : LaneNo) (a : Addr) (i' : SlotNo) :
    (judgeLink n a s).slot i' = s.slot i' :=
  congrArg (fun v : NoticeUnit => v.slots[i']) (judgeLink_notice s n a)

@[simp] theorem queueBurst_lines (s : State) (n : LaneNo) (cs : List (BitVec 256)) :
    (queueBurst n cs s).lines = s.lines := rfl

@[simp] theorem queueBurst_line (s : State) (n : LaneNo) (cs : List (BitVec 256)) (k' : LineNo) :
    (queueBurst n cs s).line k' = s.line k' :=
  congrArg (fun v => v[k']) (queueBurst_lines s n cs)

@[simp] theorem queueBurst_inputs (s : State) (n : LaneNo) (cs : List (BitVec 256)) :
    (queueBurst n cs s).inputs = s.inputs := rfl

@[simp] theorem queueBurst_input (s : State) (n : LaneNo) (cs : List (BitVec 256)) (k' : LineNo) :
    (queueBurst n cs s).input k' = s.input k' :=
  congrArg (fun v => v[k']) (queueBurst_inputs s n cs)

@[simp] theorem queueBurst_gens (s : State) (n : LaneNo) (cs : List (BitVec 256)) :
    (queueBurst n cs s).gens = s.gens := rfl

@[simp] theorem queueBurst_gen (s : State) (n : LaneNo) (cs : List (BitVec 256)) (g' : GenNo) :
    (queueBurst n cs s).gen g' = s.gen g' :=
  congrArg (fun v => v[g']) (queueBurst_gens s n cs)

@[simp] theorem queueBurst_journal (s : State) (n : LaneNo) (cs : List (BitVec 256)) :
    (queueBurst n cs s).journal = s.journal := rfl

@[simp] theorem queueBurst_notice (s : State) (n : LaneNo) (cs : List (BitVec 256)) :
    (queueBurst n cs s).notice = s.notice := rfl

@[simp] theorem queueBurst_slot (s : State) (n : LaneNo) (cs : List (BitVec 256)) (i' : SlotNo) :
    (queueBurst n cs s).slot i' = s.slot i' :=
  congrArg (fun v : NoticeUnit => v.slots[i']) (queueBurst_notice s n cs)

@[simp] theorem fetchOn_inputs (s : State) (n : LaneNo) : (fetchOn n s).inputs = s.inputs := by
  unfold fetchOn; dsimp only; split <;> simp

@[simp] theorem fetchOn_input (s : State) (n : LaneNo) (k' : LineNo) :
    (fetchOn n s).input k' = s.input k' :=
  congrArg (fun v => v[k']) (fetchOn_inputs s n)

@[simp] theorem fetchOn_journal (s : State) (n : LaneNo) : (fetchOn n s).journal = s.journal := by
  unfold fetchOn; dsimp only; split <;> simp

@[simp] theorem fetchOn_notice (s : State) (n : LaneNo) : (fetchOn n s).notice = s.notice := by
  unfold fetchOn; dsimp only; split <;> simp

@[simp] theorem fetchOn_slot (s : State) (n : LaneNo) (i' : SlotNo) : (fetchOn n s).slot i' = s.slot i' :=
  congrArg (fun v : NoticeUnit => v.slots[i']) (fetchOn_notice s n)

@[simp] theorem surveyFetcher_inputs (s : State) (n : LaneNo) : (surveyFetcher n s).inputs = s.inputs := by
  unfold surveyFetcher; dsimp only; split <;> first | rfl | (simp; done) | (split <;> simp)

@[simp] theorem surveyFetcher_input (s : State) (n : LaneNo) (k' : LineNo) :
    (surveyFetcher n s).input k' = s.input k' :=
  congrArg (fun v => v[k']) (surveyFetcher_inputs s n)

@[simp] theorem surveyFetcher_journal (s : State) (n : LaneNo) : (surveyFetcher n s).journal = s.journal := by
  unfold surveyFetcher; dsimp only; split <;> first | rfl | (simp; done) | (split <;> simp)

@[simp] theorem surveyFetcher_notice (s : State) (n : LaneNo) : (surveyFetcher n s).notice = s.notice := by
  unfold surveyFetcher; dsimp only; split <;> first | rfl | (simp; done) | (split <;> simp)

@[simp] theorem surveyFetcher_slot (s : State) (n : LaneNo) (i' : SlotNo) :
    (surveyFetcher n s).slot i' = s.slot i' :=
  congrArg (fun v : NoticeUnit => v.slots[i']) (surveyFetcher_notice s n)

@[simp] theorem retireFinished_lines (s : State) (n : LaneNo) : (retireFinished n s).lines = s.lines := by
  unfold retireFinished; dsimp only; split <;> first | rfl | (simp; done) | (split <;> simp)

@[simp] theorem retireFinished_line (s : State) (n : LaneNo) (k' : LineNo) :
    (retireFinished n s).line k' = s.line k' :=
  congrArg (fun v => v[k']) (retireFinished_lines s n)

@[simp] theorem retireFinished_inputs (s : State) (n : LaneNo) : (retireFinished n s).inputs = s.inputs := by
  unfold retireFinished; dsimp only; split <;> first | rfl | (simp; done) | (split <;> simp)

@[simp] theorem retireFinished_input (s : State) (n : LaneNo) (k' : LineNo) :
    (retireFinished n s).input k' = s.input k' :=
  congrArg (fun v => v[k']) (retireFinished_inputs s n)

@[simp] theorem retireFinished_gens (s : State) (n : LaneNo) : (retireFinished n s).gens = s.gens := by
  unfold retireFinished; dsimp only; split <;> first | rfl | (simp; done) | (split <;> simp)

@[simp] theorem retireFinished_gen (s : State) (n : LaneNo) (g' : GenNo) :
    (retireFinished n s).gen g' = s.gen g' :=
  congrArg (fun v => v[g']) (retireFinished_gens s n)

@[simp] theorem retireFinished_journal (s : State) (n : LaneNo) :
    (retireFinished n s).journal = s.journal := by
  unfold retireFinished; dsimp only; split <;> first | rfl | (simp; done) | (split <;> simp)

@[simp] theorem retireFinished_notice (s : State) (n : LaneNo) : (retireFinished n s).notice = s.notice := by
  unfold retireFinished; dsimp only; split <;> first | rfl | (simp; done) | (split <;> simp)

@[simp] theorem retireFinished_slot (s : State) (n : LaneNo) (i' : SlotNo) :
    (retireFinished n s).slot i' = s.slot i' :=
  congrArg (fun v : NoticeUnit => v.slots[i']) (retireFinished_notice s n)

/-! ## Cues -/

@[simp] theorem postProgress_lanes (s : State) (n : LaneNo) : (postProgress n s).lanes = s.lanes := by
  simp [postProgress]

@[simp] theorem postProgress_lane (s : State) (n : LaneNo) (n' : LaneNo) :
    (postProgress n s).lane n' = s.lane n' :=
  congrArg (fun v => v[n']) (postProgress_lanes s n)

@[simp] theorem postProgress_lines (s : State) (n : LaneNo) : (postProgress n s).lines = s.lines := by
  simp [postProgress]

@[simp] theorem postProgress_line (s : State) (n : LaneNo) (k' : LineNo) :
    (postProgress n s).line k' = s.line k' :=
  congrArg (fun v => v[k']) (postProgress_lines s n)

@[simp] theorem postProgress_inputs (s : State) (n : LaneNo) : (postProgress n s).inputs = s.inputs := by
  simp [postProgress]

@[simp] theorem postProgress_input (s : State) (n : LaneNo) (k' : LineNo) :
    (postProgress n s).input k' = s.input k' :=
  congrArg (fun v => v[k']) (postProgress_inputs s n)

@[simp] theorem postProgress_gens (s : State) (n : LaneNo) : (postProgress n s).gens = s.gens := by
  simp [postProgress]

@[simp] theorem postProgress_gen (s : State) (n : LaneNo) (g' : GenNo) :
    (postProgress n s).gen g' = s.gen g' :=
  congrArg (fun v => v[g']) (postProgress_gens s n)

@[simp] theorem postProgress_journal (s : State) (n : LaneNo) : (postProgress n s).journal = s.journal := by
  simp [postProgress]

@[simp] theorem countCue_lines (s : State) (n : LaneNo) (f : Finish) : (countCue n f s).lines = s.lines := by
  unfold countCue; dsimp only; split <;> simp

@[simp] theorem countCue_line (s : State) (n : LaneNo) (f : Finish) (k' : LineNo) :
    (countCue n f s).line k' = s.line k' :=
  congrArg (fun v => v[k']) (countCue_lines s n f)

@[simp] theorem countCue_inputs (s : State) (n : LaneNo) (f : Finish) :
    (countCue n f s).inputs = s.inputs := by
  unfold countCue; dsimp only; split <;> simp

@[simp] theorem countCue_input (s : State) (n : LaneNo) (f : Finish) (k' : LineNo) :
    (countCue n f s).input k' = s.input k' :=
  congrArg (fun v => v[k']) (countCue_inputs s n f)

@[simp] theorem countCue_gens (s : State) (n : LaneNo) (f : Finish) : (countCue n f s).gens = s.gens := by
  unfold countCue; dsimp only; split <;> simp

@[simp] theorem countCue_gen (s : State) (n : LaneNo) (f : Finish) (g' : GenNo) :
    (countCue n f s).gen g' = s.gen g' :=
  congrArg (fun v => v[g']) (countCue_gens s n f)

@[simp] theorem countCue_journal (s : State) (n : LaneNo) (f : Finish) :
    (countCue n f s).journal = s.journal := by
  unfold countCue; dsimp only; split <;> simp

@[simp] theorem finishCue_inputs (s : State) (n : LaneNo) (f : Finish) :
    (finishCue n f s).inputs = s.inputs := by simp [finishCue]

@[simp] theorem finishCue_input (s : State) (n : LaneNo) (f : Finish) (k' : LineNo) :
    (finishCue n f s).input k' = s.input k' :=
  congrArg (fun v => v[k']) (finishCue_inputs s n f)

@[simp] theorem finishCue_journal (s : State) (n : LaneNo) (f : Finish) :
    (finishCue n f s).journal = s.journal := by simp [finishCue]

@[simp] theorem acceptGrant_inputs (s : State) (n : LaneNo) : (acceptGrant n s).inputs = s.inputs := by
  simp [acceptGrant]

@[simp] theorem acceptGrant_input (s : State) (n : LaneNo) (k' : LineNo) :
    (acceptGrant n s).input k' = s.input k' :=
  congrArg (fun v => v[k']) (acceptGrant_inputs s n)

@[simp] theorem acceptGrant_journal (s : State) (n : LaneNo) : (acceptGrant n s).journal = s.journal := by
  simp [acceptGrant]

@[simp] theorem releaseAndGrant_inputs (s : State) (ks : List LineNo) :
    (releaseAndGrant ks s).1.inputs = s.inputs := by
  unfold releaseAndGrant; dsimp only
  rw [each_keeps State.inputs (fun n s => acceptGrant_inputs s n), releaseLines_inputs]

@[simp] theorem releaseAndGrant_input (s : State) (ks : List LineNo) (k' : LineNo) :
    (releaseAndGrant ks s).1.input k' = s.input k' :=
  congrArg (fun v => v[k']) (releaseAndGrant_inputs s ks)

@[simp] theorem releaseAndGrant_journal (s : State) (ks : List LineNo) :
    (releaseAndGrant ks s).1.journal = s.journal := by
  unfold releaseAndGrant; dsimp only
  rw [each_keeps State.journal (fun n s => acceptGrant_journal s n), releaseLines_journal]

@[simp] theorem starve_lines (s : State) (n : LaneNo) : (starve n s).lines = s.lines := by
  unfold starve; dsimp only; split <;> simp

@[simp] theorem starve_line (s : State) (n : LaneNo) (k' : LineNo) : (starve n s).line k' = s.line k' :=
  congrArg (fun v => v[k']) (starve_lines s n)

@[simp] theorem starve_inputs (s : State) (n : LaneNo) : (starve n s).inputs = s.inputs := by
  unfold starve; dsimp only; split <;> simp

@[simp] theorem starve_input (s : State) (n : LaneNo) (k' : LineNo) : (starve n s).input k' = s.input k' :=
  congrArg (fun v => v[k']) (starve_inputs s n)

@[simp] theorem starve_gens (s : State) (n : LaneNo) : (starve n s).gens = s.gens := by
  unfold starve; dsimp only; split <;> simp

@[simp] theorem starve_gen (s : State) (n : LaneNo) (g' : GenNo) : (starve n s).gen g' = s.gen g' :=
  congrArg (fun v => v[g']) (starve_gens s n)

@[simp] theorem starve_journal (s : State) (n : LaneNo) : (starve n s).journal = s.journal := by
  unfold starve; dsimp only; split <;> simp

@[simp] theorem setCapture_lanes (s : State) (b : Bool) (k : LineNo) : (setCapture b k s).lanes = s.lanes := rfl

@[simp] theorem setCapture_lane (s : State) (b : Bool) (k : LineNo) (n' : LaneNo) :
    (setCapture b k s).lane n' = s.lane n' :=
  congrArg (fun v => v[n']) (setCapture_lanes s b k)

@[simp] theorem setCapture_lines (s : State) (b : Bool) (k : LineNo) : (setCapture b k s).lines = s.lines := rfl

@[simp] theorem setCapture_line (s : State) (b : Bool) (k : LineNo) (k' : LineNo) :
    (setCapture b k s).line k' = s.line k' :=
  congrArg (fun v => v[k']) (setCapture_lines s b k)

@[simp] theorem setCapture_gens (s : State) (b : Bool) (k : LineNo) : (setCapture b k s).gens = s.gens := rfl

@[simp] theorem setCapture_gen (s : State) (b : Bool) (k : LineNo) (g' : GenNo) :
    (setCapture b k s).gen g' = s.gen g' :=
  congrArg (fun v => v[g']) (setCapture_gens s b k)

@[simp] theorem setCapture_journal (s : State) (b : Bool) (k : LineNo) :
    (setCapture b k s).journal = s.journal := rfl

@[simp] theorem setCapture_notice (s : State) (b : Bool) (k : LineNo) :
    (setCapture b k s).notice = s.notice := rfl

@[simp] theorem setCapture_slot (s : State) (b : Bool) (k : LineNo) (i' : SlotNo) :
    (setCapture b k s).slot i' = s.slot i' :=
  congrArg (fun v : NoticeUnit => v.slots[i']) (setCapture_notice s b k)

@[simp] theorem setCaptures_lanes (s : State) (ks : List LineNo) (b : Bool) :
    (State.each ks (setCapture b) s).lanes = s.lanes := each_keeps State.lanes (fun k s => setCapture_lanes s b k) ks s

@[simp] theorem setCaptures_lines (s : State) (ks : List LineNo) (b : Bool) :
    (State.each ks (setCapture b) s).lines = s.lines := each_keeps State.lines (fun k s => setCapture_lines s b k) ks s

@[simp] theorem setCaptures_gens (s : State) (ks : List LineNo) (b : Bool) :
    (State.each ks (setCapture b) s).gens = s.gens := each_keeps State.gens (fun k s => setCapture_gens s b k) ks s

@[simp] theorem setCaptures_journal (s : State) (ks : List LineNo) (b : Bool) :
    (State.each ks (setCapture b) s).journal = s.journal :=
  each_keeps State.journal (fun k s => setCapture_journal s b k) ks s

@[simp] theorem setCaptures_notice (s : State) (ks : List LineNo) (b : Bool) :
    (State.each ks (setCapture b) s).notice = s.notice :=
  each_keeps State.notice (fun k s => setCapture_notice s b k) ks s

@[simp] theorem enterWait_lines (s : State) (n : LaneNo) (st : LaneState) (w : Wait) :
    (enterWait n st w s).lines = s.lines := by simp [enterWait]

@[simp] theorem enterWait_line (s : State) (n : LaneNo) (st : LaneState) (w : Wait)
    (k' : LineNo) :
    (enterWait n st w s).line k' = s.line k' :=
  congrArg (fun v => v[k']) (enterWait_lines s n st w)

@[simp] theorem enterWait_inputs (s : State) (n : LaneNo) (st : LaneState) (w : Wait) :
    (enterWait n st w s).inputs = s.inputs := by simp [enterWait]

@[simp] theorem enterWait_input (s : State) (n : LaneNo) (st : LaneState) (w : Wait)
    (k' : LineNo) :
    (enterWait n st w s).input k' = s.input k' :=
  congrArg (fun v => v[k']) (enterWait_inputs s n st w)

@[simp] theorem enterWait_gens (s : State) (n : LaneNo) (st : LaneState) (w : Wait) :
    (enterWait n st w s).gens = s.gens := by simp [enterWait]

@[simp] theorem enterWait_gen (s : State) (n : LaneNo) (st : LaneState) (w : Wait)
    (g' : GenNo) :
    (enterWait n st w s).gen g' = s.gen g' :=
  congrArg (fun v => v[g']) (enterWait_gens s n st w)

@[simp] theorem enterWait_journal (s : State) (n : LaneNo) (st : LaneState) (w : Wait) :
    (enterWait n st w s).journal = s.journal := by simp [enterWait]

@[simp] theorem enterWait_notice (s : State) (n : LaneNo) (st : LaneState) (w : Wait) :
    (enterWait n st w s).notice = s.notice := by simp [enterWait]

@[simp] theorem enterWait_slot (s : State) (n : LaneNo) (st : LaneState) (w : Wait)
    (i' : SlotNo) :
    (enterWait n st w s).slot i' = s.slot i' :=
  congrArg (fun v : NoticeUnit => v.slots[i']) (enterWait_notice s n st w)

@[simp] theorem beginInputWait_lines (s : State) (n : LaneNo) (k : LineNo) (e : EdgeSelect) (t : Word) (c : Bool) :
    (beginInputWait n k e t c s).lines = s.lines := by simp [beginInputWait]

@[simp] theorem beginInputWait_line (s : State) (n : LaneNo) (k : LineNo) (e : EdgeSelect) (t : Word) (c : Bool)
    (k' : LineNo) :
    (beginInputWait n k e t c s).line k' = s.line k' :=
  congrArg (fun v => v[k']) (beginInputWait_lines s n k e t c)

@[simp] theorem beginInputWait_inputs (s : State) (n : LaneNo) (k : LineNo) (e : EdgeSelect) (t : Word) (c : Bool) :
    (beginInputWait n k e t c s).inputs = s.inputs := by simp [beginInputWait]

@[simp] theorem beginInputWait_input (s : State) (n : LaneNo) (k : LineNo) (e : EdgeSelect) (t : Word) (c : Bool)
    (k' : LineNo) :
    (beginInputWait n k e t c s).input k' = s.input k' :=
  congrArg (fun v => v[k']) (beginInputWait_inputs s n k e t c)

@[simp] theorem beginInputWait_gens (s : State) (n : LaneNo) (k : LineNo) (e : EdgeSelect) (t : Word) (c : Bool) :
    (beginInputWait n k e t c s).gens = s.gens := by simp [beginInputWait]

@[simp] theorem beginInputWait_gen (s : State) (n : LaneNo) (k : LineNo) (e : EdgeSelect) (t : Word) (c : Bool)
    (g' : GenNo) :
    (beginInputWait n k e t c s).gen g' = s.gen g' :=
  congrArg (fun v => v[g']) (beginInputWait_gens s n k e t c)

@[simp] theorem beginInputWait_journal (s : State) (n : LaneNo) (k : LineNo) (e : EdgeSelect) (t : Word) (c : Bool) :
    (beginInputWait n k e t c s).journal = s.journal := by simp [beginInputWait]

@[simp] theorem beginInputWait_notice (s : State) (n : LaneNo) (k : LineNo) (e : EdgeSelect) (t : Word) (c : Bool) :
    (beginInputWait n k e t c s).notice = s.notice := by simp [beginInputWait]

@[simp] theorem beginInputWait_slot (s : State) (n : LaneNo) (k : LineNo) (e : EdgeSelect) (t : Word) (c : Bool)
    (i' : SlotNo) :
    (beginInputWait n k e t c s).slot i' = s.slot i' :=
  congrArg (fun v : NoticeUnit => v.slots[i']) (beginInputWait_notice s n k e t c)

@[simp] theorem beginClaimWait_inputs (s : State) (n : LaneNo) (k : LineNo) (t : Half) :
    (beginClaimWait n k t s).inputs = s.inputs := by simp [beginClaimWait]

@[simp] theorem beginClaimWait_input (s : State) (n : LaneNo) (k : LineNo) (t : Half) (k' : LineNo) :
    (beginClaimWait n k t s).input k' = s.input k' :=
  congrArg (fun v => v[k']) (beginClaimWait_inputs s n k t)

@[simp] theorem beginClaimWait_gens (s : State) (n : LaneNo) (k : LineNo) (t : Half) :
    (beginClaimWait n k t s).gens = s.gens := by simp [beginClaimWait]

@[simp] theorem beginClaimWait_gen (s : State) (n : LaneNo) (k : LineNo) (t : Half) (g' : GenNo) :
    (beginClaimWait n k t s).gen g' = s.gen g' :=
  congrArg (fun v => v[g']) (beginClaimWait_gens s n k t)

@[simp] theorem beginClaimWait_journal (s : State) (n : LaneNo) (k : LineNo) (t : Half) :
    (beginClaimWait n k t s).journal = s.journal := by simp [beginClaimWait]

@[simp] theorem beginClaimWait_notice (s : State) (n : LaneNo) (k : LineNo) (t : Half) :
    (beginClaimWait n k t s).notice = s.notice := by simp [beginClaimWait]

@[simp] theorem beginClaimWait_slot (s : State) (n : LaneNo) (k : LineNo) (t : Half) (i' : SlotNo) :
    (beginClaimWait n k t s).slot i' = s.slot i' :=
  congrArg (fun v : NoticeUnit => v.slots[i']) (beginClaimWait_notice s n k t)

@[simp] theorem cueFault_inputs (s : State) (n : LaneNo) (c : FaultCode) :
    (cueFault n c s).state.inputs = s.inputs := by simp [cueFault, Ran.rest]

@[simp] theorem cueFault_input (s : State) (n : LaneNo) (c : FaultCode) (k' : LineNo) :
    (cueFault n c s).state.input k' = s.input k' :=
  congrArg (fun v => v[k']) (cueFault_inputs s n c)

@[simp] theorem cueFault_journal (s : State) (n : LaneNo) (c : FaultCode) :
    (cueFault n c s).state.journal = s.journal := by simp [cueFault, Ran.rest]

@[simp] theorem cueFault_notice (s : State) (n : LaneNo) (c : FaultCode) :
    (cueFault n c s).state.notice = s.notice := by simp [cueFault, Ran.rest]

@[simp] theorem cueFault_slot (s : State) (n : LaneNo) (c : FaultCode) (i' : SlotNo) :
    (cueFault n c s).state.slot i' = s.slot i' :=
  congrArg (fun v : NoticeUnit => v.slots[i']) (cueFault_notice s n c)

/-! ## Journal -/

@[simp] theorem markJournal_lanes (s : State) : (markJournal s).lanes = s.lanes := by simp [markJournal]

@[simp] theorem markJournal_lane (s : State) (n' : LaneNo) : (markJournal s).lane n' = s.lane n' :=
  congrArg (fun v => v[n']) (markJournal_lanes s)

@[simp] theorem markJournal_lines (s : State) : (markJournal s).lines = s.lines := by simp [markJournal]

@[simp] theorem markJournal_line (s : State) (k' : LineNo) : (markJournal s).line k' = s.line k' :=
  congrArg (fun v => v[k']) (markJournal_lines s)

@[simp] theorem markJournal_inputs (s : State) : (markJournal s).inputs = s.inputs := by simp [markJournal]

@[simp] theorem markJournal_input (s : State) (k' : LineNo) : (markJournal s).input k' = s.input k' :=
  congrArg (fun v => v[k']) (markJournal_inputs s)

@[simp] theorem markJournal_gens (s : State) : (markJournal s).gens = s.gens := by simp [markJournal]

@[simp] theorem markJournal_gen (s : State) (g' : GenNo) : (markJournal s).gen g' = s.gen g' :=
  congrArg (fun v => v[g']) (markJournal_gens s)

@[simp] theorem markJournal_journal (s : State) : (markJournal s).journal = s.journal := by simp [markJournal]

@[simp] theorem markJournal_notice (s : State) : (markJournal s).notice = s.notice := by simp [markJournal]

@[simp] theorem markJournal_slot (s : State) (i' : SlotNo) : (markJournal s).slot i' = s.slot i' :=
  congrArg (fun v : NoticeUnit => v.slots[i']) (markJournal_notice s)

@[simp] theorem setJournalState_lanes (s : State) (st : JournalState) :
    (setJournalState st s).lanes = s.lanes := by
  unfold setJournalState; split <;> simp

@[simp] theorem setJournalState_lane (s : State) (st : JournalState) (n' : LaneNo) :
    (setJournalState st s).lane n' = s.lane n' :=
  congrArg (fun v => v[n']) (setJournalState_lanes s st)

@[simp] theorem setJournalState_lines (s : State) (st : JournalState) :
    (setJournalState st s).lines = s.lines := by
  unfold setJournalState; split <;> simp

@[simp] theorem setJournalState_line (s : State) (st : JournalState) (k' : LineNo) :
    (setJournalState st s).line k' = s.line k' :=
  congrArg (fun v => v[k']) (setJournalState_lines s st)

@[simp] theorem setJournalState_inputs (s : State) (st : JournalState) :
    (setJournalState st s).inputs = s.inputs := by
  unfold setJournalState; split <;> simp

@[simp] theorem setJournalState_input (s : State) (st : JournalState) (k' : LineNo) :
    (setJournalState st s).input k' = s.input k' :=
  congrArg (fun v => v[k']) (setJournalState_inputs s st)

@[simp] theorem setJournalState_gens (s : State) (st : JournalState) :
    (setJournalState st s).gens = s.gens := by
  unfold setJournalState; split <;> simp

@[simp] theorem setJournalState_gen (s : State) (st : JournalState) (g' : GenNo) :
    (setJournalState st s).gen g' = s.gen g' :=
  congrArg (fun v => v[g']) (setJournalState_gens s st)

@[simp] theorem setJournalState_notice (s : State) (st : JournalState) :
    (setJournalState st s).notice = s.notice := by
  unfold setJournalState; split <;> simp

@[simp] theorem setJournalState_slot (s : State) (st : JournalState) (i' : SlotNo) :
    (setJournalState st s).slot i' = s.slot i' :=
  congrArg (fun v : NoticeUnit => v.slots[i']) (setJournalState_notice s st)

@[simp] theorem setJournalStall_lanes (s : State) (st : Stall) : (setJournalStall st s).lanes = s.lanes := by
  unfold setJournalStall; split <;> simp

@[simp] theorem setJournalStall_lane (s : State) (st : Stall) (n' : LaneNo) :
    (setJournalStall st s).lane n' = s.lane n' :=
  congrArg (fun v => v[n']) (setJournalStall_lanes s st)

@[simp] theorem setJournalStall_lines (s : State) (st : Stall) : (setJournalStall st s).lines = s.lines := by
  unfold setJournalStall; split <;> simp

@[simp] theorem setJournalStall_line (s : State) (st : Stall) (k' : LineNo) :
    (setJournalStall st s).line k' = s.line k' :=
  congrArg (fun v => v[k']) (setJournalStall_lines s st)

@[simp] theorem setJournalStall_inputs (s : State) (st : Stall) :
    (setJournalStall st s).inputs = s.inputs := by
  unfold setJournalStall; split <;> simp

@[simp] theorem setJournalStall_input (s : State) (st : Stall) (k' : LineNo) :
    (setJournalStall st s).input k' = s.input k' :=
  congrArg (fun v => v[k']) (setJournalStall_inputs s st)

@[simp] theorem setJournalStall_gens (s : State) (st : Stall) : (setJournalStall st s).gens = s.gens := by
  unfold setJournalStall; split <;> simp

@[simp] theorem setJournalStall_gen (s : State) (st : Stall) (g' : GenNo) :
    (setJournalStall st s).gen g' = s.gen g' :=
  congrArg (fun v => v[g']) (setJournalStall_gens s st)

@[simp] theorem setJournalStall_notice (s : State) (st : Stall) :
    (setJournalStall st s).notice = s.notice := by
  unfold setJournalStall; split <;> simp

@[simp] theorem setJournalStall_slot (s : State) (st : Stall) (i' : SlotNo) :
    (setJournalStall st s).slot i' = s.slot i' :=
  congrArg (fun v : NoticeUnit => v.slots[i']) (setJournalStall_notice s st)

@[simp] theorem closePage_lanes (s : State) (c : EndCode) : (closePage c s).lanes = s.lanes := by
  unfold closePage; split <;> simp

@[simp] theorem closePage_lane (s : State) (c : EndCode) (n' : LaneNo) :
    (closePage c s).lane n' = s.lane n' :=
  congrArg (fun v => v[n']) (closePage_lanes s c)

@[simp] theorem closePage_lines (s : State) (c : EndCode) : (closePage c s).lines = s.lines := by
  unfold closePage; split <;> simp

@[simp] theorem closePage_line (s : State) (c : EndCode) (k' : LineNo) :
    (closePage c s).line k' = s.line k' :=
  congrArg (fun v => v[k']) (closePage_lines s c)

@[simp] theorem closePage_inputs (s : State) (c : EndCode) : (closePage c s).inputs = s.inputs := by
  unfold closePage; split <;> simp

@[simp] theorem closePage_input (s : State) (c : EndCode) (k' : LineNo) :
    (closePage c s).input k' = s.input k' :=
  congrArg (fun v => v[k']) (closePage_inputs s c)

@[simp] theorem closePage_gens (s : State) (c : EndCode) : (closePage c s).gens = s.gens := by
  unfold closePage; split <;> simp

@[simp] theorem closePage_gen (s : State) (c : EndCode) (g' : GenNo) : (closePage c s).gen g' = s.gen g' :=
  congrArg (fun v => v[g']) (closePage_gens s c)

@[simp] theorem closePage_notice (s : State) (c : EndCode) : (closePage c s).notice = s.notice := by
  unfold closePage; split <;> simp

@[simp] theorem closePage_slot (s : State) (c : EndCode) (i' : SlotNo) :
    (closePage c s).slot i' = s.slot i' :=
  congrArg (fun v : NoticeUnit => v.slots[i']) (closePage_notice s c)

@[simp] theorem endDrain_lanes (s : State) : (endDrain s).lanes = s.lanes := by simp [endDrain]

@[simp] theorem endDrain_lane (s : State) (n' : LaneNo) : (endDrain s).lane n' = s.lane n' :=
  congrArg (fun v => v[n']) (endDrain_lanes s)

@[simp] theorem endDrain_lines (s : State) : (endDrain s).lines = s.lines := by simp [endDrain]

@[simp] theorem endDrain_line (s : State) (k' : LineNo) : (endDrain s).line k' = s.line k' :=
  congrArg (fun v => v[k']) (endDrain_lines s)

@[simp] theorem endDrain_inputs (s : State) : (endDrain s).inputs = s.inputs := by simp [endDrain]

@[simp] theorem endDrain_input (s : State) (k' : LineNo) : (endDrain s).input k' = s.input k' :=
  congrArg (fun v => v[k']) (endDrain_inputs s)

@[simp] theorem endDrain_gens (s : State) : (endDrain s).gens = s.gens := by simp [endDrain]

@[simp] theorem endDrain_gen (s : State) (g' : GenNo) : (endDrain s).gen g' = s.gen g' :=
  congrArg (fun v => v[g']) (endDrain_gens s)

@[simp] theorem endDrain_notice (s : State) : (endDrain s).notice = s.notice := by simp [endDrain]

@[simp] theorem endDrain_slot (s : State) (i' : SlotNo) : (endDrain s).slot i' = s.slot i' :=
  congrArg (fun v : NoticeUnit => v.slots[i']) (endDrain_notice s)

@[simp] theorem drainCheck_lanes (s : State) : (drainCheck s).lanes = s.lanes := by
  unfold drainCheck; dsimp only; split <;> first
    | rfl
    | (simp; done)
    | (split <;> first | rfl | (simp; done) | (split <;> simp))

@[simp] theorem drainCheck_lane (s : State) (n' : LaneNo) : (drainCheck s).lane n' = s.lane n' :=
  congrArg (fun v => v[n']) (drainCheck_lanes s)

@[simp] theorem drainCheck_lines (s : State) : (drainCheck s).lines = s.lines := by
  unfold drainCheck; dsimp only; split <;> first
    | rfl
    | (simp; done)
    | (split <;> first | rfl | (simp; done) | (split <;> simp))

@[simp] theorem drainCheck_line (s : State) (k' : LineNo) : (drainCheck s).line k' = s.line k' :=
  congrArg (fun v => v[k']) (drainCheck_lines s)

@[simp] theorem drainCheck_inputs (s : State) : (drainCheck s).inputs = s.inputs := by
  unfold drainCheck; dsimp only; split <;> first
    | rfl
    | (simp; done)
    | (split <;> first | rfl | (simp; done) | (split <;> simp))

@[simp] theorem drainCheck_input (s : State) (k' : LineNo) : (drainCheck s).input k' = s.input k' :=
  congrArg (fun v => v[k']) (drainCheck_inputs s)

@[simp] theorem drainCheck_gens (s : State) : (drainCheck s).gens = s.gens := by
  unfold drainCheck; dsimp only; split <;> first
    | rfl
    | (simp; done)
    | (split <;> first | rfl | (simp; done) | (split <;> simp))

@[simp] theorem drainCheck_gen (s : State) (g' : GenNo) : (drainCheck s).gen g' = s.gen g' :=
  congrArg (fun v => v[g']) (drainCheck_gens s)

@[simp] theorem drainCheck_notice (s : State) : (drainCheck s).notice = s.notice := by
  unfold drainCheck; dsimp only; split <;> first
    | rfl
    | (simp; done)
    | (split <;> first | rfl | (simp; done) | (split <;> simp))

@[simp] theorem drainCheck_slot (s : State) (i' : SlotNo) : (drainCheck s).slot i' = s.slot i' :=
  congrArg (fun v : NoticeUnit => v.slots[i']) (drainCheck_notice s)

@[simp] theorem beginDrain_lanes (s : State) : (beginDrain s).lanes = s.lanes := by simp [beginDrain]

@[simp] theorem beginDrain_lane (s : State) (n' : LaneNo) : (beginDrain s).lane n' = s.lane n' :=
  congrArg (fun v => v[n']) (beginDrain_lanes s)

@[simp] theorem beginDrain_lines (s : State) : (beginDrain s).lines = s.lines := by simp [beginDrain]

@[simp] theorem beginDrain_line (s : State) (k' : LineNo) : (beginDrain s).line k' = s.line k' :=
  congrArg (fun v => v[k']) (beginDrain_lines s)

@[simp] theorem beginDrain_inputs (s : State) : (beginDrain s).inputs = s.inputs := by simp [beginDrain]

@[simp] theorem beginDrain_input (s : State) (k' : LineNo) : (beginDrain s).input k' = s.input k' :=
  congrArg (fun v => v[k']) (beginDrain_inputs s)

@[simp] theorem beginDrain_gens (s : State) : (beginDrain s).gens = s.gens := by simp [beginDrain]

@[simp] theorem beginDrain_gen (s : State) (g' : GenNo) : (beginDrain s).gen g' = s.gen g' :=
  congrArg (fun v => v[g']) (beginDrain_gens s)

@[simp] theorem beginDrain_notice (s : State) : (beginDrain s).notice = s.notice := by simp [beginDrain]

@[simp] theorem beginDrain_slot (s : State) (i' : SlotNo) : (beginDrain s).slot i' = s.slot i' :=
  congrArg (fun v : NoticeUnit => v.slots[i']) (beginDrain_notice s)

@[simp] theorem journalFault_lanes (s : State) (c : FaultCode) (a : Option Addr) :
    (journalFault c a s).lanes = s.lanes := by
  simp [journalFault]

@[simp] theorem journalFault_lane (s : State) (c : FaultCode) (a : Option Addr) (n' : LaneNo) :
    (journalFault c a s).lane n' = s.lane n' :=
  congrArg (fun v => v[n']) (journalFault_lanes s c a)

@[simp] theorem journalFault_lines (s : State) (c : FaultCode) (a : Option Addr) :
    (journalFault c a s).lines = s.lines := by
  simp [journalFault]

@[simp] theorem journalFault_line (s : State) (c : FaultCode) (a : Option Addr) (k' : LineNo) :
    (journalFault c a s).line k' = s.line k' :=
  congrArg (fun v => v[k']) (journalFault_lines s c a)

@[simp] theorem journalFault_inputs (s : State) (c : FaultCode) (a : Option Addr) :
    (journalFault c a s).inputs = s.inputs := by
  simp [journalFault]

@[simp] theorem journalFault_input (s : State) (c : FaultCode) (a : Option Addr) (k' : LineNo) :
    (journalFault c a s).input k' = s.input k' :=
  congrArg (fun v => v[k']) (journalFault_inputs s c a)

@[simp] theorem journalFault_gens (s : State) (c : FaultCode) (a : Option Addr) :
    (journalFault c a s).gens = s.gens := by
  simp [journalFault]

@[simp] theorem journalFault_gen (s : State) (c : FaultCode) (a : Option Addr) (g' : GenNo) :
    (journalFault c a s).gen g' = s.gen g' :=
  congrArg (fun v => v[g']) (journalFault_gens s c a)

@[simp] theorem journalFault_notice (s : State) (c : FaultCode) (a : Option Addr) :
    (journalFault c a s).notice = s.notice := by
  simp [journalFault]

@[simp] theorem journalFault_slot (s : State) (c : FaultCode) (a : Option Addr) (i' : SlotNo) :
    (journalFault c a s).slot i' = s.slot i' :=
  congrArg (fun v : NoticeUnit => v.slots[i']) (journalFault_notice s c a)

@[simp] theorem stallJournal_lanes (s : State) (st : Stall) : (stallJournal st s).lanes = s.lanes := by
  simp [stallJournal]

@[simp] theorem stallJournal_lane (s : State) (st : Stall) (n' : LaneNo) :
    (stallJournal st s).lane n' = s.lane n' :=
  congrArg (fun v => v[n']) (stallJournal_lanes s st)

@[simp] theorem stallJournal_lines (s : State) (st : Stall) : (stallJournal st s).lines = s.lines := by
  simp [stallJournal]

@[simp] theorem stallJournal_line (s : State) (st : Stall) (k' : LineNo) :
    (stallJournal st s).line k' = s.line k' :=
  congrArg (fun v => v[k']) (stallJournal_lines s st)

@[simp] theorem stallJournal_inputs (s : State) (st : Stall) : (stallJournal st s).inputs = s.inputs := by
  simp [stallJournal]

@[simp] theorem stallJournal_input (s : State) (st : Stall) (k' : LineNo) :
    (stallJournal st s).input k' = s.input k' :=
  congrArg (fun v => v[k']) (stallJournal_inputs s st)

@[simp] theorem stallJournal_gens (s : State) (st : Stall) : (stallJournal st s).gens = s.gens := by
  simp [stallJournal]

@[simp] theorem stallJournal_gen (s : State) (st : Stall) (g' : GenNo) :
    (stallJournal st s).gen g' = s.gen g' :=
  congrArg (fun v => v[g']) (stallJournal_gens s st)

@[simp] theorem stallJournal_notice (s : State) (st : Stall) : (stallJournal st s).notice = s.notice := by
  simp [stallJournal]

@[simp] theorem stallJournal_slot (s : State) (st : Stall) (i' : SlotNo) :
    (stallJournal st s).slot i' = s.slot i' :=
  congrArg (fun v : NoticeUnit => v.slots[i']) (stallJournal_notice s st)

@[simp] theorem presentJournal_lanes (s : State) (r : JournalRead) : (presentJournal r s).lanes = s.lanes := rfl

@[simp] theorem presentJournal_lane (s : State) (r : JournalRead) (n' : LaneNo) :
    (presentJournal r s).lane n' = s.lane n' :=
  congrArg (fun v => v[n']) (presentJournal_lanes s r)

@[simp] theorem presentJournal_lines (s : State) (r : JournalRead) : (presentJournal r s).lines = s.lines := rfl

@[simp] theorem presentJournal_line (s : State) (r : JournalRead) (k' : LineNo) :
    (presentJournal r s).line k' = s.line k' :=
  congrArg (fun v => v[k']) (presentJournal_lines s r)

@[simp] theorem presentJournal_inputs (s : State) (r : JournalRead) :
    (presentJournal r s).inputs = s.inputs := rfl

@[simp] theorem presentJournal_input (s : State) (r : JournalRead) (k' : LineNo) :
    (presentJournal r s).input k' = s.input k' :=
  congrArg (fun v => v[k']) (presentJournal_inputs s r)

@[simp] theorem presentJournal_gens (s : State) (r : JournalRead) : (presentJournal r s).gens = s.gens := rfl

@[simp] theorem presentJournal_gen (s : State) (r : JournalRead) (g' : GenNo) :
    (presentJournal r s).gen g' = s.gen g' :=
  congrArg (fun v => v[g']) (presentJournal_gens s r)

@[simp] theorem presentJournal_notice (s : State) (r : JournalRead) :
    (presentJournal r s).notice = s.notice := rfl

@[simp] theorem presentJournal_slot (s : State) (r : JournalRead) (i' : SlotNo) :
    (presentJournal r s).slot i' = s.slot i' :=
  congrArg (fun v : NoticeUnit => v.slots[i']) (presentJournal_notice s r)

@[simp] theorem presentJournalHeader_lanes (s : State) : (presentJournalHeader s).lanes = s.lanes := by
  unfold presentJournalHeader; split <;> simp

@[simp] theorem presentJournalHeader_lane (s : State) (n' : LaneNo) :
    (presentJournalHeader s).lane n' = s.lane n' :=
  congrArg (fun v => v[n']) (presentJournalHeader_lanes s)

@[simp] theorem presentJournalHeader_lines (s : State) : (presentJournalHeader s).lines = s.lines := by
  unfold presentJournalHeader; split <;> simp

@[simp] theorem presentJournalHeader_line (s : State) (k' : LineNo) :
    (presentJournalHeader s).line k' = s.line k' :=
  congrArg (fun v => v[k']) (presentJournalHeader_lines s)

@[simp] theorem presentJournalHeader_inputs (s : State) : (presentJournalHeader s).inputs = s.inputs := by
  unfold presentJournalHeader; split <;> simp

@[simp] theorem presentJournalHeader_input (s : State) (k' : LineNo) :
    (presentJournalHeader s).input k' = s.input k' :=
  congrArg (fun v => v[k']) (presentJournalHeader_inputs s)

@[simp] theorem presentJournalHeader_gens (s : State) : (presentJournalHeader s).gens = s.gens := by
  unfold presentJournalHeader; split <;> simp

@[simp] theorem presentJournalHeader_gen (s : State) (g' : GenNo) :
    (presentJournalHeader s).gen g' = s.gen g' :=
  congrArg (fun v => v[g']) (presentJournalHeader_gens s)

@[simp] theorem presentJournalHeader_notice (s : State) : (presentJournalHeader s).notice = s.notice := by
  unfold presentJournalHeader; split <;> simp

@[simp] theorem presentJournalHeader_slot (s : State) (i' : SlotNo) :
    (presentJournalHeader s).slot i' = s.slot i' :=
  congrArg (fun v : NoticeUnit => v.slots[i']) (presentJournalHeader_notice s)

@[simp] theorem presentJournalLink_lanes (s : State) : (presentJournalLink s).lanes = s.lanes := by
  unfold presentJournalLink; split <;> simp

@[simp] theorem presentJournalLink_lane (s : State) (n' : LaneNo) :
    (presentJournalLink s).lane n' = s.lane n' :=
  congrArg (fun v => v[n']) (presentJournalLink_lanes s)

@[simp] theorem presentJournalLink_lines (s : State) : (presentJournalLink s).lines = s.lines := by
  unfold presentJournalLink; split <;> simp

@[simp] theorem presentJournalLink_line (s : State) (k' : LineNo) :
    (presentJournalLink s).line k' = s.line k' :=
  congrArg (fun v => v[k']) (presentJournalLink_lines s)

@[simp] theorem presentJournalLink_inputs (s : State) : (presentJournalLink s).inputs = s.inputs := by
  unfold presentJournalLink; split <;> simp

@[simp] theorem presentJournalLink_input (s : State) (k' : LineNo) :
    (presentJournalLink s).input k' = s.input k' :=
  congrArg (fun v => v[k']) (presentJournalLink_inputs s)

@[simp] theorem presentJournalLink_gens (s : State) : (presentJournalLink s).gens = s.gens := by
  unfold presentJournalLink; split <;> simp

@[simp] theorem presentJournalLink_gen (s : State) (g' : GenNo) :
    (presentJournalLink s).gen g' = s.gen g' :=
  congrArg (fun v => v[g']) (presentJournalLink_gens s)

@[simp] theorem presentJournalLink_notice (s : State) : (presentJournalLink s).notice = s.notice := by
  unfold presentJournalLink; split <;> simp

@[simp] theorem presentJournalLink_slot (s : State) (i' : SlotNo) :
    (presentJournalLink s).slot i' = s.slot i' :=
  congrArg (fun v : NoticeUnit => v.slots[i']) (presentJournalLink_notice s)

@[simp] theorem goToJournalHeader_lanes (s : State) (a : Addr) : (goToJournalHeader a s).lanes = s.lanes := by
  simp [goToJournalHeader]

@[simp] theorem goToJournalHeader_lane (s : State) (a : Addr) (n' : LaneNo) :
    (goToJournalHeader a s).lane n' = s.lane n' :=
  congrArg (fun v => v[n']) (goToJournalHeader_lanes s a)

@[simp] theorem goToJournalHeader_lines (s : State) (a : Addr) : (goToJournalHeader a s).lines = s.lines := by
  simp [goToJournalHeader]

@[simp] theorem goToJournalHeader_line (s : State) (a : Addr) (k' : LineNo) :
    (goToJournalHeader a s).line k' = s.line k' :=
  congrArg (fun v => v[k']) (goToJournalHeader_lines s a)

@[simp] theorem goToJournalHeader_inputs (s : State) (a : Addr) :
    (goToJournalHeader a s).inputs = s.inputs := by simp [goToJournalHeader]

@[simp] theorem goToJournalHeader_input (s : State) (a : Addr) (k' : LineNo) :
    (goToJournalHeader a s).input k' = s.input k' :=
  congrArg (fun v => v[k']) (goToJournalHeader_inputs s a)

@[simp] theorem goToJournalHeader_gens (s : State) (a : Addr) : (goToJournalHeader a s).gens = s.gens := by
  simp [goToJournalHeader]

@[simp] theorem goToJournalHeader_gen (s : State) (a : Addr) (g' : GenNo) :
    (goToJournalHeader a s).gen g' = s.gen g' :=
  congrArg (fun v => v[g']) (goToJournalHeader_gens s a)

@[simp] theorem goToJournalHeader_notice (s : State) (a : Addr) :
    (goToJournalHeader a s).notice = s.notice := by simp [goToJournalHeader]

@[simp] theorem goToJournalHeader_slot (s : State) (a : Addr) (i' : SlotNo) :
    (goToJournalHeader a s).slot i' = s.slot i' :=
  congrArg (fun v : NoticeUnit => v.slots[i']) (goToJournalHeader_notice s a)

@[simp] theorem judgeJournalHead_lanes (s : State) (a : Addr) : (judgeJournalHead a s).lanes = s.lanes := by
  unfold judgeJournalHead; split <;> first | (simp; done) | (split <;> simp)

@[simp] theorem judgeJournalHead_lane (s : State) (a : Addr) (n' : LaneNo) :
    (judgeJournalHead a s).lane n' = s.lane n' :=
  congrArg (fun v => v[n']) (judgeJournalHead_lanes s a)

@[simp] theorem judgeJournalHead_lines (s : State) (a : Addr) : (judgeJournalHead a s).lines = s.lines := by
  unfold judgeJournalHead; split <;> first | (simp; done) | (split <;> simp)

@[simp] theorem judgeJournalHead_line (s : State) (a : Addr) (k' : LineNo) :
    (judgeJournalHead a s).line k' = s.line k' :=
  congrArg (fun v => v[k']) (judgeJournalHead_lines s a)

@[simp] theorem judgeJournalHead_inputs (s : State) (a : Addr) : (judgeJournalHead a s).inputs = s.inputs := by
  unfold judgeJournalHead; split <;> first | (simp; done) | (split <;> simp)

@[simp] theorem judgeJournalHead_input (s : State) (a : Addr) (k' : LineNo) :
    (judgeJournalHead a s).input k' = s.input k' :=
  congrArg (fun v => v[k']) (judgeJournalHead_inputs s a)

@[simp] theorem judgeJournalHead_gens (s : State) (a : Addr) : (judgeJournalHead a s).gens = s.gens := by
  unfold judgeJournalHead; split <;> first | (simp; done) | (split <;> simp)

@[simp] theorem judgeJournalHead_gen (s : State) (a : Addr) (g' : GenNo) :
    (judgeJournalHead a s).gen g' = s.gen g' :=
  congrArg (fun v => v[g']) (judgeJournalHead_gens s a)

@[simp] theorem judgeJournalHead_notice (s : State) (a : Addr) : (judgeJournalHead a s).notice = s.notice := by
  unfold judgeJournalHead; split <;> first | (simp; done) | (split <;> simp)

@[simp] theorem judgeJournalHead_slot (s : State) (a : Addr) (i' : SlotNo) :
    (judgeJournalHead a s).slot i' = s.slot i' :=
  congrArg (fun v : NoticeUnit => v.slots[i']) (judgeJournalHead_notice s a)

@[simp] theorem judgeJournalLink_lanes (s : State) (a : Addr) : (judgeJournalLink a s).lanes = s.lanes := by
  unfold judgeJournalLink; split <;> first | (simp; done) | (split <;> simp)

@[simp] theorem judgeJournalLink_lane (s : State) (a : Addr) (n' : LaneNo) :
    (judgeJournalLink a s).lane n' = s.lane n' :=
  congrArg (fun v => v[n']) (judgeJournalLink_lanes s a)

@[simp] theorem judgeJournalLink_lines (s : State) (a : Addr) : (judgeJournalLink a s).lines = s.lines := by
  unfold judgeJournalLink; split <;> first | (simp; done) | (split <;> simp)

@[simp] theorem judgeJournalLink_line (s : State) (a : Addr) (k' : LineNo) :
    (judgeJournalLink a s).line k' = s.line k' :=
  congrArg (fun v => v[k']) (judgeJournalLink_lines s a)

@[simp] theorem judgeJournalLink_inputs (s : State) (a : Addr) : (judgeJournalLink a s).inputs = s.inputs := by
  unfold judgeJournalLink; split <;> first | (simp; done) | (split <;> simp)

@[simp] theorem judgeJournalLink_input (s : State) (a : Addr) (k' : LineNo) :
    (judgeJournalLink a s).input k' = s.input k' :=
  congrArg (fun v => v[k']) (judgeJournalLink_inputs s a)

@[simp] theorem judgeJournalLink_gens (s : State) (a : Addr) : (judgeJournalLink a s).gens = s.gens := by
  unfold judgeJournalLink; split <;> first | (simp; done) | (split <;> simp)

@[simp] theorem judgeJournalLink_gen (s : State) (a : Addr) (g' : GenNo) :
    (judgeJournalLink a s).gen g' = s.gen g' :=
  congrArg (fun v => v[g']) (judgeJournalLink_gens s a)

@[simp] theorem judgeJournalLink_notice (s : State) (a : Addr) : (judgeJournalLink a s).notice = s.notice := by
  unfold judgeJournalLink; split <;> first | (simp; done) | (split <;> simp)

@[simp] theorem judgeJournalLink_slot (s : State) (a : Addr) (i' : SlotNo) :
    (judgeJournalLink a s).slot i' = s.slot i' :=
  congrArg (fun v : NoticeUnit => v.slots[i']) (judgeJournalLink_notice s a)

@[simp] theorem takeCapturePage_lanes (s : State) : (takeCapturePage s).lanes = s.lanes := by
  simp [takeCapturePage]

@[simp] theorem takeCapturePage_lane (s : State) (n' : LaneNo) : (takeCapturePage s).lane n' = s.lane n' :=
  congrArg (fun v => v[n']) (takeCapturePage_lanes s)

@[simp] theorem takeCapturePage_lines (s : State) : (takeCapturePage s).lines = s.lines := by
  simp [takeCapturePage]

@[simp] theorem takeCapturePage_line (s : State) (k' : LineNo) : (takeCapturePage s).line k' = s.line k' :=
  congrArg (fun v => v[k']) (takeCapturePage_lines s)

@[simp] theorem takeCapturePage_inputs (s : State) : (takeCapturePage s).inputs = s.inputs := by
  simp [takeCapturePage]

@[simp] theorem takeCapturePage_input (s : State) (k' : LineNo) :
    (takeCapturePage s).input k' = s.input k' :=
  congrArg (fun v => v[k']) (takeCapturePage_inputs s)

@[simp] theorem takeCapturePage_gens (s : State) : (takeCapturePage s).gens = s.gens := by simp [takeCapturePage]

@[simp] theorem takeCapturePage_gen (s : State) (g' : GenNo) : (takeCapturePage s).gen g' = s.gen g' :=
  congrArg (fun v => v[g']) (takeCapturePage_gens s)

@[simp] theorem takeCapturePage_notice (s : State) : (takeCapturePage s).notice = s.notice := by
  simp [takeCapturePage]

@[simp] theorem takeCapturePage_slot (s : State) (i' : SlotNo) : (takeCapturePage s).slot i' = s.slot i' :=
  congrArg (fun v : NoticeUnit => v.slots[i']) (takeCapturePage_notice s)

@[simp] theorem judgeJournalHeader_lanes (s : State) (h : BitVec 256) :
    (judgeJournalHeader h s).lanes = s.lanes := by
  unfold judgeJournalHeader; dsimp only; split <;> first | rfl | (simp; done) | (split <;> simp)

@[simp] theorem judgeJournalHeader_lane (s : State) (h : BitVec 256) (n' : LaneNo) :
    (judgeJournalHeader h s).lane n' = s.lane n' :=
  congrArg (fun v => v[n']) (judgeJournalHeader_lanes s h)

@[simp] theorem judgeJournalHeader_lines (s : State) (h : BitVec 256) :
    (judgeJournalHeader h s).lines = s.lines := by
  unfold judgeJournalHeader; dsimp only; split <;> first | rfl | (simp; done) | (split <;> simp)

@[simp] theorem judgeJournalHeader_line (s : State) (h : BitVec 256) (k' : LineNo) :
    (judgeJournalHeader h s).line k' = s.line k' :=
  congrArg (fun v => v[k']) (judgeJournalHeader_lines s h)

@[simp] theorem judgeJournalHeader_inputs (s : State) (h : BitVec 256) :
    (judgeJournalHeader h s).inputs = s.inputs := by
  unfold judgeJournalHeader; dsimp only; split <;> first | rfl | (simp; done) | (split <;> simp)

@[simp] theorem judgeJournalHeader_input (s : State) (h : BitVec 256) (k' : LineNo) :
    (judgeJournalHeader h s).input k' = s.input k' :=
  congrArg (fun v => v[k']) (judgeJournalHeader_inputs s h)

@[simp] theorem judgeJournalHeader_gens (s : State) (h : BitVec 256) :
    (judgeJournalHeader h s).gens = s.gens := by
  unfold judgeJournalHeader; dsimp only; split <;> first | rfl | (simp; done) | (split <;> simp)

@[simp] theorem judgeJournalHeader_gen (s : State) (h : BitVec 256) (g' : GenNo) :
    (judgeJournalHeader h s).gen g' = s.gen g' :=
  congrArg (fun v => v[g']) (judgeJournalHeader_gens s h)

@[simp] theorem judgeJournalHeader_notice (s : State) (h : BitVec 256) :
    (judgeJournalHeader h s).notice = s.notice := by
  unfold judgeJournalHeader; dsimp only; split <;> first | rfl | (simp; done) | (split <;> simp)

@[simp] theorem judgeJournalHeader_slot (s : State) (h : BitVec 256) (i' : SlotNo) :
    (judgeJournalHeader h s).slot i' = s.slot i' :=
  congrArg (fun v : NoticeUnit => v.slots[i']) (judgeJournalHeader_notice s h)

@[simp] theorem surveyJournal_lanes (s : State) : (surveyJournal s).lanes = s.lanes := by
  unfold surveyJournal; dsimp only; split <;> first | rfl | (simp; done) | (split <;> simp)

@[simp] theorem surveyJournal_lane (s : State) (n' : LaneNo) : (surveyJournal s).lane n' = s.lane n' :=
  congrArg (fun v => v[n']) (surveyJournal_lanes s)

@[simp] theorem surveyJournal_lines (s : State) : (surveyJournal s).lines = s.lines := by
  unfold surveyJournal; dsimp only; split <;> first | rfl | (simp; done) | (split <;> simp)

@[simp] theorem surveyJournal_line (s : State) (k' : LineNo) : (surveyJournal s).line k' = s.line k' :=
  congrArg (fun v => v[k']) (surveyJournal_lines s)

@[simp] theorem surveyJournal_inputs (s : State) : (surveyJournal s).inputs = s.inputs := by
  unfold surveyJournal; dsimp only; split <;> first | rfl | (simp; done) | (split <;> simp)

@[simp] theorem surveyJournal_input (s : State) (k' : LineNo) : (surveyJournal s).input k' = s.input k' :=
  congrArg (fun v => v[k']) (surveyJournal_inputs s)

@[simp] theorem surveyJournal_gens (s : State) : (surveyJournal s).gens = s.gens := by
  unfold surveyJournal; dsimp only; split <;> first | rfl | (simp; done) | (split <;> simp)

@[simp] theorem surveyJournal_gen (s : State) (g' : GenNo) : (surveyJournal s).gen g' = s.gen g' :=
  congrArg (fun v => v[g']) (surveyJournal_gens s)

@[simp] theorem surveyJournal_notice (s : State) : (surveyJournal s).notice = s.notice := by
  unfold surveyJournal; dsimp only; split <;> first | rfl | (simp; done) | (split <;> simp)

@[simp] theorem surveyJournal_slot (s : State) (i' : SlotNo) : (surveyJournal s).slot i' = s.slot i' :=
  congrArg (fun v : NoticeUnit => v.slots[i']) (surveyJournal_notice s)

@[simp] theorem followLink_lanes (s : State) : (followLink s).lanes = s.lanes := by
  unfold followLink; dsimp only; split <;> simp

@[simp] theorem followLink_lane (s : State) (n' : LaneNo) : (followLink s).lane n' = s.lane n' :=
  congrArg (fun v => v[n']) (followLink_lanes s)

@[simp] theorem followLink_lines (s : State) : (followLink s).lines = s.lines := by
  unfold followLink; dsimp only; split <;> simp

@[simp] theorem followLink_line (s : State) (k' : LineNo) : (followLink s).line k' = s.line k' :=
  congrArg (fun v => v[k']) (followLink_lines s)

@[simp] theorem followLink_inputs (s : State) : (followLink s).inputs = s.inputs := by
  unfold followLink; dsimp only; split <;> simp

@[simp] theorem followLink_input (s : State) (k' : LineNo) : (followLink s).input k' = s.input k' :=
  congrArg (fun v => v[k']) (followLink_inputs s)

@[simp] theorem followLink_gens (s : State) : (followLink s).gens = s.gens := by
  unfold followLink; dsimp only; split <;> simp

@[simp] theorem followLink_gen (s : State) (g' : GenNo) : (followLink s).gen g' = s.gen g' :=
  congrArg (fun v => v[g']) (followLink_gens s)

@[simp] theorem followLink_notice (s : State) : (followLink s).notice = s.notice := by
  unfold followLink; dsimp only; split <;> simp

@[simp] theorem followLink_slot (s : State) (i' : SlotNo) : (followLink s).slot i' = s.slot i' :=
  congrArg (fun v : NoticeUnit => v.slots[i']) (followLink_notice s)

@[simp] theorem flushJournal_lanes (s : State) : (flushJournal s).lanes = s.lanes := by
  unfold flushJournal; dsimp only; split <;> first
    | rfl
    | (simp; done)
    | (split <;> first | rfl | (simp; done) | (split <;> simp))

@[simp] theorem flushJournal_lane (s : State) (n' : LaneNo) : (flushJournal s).lane n' = s.lane n' :=
  congrArg (fun v => v[n']) (flushJournal_lanes s)

@[simp] theorem flushJournal_lines (s : State) : (flushJournal s).lines = s.lines := by
  unfold flushJournal; dsimp only; split <;> first
    | rfl
    | (simp; done)
    | (split <;> first | rfl | (simp; done) | (split <;> simp))

@[simp] theorem flushJournal_line (s : State) (k' : LineNo) : (flushJournal s).line k' = s.line k' :=
  congrArg (fun v => v[k']) (flushJournal_lines s)

@[simp] theorem flushJournal_inputs (s : State) : (flushJournal s).inputs = s.inputs := by
  unfold flushJournal; dsimp only; split <;> first
    | rfl
    | (simp; done)
    | (split <;> first | rfl | (simp; done) | (split <;> simp))

@[simp] theorem flushJournal_input (s : State) (k' : LineNo) : (flushJournal s).input k' = s.input k' :=
  congrArg (fun v => v[k']) (flushJournal_inputs s)

@[simp] theorem flushJournal_gens (s : State) : (flushJournal s).gens = s.gens := by
  unfold flushJournal; dsimp only; split <;> first
    | rfl
    | (simp; done)
    | (split <;> first | rfl | (simp; done) | (split <;> simp))

@[simp] theorem flushJournal_gen (s : State) (g' : GenNo) : (flushJournal s).gen g' = s.gen g' :=
  congrArg (fun v => v[g']) (flushJournal_gens s)

@[simp] theorem flushJournal_notice (s : State) : (flushJournal s).notice = s.notice := by
  unfold flushJournal; dsimp only; split <;> first
    | rfl
    | (simp; done)
    | (split <;> first | rfl | (simp; done) | (split <;> simp))

@[simp] theorem flushJournal_slot (s : State) (i' : SlotNo) : (flushJournal s).slot i' = s.slot i' :=
  congrArg (fun v : NoticeUnit => v.slots[i']) (flushJournal_notice s)

@[simp] theorem startJournal_lanes (s : State) : (startJournal s).lanes = s.lanes := by simp [startJournal]

@[simp] theorem startJournal_lane (s : State) (n' : LaneNo) : (startJournal s).lane n' = s.lane n' :=
  congrArg (fun v => v[n']) (startJournal_lanes s)

@[simp] theorem startJournal_lines (s : State) : (startJournal s).lines = s.lines := by simp [startJournal]

@[simp] theorem startJournal_line (s : State) (k' : LineNo) : (startJournal s).line k' = s.line k' :=
  congrArg (fun v => v[k']) (startJournal_lines s)

@[simp] theorem startJournal_inputs (s : State) : (startJournal s).inputs = s.inputs := by simp [startJournal]

@[simp] theorem startJournal_input (s : State) (k' : LineNo) : (startJournal s).input k' = s.input k' :=
  congrArg (fun v => v[k']) (startJournal_inputs s)

@[simp] theorem startJournal_gens (s : State) : (startJournal s).gens = s.gens := by simp [startJournal]

@[simp] theorem startJournal_gen (s : State) (g' : GenNo) : (startJournal s).gen g' = s.gen g' :=
  congrArg (fun v => v[g']) (startJournal_gens s)

@[simp] theorem startJournal_notice (s : State) : (startJournal s).notice = s.notice := by simp [startJournal]

@[simp] theorem startJournal_slot (s : State) (i' : SlotNo) : (startJournal s).slot i' = s.slot i' :=
  congrArg (fun v : NoticeUnit => v.slots[i']) (startJournal_notice s)

@[simp] theorem closeFlushed_lanes (s : State) : (closeFlushed s).lanes = s.lanes := by
  unfold closeFlushed; split <;> simp

@[simp] theorem closeFlushed_lane (s : State) (n' : LaneNo) :
    (closeFlushed s).lane n' = s.lane n' :=
  congrArg (fun v => v[n']) (closeFlushed_lanes s)

@[simp] theorem closeFlushed_lines (s : State) : (closeFlushed s).lines = s.lines := by
  unfold closeFlushed; split <;> simp

@[simp] theorem closeFlushed_line (s : State) (k' : LineNo) :
    (closeFlushed s).line k' = s.line k' :=
  congrArg (fun v => v[k']) (closeFlushed_lines s)

@[simp] theorem closeFlushed_inputs (s : State) :
    (closeFlushed s).inputs = s.inputs := by
  unfold closeFlushed; split <;> simp

@[simp] theorem closeFlushed_input (s : State) (k' : LineNo) :
    (closeFlushed s).input k' = s.input k' :=
  congrArg (fun v => v[k']) (closeFlushed_inputs s)

@[simp] theorem closeFlushed_gens (s : State) : (closeFlushed s).gens = s.gens := by
  unfold closeFlushed; split <;> simp

@[simp] theorem closeFlushed_gen (s : State) (g' : GenNo) :
    (closeFlushed s).gen g' = s.gen g' :=
  congrArg (fun v => v[g']) (closeFlushed_gens s)

@[simp] theorem closeFlushed_notice (s : State) :
    (closeFlushed s).notice = s.notice := by
  unfold closeFlushed; split <;> simp

@[simp] theorem closeFlushed_slot (s : State) (i' : SlotNo) :
    (closeFlushed s).slot i' = s.slot i' :=
  congrArg (fun v : NoticeUnit => v.slots[i']) (closeFlushed_notice s)

@[simp] theorem afterRecord_lanes (s : State) (a : Addr) (i : Nat) : (afterRecord a i s).lanes = s.lanes := by
  unfold afterRecord; dsimp only; split <;> first | rfl | (simp; done) | (split <;> simp)

@[simp] theorem afterRecord_lane (s : State) (a : Addr) (i : Nat) (n' : LaneNo) :
    (afterRecord a i s).lane n' = s.lane n' :=
  congrArg (fun v => v[n']) (afterRecord_lanes s a i)

@[simp] theorem afterRecord_lines (s : State) (a : Addr) (i : Nat) : (afterRecord a i s).lines = s.lines := by
  unfold afterRecord; dsimp only; split <;> first | rfl | (simp; done) | (split <;> simp)

@[simp] theorem afterRecord_line (s : State) (a : Addr) (i : Nat) (k' : LineNo) :
    (afterRecord a i s).line k' = s.line k' :=
  congrArg (fun v => v[k']) (afterRecord_lines s a i)

@[simp] theorem afterRecord_inputs (s : State) (a : Addr) (i : Nat) :
    (afterRecord a i s).inputs = s.inputs := by
  unfold afterRecord; dsimp only; split <;> first | rfl | (simp; done) | (split <;> simp)

@[simp] theorem afterRecord_input (s : State) (a : Addr) (i : Nat) (k' : LineNo) :
    (afterRecord a i s).input k' = s.input k' :=
  congrArg (fun v => v[k']) (afterRecord_inputs s a i)

@[simp] theorem afterRecord_gens (s : State) (a : Addr) (i : Nat) : (afterRecord a i s).gens = s.gens := by
  unfold afterRecord; dsimp only; split <;> first | rfl | (simp; done) | (split <;> simp)

@[simp] theorem afterRecord_gen (s : State) (a : Addr) (i : Nat) (g' : GenNo) :
    (afterRecord a i s).gen g' = s.gen g' :=
  congrArg (fun v => v[g']) (afterRecord_gens s a i)

@[simp] theorem afterRecord_notice (s : State) (a : Addr) (i : Nat) :
    (afterRecord a i s).notice = s.notice := by
  unfold afterRecord; dsimp only; split <;> first | rfl | (simp; done) | (split <;> simp)

@[simp] theorem afterRecord_slot (s : State) (a : Addr) (i : Nat) (i' : SlotNo) :
    (afterRecord a i s).slot i' = s.slot i' :=
  congrArg (fun v : NoticeUnit => v.slots[i']) (afterRecord_notice s a i)

end Sys2Proof.Machine
end

