-- ==== Sys2Proof/Laws/Gens.lean ====
section
/-!
SUPPORT. What the operations on a generator do to its record and leave of the other's.
-/

namespace Sys2Proof.Machine

/-! ## The other generator -/

theorem emitDerivedEdge_otherGen (s : State) (g : GenNo) {h : GenNo} (hg : g ≠ h) :
    (emitDerivedEdge g s).gen h = s.gen h := by
  unfold emitDerivedEdge; dsimp only; split
  · rfl
  · rw [toggleLine_gen, gen_setGen_ne _ hg]

theorem startPhase_otherGen (s : State) (g : GenNo) (t : Ticks) {h : GenNo} (hg : g ≠ h) :
    (startPhase g t s).gen h = s.gen h := by
  unfold startPhase; dsimp only
  split
  · exact gen_setGen_ne _ hg _
  · split
    · exact gen_setGen_ne _ hg _
    · rw [emitDerivedEdge_otherGen (hg := hg), gen_setGen_ne _ hg]

theorem setGenState_otherGen (s : State) (g : GenNo) (st : GenState) {h : GenNo} (hg : g ≠ h) :
    (setGenState g st s).gen h = s.gen h := by
  unfold setGenState; split
  · rfl
  · rw [markStale_gen, gen_setGen_ne _ hg]

theorem reportTransition_otherGen (s : State) (g : GenNo) (t : Ticks) {h : GenNo} (hg : g ≠ h) :
    (reportTransition g t s).gen h = s.gen h := by
  simp [reportTransition, gen_setGen_ne _ hg]

theorem noteRealEdge_otherGen (s : State) (g : GenNo) (c : Ticks) {h : GenNo} (hg : g ≠ h) :
    (noteRealEdge g c s).gen h = s.gen h := gen_setGen_ne _ hg _

theorem lockOn_otherGen (s : State) (g : GenNo) (p : Word) (c : Ticks) {h : GenNo} (hg : g ≠ h) :
    (lockOn g p c s).gen h = s.gen h := by
  simp [lockOn, setGenState_otherGen (hg := hg), startPhase_otherGen (hg := hg), gen_setGen_ne _ hg]

theorem loseByGap_otherGen (s : State) (g : GenNo) (t : Ticks) {h : GenNo} (hg : g ≠ h) :
    (loseByGap g t s).gen h = s.gen h := by
  simp [loseByGap, reportTransition_otherGen (hg := hg), setGenState_otherGen (hg := hg), gen_setGen_ne _ hg]

theorem realEdge_otherGen (s : State) (g : GenNo) (c t : Ticks) {h : GenNo} (hg : g ≠ h) :
    (realEdge g c t s).gen h = s.gen h := by
  unfold realEdge; dsimp only
  split
  · simp [setGenState_otherGen (hg := hg), gen_setGen_ne _ hg, noteRealEdge_otherGen (hg := hg)]
  · split <;> simp [reportTransition_otherGen (hg := hg), lockOn_otherGen (hg := hg), gen_setGen_ne _ hg,
      noteRealEdge_otherGen (hg := hg)]
  · split <;> simp [loseByGap_otherGen (hg := hg), lockOn_otherGen (hg := hg), noteRealEdge_otherGen (hg := hg)]
  · simp [setGenState_otherGen (hg := hg), startPhase_otherGen (hg := hg), noteRealEdge_otherGen (hg := hg)]
  · simp [setGenState_otherGen (hg := hg), startPhase_otherGen (hg := hg), noteRealEdge_otherGen (hg := hg)]
  · split
    · simp [loseByGap_otherGen (hg := hg), noteRealEdge_otherGen (hg := hg)]
    · rw [gen_setGen_ne _ hg]
      split <;> simp [reportTransition_otherGen (hg := hg), lockOn_otherGen (hg := hg),
        noteRealEdge_otherGen (hg := hg)]

theorem virtualEdge_otherGen (s : State) (g : GenNo) {h : GenNo} (hg : g ≠ h) :
    (virtualEdge g s).gen h = s.gen h := by
  unfold virtualEdge; dsimp only
  split <;> simp [setGenState_otherGen (hg := hg), startPhase_otherGen (hg := hg),
    reportTransition_otherGen (hg := hg), gen_setGen_ne _ hg]

/-! ## The generator itself -/

/-- A generator after a derived edge (R128); without a bound line there is none. -/
theorem emitDerivedEdge_self (s : State) (g : GenNo) (h : (s.gen g).bound.isSome = true) :
    (emitDerivedEdge g s).gen g = { s.gen g with nextIndex := (s.gen g).nextIndex + 1, edgeTaken := true } := by
  unfold emitDerivedEdge; dsimp only
  cases hb : (s.gen g).bound with
  | none => simp [hb] at h
  | some k => simp

/-- A generator after a phase start: the fields of R127, with the index and the edge of this tick left open. -/
theorem startPhase_self (s : State) (g : GenNo) (t : Ticks) :
    ∃ i e, (startPhase g t s).gen g = { (s.gen g).startPhase t with nextIndex := i, edgeTaken := e } := by
  unfold startPhase; dsimp only
  split
  · exact ⟨_, _, gen_setGen_self _ _ _⟩
  · split
    · exact ⟨1, _, gen_setGen_self _ _ _⟩
    · rename_i hb _
      have hs : ((s.setGen g ((s.gen g).startPhase t)).gen g).bound.isSome = true := by
        rw [gen_setGen_self]
        cases h : ((s.gen g).startPhase t).bound <;> simp_all
      rw [emitDerivedEdge_self _ _ hs, gen_setGen_self]
      exact ⟨_, _, rfl⟩

theorem setGenState_self (s : State) (g : GenNo) (st : GenState) :
    (setGenState g st s).gen g = { s.gen g with state := st } := by
  unfold setGenState; split
  · rename_i h; rw [← h]
  · simp

theorem reportTransition_self (s : State) (g : GenNo) (t : Ticks) :
    (reportTransition g t s).gen g =
      { s.gen g with posts := (s.gen g).posts ++ [((s.gen g).state, (s.gen g).period)] } := by
  simp [reportTransition]

theorem noteRealEdge_self (s : State) (g : GenNo) (c : Ticks) :
    (noteRealEdge g c s).gen g = { s.gen g with lastReal := c, virtuals := 0 } := gen_setGen_self _ _ _

/-- A generator that locks on a measured edge (R122, R123, R125). -/
theorem lockOn_self (s : State) (g : GenNo) (p : Word) (c : Ticks) :
    ∃ i e, (lockOn g p c s).gen g =
      { ({ s.gen g with period := p } : Generator).startPhase c with state := .locked, nextIndex := i, edgeTaken := e } := by
  obtain ⟨i, e, h⟩ := startPhase_self (s.setGen g { s.gen g with period := p }) g c
  rw [gen_setGen_self] at h
  exact ⟨i, e, by rw [lockOn, setGenState_self, h]⟩

/-- A generator that loses its lock by a long gap (R123, R125). -/
theorem loseByGap_self (s : State) (g : GenNo) (t : Ticks) :
    (loseByGap g t s).gen g =
      { s.gen g with
        state := .firstEdge
        nextIndex := (s.gen g).phaseMultiplier
        holdoverSeen := false
        posts := (s.gen g).posts ++ [(.firstEdge, (s.gen g).period)] } := by
  simp [loseByGap, reportTransition_self, setGenState_self]

end Sys2Proof.Machine
end

