-- ==== Sys2Proof/Laws/Idle.lean ====
section
/-!
SUPPORT. The step of an idle part: which event it takes, and what one tick leaves of each block.
-/

namespace Sys2Proof.Machine

/-- Of several events that are due one is taken, and at most the count of free values changes. -/
theorem chooseEvent_mem {events : List Instr} (h : events ≠ []) (s : State) :
    ∃ i ∈ events, ∃ c, chooseEvent events s = (some i, { s with choices := c }) := by
  match events with
  | [] => exact absurd rfl h
  | [i] => exact ⟨i, by simp, s.choices, rfl⟩
  | i :: j :: rest =>
    have hlt : (s.drawBelow (i :: j :: rest).length).1 < (i :: j :: rest).length := Nat.mod_lt _ (by simp)
    refine ⟨(i :: j :: rest)[(s.drawBelow (i :: j :: rest).length).1], List.getElem_mem _, s.choices + 1, ?_⟩
    unfold chooseEvent
    dsimp only
    rw [List.getElem?_eq_getElem hlt]
    rfl

/-- The new tick of the generators clears their notes and changes nothing else. -/
theorem newTickGens (s : State) :
    (∀ g, (State.each allGens newTickGen s).gen g = { s.gen g with edgeTaken := false })
      ∧ (State.each allGens newTickGen s).inputs = s.inputs
      ∧ State.each allGens newTickGen s = { s with gens := (State.each allGens newTickGen s).gens } := by
  refine ⟨fun g => ?_, rfl, rfl⟩
  have h := each_at (get := State.gen) (f := newTickGen) (g := fun _ x => { x with edgeTaken := false })
    (fun _ => True) (fun _ _ _ => trivial) (fun g s _ => by simp [newTickGen])
    (fun g j s hj => by simp [newTickGen, gen_setGen_ne _ hj]) allGens nodup_allGens s trivial g
  rw [h, if_pos (mem_allGens g)]

/-- The new tick of the inputs clears their notes and changes nothing else. -/
theorem newTickInputs (s : State) :
    (∀ k, (State.each allLines newTickInput s).input k = { s.input k with moved := false })
      ∧ State.each allLines newTickInput s = { s with inputs := (State.each allLines newTickInput s).inputs } := by
  refine ⟨fun k => ?_, ?_⟩
  · have h := each_at (get := State.input) (f := newTickInput) (g := fun _ x => { x with moved := false })
      (fun _ => True) (fun _ _ _ => trivial) (fun k s _ => by simp [newTickInput])
      (fun k j s hj => by simp [newTickInput, input_setInput_ne _ hj]) allLines nodup_allLines s trivial k
    rw [h, if_pos (mem_allLines k)]
  · exact each_induct (fun t => t = { s with inputs := t.inputs })
      (fun k t ht => by unfold newTickInput State.setInput; rw [ht]) allLines s rfl

/-- A tick: the clocks advance, the pins take what their lines drive, the notes of the tick before are cleared. -/
theorem tick_spec (s : State) :
    (∀ g, (tick s).gen g = { s.gen g with edgeTaken := false })
      ∧ (∀ k, (tick s).input k = { s.input k with moved := false })
      ∧ tick s = { s with
          pins := drivenPins s
          inputs := (tick s).inputs
          sync := { s.sync with moved := false }
          time := { s.time with elapsed := s.time.elapsed + 1, schedule := s.time.schedule + 1 }
          gens := (tick s).gens } := by
  obtain ⟨hg, hi, hs⟩ := newTickGens s
  obtain ⟨hk, hs'⟩ := newTickInputs (State.each allGens newTickGen s)
  generalize hG : State.each allGens newTickGen s = G at *
  generalize hT : State.each allLines newTickInput G = T at *
  have hgens : T.gens = G.gens := by rw [hs']
  have ht : tick s = { T with
      pins := drivenPins s
      sync := { T.sync with moved := false }
      time := { s.time with elapsed := s.time.elapsed + 1, schedule := s.time.schedule + 1 } } := by
    rw [← hT, ← hG]; rfl
  refine ⟨fun g => ?_, fun k => ?_, ?_⟩
  · rw [← hg g, ht]
    simp only [State.gen, hgens]
  · rw [ht]
    simp only [State.input] at hk ⊢
    rw [hk k, hi]
  · rw [ht, hs', hs]

end Sys2Proof.Machine
end

