-- ==== Sys2Proof/Laws/Lanes.lean ====
section
/-!
SUPPORT. Lane by lane: what an operation on one lane leaves of the others.
-/

namespace Sys2Proof.Machine

set_option linter.unusedSimpArgs false
set_option linter.unusedTactic false
set_option linter.unreachableTactic false

/-! ## Other lanes -/

theorem setLaneState_other (s : State) (n : LaneNo) (st : LaneState) {m : LaneNo} (hm : n ≠ m) :
    (setLaneState n st s).lane m = s.lane m := by
  unfold setLaneState; split <;> simp [lane_setLane_ne _ hm]

theorem setHold_other (s : State) (n : LaneNo) (b : Bool) {m : LaneNo} (hm : n ≠ m) :
    (setHold n b s).lane m = s.lane m := by
  unfold setHold; split <;> simp [lane_setLane_ne _ hm]

theorem setStall_other (s : State) (n : LaneNo) (st : Stall) {m : LaneNo} (hm : n ≠ m) :
    (setStall n st s).lane m = s.lane m := by
  unfold setStall; split <;> simp [lane_setLane_ne _ hm]

theorem stopFetcher_other (s : State) (n : LaneNo) {m : LaneNo} (hm : n ≠ m) :
    (stopFetcher n s).lane m = s.lane m := by simp [stopFetcher, lane_setLane_ne _ hm, setStall_other (hm := hm)]

theorem withdrawWait_other (s : State) (n : LaneNo) {m : LaneNo} (hm : n ≠ m) :
    (withdrawWait n s).lane m = s.lane m := by
  unfold withdrawWait; split <;> simp [lane_setLane_ne _ hm]

theorem ceaseLane_other (s : State) (n : LaneNo) (st : LaneState) {m : LaneNo} (hm : n ≠ m) :
    (ceaseLane n st s).lane m = s.lane m := by
  simp [ceaseLane, lane_setLane_ne _ hm, stopFetcher_other (hm := hm), withdrawWait_other (hm := hm)]

theorem retirePages_other (s : State) (n : LaneNo) (c : EndCode) {m : LaneNo} (hm : n ≠ m) :
    (retirePages n c s).lane m = s.lane m := by
  exact lane_setLane_ne _ hm _

theorem oweException_other (s : State) (n : LaneNo) (e : Exception) {m : LaneNo} (hm : n ≠ m) :
    (oweException n e s).lane m = s.lane m := by simp [oweException, lane_setLane_ne _ hm]

theorem laneFault_other (s : State) (n : LaneNo) (c : FaultCode) (a : Addr) {m : LaneNo} (hm : n ≠ m) :
    (laneFault n c a s).lane m = s.lane m := by
  simp [laneFault, lane_setLane_ne _ hm, oweException_other (hm := hm), retirePages_other (hm := hm),
      ceaseLane_other (hm := hm)]

theorem fetchFault_other (s : State) (n : LaneNo) (c : FaultCode) (a : Addr) {m : LaneNo} (hm : n ≠ m) :
    (fetchFault n c a s).lane m = s.lane m := by
  unfold fetchFault; dsimp only; split <;> simp [lane_setLane_ne _ hm, laneFault_other (hm := hm),
      setStall_other (hm := hm)]

theorem presentFetch_other (s : State) (n : LaneNo) (r : FetchRead) {m : LaneNo} (hm : n ≠ m) :
    (presentFetch n r s).lane m = s.lane m := by simp [presentFetch, lane_setLane_ne _ hm]

theorem presentHeader_other (s : State) (n : LaneNo) {m : LaneNo} (hm : n ≠ m) :
    (presentHeader n s).lane m = s.lane m := by
  unfold presentHeader; dsimp only; split <;> first
    | rfl
    | (simp [lane_setLane_ne _ hm, presentFetch_other (hm := hm), fetchFault_other (hm := hm)]; done)
    | (split <;> simp [lane_setLane_ne _ hm, presentFetch_other (hm := hm), fetchFault_other (hm := hm)])

theorem presentBurst_other (s : State) (n : LaneNo) {m : LaneNo} (hm : n ≠ m) :
    (presentBurst n s).lane m = s.lane m := by
  unfold presentBurst; dsimp only; split <;> first
    | rfl
    | (simp [lane_setLane_ne _ hm, presentFetch_other (hm := hm), fetchFault_other (hm := hm)]; done)
    | (split <;> simp [lane_setLane_ne _ hm, presentFetch_other (hm := hm), fetchFault_other (hm := hm)])

theorem presentLink_other (s : State) (n : LaneNo) {m : LaneNo} (hm : n ≠ m) :
    (presentLink n s).lane m = s.lane m := by
  unfold presentLink; dsimp only; split <;> simp [lane_setLane_ne _ hm, presentFetch_other (hm := hm),
      fetchFault_other (hm := hm)]

theorem goToHeader_other (s : State) (n : LaneNo) (a : Addr) {m : LaneNo} (hm : n ≠ m) :
    (goToHeader n a s).lane m = s.lane m := by
  simp [goToHeader, lane_setLane_ne _ hm, presentHeader_other (hm := hm), setStall_other (hm := hm)]

theorem judgeHead_other (s : State) (n : LaneNo) (a : Addr) {m : LaneNo} (hm : n ≠ m) :
    (judgeHead n a s).lane m = s.lane m := by
  unfold judgeHead; split <;> first
    | (simp [lane_setLane_ne _ hm, setStall_other (hm := hm), fetchFault_other (hm := hm),
        goToHeader_other (hm := hm)]; done)
    | (split <;> simp [lane_setLane_ne _ hm, setStall_other (hm := hm), fetchFault_other (hm := hm),
        goToHeader_other (hm := hm)])

theorem startFetcher_other (s : State) (n : LaneNo) {m : LaneNo} (hm : n ≠ m) :
    (startFetcher n s).lane m = s.lane m := by
  simp [startFetcher, lane_setLane_ne _ hm, judgeHead_other (hm := hm)]

theorem takePage_other (s : State) (n : LaneNo) (h : BitVec 256) {m : LaneNo} (hm : n ≠ m) :
    (takePage n h s).lane m = s.lane m := by
  simp [takePage, lane_setLane_ne _ hm, presentBurst_other (hm := hm), setStall_other (hm := hm)]

theorem judgeHeader_other (s : State) (n : LaneNo) (h : BitVec 256) {m : LaneNo} (hm : n ≠ m) :
    (judgeHeader n h s).lane m = s.lane m := by
  unfold judgeHeader; dsimp only; split <;> first
    | rfl
    | (simp [lane_setLane_ne _ hm, takePage_other (hm := hm), setStall_other (hm := hm),
        fetchFault_other (hm := hm)]; done)
    | (split <;> simp [lane_setLane_ne _ hm, takePage_other (hm := hm), setStall_other (hm := hm),
        fetchFault_other (hm := hm)])

theorem judgeLink_other (s : State) (n : LaneNo) (a : Addr) {m : LaneNo} (hm : n ≠ m) :
    (judgeLink n a s).lane m = s.lane m := by
  unfold judgeLink; split <;> first
    | (simp [lane_setLane_ne _ hm, setStall_other (hm := hm), fetchFault_other (hm := hm),
        goToHeader_other (hm := hm)]; done)
    | (split <;> simp [lane_setLane_ne _ hm, setStall_other (hm := hm), fetchFault_other (hm := hm),
        goToHeader_other (hm := hm)])

theorem queueBurst_other (s : State) (n : LaneNo) (cs : List (BitVec 256)) {m : LaneNo} (hm : n ≠ m) :
    (queueBurst n cs s).lane m = s.lane m := by simp [queueBurst, lane_setLane_ne _ hm]

theorem fetchOn_other (s : State) (n : LaneNo) {m : LaneNo} (hm : n ≠ m) :
    (fetchOn n s).lane m = s.lane m := by
  unfold fetchOn; dsimp only; split <;> simp [lane_setLane_ne _ hm, presentBurst_other (hm := hm),
      presentLink_other (hm := hm)]

theorem surveyFetcher_other (s : State) (n : LaneNo) {m : LaneNo} (hm : n ≠ m) :
    (surveyFetcher n s).lane m = s.lane m := by
  unfold surveyFetcher; dsimp only; split <;> first
    | rfl
    | (simp [lane_setLane_ne _ hm, presentFetch_other (hm := hm), presentLink_other (hm := hm),
        presentHeader_other (hm := hm)]; done)
    | (split <;> simp [lane_setLane_ne _ hm, presentFetch_other (hm := hm), presentLink_other (hm := hm),
        presentHeader_other (hm := hm)])

theorem retireFinished_other (s : State) (n : LaneNo) {m : LaneNo} (hm : n ≠ m) :
    (retireFinished n s).lane m = s.lane m := by
  unfold retireFinished; dsimp only; split <;> first
    | rfl
    | (simp [lane_setLane_ne _ hm]; done)
    | (split <;> simp [lane_setLane_ne _ hm])

theorem countCue_other (s : State) (n : LaneNo) (f : Finish) {m : LaneNo} (hm : n ≠ m) :
    (countCue n f s).lane m = s.lane m := by
  unfold countCue; dsimp only; split <;> simp [lane_setLane_ne _ hm]

theorem finishCue_other (s : State) (n : LaneNo) (f : Finish) {m : LaneNo} (hm : n ≠ m) :
    (finishCue n f s).lane m = s.lane m := by
  simp [finishCue, lane_setLane_ne _ hm, countCue_other (hm := hm), retireFinished_other (hm := hm),
      presentBurst_other (hm := hm)]

theorem acceptGrant_other (s : State) (n : LaneNo) {m : LaneNo} (hm : n ≠ m) :
    (acceptGrant n s).lane m = s.lane m := by
  simp [acceptGrant, lane_setLane_ne _ hm, finishCue_other (hm := hm)]

theorem starve_other (s : State) (n : LaneNo) {m : LaneNo} (hm : n ≠ m) :
    (starve n s).lane m = s.lane m := by
  unfold starve; dsimp only; split <;> simp [lane_setLane_ne _ hm, setLaneState_other (hm := hm)]

theorem enterWait_other (s : State) (n : LaneNo) (st : LaneState) (w : Wait) {m : LaneNo} (hm : n ≠ m) :
    (enterWait n st w s).lane m = s.lane m := by
  simp [enterWait, lane_setLane_ne _ hm]

theorem beginInputWait_other (s : State) (n : LaneNo) (k : LineNo) (e : EdgeSelect) (t : Word) (c : Bool)
    {m : LaneNo} (hm : n ≠ m) :
    (beginInputWait n k e t c s).lane m = s.lane m := by
  simp [beginInputWait, enterWait_other (hm := hm)]

theorem beginClaimWait_other (s : State) (n : LaneNo) (k : LineNo) (t : Half) {m : LaneNo} (hm : n ≠ m) :
    (beginClaimWait n k t s).lane m = s.lane m := by
  simp [beginClaimWait, enterWait_other (hm := hm)]

theorem cueFault_other (s : State) (n : LaneNo) (c : FaultCode) {m : LaneNo} (hm : n ≠ m) :
    (cueFault n c s).state.lane m = s.lane m := by
  simp [cueFault, Ran.rest, lane_setLane_ne _ hm, laneFault_other (hm := hm)]

/-! ## The lane itself -/

theorem setLaneState_self (s : State) (n : LaneNo) (st : LaneState) :
    (setLaneState n st s).lane n = { s.lane n with state := st } := by
  unfold setLaneState; split
  · rename_i h; rw [← h]
  · simp

theorem setHold_self (s : State) (n : LaneNo) (b : Bool) :
    (setHold n b s).lane n = { s.lane n with holdRequest := b } := by
  unfold setHold; split
  · rename_i h; rw [← h]
  · simp

theorem setStall_self (s : State) (n : LaneNo) (st : Stall) :
    (setStall n st s).lane n = { s.lane n with stall := st } := by
  unfold setStall; split
  · rename_i h; rw [← h]
  · simp

theorem stopFetcher_self (s : State) (n : LaneNo) :
    (stopFetcher n s).lane n = { (s.lane n).fetcherStopped with stall := .none } := by
  simp [stopFetcher, setStall_self]

theorem withdrawWait_self (s : State) (n : LaneNo) :
    (withdrawWait n s).lane n = { s.lane n with wait := .none } := by
  unfold withdrawWait; dsimp only; split <;> simp

/-- A lane whose execution has ceased in a state (R16, R19, R24). -/
theorem ceaseLane_self (s : State) (n : LaneNo) (st : LaneState) :
    (ceaseLane n st s).lane n =
      { s.lane n with
        wait := .none
        discarded := (s.lane n).discarded + BitVec.ofNat 32 (s.lane n).queue.length
        queue := []
        hasCurrent := false
        lateRun := false
        state := st
        holdRequest := false
        running := false
        request := none
        flight := (s.lane n).flight.map Flight.discarded
        reserved := 0
        pendingFault := none
        stall := .none } := by
  simp [ceaseLane, stopFetcher_self, withdrawWait_self, Lane.queueDiscarded, Lane.fetcherStopped]

theorem retirePages_self (s : State) (n : LaneNo) (c : EndCode) :
    (retirePages n c s).lane n =
      { s.lane n with pages := (s.lane n).pages.map fun p => p.closed c s.time.schedule } :=
  lane_setLane_self _ _ _

theorem oweException_self (s : State) (n : LaneNo) (e : Exception) :
    (oweException n e s).lane n = { s.lane n with exceptions := (s.lane n).exceptions ++ [e] } :=
  lane_setLane_self _ _ _

@[simp] theorem faultOwnedLines_time (s : State) (n : LaneNo) : (faultOwnedLines n s).time = s.time :=
  congrArg Fixed.time (faultOwnedLines_fixed n s)

@[simp] theorem ceaseLane_time (s : State) (n : LaneNo) (st : LaneState) : (ceaseLane n st s).time = s.time :=
  congrArg Fixed.time (ceaseLane_fixed n st s)

/-- A lane after its fault, cue-side or fetch-side (R19). -/
theorem laneFault_self (s : State) (n : LaneNo) (c : FaultCode) (a : Addr) :
    (laneFault n c a s).lane n =
      { s.lane n with
        wait := .none
        discarded := (s.lane n).discarded + BitVec.ofNat 32 (s.lane n).queue.length
        queue := []
        hasCurrent := false
        lateRun := false
        state := .faulted
        holdRequest := false
        running := false
        request := none
        flight := (s.lane n).flight.map Flight.discarded
        reserved := 0
        pendingFault := none
        stall := .none
        fault := c
        pages := (s.lane n).pages.map fun p => p.closed (.fault c) s.time.schedule
        exceptions := (s.lane n).exceptions ++
          [{ state := .faulted, code := c, serial := (s.lane n).serial, page := a }] } := by
  simp [laneFault, oweException_self, retirePages_self, ceaseLane_self]

/-- The fetcher after a fault that leaves its lane running on (R18, R44). -/
theorem fetchFault_self (s : State) (n : LaneNo) (c : FaultCode) (a : Addr) (h : (s.lane n).state ≠ .starved) :
    (fetchFault n c a s).lane n =
      { s.lane n with pendingFault := some (c, a), request := none, stall := .fetchFault } := by
  simp [fetchFault, setStall_self, h]

/-- A fetch-side fault of a STARVED lane faults it at once (R18, R44). -/
theorem fetchFault_starved (s : State) (n : LaneNo) (c : FaultCode) (a : Addr) (h : (s.lane n).state = .starved) :
    fetchFault n c a s =
      laneFault n c a (setStall n .fetchFault
        (s.setLane n { s.lane n with pendingFault := some (c, a), request := none })) := by
  simp [fetchFault, setStall_self, h]

theorem presentFetch_self (s : State) (n : LaneNo) (r : FetchRead) :
    (presentFetch n r s).lane n = { s.lane n with request := some r } :=
  lane_setLane_self _ _ _

theorem startFetcher_atZero (s : State) (n : LaneNo) (h : (s.lane n).config.head = 0) :
    startFetcher n s = setStall n .headField (s.setLane n (s.lane n).fetcherStarted) := by
  simp [startFetcher, judgeHead, h]

theorem countCue_self (s : State) (n : LaneNo) (f : Finish) :
    ∃ x, (countCue n f s).lane n = { (s.lane n).finished f with lastNotified := x } := by
  unfold countCue; dsimp only; split
  · exact ⟨(s.lane n).serial, by simp [postProgress]⟩
  · exact ⟨(s.lane n).lastNotified, by simp [Lane.finished]⟩

end Sys2Proof.Machine
end

