-- ==== Sys2Proof/Laws/Lines.lean ====
section
/-!
SUPPORT. Line by line: what an operation does to the line it names and what it leaves of the others.
-/

namespace Sys2Proof.Machine

/-! ## Modes -/

theorem setMode_self (s : State) (k : LineNo) (m : OutMode) :
    (setMode k m s).line k = { s.line k with mode := m } := line_setLine_self _ _ _

theorem setMode_other (s : State) (k : LineNo) (m : OutMode) {j : LineNo} (hj : k ≠ j) :
    (setMode k m s).line j = s.line j := line_setLine_ne _ hj _

theorem driveStatic_self (s : State) (k : LineNo) (l : Level) :
    (driveStatic k l s).line k = { s.line k with mode := .static l } := by
  simp [driveStatic, setMode_self]

theorem driveStatic_other (s : State) (k : LineNo) (l : Level) {j : LineNo} (hj : k ≠ j) :
    (driveStatic k l s).line j = s.line j := by
  simp [driveStatic, setMode_other (hj := hj)]

/-- SET_LINES on the lines of a mask (R75). -/
theorem setLineLevels_line (s : State) (mask levels : Half) (k : LineNo) :
    (State.each (maskLines mask) (setLineLevel levels) s).line k =
      if mask.getLsbD k.val then { s.line k with mode := .static (levelOfBit (levels.getLsbD k.val)) }
      else s.line k := by
  have h := each_at (get := State.line) (f := setLineLevel levels)
    (g := fun k x => { x with mode := .static (levelOfBit (levels.getLsbD k.val)) }) (fun _ => True)
    (fun _ _ _ => trivial) (fun x s _ => driveStatic_self s x _) (fun x y s hxy => driveStatic_other s x _ hxy)
    (maskLines mask) (nodup_allLines.filter _) s trivial k
  rw [h]
  simp [maskLines, mem_allLines]

theorem takeFaultAction_self (s : State) (k : LineNo) :
    (takeFaultAction k s).line k = { s.line k with mode := faultMode (s.line k).faultAction (s.line k).mode } := by
  simp [takeFaultAction, setMode_self]

theorem takeFaultAction_other (s : State) (k : LineNo) {j : LineNo} (hj : k ≠ j) :
    (takeFaultAction k s).line j = s.line j := by
  simp [takeFaultAction, setMode_other (hj := hj)]

/-- Every line takes its fault action as the part enters FAILED (R86). -/
theorem faultAll_line (s : State) (k : LineNo) :
    (State.each allLines takeFaultAction s).line k =
      { s.line k with mode := faultMode (s.line k).faultAction (s.line k).mode } := by
  have h := each_at (get := State.line) (f := takeFaultAction)
    (g := fun _ x => { x with mode := faultMode x.faultAction x.mode }) (fun _ => True)
    (fun _ _ _ => trivial) (fun x s _ => takeFaultAction_self s x) (fun x y s hxy => takeFaultAction_other s x hxy)
    allLines nodup_allLines s trivial k
  rw [h, if_pos (mem_allLines k)]

/-- The lines of a faulting lane take their fault actions, the others stay (R85). -/
theorem faultOwnedLines_line (s : State) (n : LaneNo) (k : LineNo) :
    (faultOwnedLines n s).line k =
      if (s.line k).owner = some n then
        { s.line k with mode := faultMode (s.line k).faultAction (s.line k).mode }
      else s.line k := by
  have h := each_at (get := State.line) (f := takeFaultAction)
    (g := fun _ x => { x with mode := faultMode x.faultAction x.mode }) (fun _ => True)
    (fun _ _ _ => trivial) (fun x s _ => takeFaultAction_self s x) (fun x y s hxy => takeFaultAction_other s x hxy)
    (ownedLines s n) (nodup_allLines.filter _) s trivial k
  unfold faultOwnedLines
  rw [h]
  simp [ownedLines, owns, mem_allLines]

/-! ## Waits and claims -/

/-- A claim wait withdrawn leaves its line's list; nothing else of any line changes (R99). -/
theorem withdrawWait_line (s : State) (n : LaneNo) (k : LineNo) :
    (withdrawWait n s).line k =
      if (s.lane n).wait = .claim k then
        { s.line k with waiters := (s.line k).waiters.filter fun w => w.lane ≠ n }
      else s.line k := by
  unfold withdrawWait; dsimp only
  split
  · rename_i h; simp [h]
  · rename_i h; simp [h]
  · rename_i j h
    rw [line_setLane, h]
    unfold leaveWaiters
    rw [line_setLine]
    by_cases hj : j = k
    · subst hj; simp
    · simp [hj]

theorem ceaseLane_line (s : State) (n : LaneNo) (st : LaneState) (k : LineNo) :
    (ceaseLane n st s).line k = (withdrawWait n s).line k := by
  simp [ceaseLane]

/-- What a lane fault does to a line: the lane leaves its waiter list, and a line it owns takes its fault action (R19). -/
theorem laneFault_line (s : State) (n : LaneNo) (c : FaultCode) (a : Addr) (k : LineNo) :
    (laneFault n c a s).line k =
      if (s.line k).owner = some n then
        { (withdrawWait n s).line k with mode := faultMode (s.line k).faultAction (s.line k).mode }
      else (withdrawWait n s).line k := by
  have ho : ((withdrawWait n s).line k).owner = (s.line k).owner
      ∧ ((withdrawWait n s).line k).faultAction = (s.line k).faultAction
      ∧ ((withdrawWait n s).line k).mode = (s.line k).mode := by
    rw [withdrawWait_line]; split <;> exact ⟨rfl, rfl, rfl⟩
  simp [laneFault, faultOwnedLines_line, ceaseLane_line, ho]

/-- A line that a lane does not own and is not in the waiter list of. -/
theorem laneFault_line_of_free (s : State) (n : LaneNo) (c : FaultCode) (a : Addr) (k : LineNo)
    (ho : (s.line k).owner ≠ some n) (hw : (s.line k).waiters = [] ∨ (s.lane n).wait ≠ .claim k) :
    (laneFault n c a s).line k = s.line k := by
  rw [laneFault_line, if_neg ho, withdrawWait_line]
  split
  · rename_i h
    rcases hw with hw | hw
    · have : (s.line k).waiters.filter (fun w => w.lane ≠ n) = (s.line k).waiters := by rw [hw]; rfl
      rw [this]
    · exact absurd h hw
  · rfl

/-! ## Ownership -/

theorem passOwnership_other (s : State) (k : LineNo) {j : LineNo} (hj : k ≠ j) :
    (passOwnership k s).1.line j = s.line j := by
  unfold passOwnership; dsimp only; split <;> exact line_setLine_ne _ hj _

theorem releaseLine_other (s : State) (k : LineNo) {j : LineNo} (hj : k ≠ j) :
    (releaseLine k s).1.line j = s.line j := by
  simp [releaseLine, passOwnership_other (hj := hj), driveStatic_other (hj := hj)]

/-- A release of a line with no waiter (R94). -/
theorem releaseLine_free (s : State) (k : LineNo) (h : (s.line k).waiters = []) :
    (releaseLine k s).2 = none
      ∧ (releaseLine k s).1.line k = { s.line k with mode := .static (s.line k).rest, owner := none } := by
  simp [releaseLine, passOwnership, driveStatic_self, h]

/-- A release of a line with waiters: the oldest is the new owner (R94). -/
theorem releaseLine_granted (s : State) (k : LineNo) (w : Waiter) (rest : List Waiter)
    (h : (s.line k).waiters = w :: rest) :
    (releaseLine k s).2 = some w.lane
      ∧ (releaseLine k s).1.line k =
          { s.line k with mode := .static (s.line k).rest, owner := some w.lane, waiters := rest } := by
  simp [releaseLine, passOwnership, driveStatic_self, h]

end Sys2Proof.Machine
end

