-- ==== Sys2Proof/Laws/Memory.lean ====
section
/-!
SUPPORT. The bytes of memory: every operation keeps the canonical form, and what a byte reads as after a write.
-/

namespace Sys2Proof.Machine

theorem Memory.risingFrom_mono {a b : Nat} (h : a ≤ b) :
    ∀ m : List Host.Cell, Memory.risingFrom b m = true → Memory.risingFrom a m = true
  | [], _ => rfl
  | (x, _) :: rest, hm => by
    simp only [Memory.risingFrom, Bool.and_eq_true, decide_eq_true_eq] at hm ⊢
    exact ⟨by omega, hm.2⟩

theorem Memory.wf_of_risingFrom {a : Nat} :
    ∀ m : List Host.Cell, Memory.risingFrom a m = true → Memory.wf m = true
  | [], _ => rfl
  | (_, _) :: _, hm => by
    simp only [Memory.risingFrom, Bool.and_eq_true] at hm
    exact hm.2

/-- A byte set above a bound keeps the cells above it, rising. -/
theorem Memory.set_risingFrom {b a : Nat} {v : Byte} (hb : b < a) :
    ∀ m : List Host.Cell, Memory.risingFrom b m = true → Memory.risingFrom b (Memory.set m a v) = true
  | [], _ => by simp [Memory.set, Memory.risingFrom, hb]
  | (x, y) :: rest, hm => by
    simp only [Memory.risingFrom, Bool.and_eq_true, decide_eq_true_eq] at hm
    unfold Memory.set
    split
    · simp [Memory.risingFrom, *]
    · split
      · subst_vars
        simp [Memory.risingFrom, hm.2, hb]
      · have := Memory.set_risingFrom (b := x) (a := a) (v := v) (by omega) rest hm.2
        simp [Memory.risingFrom, hm.1, this]

/-- A byte set keeps the canonical form. -/
theorem Memory.set_wf {a : Nat} {v : Byte} :
    ∀ m : List Host.Cell, Memory.wf m = true → Memory.wf (Memory.set m a v) = true
  | [], _ => rfl
  | (x, y) :: rest, hm => by
    simp only [Memory.wf] at hm
    unfold Memory.set
    split
    · simp [Memory.wf, Memory.risingFrom, *]
    · split
      · subst_vars
        simpa [Memory.wf] using hm
      · simpa [Memory.wf] using Memory.set_risingFrom (b := x) (a := a) (v := v) (by omega) rest hm

/-- A write keeps the canonical form. -/
theorem Memory.write_wf :
    ∀ (bs : List Byte) (m : List Host.Cell) (a : Addr), Memory.wf m = true → Memory.wf (Memory.write m a bs) = true
  | [], _, _, hm => hm
  | _ :: bs, _, a, hm => Memory.write_wf bs _ (a + 1) (Memory.set_wf _ hm)

/-- Every operation on memory is a write, and keeps the canonical form. -/
theorem performWrite_wf (w : Write) (s : State) (h : Memory.wf s.memory = true) :
    Memory.wf (performWrite w s).memory = true :=
  Memory.write_wf w.bytes s.memory w.addr h

/-- Empty memory has the canonical form. -/
theorem reset_memory_wf : Memory.wf State.reset.memory = true := rfl

/-- The byte set reads as the value set. -/
theorem Memory.get_set_self (a : Nat) (v : Byte) :
    ∀ m : List Host.Cell, Memory.get (Memory.set m a v) a = some v
  | [] => by simp [Memory.set, Memory.get]
  | (x, y) :: rest => by
    unfold Memory.set
    split
    · simp [Memory.get]
    · split
      · simp [Memory.get]
      · simp [Memory.get, *, Memory.get_set_self a v rest]

/-- Every other byte reads as before. -/
theorem Memory.get_set_other {a b : Nat} (v : Byte) (h : b ≠ a) :
    ∀ m : List Host.Cell, Memory.get (Memory.set m a v) b = Memory.get m b
  | [] => by simp [Memory.set, Memory.get, h]
  | (x, y) :: rest => by
    unfold Memory.set
    split
    · simp [Memory.get, h]
    · split
      · subst_vars
        simp [Memory.get, h]
      · simp [Memory.get, Memory.get_set_other v h rest]

/-- The address one past an address that is not the last. -/
theorem Memory.next_toNat {a : Addr} {n : Nat} (h : a.toNat + (n + 1) ≤ 2 ^ 64) (hn : 0 < n) :
    (a + 1).toNat = a.toNat + 1 := by
  have h1 : (1 : Addr).toNat = 1 := rfl
  rw [BitVec.toNat_add, h1]
  omega

/-- A byte outside the written range reads as before. -/
theorem Memory.get_write_other :
    ∀ (bs : List Byte) (m : List Host.Cell) (a : Addr) (x : Nat), a.toNat + bs.length ≤ 2 ^ 64 →
      (x < a.toNat ∨ a.toNat + bs.length ≤ x) → Memory.get (Memory.write m a bs) x = Memory.get m x
  | [], _, _, _, _, _ => rfl
  | b :: bs, m, a, x, h, hx => by
    simp only [List.length_cons] at h hx
    have hne : x ≠ a.toNat := by omega
    unfold Memory.write
    rcases Nat.eq_zero_or_pos bs.length with h0 | h0
    · have : bs = [] := List.length_eq_zero_iff.mp h0
      subst this
      exact Memory.get_set_other b hne m
    · have hs := Memory.next_toNat h h0
      rw [Memory.get_write_other bs _ (a + 1) x (by omega) (by omega)]
      exact Memory.get_set_other b hne m

/-- The bytes of a write read back. -/
theorem Memory.get_write_self :
    ∀ (bs : List Byte) (m : List Host.Cell) (a : Addr) (i : Nat) (b : Byte), a.toNat + bs.length ≤ 2 ^ 64 →
      bs[i]? = some b → Memory.get (Memory.write m a bs) (a.toNat + i) = some b
  | [], _, _, _, _, _, hi => by simp at hi
  | c :: bs, m, a, 0, b, h, hi => by
    simp only [List.length_cons] at h
    simp only [List.getElem?_cons_zero, Option.some.injEq] at hi
    subst hi
    unfold Memory.write
    rcases Nat.eq_zero_or_pos bs.length with h0 | h0
    · have : bs = [] := List.length_eq_zero_iff.mp h0
      subst this
      exact Memory.get_set_self _ _ m
    · have hs := Memory.next_toNat h h0
      rw [Memory.get_write_other bs _ (a + 1) _ (by omega) (by omega)]
      exact Memory.get_set_self _ _ m
  | c :: bs, m, a, i + 1, b, h, hi => by
    simp only [List.length_cons] at h
    have hi' : bs[i]? = some b := by simpa using hi
    have h0 : 0 < bs.length := by
      rcases Nat.eq_zero_or_pos bs.length with h0 | h0
      · have : bs = [] := List.length_eq_zero_iff.mp h0
        subst this
        simp at hi'
      · exact h0
    have hs := Memory.next_toNat h h0
    have := Memory.get_write_self bs (Memory.set m a.toNat c) (a + 1) i b (by omega) hi'
    rw [hs] at this
    unfold Memory.write
    rw [← this]
    congr 1
    omega

end Sys2Proof.Machine
end

