-- ==== Sys2Proof/Laws/PerInstr.lean ====
section
/-!
SUPPORT. One family of statements about every command as syntax: the code and the operand CMD_STATUS can show for it.
-/

namespace Sys2Proof.Laws

open Sys2Proof.Machine

/-- A well-formed command is no write of a command to COMMAND, or has a code from 1 to 12 that names a command, or a code
from 13 on that names none and shows operand 0 (Table 12-9, R183, R184, R196). -/
def ShownCode.Statement (i : Instr) : Prop :=
  i.wellFormed = true → ∀ code shown, commandShown i = some (code, shown) →
    (1 ≤ code.toNat ∧ code.toNat ≤ 12) ∨ (13 ≤ code.toNat ∧ shown = 0 ∧ commandKnown i = false)

/-- A row that is no write of a command to COMMAND. -/
theorem ShownCode.of_none {i : Instr} (h : commandShown i = none) : ShownCode.Statement i := by
  intro _ code shown hs
  rw [h] at hs
  exact absurd hs (by simp)

/-- A row with the code of a command. -/
theorem ShownCode.of_code {i : Instr} {c o : Byte} (h : commandShown i = some (c, o))
    (hc : 1 ≤ c.toNat ∧ c.toNat ≤ 12) : ShownCode.Statement i := by
  intro _ code shown hs
  rw [h, Option.some.injEq, Prod.mk.injEq] at hs
  obtain ⟨rfl, rfl⟩ := hs
  exact Or.inl hc

theorem ShownCode.resetN : ∀ a, ShownCode.Statement (.resetN a) :=
  fun _ => ShownCode.of_none rfl

theorem ShownCode.softReset : ShownCode.Statement (.softReset) :=
  ShownCode.of_none rfl

theorem ShownCode.controlWrite : ∀ a, ShownCode.Statement (.controlWrite a) :=
  fun _ => ShownCode.of_none rfl

theorem ShownCode.registerWrite : ∀ a b, ShownCode.Statement (.registerWrite a b) :=
  fun _ _ => ShownCode.of_none rfl

theorem ShownCode.noticeAck : ∀ a, ShownCode.Statement (.noticeAck a) :=
  fun _ => ShownCode.of_none rfl

theorem ShownCode.undefinedCommand : ∀ a b, ShownCode.Statement (.undefinedCommand a b) := by
  intro a b hw code shown hs
  by_cases h : a = codeNone
  · simp [commandShown, h] at hs
  · simp only [commandShown, if_neg h, Option.some.injEq, Prod.mk.injEq] at hs
    obtain ⟨rfl, rfl⟩ := hs
    have hn : a ≠ 0#8 := h
    simp [Instr.wellFormed, Instr.codeNamesNoCommand, hn] at hw
    exact Or.inr ⟨hw, rfl, rfl⟩

theorem ShownCode.start : ∀ a, ShownCode.Statement (.start a) :=
  fun _ => ShownCode.of_code rfl (by decide)

theorem ShownCode.startReadDone : ∀ a b, ShownCode.Statement (.startReadDone a b) :=
  fun _ _ => ShownCode.of_none rfl

theorem ShownCode.startReadError : ShownCode.Statement (.startReadError) :=
  ShownCode.of_none rfl

theorem ShownCode.startActivate : ShownCode.Statement (.startActivate) :=
  ShownCode.of_none rfl

theorem ShownCode.stop : ∀ a, ShownCode.Statement (.stop a) :=
  fun _ => ShownCode.of_code rfl (by decide)

theorem ShownCode.stopStatusStep : ShownCode.Statement (.stopStatusStep) :=
  ShownCode.of_none rfl

theorem ShownCode.stopFloatStep : ShownCode.Statement (.stopFloatStep) :=
  ShownCode.of_none rfl

theorem ShownCode.laneStop : ∀ a, ShownCode.Statement (.laneStop a) :=
  fun _ => ShownCode.of_code rfl (by decide)

theorem ShownCode.laneStopComplete : ShownCode.Statement (.laneStopComplete) :=
  ShownCode.of_none rfl

theorem ShownCode.laneRestart : ∀ a, ShownCode.Statement (.laneRestart a) :=
  fun _ => ShownCode.of_code rfl (by decide)

theorem ShownCode.laneRestartReadDone : ∀ a, ShownCode.Statement (.laneRestartReadDone a) :=
  fun _ => ShownCode.of_none rfl

theorem ShownCode.laneRestartReadError : ShownCode.Statement (.laneRestartReadError) :=
  ShownCode.of_none rfl

theorem ShownCode.laneRestartComplete : ShownCode.Statement (.laneRestartComplete) :=
  ShownCode.of_none rfl

theorem ShownCode.journalRestart : ∀ a, ShownCode.Statement (.journalRestart a) :=
  fun _ => ShownCode.of_code rfl (by decide)

theorem ShownCode.journalRestartReadDone : ∀ a, ShownCode.Statement (.journalRestartReadDone a) :=
  fun _ => ShownCode.of_none rfl

theorem ShownCode.journalRestartReadError : ShownCode.Statement (.journalRestartReadError) :=
  ShownCode.of_none rfl

theorem ShownCode.journalRestartComplete : ShownCode.Statement (.journalRestartComplete) :=
  ShownCode.of_none rfl

theorem ShownCode.armAlign : ∀ a, ShownCode.Statement (.armAlign a) :=
  fun _ => ShownCode.of_code rfl (by decide)

theorem ShownCode.armAlignReadDone : ∀ a, ShownCode.Statement (.armAlignReadDone a) :=
  fun _ => ShownCode.of_none rfl

theorem ShownCode.armAlignReadError : ShownCode.Statement (.armAlignReadError) :=
  ShownCode.of_none rfl

theorem ShownCode.alignNow : ∀ a, ShownCode.Statement (.alignNow a) :=
  fun _ => ShownCode.of_code rfl (by decide)

theorem ShownCode.alignNowReadDone : ∀ a, ShownCode.Statement (.alignNowReadDone a) :=
  fun _ => ShownCode.of_none rfl

theorem ShownCode.alignNowComplete : ShownCode.Statement (.alignNowComplete) :=
  ShownCode.of_none rfl

theorem ShownCode.alignNowReadError : ShownCode.Statement (.alignNowReadError) :=
  ShownCode.of_none rfl

theorem ShownCode.resurvey : ∀ a, ShownCode.Statement (.resurvey a) :=
  fun _ => ShownCode.of_code rfl (by decide)

theorem ShownCode.laneHold : ∀ a, ShownCode.Statement (.laneHold a) :=
  fun _ => ShownCode.of_code rfl (by decide)

theorem ShownCode.laneResume : ∀ a, ShownCode.Statement (.laneResume a) :=
  fun _ => ShownCode.of_code rfl (by decide)

theorem ShownCode.journalFlush : ∀ a, ShownCode.Statement (.journalFlush a) :=
  fun _ => ShownCode.of_code rfl (by decide)

theorem ShownCode.disarmAlign : ∀ a, ShownCode.Statement (.disarmAlign a) :=
  fun _ => ShownCode.of_code rfl (by decide)

theorem ShownCode.dueReached : ∀ a, ShownCode.Statement (.dueReached a) :=
  fun _ => ShownCode.of_none rfl

theorem ShownCode.waitInputExpiry : ∀ a, ShownCode.Statement (.waitInputExpiry a) :=
  fun _ => ShownCode.of_none rfl

theorem ShownCode.claimExpiry : ∀ a b, ShownCode.Statement (.claimExpiry a b) :=
  fun _ _ => ShownCode.of_none rfl

theorem ShownCode.inputTransition : ∀ a b, ShownCode.Statement (.inputTransition a b) :=
  fun _ _ => ShownCode.of_none rfl

theorem ShownCode.deadTimeExpiry : ∀ a, ShownCode.Statement (.deadTimeExpiry a) :=
  fun _ => ShownCode.of_none rfl

theorem ShownCode.syncEvent : ∀ a, ShownCode.Statement (.syncEvent a) :=
  fun _ => ShownCode.of_none rfl

theorem ShownCode.pulseEnd : ∀ a, ShownCode.Statement (.pulseEnd a) :=
  fun _ => ShownCode.of_none rfl

theorem ShownCode.wavePhaseEnd : ∀ a, ShownCode.Statement (.wavePhaseEnd a) :=
  fun _ => ShownCode.of_none rfl

theorem ShownCode.derivedEdge : ∀ a, ShownCode.Statement (.derivedEdge a) :=
  fun _ => ShownCode.of_none rfl

theorem ShownCode.virtualEdge : ∀ a, ShownCode.Statement (.virtualEdge a) :=
  fun _ => ShownCode.of_none rfl

theorem ShownCode.surveyExpiry : ShownCode.Statement (.surveyExpiry) :=
  ShownCode.of_none rfl

theorem ShownCode.gatherExpiry : ShownCode.Statement (.gatherExpiry) :=
  ShownCode.of_none rfl

theorem ShownCode.flushTimerExpiry : ShownCode.Statement (.flushTimerExpiry) :=
  ShownCode.of_none rfl

theorem ShownCode.headFieldReadDone : ∀ a b, ShownCode.Statement (.headFieldReadDone a b) :=
  fun _ _ => ShownCode.of_none rfl

theorem ShownCode.headerReadDone : ∀ a b, ShownCode.Statement (.headerReadDone a b) :=
  fun _ _ => ShownCode.of_none rfl

theorem ShownCode.cueBurstDone : ∀ a b, ShownCode.Statement (.cueBurstDone a b) :=
  fun _ _ => ShownCode.of_none rfl

theorem ShownCode.linkReadDone : ∀ a b, ShownCode.Statement (.linkReadDone a b) :=
  fun _ _ => ShownCode.of_none rfl

theorem ShownCode.fetchReadError : ∀ a, ShownCode.Statement (.fetchReadError a) :=
  fun _ => ShownCode.of_none rfl

theorem ShownCode.journalHeadFieldReadDone : ∀ a, ShownCode.Statement (.journalHeadFieldReadDone a) :=
  fun _ => ShownCode.of_none rfl

theorem ShownCode.journalHeaderReadDone : ∀ a, ShownCode.Statement (.journalHeaderReadDone a) :=
  fun _ => ShownCode.of_none rfl

theorem ShownCode.journalLinkReadDone : ∀ a, ShownCode.Statement (.journalLinkReadDone a) :=
  fun _ => ShownCode.of_none rfl

theorem ShownCode.journalReadError : ShownCode.Statement (.journalReadError) :=
  ShownCode.of_none rfl

theorem ShownCode.memoryService : ShownCode.Statement (.memoryService) :=
  ShownCode.of_none rfl

theorem ShownCode.writeComplete : ShownCode.Statement (.writeComplete) :=
  ShownCode.of_none rfl

theorem ShownCode.writeError : ShownCode.Statement (.writeError) :=
  ShownCode.of_none rfl

end Sys2Proof.Laws
end

