-- ==== Sys2Proof/Laws/Runs.lean ====
section
/-!
SUPPORT. What a run of the lanes can do: the relation `WorkFrame` says once what every micro-step and so every run leaves,
and `runLanes_other` that a lane which neither runs nor waits for a line is not touched.
-/

namespace Sys2Proof.Machine

/-- What the work of the lanes leaves: the fixed part, the inputs but for the capture enable, the journal but for records
that join the FIFO and losses, and the notice slots but PROGRESS, JOURNAL_TROUBLE and STARVATION. -/
structure WorkFrame (s t : State) : Prop where
  fixed : t.fixed = s.fixed
  input : ∀ k, t.input k = { s.input k with captureEnable := (t.input k).captureEnable }
  journal : t.journal = { s.journal with
    fifo := t.journal.fifo
    pendingLoss := t.journal.pendingLoss
    sessionLoss := t.journal.sessionLoss
    lossReported := t.journal.lossReported }
  fifo : ∃ more, t.journal.fifo = s.journal.fifo ++ more
  bound : s.journal.fifo.length ≤ 64 → t.journal.fifo.length ≤ 64
  slot : ∀ k : SlotNo, 4 ≤ k.val → k ≠ troubleSlot → k ≠ starvationSlot → t.slot k = s.slot k

namespace WorkFrame

theorem refl (s : State) : WorkFrame s s :=
  ⟨rfl, fun _ => rfl, rfl, ⟨[], by simp⟩, id, fun _ _ _ _ => rfl⟩

theorem trans {s t u : State} (h : WorkFrame s t) (h' : WorkFrame t u) : WorkFrame s u := by
  refine ⟨h'.fixed.trans h.fixed, fun k => ?_, ?_, ?_, fun hb => h'.bound (h.bound hb),
    fun k a b c => (h'.slot k a b c).trans (h.slot k a b c)⟩
  · rw [h'.input k, h.input k]
  · rw [h'.journal, h.journal]
  · obtain ⟨m, hm⟩ := h.fifo
    obtain ⟨m', hm'⟩ := h'.fifo
    exact ⟨m ++ m', by rw [hm', hm, List.append_assoc]⟩

/-- An operation that leaves inputs, journal and notices alone is within the frame. -/
theorem of_kept {s t : State} (hf : t.fixed = s.fixed) (hi : t.inputs = s.inputs) (hj : t.journal = s.journal)
    (hn : t.notice = s.notice) : WorkFrame s t := by
  refine ⟨hf, fun k => ?_, by rw [hj], ⟨[], by simp [hj]⟩, by simp [hj], fun k _ _ _ => ?_⟩
  · simp [State.input, hi]
  · simp [State.slot, hn]

theorem choices (s : State) (k : Nat) : WorkFrame s { s with choices := k } := of_kept rfl rfl rfl rfl

theorem each {α : Type} (f : α → State → State) (h : ∀ x s, WorkFrame s (f x s)) (xs : List α) (s : State) :
    WorkFrame s (State.each xs f s) :=
  each_induct (fun t => WorkFrame s t) (fun x t ht => ht.trans (h x t)) xs s (refl s)

end WorkFrame

/-! ## Each operation -/

theorem post_slot (k : SlotNo) (d : Details) (s : State) (j : SlotNo) :
    (post k d s).slot j = if k = j then (s.slot k).afterPosting d else s.slot j := by
  unfold post; dsimp only
  simp only [handNotice_slot]
  exact slot_setSlot s k j _

theorem post_frame (k : SlotNo) (d : Details) (s : State)
    (hk : k.val < 4 ∨ k = troubleSlot ∨ k = starvationSlot) : WorkFrame s (post k d s) := by
  refine ⟨by simp, fun j => by simp, by simp, ⟨[], by simp⟩, by simp, fun j h4 h9 h14 => ?_⟩
  rw [post_slot, if_neg]
  rintro rfl
  rcases hk with h | h | h
  · omega
  · exact h9 h
  · exact h14 h

theorem capture_frame (r : CaptureRecord) (s : State) : WorkFrame s (capture r s) := by
  unfold capture
  split
  · rename_i h
    refine ⟨rfl, fun _ => rfl, rfl, ⟨[r], rfl⟩, fun _ => ?_, fun _ _ _ _ => rfl⟩
    simp only [Config.fifoCapacity] at h
    simp; omega
  · dsimp only
    split
    · exact ⟨rfl, fun _ => rfl, rfl, ⟨[], by simp [Journal.countLoss]⟩, by simp [Journal.countLoss],
        fun _ _ _ _ => rfl⟩
    · refine WorkFrame.trans ?_ (post_frame troubleSlot _ _ (Or.inr (Or.inl rfl)))
      exact ⟨rfl, fun _ => rfl, rfl, ⟨[], by simp [Journal.countLoss]⟩, by simp [Journal.countLoss],
        fun _ _ _ _ => rfl⟩

theorem countCue_frame (n : LaneNo) (f : Finish) (s : State) : WorkFrame s (countCue n f s) := by
  unfold countCue; dsimp only
  split
  · refine WorkFrame.trans ?_ (post_frame (progressSlot n) _ _ (Or.inl (by simp [progressSlot])))
    exact WorkFrame.of_kept rfl rfl rfl rfl
  · exact WorkFrame.of_kept rfl rfl rfl rfl

theorem finishCue_frame (n : LaneNo) (f : Finish) (s : State) : WorkFrame s (finishCue n f s) := by
  unfold finishCue
  refine (countCue_frame n f s).trans (WorkFrame.trans (t := retireFinished n (countCue n f s)) ?_ ?_)
  · exact WorkFrame.of_kept (by simp) (by simp) (by simp) (by simp)
  · exact WorkFrame.of_kept (by simp) (by simp) (by simp) (by simp)

theorem releaseAndGrant_frame (ks : List LineNo) (s : State) : WorkFrame s (releaseAndGrant ks s).1 := by
  unfold releaseAndGrant; dsimp only
  refine WorkFrame.trans (t := (releaseLines ks s).1) (WorkFrame.of_kept (by simp) (by simp) (by simp) (by simp)) ?_
  exact WorkFrame.each _ (fun n t => finishCue_frame n .executed t) _ _

theorem starve_frame (n : LaneNo) (s : State) : WorkFrame s (starve n s) := by
  unfold starve; dsimp only
  have h1 : WorkFrame s (setLaneState n .starved s) := WorkFrame.of_kept (by simp) (by simp) (by simp) (by simp)
  split
  · exact h1.trans (post_frame _ _ _ (Or.inr (Or.inr rfl)))
  · exact h1

theorem setCaptures_frame (ks : List LineNo) (b : Bool) (s : State) :
    WorkFrame s (State.each ks (setCapture b) s) := by
  refine WorkFrame.each _ (fun k t => ?_) ks s
  refine ⟨rfl, fun j => ?_, rfl, ⟨[], by simp [setCapture]⟩, id, fun _ _ _ _ => rfl⟩
  unfold setCapture
  rw [input_setInput]
  split
  · rename_i h; rw [h]
  · rfl

theorem laneFault_frame (n : LaneNo) (c : FaultCode) (a : Addr) (s : State) : WorkFrame s (laneFault n c a s) :=
  WorkFrame.of_kept (by simp) (by simp) (by simp) (by simp)

theorem cueFault_frame (n : LaneNo) (c : FaultCode) (s : State) : WorkFrame s (cueFault n c s).state :=
  WorkFrame.of_kept (by simp) (by simp) (by simp) (by simp)

theorem done_frame (n : LaneNo) (f : Finish) (s : State) : WorkFrame s (Ran.done n f s).state :=
  finishCue_frame n f s

theorem carryEnd_frame (n : LaneNo) (s : State) : WorkFrame s (carryEnd n s).state := by
  unfold carryEnd; dsimp only
  refine (countCue_frame n .executed s).trans ?_
  refine (releaseAndGrant_frame (ownedLines (countCue n .executed s) n) (countCue n .executed s)).trans ?_
  exact WorkFrame.of_kept (by simp) (by simp) (by simp) (by simp)

theorem carryClaim_frame (n : LaneNo) (k : LineNo) (t : Half) (s : State) :
    WorkFrame s (carryClaim n k t s).state := by
  unfold carryClaim
  split
  · exact cueFault_frame _ _ _
  · exact done_frame _ _ _
  · exact (WorkFrame.of_kept (by simp) (by simp) (by simp) (by simp)).trans (done_frame n .executed (grantLine k n s))
  · exact cueFault_frame _ _ _
  · exact WorkFrame.of_kept (by simp [Ran.rest]) (by simp [Ran.rest]) (by simp [Ran.rest]) (by simp [Ran.rest])

theorem carryRelease_frame (n : LaneNo) (m : Half) (s : State) : WorkFrame s (carryRelease n m s).state :=
  (releaseAndGrant_frame (maskLines m) s).trans (finishCue_frame n .executed _)

/-- A line operation that keeps inputs, journal and notices, and then the cue's end. -/
theorem doneAfter_frame (n : LaneNo) (f : Finish) {s t : State} (hf : t.fixed = s.fixed) (hi : t.inputs = s.inputs)
    (hj : t.journal = s.journal) (hn : t.notice = s.notice) : WorkFrame s (Ran.done n f t).state :=
  (WorkFrame.of_kept hf hi hj hn).trans (done_frame n f t)

theorem carryOut_frame (n : LaneNo) (a : Action) (s : State) : WorkFrame s (carryOut n a s).state := by
  unfold carryOut
  split
  · exact done_frame _ _ _
  · split
    · exact doneAfter_frame _ _ (by simp) (by simp) (by simp) (by simp)
    · exact cueFault_frame _ _ _
  · split
    · exact doneAfter_frame _ _ (by simp) (by simp) (by simp) (by simp)
    · exact cueFault_frame _ _ _
  · split
    · exact doneAfter_frame _ _ (by simp) (by simp) (by simp) (by simp)
    · exact cueFault_frame _ _ _
  · split
    · exact cueFault_frame _ _ _
    · split
      · exact cueFault_frame _ _ _
      · exact doneAfter_frame _ _ (by simp) (by simp) (by simp) (by simp)
  · exact (setCaptures_frame _ _ _).trans (done_frame _ _ _)
  · exact (setCaptures_frame _ _ _).trans (done_frame _ _ _)
  · exact (capture_frame _ _).trans (done_frame _ _ _)
  · exact WorkFrame.of_kept (by simp [Ran.rest]) (by simp [Ran.rest]) (by simp [Ran.rest]) (by simp [Ran.rest])
  · exact carryClaim_frame _ _ _ _
  · split
    · exact carryRelease_frame _ _ _
    · exact cueFault_frame _ _ _
  · exact carryEnd_frame _ _

theorem setLateRun_frame (n : LaneNo) (b : Bool) (s : State) : WorkFrame s (setLateRun n b s) :=
  WorkFrame.of_kept rfl rfl rfl rfl

theorem judgeCue_frame (n : LaneNo) (c : Cue) (s : State) : WorkFrame s (judgeCue n c s).state := by
  unfold judgeCue; dsimp only
  split
  · exact (setLateRun_frame _ _ _).trans (carryOut_frame _ _ _)
  · split
    · exact (setLateRun_frame _ _ _).trans (carryOut_frame _ _ _)
    · exact done_frame _ _ _
    · exact cueFault_frame _ _ _

theorem startCue_frame (n : LaneNo) (q : QueuedCue) (s : State) : WorkFrame s (startCue n q s).state := by
  unfold startCue; dsimp only
  refine WorkFrame.trans (t := s.setLane n { s.lane n with serial := (s.lane n).serial + 1, hasCurrent := true })
    (WorkFrame.of_kept rfl rfl rfl rfl) ?_
  split
  · exact cueFault_frame _ _ _
  · unfold resolveCue; dsimp only
    split
    · exact cueFault_frame _ _ _
    · split
      · refine WorkFrame.trans ?_ (judgeCue_frame _ _ _)
        exact WorkFrame.of_kept rfl rfl rfl rfl
      · exact WorkFrame.of_kept (by simp) (by simp [Ran.rest]) (by simp [Ran.rest]) (by simp [Ran.rest])

theorem takeNext_frame (n : LaneNo) (s : State) : WorkFrame s (takeNext n s).state := by
  unfold takeNext; dsimp only
  split
  · exact WorkFrame.of_kept (by simp) (by simp [Ran.rest]) (by simp [Ran.rest]) (by simp [Ran.rest])
  · split
    · exact startCue_frame _ _ _
    · split
      · exact laneFault_frame _ _ _ _
      · exact starve_frame _ _

theorem runLanes_frame (fuel : Nat) (work : List LaneNo) (s : State) : WorkFrame s (runLanes fuel work s) :=
  runLanes_induct (fun t => WorkFrame s t) (fun n t h => h.trans (takeNext_frame n t))
    (fun t k h => h.trans (WorkFrame.choices t k)) fuel work s (WorkFrame.refl s)

theorem runAll_frame (work : List LaneNo) (s : State) : WorkFrame s (runAll work s) := runLanes_frame _ _ _

theorem runAfter_frame (n : LaneNo) (r : Ran) : WorkFrame r.state (runAfter n r) := by
  unfold runAfter; dsimp only
  obtain ⟨k, hk⟩ := goOn_state n r []
  rw [hk]
  exact (WorkFrame.choices _ _).trans (runAll_frame _ _)

theorem takeDue_frame (n : LaneNo) (s : State) : WorkFrame s (takeDue n s) := by
  unfold takeDue
  split
  · exact WorkFrame.refl s
  · exact (judgeCue_frame _ _ _).trans (runAfter_frame _ _)

theorem endWait_frame (n : LaneNo) (a : Ticks) (s : State) : WorkFrame s (endWait n a s) :=
  WorkFrame.trans (t := s.setLane n { s.lane n with anchor := a }) (WorkFrame.of_kept rfl rfl rfl rfl)
    ((done_frame _ _ _).trans (runAfter_frame _ _))

theorem inFreeOrder_frame {α : Type} (xs : List α) (s : State) : WorkFrame s (inFreeOrder xs s).2 := by
  obtain ⟨k, hk⟩ := inFreeOrder_state xs s
  rw [hk]; exact WorkFrame.choices s k

theorem expireWait_frame (n : LaneNo) (s : State) : WorkFrame s (expireWait n s) := by
  unfold expireWait
  split
  · exact WorkFrame.refl s
  · split
    · exact endWait_frame _ _ _
    · exact cueFault_frame _ _ _

theorem expireClaim_frame (k : LineNo) (n : LaneNo) (s : State) : WorkFrame s (expireClaim k n s) := by
  unfold expireClaim; dsimp only
  have h : WorkFrame s (leaveWaiters k n s) := WorkFrame.of_kept (by simp) (by simp) (by simp) (by simp)
  split
  · exact h.trans (cueFault_frame _ _ _)
  · exact h

theorem stopLane_frame (n : LaneNo) (s : State) : WorkFrame s (stopLane n s) := by
  unfold stopLane; dsimp only
  refine WorkFrame.trans (t := ceaseLane n .off s) (WorkFrame.of_kept (by simp) (by simp) (by simp) (by simp)) ?_
  have hr := releaseAndGrant_frame (ownedLines (ceaseLane n .off s) n) (ceaseLane n .off s)
  generalize releaseAndGrant (ownedLines (ceaseLane n .off s) n) (ceaseLane n .off s) = r at hr ⊢
  refine hr.trans (WorkFrame.trans (t := retirePages n .stopped r.1) ?_ ?_)
  · exact WorkFrame.of_kept (by simp) (by simp) (by simp) (by simp)
  · exact (inFreeOrder_frame _ _).trans (runAll_frame _ _)

theorem runDueLanes_frame (s : State) : WorkFrame s (runDueLanes s) := by
  unfold runDueLanes; dsimp only
  refine (inFreeOrder_frame _ _).trans (WorkFrame.each _ (fun n t => ?_) _ _)
  split
  · exact takeDue_frame n t
  · exact WorkFrame.refl t

/-! ## A lane that neither runs nor waits for a line -/

theorem finishCue_elsewhere (ns : List LaneNo) (s : State) (m : LaneNo) (h : m ∉ ns) :
    (State.each ns acceptGrant s).lane m = s.lane m := by
  unfold State.each
  induction ns generalizing s with
  | nil => rfl
  | cons n ns ih =>
    simp only [List.mem_cons, not_or] at h
    rw [List.foldl_cons, ih _ h.2, acceptGrant_other (hm := Ne.symm h.1)]

/-- A release leaves a lane that does not wait for a line, and does not grant it one. -/
theorem releaseAndGrant_other (ks : List LineNo) (s : State) (m : LaneNo) (h : (s.lane m).state ≠ .waitLine) :
    (releaseAndGrant ks s).1.lane m = s.lane m ∧ m ∉ (releaseAndGrant ks s).2 := by
  unfold releaseAndGrant; dsimp only
  have hm : m ∉ (releaseLines ks s).2.filter (awaitsGrant (releaseLines ks s).1) := by
    simp [awaitsGrant, h]
  exact ⟨by rw [finishCue_elsewhere _ _ _ hm, releaseLines_lane], hm⟩

theorem done_other (n : LaneNo) (f : Finish) (s : State) {m : LaneNo} (hm : n ≠ m) :
    (Ran.done n f s).state.lane m = s.lane m := finishCue_other s n f hm

theorem carryOut_other (n : LaneNo) (a : Action) (s : State) {m : LaneNo} (hm : n ≠ m)
    (h : (s.lane m).state ≠ .waitLine) :
    (carryOut n a s).state.lane m = s.lane m ∧ m ∉ (carryOut n a s).granted := by
  have hd : ∀ (t : State) (f : Finish), t.lane m = s.lane m →
      (Ran.done n f t).state.lane m = s.lane m ∧ m ∉ (Ran.done n f t).granted := fun t f ht =>
    ⟨(done_other n f t hm).trans ht, by simp [Ran.done]⟩
  have hc : ∀ (t : State) (c : FaultCode), t.lane m = s.lane m →
      (cueFault n c t).state.lane m = s.lane m ∧ m ∉ (cueFault n c t).granted := fun t c ht =>
    ⟨(cueFault_other t n c hm).trans ht, by simp [cueFault, Ran.rest]⟩
  unfold carryOut
  split
  · exact hd _ _ rfl
  · split
    · exact hd _ _ (by simp [State.lane])
    · exact hc _ _ rfl
  · split
    · exact hd _ _ (by simp)
    · exact hc _ _ rfl
  · split
    · exact hd _ _ (by simp)
    · exact hc _ _ rfl
  · split
    · exact hc _ _ rfl
    · split
      · exact hc _ _ rfl
      · exact hd _ _ (by simp)
  · exact hd _ _ (by simp [State.lane])
  · exact hd _ _ (by simp [State.lane])
  · exact hd _ _ (by simp)
  · exact ⟨beginInputWait_other (hm := hm) .., by simp [Ran.rest]⟩
  · unfold carryClaim
    split
    · exact hc _ _ rfl
    · exact hd _ _ rfl
    · exact hd _ _ (by simp)
    · exact hc _ _ rfl
    · exact ⟨beginClaimWait_other (hm := hm) .., by simp [Ran.rest]⟩
  · split
    · unfold carryRelease; dsimp only
      obtain ⟨h1, h2⟩ := releaseAndGrant_other (maskLines ‹Half›) s m h
      exact ⟨by rw [finishCue_other (hm := hm), h1], h2⟩
    · exact hc _ _ rfl
  · unfold carryEnd; dsimp only
    have h0 : (countCue n .executed s).lane m = s.lane m := countCue_other (hm := hm) ..
    obtain ⟨h1, h2⟩ := releaseAndGrant_other (ownedLines (countCue n .executed s) n) (countCue n .executed s) m
      (by rw [h0]; exact h)
    exact ⟨by rw [oweException_other (hm := hm), retirePages_other (hm := hm), ceaseLane_other (hm := hm), h1, h0], h2⟩

theorem judgeCue_other (n : LaneNo) (c : Cue) (s : State) {m : LaneNo} (hm : n ≠ m)
    (h : (s.lane m).state ≠ .waitLine) :
    (judgeCue n c s).state.lane m = s.lane m ∧ m ∉ (judgeCue n c s).granted := by
  have hl : ∀ b, (setLateRun n b s).lane m = s.lane m := fun b => lane_setLane_ne _ hm _
  unfold judgeCue; dsimp only
  split
  · have := carryOut_other n c.action (setLateRun n false s) hm (by rw [hl]; exact h)
    rwa [hl] at this
  · split
    · have := carryOut_other n c.action (setLateRun n true s) hm (by rw [hl]; exact h)
      rwa [hl] at this
    · exact ⟨done_other _ _ _ hm, by simp [Ran.done]⟩
    · exact ⟨cueFault_other (hm := hm) .., by simp [cueFault, Ran.rest]⟩

theorem takeNext_other (n : LaneNo) (s : State) {m : LaneNo} (hm : n ≠ m) (h : (s.lane m).state ≠ .waitLine) :
    (takeNext n s).state.lane m = s.lane m ∧ m ∉ (takeNext n s).granted := by
  unfold takeNext; dsimp only
  split
  · exact ⟨by simp [Ran.rest, setLaneState_other (hm := hm), setHold_other (hm := hm)], by simp [Ran.rest]⟩
  · split
    · unfold startCue; dsimp only
      split
      · exact ⟨by rw [cueFault_other (hm := hm), lane_setLane_ne _ hm], by simp [cueFault, Ran.rest]⟩
      · unfold resolveCue; dsimp only
        split
        · exact ⟨by rw [cueFault_other (hm := hm), lane_setLane_ne _ hm], by simp [cueFault, Ran.rest]⟩
        · split
          · have := judgeCue_other n ‹Cue› (State.setLane (s.setLane n
                { s.lane n with serial := (s.lane n).serial + 1, hasCurrent := true }) n
                { (s.setLane n { s.lane n with serial := (s.lane n).serial + 1, hasCurrent := true }).lane n with
                  due := resolvedDue ((s.setLane n
                    { s.lane n with serial := (s.lane n).serial + 1, hasCurrent := true }).lane n).anchor ‹Cue›
                  anchor := resolvedDue ((s.setLane n
                    { s.lane n with serial := (s.lane n).serial + 1, hasCurrent := true }).lane n).anchor ‹Cue› })
                hm (by rw [lane_setLane_ne _ hm, lane_setLane_ne _ hm]; exact h)
            rw [lane_setLane_ne _ hm, lane_setLane_ne _ hm] at this
            exact this
          · exact ⟨by simp [Ran.rest, setLaneState_other (hm := hm), lane_setLane_ne _ hm], by simp [Ran.rest]⟩
    · split
      · exact ⟨laneFault_other (hm := hm) .., by simp [Ran.rest]⟩
      · exact ⟨starve_other (hm := hm) .., by simp [Ran.rest]⟩

/-- A free order holds the members of the list. -/
theorem shuffle_mem {α : Type} (fuel : Nat) (xs : List α) (s : State) (x : α) (hf : xs.length ≤ fuel) :
    x ∈ (shuffle fuel xs s).1 ↔ x ∈ xs := by
  induction fuel generalizing xs s with
  | zero =>
    match xs, hf with
    | [], _ => simp [shuffle]
  | succ fuel ih =>
    match xs with
    | [] => simp [shuffle]
    | [_] => simp [shuffle]
    | a :: b :: rest =>
      unfold shuffle
      dsimp only
      split
      · rfl
      · rename_i y hy
        have hlen : ((a :: b :: rest).eraseIdx (s.drawBelow (a :: b :: rest).length).1).length ≤ fuel := by
          rw [List.length_eraseIdx]
          obtain ⟨hlt, _⟩ := List.getElem?_eq_some_iff.mp hy
          rw [if_pos hlt]
          simp at hf ⊢; omega
        rw [List.mem_cons, ih _ _ hlen]
        obtain ⟨hlt, hget⟩ := List.getElem?_eq_some_iff.mp hy
        have hp : (a :: b :: rest).Perm (y :: (a :: b :: rest).eraseIdx (s.drawBelow (a :: b :: rest).length).1) := by
          have := (List.getElem_cons_eraseIdx_perm hlt).symm
          rwa [hget] at this
        rw [hp.mem_iff, List.mem_cons]

theorem inFreeOrder_mem {α : Type} (xs : List α) (s : State) (x : α) : x ∈ (inFreeOrder xs s).1 ↔ x ∈ xs :=
  shuffle_mem _ _ _ _ (Nat.le_refl _)

/-- A lane that does not go on after a micro-step. -/
theorem goOn_mem (n : LaneNo) (r : Ran) (others : List LaneNo) {m : LaneNo} (hm : n ≠ m) (hg : m ∉ r.granted)
    (ho : m ∉ others) : m ∉ (goOn n r others).1 := by
  unfold goOn; dsimp only
  split
  · split <;> simp [ho, hm.symm]
  · rename_i g gs hgr
    rw [hgr] at hg
    have : m ∉ (inFreeOrder (g :: gs) r.state).1 := by rw [inFreeOrder_mem]; exact hg
    dsimp only
    split <;> split <;> simp [this, ho, hm.symm]

/-- A run leaves a lane that is not in its list and does not wait for a line (R94). -/
theorem runLanes_other (fuel : Nat) (work : List LaneNo) (s : State) {m : LaneNo} (hw : m ∉ work)
    (h : (s.lane m).state ≠ .waitLine) : (runLanes fuel work s).lane m = s.lane m := by
  induction fuel generalizing work s with
  | zero => cases work <;> rfl
  | succ fuel ih =>
    match work with
    | [] => rfl
    | n :: others =>
      simp only [List.mem_cons, not_or] at hw
      obtain ⟨h1, h2⟩ := takeNext_other n s (Ne.symm hw.1) h
      obtain ⟨k, hk⟩ := goOn_state n (takeNext n s) others
      have h3 : (goOn n (takeNext n s) others).2.lane m = s.lane m := by rw [hk]; exact h1
      unfold runLanes
      dsimp only
      rw [ih _ _ (goOn_mem n _ _ (Ne.symm hw.1) h2 hw.2) (by rw [h3]; exact h), h3]

theorem runAll_other (work : List LaneNo) (s : State) {m : LaneNo} (hw : m ∉ work)
    (h : (s.lane m).state ≠ .waitLine) : (runAll work s).lane m = s.lane m := runLanes_other _ _ _ hw h

/-- A stop of one lane leaves a lane that does not wait for a line. -/
theorem stopLane_other (n : LaneNo) (s : State) {m : LaneNo} (hm : n ≠ m) (h : (s.lane m).state ≠ .waitLine) :
    (stopLane n s).lane m = s.lane m := by
  unfold stopLane; dsimp only
  have h0 : (ceaseLane n .off s).lane m = s.lane m := ceaseLane_other (hm := hm) ..
  have h1 := releaseAndGrant_other (ownedLines (ceaseLane n .off s) n) (ceaseLane n .off s) m (by rw [h0]; exact h)
  rw [h0] at h1
  generalize releaseAndGrant (ownedLines (ceaseLane n .off s) n) (ceaseLane n .off s) = r at h1 ⊢
  have h2 : (retirePages n .stopped r.1).lane m = s.lane m := (retirePages_other (hm := hm) ..).trans h1.1
  generalize retirePages n .stopped r.1 = u at h2 ⊢
  obtain ⟨k, hk⟩ := inFreeOrder_state r.2 u
  have h3 : (inFreeOrder r.2 u).2.lane m = s.lane m := by rw [hk]; exact h2
  rw [runAll_other _ _ (by rw [inFreeOrder_mem]; exact h1.2) (by rw [h3]; exact h), h3]

/-- The lane that is stopped (R24 steps 1 to 6). -/
theorem stopLane_self (n : LaneNo) (s : State) :
    (stopLane n s).lane n =
      { (ceaseLane n .off s).lane n with
        pages := (s.lane n).pages.map fun p => p.closed .stopped s.time.schedule } := by
  have hc := ceaseLane_self s n .off
  have ht : (ceaseLane n .off s).time = s.time := ceaseLane_time s n .off
  unfold stopLane; dsimp only
  have hoff : ((ceaseLane n .off s).lane n).state = .off := by rw [hc]
  have hp : ((ceaseLane n .off s).lane n).pages = (s.lane n).pages := by rw [hc]
  generalize ceaseLane n .off s = v at hc ht hoff hp ⊢
  have h1 := releaseAndGrant_other (ownedLines v n) v n (by rw [hoff]; simp)
  have h2 : (releaseAndGrant (ownedLines v n) v).1.time = s.time := (time_of_fixed (by simp)).trans ht
  generalize releaseAndGrant (ownedLines v n) v = r at h1 h2 ⊢
  have h3 : (retirePages n .stopped r.1).lane n =
      { v.lane n with pages := (s.lane n).pages.map fun p => p.closed .stopped s.time.schedule } := by
    rw [retirePages_self, h1.1, h2, hp]
  generalize retirePages n .stopped r.1 = u at h3 ⊢
  obtain ⟨k, hk⟩ := inFreeOrder_state r.2 u
  have h4 : (inFreeOrder r.2 u).2.lane n = u.lane n := by rw [hk]; rfl
  rw [runAll_other _ _ (by rw [inFreeOrder_mem]; exact h1.2) (by rw [h4, h3]; simp [hoff]), h4, h3]

end Sys2Proof.Machine
end

