-- ==== Sys2Proof/Tests/Slice0.lean ====
section
/-!
SUPPORT. The model's own tests: ill-formed commands are refused by the operand checks, the hypotheses of the statements are
met at concrete states, and small steps answer what the rules give.
-/

namespace Sys2Proof.Tests

open Sys2Proof Sys2Proof.Machine

/-! ## Ill-formed commands -/

theorem test_wf_undefinedCommand :
    (Instr.undefinedCommand 0#8 0#8).wellFormed = true ∧ (Instr.undefinedCommand 13#8 7#8).wellFormed = true
      ∧ (Instr.undefinedCommand 255#8 0#8).wellFormed = true ∧ (Instr.undefinedCommand 1#8 0#8).wellFormed = false
      ∧ (Instr.undefinedCommand 12#8 0#8).wellFormed = false := by decide

theorem test_wf_startReadDone :
    (Instr.startReadDone 0x2FF [0#8]).wellFormed = true ∧ (Instr.startReadDone 0 []).wellFormed = false
      ∧ (Instr.startReadDone 0x2FF [0#8, 0#8]).wellFormed = false
      ∧ (Instr.startReadDone 0x300 [0#8]).wellFormed = false := by decide

theorem test_wf_cueBurstDone :
    (Instr.cueBurstDone 0 [0]).wellFormed = true ∧ (Instr.cueBurstDone 3 [0, 0, 0, 0]).wellFormed = true
      ∧ (Instr.cueBurstDone 0 []).wellFormed = false
      ∧ (Instr.cueBurstDone 0 [0, 0, 0, 0, 0]).wellFormed = false := by decide

/-! ## Small states -/

/-- Right after reset, in ACTIVE. -/
def act : State := { State.reset with part := .active }

/-- Lane n changed. -/
def onLane (n : LaneNo) (f : Lane → Lane) (s : State) : State := s.setLane n (f (s.lane n))

/-- Line k changed. -/
def onLine (k : LineNo) (f : OutLine → OutLine) (s : State) : State := s.setLine k (f (s.line k))

/-- Generator g changed. -/
def onGen (g : GenNo) (f : Generator → Generator) (s : State) : State := s.setGen g (f (s.gen g))

/-- Input k changed. -/
def onInput (k : LineNo) (f : InLine → InLine) (s : State) : State := s.setInput k (f (s.input k))

/-- Slot k changed. -/
def onSlot (k : SlotNo) (f : Slot → Slot) (s : State) : State := s.setSlot k (f (s.slot k))

/-- A command of the engine in progress. -/
def busyWith (c : Command) (s : State) : State := { s with engine := { s.engine with command := some c } }

/-- A read of the engine that memory is to answer. -/
def reading (r : EngineRead) (s : State) : State :=
  { s with engine := { s.engine with flight := some { kind := r, discard := false, behind := 0 } } }

/-- A read of lane n's fetcher that memory is to answer. -/
def fetching (n : LaneNo) (r : FetchRead) (s : State) : State :=
  onLane n (fun l => { l with flight := some { kind := r, discard := false, behind := 0 } }) s

/-- A read of the journal that memory is to answer. -/
def journalReading (r : JournalRead) (s : State) : State :=
  { s with
    journal := { s.journal with
      state := .starved, flight := some { kind := r, discard := false, behind := 0 } } }

/-- A window of every right over all of the first 4 GiB. -/
def wide (s : State) : State :=
  { s with port := { s.port with windows := Vector.replicate 4 { base := 0, size := 20, cueRead := true,
                                                                   journal := true } } }

/-- A cue of an action. -/
def cue (a : Action) : Cue := { rel := false, notify := false, policy := .fault, due := 0, action := a }

/-- Lane n in a state, with one queued cue as its current one. -/
def waitingOn (n : LaneNo) (st : LaneState) (c : Cue) (s : State) : State :=
  onLane n (fun l => { l with state := st, hasCurrent := true, queue := [{ cue := some c, page := 0 }] }) s

/-- The outcome is a next state with a property. -/
def nextHas (o : Out) (p : State → Bool) : Bool :=
  match o with
  | .next t => p t
  | .fault _ => false
  | .refused _ => false

/-- A FIFO of n records. -/
def records (n : Nat) : List CaptureRecord := List.replicate n (.sync false 0)

/-! ## Hypotheses met -/

theorem test_met_TickAdvancesBothClocks :
    State.reset.pending = [] ∧ State.reset.awake ∧ dueEvents State.reset = [] := by
  unfold State.awake
  decide

/-- The premises of ClocksChangeOnlyByResetAndAlignment, BlockEventsKeepTheFixedPart and OnlyWriteAnswersReachMemoryOrFail
that speak of a next state. -/
theorem test_met_exec_next :
    exec (.pulseEnd 0) State.reset = .next State.reset ∧ exec (.controlWrite 0) State.reset = .next State.reset
      ∧ (0 : Word).getLsbD 31 = false ∧ exec .writeError State.reset = .next State.reset :=
  ⟨rfl, rfl, rfl, rfl⟩

/-- A write that memory still owes an answer for, left by a reset. -/
def leftWrite : Write := { addr := 512, bytes := [0xA5#8], tag := .data, awaited := false }

theorem test_met_SoftResetKeepsOnlyTheAddress :
    let s : State := { act with port := { act.port with path := [leftWrite, leftWrite] } }
    s.awake ∧ nextHas (exec .softReset s) (fun u => u.port.leftWrites = [leftWrite])
      ∧ nextHas (exec .softReset act) (fun u => u.port.leftWrites = []) := by
  unfold State.awake
  decide

theorem test_met_HeldPartIgnoresWrites :
    ({ State.reset with resetPin := .low } : State).resetPin = .low ∧ (commandShown (.start 0)).isSome = true := by
  decide

theorem test_met_RegisterWritesSetTheirFields :
    State.reset.awake ∧ State.reset.part = .config ∧ act.awake ∧ act.part ≠ .config
      ∧ (0x7FFFFFFF#32).getLsbD 31 = false ∧ (0x80000000#32).getLsbD 31 = true := by
  unfold State.awake
  decide

/-- v at the posted count is taken, one past it is not, across the wrap of the 24-bit counts. -/
theorem test_met_NoticeAckIsTakenUpToThePostedCount :
    let s := onSlot 15 (fun x => { x with posted := 1, acknowledged := 0xFFFFFF }) State.reset
    s.awake ∧ (0x0F000001#32).extractLsb' 24 4 = 15#4
      ∧ (((0x0F000001#32).setWidth 24 : Count24) - (s.slot 15).acknowledged).toNat
          ≤ ((s.slot 15).posted - (s.slot 15).acknowledged).toNat
      ∧ ¬(((0x0F000002#32).setWidth 24 : Count24) - (s.slot 15).acknowledged).toNat
          ≤ ((s.slot 15).posted - (s.slot 15).acknowledged).toNat := by
  unfold State.awake
  decide

/-- One command for each case of R183. -/
theorem test_met_CommandsAreRefusedByTheFirstCase :
    act.awake
      ∧ commandShown (.laneStop 4#8) = some (3#8, 4#8) ∧ commandKnown (.laneStop 4#8) = false
      ∧ commandKnown (.laneStop 3#8) = true
      ∧ commandShown (.undefinedCommand 13#8 9#8) = some (13#8, 0#8)
      ∧ commandKnown (.undefinedCommand 13#8 9#8) = false
      ∧ commandKnown (.start 0) = true ∧ commandTakenIn act (.start 0) = false
      ∧ act.engine.command = none ∧ act.part ≠ .failed ∧ act.part ≠ .starting ∧ act.part ≠ .stopping
      ∧ (busyWith .alignNow act).engine.command ≠ none := by
  unfold State.awake
  decide

/-- ALIGN_NOW is the last time-taking code, RESURVEY the first immediate one. -/
theorem test_met_TakenCommandsShowInCmdStatus :
    act.awake ∧ act.engine.command = none
      ∧ commandKnown (.alignNow 0) = true ∧ commandTakenIn act (.alignNow 0) = true
      ∧ commandShown (.alignNow 0) = some (7#8, 0#8)
      ∧ commandKnown (.resurvey 0) = true ∧ commandTakenIn act (.resurvey 0) = true
      ∧ commandShown (.resurvey 0) = some (8#8, 0#8)
      ∧ commandKnown (.start 0) = true ∧ commandTakenIn State.reset (.start 0) = true := by
  unfold State.awake
  decide

theorem test_met_ReadingCommandsPresentTheirRead :
    State.reset.awake ∧ State.reset.engine.command = none ∧ State.reset.part = .config
      ∧ act.part = .active ∧ (act.lane 3).state = .off
      ∧ ((onLane 3 (fun l => { l with state := .faulted }) act).lane 3).state = .faulted
      ∧ ((onLane 0 (fun l => { l with state := .ended }) act).lane 0).state = .ended
      ∧ (journalReading .link act).journal.state = .starved := by
  unfold State.awake
  decide

/-- The bytes of a valid configuration: magic, version, and no pre-assigned lane. -/
def goodBytes : BitVec 6144 :=
  allLines.foldl (fun x k => x ||| (0xFF#6144 <<< (8 * (0x103 + 4 * k.val)))) 0x015A31D7C4#6144

/-- START with all bytes of a configuration read but the last read's answer. -/
def startOn (p : StartPhase) (bytes : BitVec 6144) (seen : BitVec 768) : State :=
  let s := reading .configuration (busyWith (.start p) { State.reset with part := .starting })
  { s with engine := { s.engine with image := { bytes := bytes, seen := seen } } }

theorem test_met_awaits_configuration : awaitsEngine (startOn .reading goodBytes (BitVec.allOnes 768)) .configuration := by
  unfold awaitsEngine noLeftRead
  decide +kernel

/-- A bad magic value, a good one with more to read, a valid whole and one with a bad rest level. -/
theorem test_met_StartReads :
    let bad := (startOn .first 0 0).engine.image.putAll 0 [0, 0, 0, 0, 1]
    let part := (startOn .first 0 0).engine.image.putAll 0 [0xC4, 0xD7, 0x31, 0x5A, 1]
    let whole := (startOn .reading goodBytes (BitVec.allOnes 768)).engine.image.putAll 0x2FF [0]
    let wrong := (startOn .reading goodBytes (BitVec.allOnes 768)).engine.image.putAll 0x101 [2]
    bad.headRead = true ∧ bad.exchangeOk = false
      ∧ part.headRead = true ∧ part.exchangeOk = true ∧ part.complete = false
      ∧ whole.complete = true ∧ whole.valid = true
      ∧ wrong.complete = true ∧ wrong.valid = false
      ∧ (whole.out? 15).isSome = true ∧ (whole.edgeSelect? 15).isSome = true ∧ (whole.gen? 1).isSome = true := by
  decide +kernel

/-- START's writes all issued: line 3 enabled and free, line 4 disabled, lane 1 enabled with head 0. -/
def written : State :=
  onLane 1 (fun l => { l with config := { l.config with enable := true } })
    (onLine 3 (fun x => { x with driveEnable := true })
      (busyWith (.start .writing) { State.reset with part := .starting }))

theorem test_met_StartActivatesThePart :
    written.awake ∧ written.part = .starting ∧ written.engine.command = some (.start .writing)
      ∧ written.engine.writes = []
      ∧ (written.line 3).driveEnable = true
      ∧ ((written.line 3).preassigned.filter fun n => (written.lane n).config.enable) = none
      ∧ (written.line 4).driveEnable = false ∧ (written.line 4).mode = .float ∧ (written.line 4).owner = none
      ∧ (written.line 4).waiters = []
      ∧ (written.lane 0).config.enable = false
      ∧ (written.lane 1).config.enable = true ∧ (written.lane 1).config.head = 0 := by
  unfold State.awake
  decide

/-- STOP, LANE_STOP, LANE_HOLD and the rest of the commands on an ACTIVE part. -/
theorem test_met_active_idle : act.awake ∧ act.part = .active ∧ act.engine.command = none := by
  unfold State.awake
  decide

/-- LANE_STOP in progress, its status write still to be issued. -/
theorem test_met_LaneStopClosesTheLane :
    let s := awaitStatus (busyWith (.laneStop 3) act)
    s.engine.command = some (.laneStop 3) ∧ s.engine.await = .toIssue := by
  decide

theorem test_met_StopTakesItsStepsAndCompletes :
    let s := busyWith (.stop false) act
    let t := busyWith (.stop true) act
    s.awake ∧ s.engine.command = some (.stop false) ∧ s.journal.draining = false
      ∧ (∀ n, StatusItem.laneStatus n ∉ s.handed ∧ StatusItem.retireSummary n ∉ s.handed
          ∧ StatusItem.retireOwner n ∉ s.handed)
      ∧ t.awake ∧ t.engine.command = some (.stop true) ∧ t.engine.writes = []
      ∧ (∀ it ∈ t.handed, it.isNotice = true) ∧ (∀ w ∈ t.port.path, w.tag ≠ .data) := by
  unfold State.awake
  decide

/-- Head address 0; 511, which is no page; 512, a page in the windows and out of them. -/
theorem test_met_LaneRestartStartsTheLane :
    let s := reading .laneRecord (busyWith (.laneRestart 3) act)
    awaitsEngine s .laneRecord ∧ s.engine.command = some (.laneRestart 3) ∧ (s.lane 3).state = .off
      ∧ (0#128).extractLsb' 0 64 = 0#64 ∧ ((511#128).extractLsb' 0 64).toNat % 512 ≠ 0
      ∧ (512#128).extractLsb' 0 64 = 512#64 ∧ (512#64).toNat % 512 = 0 ∧ (s.lane 3).pages.length < 17
      ∧ windowOk s .cueRead 512#64 32 = false ∧ awaitsEngine (wide s) .laneRecord
      ∧ windowOk (wide s) .cueRead 512#64 32 = true := by
  unfold awaitsEngine noLeftRead
  decide

theorem test_met_ReadErrorsEndCommandsWithBusError :
    awaitsEngine (reading .laneRecord (busyWith (.laneRestart 0) act)) .laneRecord
      ∧ awaitsEngine (reading .journalHead (busyWith .journalRestart act)) .journalHead
      ∧ awaitsEngine (reading .alignValue (busyWith .armAlign act)) .alignValue
      ∧ awaitsEngine (reading .alignValue (busyWith .alignNow act)) .alignValue := by
  unfold awaitsEngine noLeftRead
  decide

theorem test_met_CommandsCompleteWithDone :
    let s := fun c => { busyWith c act with
      engine := { (busyWith c act).engine with await := .completed, alignPost := .issued } }
    (s (.laneStop 3)).awake ∧ (s (.laneStop 3)).engine.command = some (.laneStop 3)
      ∧ (s (.laneRestart 0)).engine.await = .completed ∧ (s .journalRestart).engine.await = .completed
      ∧ (s .alignNow).engine.alignPost = .issued := by
  unfold State.awake
  decide

/-- Every lane state LANE_HOLD and LANE_RESUME act on; a due one tick ahead is not reached. -/
theorem test_met_HoldAndResumeActByTheLaneState :
    let inState := fun st => onLane 3 (fun l => { l with state := st, holdRequest := true }) act
    let held := onLane 3 (fun l => { l with due := 1 }) (waitingOn 3 .held (cue .nop) act)
    ((inState .starved).lane 3).state = .starved ∧ ((inState .pending).lane 3).state = .pending
      ∧ ((inState .waitInput).lane 3).state = .waitInput ∧ ((inState .waitLine).lane 3).holdRequest = true
      ∧ (held.lane 3).state = .held ∧ (held.lane 3).current = some (cue .nop)
      ∧ ¬(held.time.schedule - (held.lane 3).due).toNat < 2 ^ 47 := by
  decide

/-- Lateness 0 and 2^47 − 1 are reached, 1 and 2^47 ticks ahead are not. -/
theorem test_met_ReachedIsHalfRange :
    reached 0 0 = true ∧ reached 0x7FFFFFFFFFFF#48 0 = true ∧ reached 0x800000000000#48 0 = false
      ∧ reached 0 1 = false
      ∧ dueReady (waitingOn 0 .pending (cue .nop) act) 0 = true
      ∧ ordersBack 1 (cue .nop) = true ∧ ordersBack 0 (cue .nop) = false := by
  decide

/-- Line 15 owned by lane 1, whose SET_LINES on it is due now. -/
def dueSet : State :=
  onLine 15 (fun x => { x with driveEnable := true, owner := some 1 })
    (waitingOn 1 .pending (cue (.setLines 0x8000 0x8000)) act)

theorem test_met_OnTimeSetLinesIsCarriedOut :
    dueSet.awake ∧ dueSet.part = .active ∧ (dueSet.lane 1).state = .pending ∧ (dueSet.lane 1).hasCurrent = true
      ∧ (dueSet.lane 1).queue = [{ cue := some (cue (.setLines 0x8000 0x8000)), page := 0 }]
      ∧ (dueSet.lane 1).holdRequest = false ∧ (dueSet.lane 1).pendingFault = none
      ∧ (dueSet.lane 1).unfetched = 0
      ∧ (∀ k : LineNo, (0x8000#16).getLsbD k.val = true → (dueSet.line k).owner = some 1)
      ∧ reached dueSet.time.schedule (dueSet.lane 1).due = true
      ∧ lateness dueSet.time.schedule (dueSet.lane 1).due ≤ (dueSet.lane 1).config.tolerance.toNat := by
  unfold State.awake
  decide

/-- The same lane one tick late, tolerance 0. -/
def lateSet : State := { dueSet with time := { dueSet.time with schedule := 1 } }

theorem test_met_LateCueUnderFaultFaultsTheLane :
    lateSet.awake ∧ lateSet.part = .active ∧ (lateSet.lane 1).state = .pending ∧ (lateSet.lane 1).wait = .none
      ∧ (lateSet.lane 1).current = some (cue (.setLines 0x8000 0x8000))
      ∧ (cue (.setLines 0x8000 0x8000)).policy = .fault
      ∧ reached lateSet.time.schedule (lateSet.lane 1).due = true
      ∧ (lateSet.lane 1).config.tolerance.toNat < lateness lateSet.time.schedule (lateSet.lane 1).due
      ∧ (lateSet.line 15).owner = some 1 ∧ (lateSet.line 0).owner ≠ some 1 := by
  unfold State.awake
  decide

/-- An input wait of lane 1 on line 0 that has expired. -/
def waited (continues : Bool) : State :=
  onLane 1
    (fun l => { l with
      wait := .input { line := 0, edge := .rise, timeout := 1, expiry := 0, continues := continues } })
    (waitingOn 1 .waitInput (cue (.waitInput 0 .rise 1 continues)) act)

/-- Lane 2 waits for line 3, its entry expired, behind lane 0. -/
def claiming : State :=
  onLane 2 (fun l => { l with wait := .claim 3 })
    (onLine 3 (fun x => { x with driveEnable := true, owner := some 1,
                                 waiters := [{ lane := 0, expiry := 9 }, { lane := 2, expiry := 0 }] })
      (waitingOn 2 .waitLine (cue (.claim 3 1)) act))

theorem test_met_WaitsExpire :
    (waited true).awake ∧ (waited true).part = .active ∧ ((waited true).lane 1).state = .waitInput
      ∧ ((waited true).lane 1).wait
          = .input { line := 0, edge := .rise, timeout := 1, expiry := 0, continues := true }
      ∧ ((waited false).lane 1).wait
          = .input { line := 0, edge := .rise, timeout := 1, expiry := 0, continues := false }
      ∧ reached (waited true).time.elapsed 0 = true
      ∧ ((waited true).lane 1).holdRequest = false ∧ ((waited true).lane 1).pendingFault = none
      ∧ ((waited true).lane 1).unfetched = 0
      ∧ claiming.part ≠ .failed ∧ (claiming.lane 2).state = .waitLine ∧ (claiming.lane 2).wait = .claim 3
      ∧ (∃ w ∈ (claiming.line 3).waiters, w.lane = 2 ∧ reached claiming.time.elapsed w.expiry = true) := by
  unfold State.awake
  decide

/-- Lane 1 alone waits for a rise of line 5; both generators follow line 0. -/
def edgeWait : State :=
  { onLane 1
      (fun l => { l with
        wait := .input { line := 5, edge := .rise, timeout := 0, expiry := 0, continues := false } })
      (waitingOn 1 .waitInput (cue (.waitInput 5 .rise 0 false)) act) with inputsLive := true }

theorem test_met_EdgeEndsTheInputWait :
    edgeWait.inputsLive = true ∧ (edgeWait.input 5).level ≠ .high ∧ (edgeWait.input 5).deadRunning = false
      ∧ (edgeWait.input 5).moved = false
      ∧ (edgeWait.lane 1).state = .waitInput
      ∧ (edgeWait.lane 1).wait = .input { line := 5, edge := .rise, timeout := 0, expiry := 0, continues := false }
      ∧ EdgeSelect.rise.admits (Dir.toLevel .high) = true
      ∧ (∀ m, m ≠ 1 → (edgeWait.lane m).wait = .none) ∧ (∀ g, (edgeWait.gen g).source ≠ 5)
      ∧ (edgeWait.input 5).captureEnable = false ∧ (edgeWait.lane 1).holdRequest = false
      ∧ (edgeWait.lane 1).pendingFault = none ∧ (edgeWait.lane 1).unfetched = 0 := by
  decide

/-- Where no lane but one waits for an input, no other lane's wait is on a line. -/
theorem test_met_noOtherWait (m : LaneNo) (v : InputWait) (hm : m ≠ 1) (hv : (edgeWait.lane m).wait = .input v) :
    v.line ≠ 5 := by
  have h := test_met_EdgeEndsTheInputWait.2.2.2.2.2.2.2.1 m hm
  rw [h] at hv
  cases hv

/-- Where no lane waits for an input, no lane's wait is on a line (TransitionsAreFiltered, RealEdgeActsByTheState). -/
theorem test_met_noWait (s : State) (h : ∀ n, (s.lane n).wait = .none) (k : LineNo) (n : LaneNo) (w : InputWait)
    (hw : (s.lane n).wait = .input w) : w.line ≠ k := by
  rw [h n] at hw
  cases hw

theorem test_met_ReleasePassesToTheOldestWaiter :
    (act.line 15).waiters = [] ∧ (claiming.line 3).waiters = [{ lane := 0, expiry := 9 }, { lane := 2, expiry := 0 }] := by
  decide

/-- A pulse at its end and one a tick before it. -/
theorem test_met_PulseEndReturnsTheLine :
    let s := onLine 15 (fun x => { x with mode := .pulse .high .low 0 }) act
    let u := onLine 15 (fun x => { x with mode := .pulse .high .low 1 }) act
    s.awake ∧ (s.line 15).mode = .pulse .high .low 0 ∧ reached s.time.elapsed 0 = true
      ∧ (u.line 15).mode = .pulse .high .low 1 ∧ reached u.time.elapsed 1 = false
      ∧ (act.line 15).mode = .float := by
  unfold State.awake
  decide

/-- The first phase; the second with endless periods; with one more; and with the last. -/
theorem test_met_WavePhaseEndActsByThePhase :
    let s := fun m => onLine 0 (fun x => { x with mode := m }) act
    (s .float).awake ∧ reached (s .float).time.elapsed 0 = true
      ∧ ((s (.wave .high 2 2 1 0 .first 0)).line 0).mode = .wave .high 2 2 1 0 .first 0
      ∧ ((s (.wave .high 2 2 1 0 .second 0)).line 0).mode = .wave .high 2 2 1 0 .second 0
      ∧ ((0 : Half) = 0 ∨ (0 : Half) + 1 ≠ 0) ∧ ((2 : Half) = 0 ∨ (0 : Half) + 1 ≠ 2)
      ∧ (1 : Half) ≠ 0 ∧ (0 : Half) + 1 = 1 := by
  unfold State.awake
  decide

theorem test_met_TransitionsAreFiltered :
    (act.input 15).level = .low ∧ act.inputsLive = false ∧ (edgeWait.input 6).moved = false
      ∧ ((onInput 6 (fun x => { x with moved := true }) edgeWait).input 6).moved = true
      ∧ edgeWait.inputsLive = true ∧ (edgeWait.input 6).level ≠ .high ∧ (edgeWait.input 6).deadRunning = false
      ∧ (edgeWait.input 6).deadTime = 0
      ∧ ((onInput 6 (fun x => { x with deadTime := 1 }) edgeWait).input 6).deadTime ≠ 0
      ∧ ((onInput 6 (fun x => { x with deadRunning := true }) act).input 6).deadRunning = true
      ∧ (∀ n, (act.lane n).wait = .none) ∧ (∀ g, (act.gen g).source ≠ 6) ∧ act.journal.fifo.length < 64
      ∧ reached act.time.elapsed (act.input 6).deadEnd = true := by
  decide

/-- Generator 1 follows line 7; the elapsed count is the gap since its last real edge. -/
def follows (st : GenState) (gap : Ticks) : State :=
  { onGen 1 (fun x => { x with source := 7, select := .rise, state := st }) act with
    inputsLive := true
    time := { act.time with elapsed := gap } }

/-- Gaps of 1, 2^32 − 1 (measured) and 2^32 (long). -/
theorem test_met_RealEdgeActsByTheState :
    let s := follows .locked 1
    s.inputsLive = true ∧ (s.input 7).level ≠ .high ∧ (s.input 7).deadRunning = false ∧ (s.input 7).moved = false
      ∧ (s.input 7).captureEnable = false ∧ (∀ n, (s.lane n).wait = .none)
      ∧ (s.gen 1).source = 7 ∧ (s.gen 1).select.admits (Dir.toLevel .high) = true
      ∧ (∀ h, h ≠ 1 → (s.gen h).source ≠ 7)
      ∧ (s.time.elapsed - (s.gen 1).lastReal).toNat = 1
      ∧ ((follows .firstEdge 0xFFFFFFFF#48).time.elapsed - 0).toNat < 2 ^ 32
      ∧ 2 ^ 32 ≤ ((follows .reacquiring 0x100000000#48).time.elapsed - 0).toNat
      ∧ ((follows .coasting 1).gen 1).state = .coasting ∧ ((follows .holdover 1).gen 1).state = .holdover
      ∧ ((follows .unlocked 1).gen 1).state = .unlocked := by
  decide

/-- Generator 0 bound to line 2, its last derived edge of four due. -/
def deriving4 : State :=
  onLine 2 (fun x => { x with mode := .track .low 0 })
    (onGen 0 (fun x => { x with state := .locked, period := 64, phaseMultiplier := 4, subInterval := 16, bound := some 2,
                                nextIndex := 3 })
      { act with time := { act.time with elapsed := 48 } })

theorem test_met_DerivedEdgeTogglesTheLine :
    deriving4.awake ∧ deriving4.part = .active ∧ (deriving4.gen 0).state ≠ .unlocked ∧ (deriving4.gen 0).state ≠ .firstEdge
      ∧ (deriving4.gen 0).bound = some 2 ∧ (deriving4.line 2).mode = .track .low 0
      ∧ (deriving4.gen 0).nextIndex < (deriving4.gen 0).phaseMultiplier ∧ (deriving4.gen 0).edgeTaken = false
      ∧ reached deriving4.time.elapsed ((deriving4.gen 0).phaseStart + BitVec.ofNat 48 (3 * 16)) = true := by
  unfold State.awake
  decide

theorem test_met_VirtualEdgeActsByTheState :
    let s := fun st => onGen 1 (fun x => { x with state := st, period := 16 })
      { act with time := { act.time with elapsed := 16 } }
    (s .locked).awake ∧ (s .locked).part = .active ∧ ((s .locked).gen 1).state ≠ .unlocked ∧ ((s .locked).gen 1).state ≠ .firstEdge
      ∧ reached (s .locked).time.elapsed (((s .locked).gen 1).phaseStart + BitVec.ofNat 48 16) = true
      ∧ ((s .reacquiring).gen 1).state = .reacquiring ∧ ((s .coasting).gen 1).state = .coasting
      ∧ ((s .holdover).gen 1).state = .holdover := by
  unfold State.awake
  decide

/-- The clauses of phaseStarted: a multiplier that leaves a sub-interval of exactly 16 ticks and one that leaves fewer, a bound
and an unbound generator, a derived edge already fallen at the tick and none, and a line at LOW, at HIGH and not in TRACK. -/
theorem test_met_phaseStarted :
    let s := fun m l (taken : Bool) => onLine 2 (fun x => { x with mode := l })
      (onGen 0 (fun x => { x with state := .locked, period := 64, multiplier := m, bound := some 2, edgeTaken := taken })
        { act with time := { act.time with elapsed := 64 } })
    let after := fun u => (virtualEdge 0 u).gen 0
    (after (s 4 (.track .low 0) false)).subInterval = 16 ∧ (after (s 4 (.track .low 0) false)).clamped = false
      ∧ (after (s 5 (.track .low 0) false)).subInterval = 16 ∧ (after (s 5 (.track .low 0) false)).clamped = true
      ∧ (after (s 3 (.track .low 0) false)).subInterval = 21 ∧ (after (s 3 (.track .low 0) true)).nextIndex = 1
      ∧ ((virtualEdge 0 (s 4 (.track .low 0) false)).line 2).mode = .track .high 0
      ∧ ((virtualEdge 0 (s 4 (.track .high 0) false)).line 2).mode = .track .low 0
      ∧ ((virtualEdge 0 (s 4 (.track .low 0) true)).line 2).mode = .track .low 0
      ∧ ((s 4 (.static .low) false).line 2).mode = .static .low ∧ (act.gen 1).bound = none
      ∧ (virtualEdge 1 (onGen 1 (fun x => { x with state := .locked, period := 64, multiplier := 4 }) act)).gen 1
        = { act.gen 1 with
            state := .coasting, period := 64, multiplier := 4, virtuals := 1, phaseMultiplier := 4, phaseStart := 64,
            nextIndex := 4 } := by
  decide +kernel

theorem test_met_AlignmentCommandsAct :
    awaitsEngine (reading .alignValue (busyWith .armAlign act)) .alignValue
      ∧ (reading .alignValue (busyWith .armAlign act)).engine.command = some .armAlign
      ∧ awaitsEngine (reading .alignValue (busyWith .alignNow act)) .alignValue
      ∧ (reading .alignValue (busyWith .alignNow act)).engine.command = some .alignNow := by
  unfold awaitsEngine noLeftRead
  decide

/-- SYNC live and selected on a fall, with the arm as given and 63 records in the FIFO. -/
def syncing (armed : Bool) : State :=
  { act with
    sync := { select := some .fall, report := true, live := true, level := .high, moved := false }
    time := { act.time with armed := armed, armValue := 9 }
    journal := { act.journal with fifo := records 63 } }

theorem test_met_SyncEventRecordsAndSteps :
    (syncing true).sync.level ≠ .low ∧ (syncing true).sync.live = true
      ∧ (syncing true).sync.select = some (Dir.toLevel .low) ∧ (syncing true).journal.fifo.length < 64
      ∧ (syncing true).time.armed = true ∧ (syncing false).time.armed = false ∧ act.sync.level ≠ .high
      ∧ act.sync.live = false ∧ (syncing true).sync.moved = false := by
  decide

/-- Lane 3 stalled at HEAD_FIELD with the survey timer at its expiry. -/
def stalled : State :=
  { onLane 3 (fun l => { l with state := .starved, running := true, stall := .headField }) act with
    survey := { interval := 1, expiry := some 0 } }

theorem test_met_SurveysReadTheStalledPlaces :
    stalled.awake ∧ (stalled.lane 3).running = true ∧ (stalled.lane 3).stall = .headField
      ∧ (stalled.lane 3).request = none ∧ (stalled.lane 3).flight = none ∧ stalled.part = .active
      ∧ stalled.engine.command = none ∧ stalled.survey.expiry = some 0 ∧ reached stalled.time.elapsed 0 = true := by
  unfold State.awake
  decide

/-- A lane with 16 pages in its list has room for a header read; 0, 512 and 511 are the link values. -/
theorem test_met_HeadFieldAndLinkAreJudged :
    let s := wide (fetching 3 .headField act)
    let u := wide (fetching 3 .link
      (onLane 3 (fun l => { l with pages := List.replicate 16 (takenEntry 0 0), state := .pending }) act))
    awaitsFetch s 3 .headField ∧ awaitsFetch u 3 .link ∧ (u.lane 3).pages.length < 17
      ∧ (512#64).toNat % 512 = 0 ∧ 512#64 ≠ 0 ∧ windowOk u .cueRead 512#64 32 = true
      ∧ (0x100000000#64).toNat % 512 = 0 ∧ windowOk u .cueRead 0x100000000#64 32 = false
      ∧ (511#64).toNat % 512 ≠ 0 ∧ (u.lane 3).state ≠ .starved
      ∧ ((onLane 3 (fun l => { l with state := .starved }) s).lane 3).state = .starved := by
  unfold awaitsFetch noLeftRead
  decide

/-- Cue counts 1 and 15 are taken, 0 and 16 are not; each owner code. -/
theorem test_met_PageHeaderIsJudged :
    let s := fetching 3 .header (onLane 3 (fun l => { l with state := .pending }) act)
    awaitsFetch s 3 .header ∧ (s.lane 3).state ≠ .starved
      ∧ (0x01005A#256).extractLsb' 0 8 = 0x5A#8 ∧ 1 ≤ ((0x01005A#256).extractLsb' 16 8).toNat
      ∧ ((0x0F005A#256).extractLsb' 16 8).toNat ≤ 15 ∧ ((0x00005A#256).extractLsb' 16 8).toNat = 0
      ∧ 16 ≤ ((0x10005A#256).extractLsb' 16 8).toNat ∧ (0xA5#256).extractLsb' 0 8 = 0xA5#8
      ∧ (0#256).extractLsb' 0 8 = 0x00#8 ∧ (1#256).extractLsb' 0 8 ≠ 0x5A#8 := by
  unfold awaitsFetch noLeftRead
  decide

theorem test_met_CueBurstIsQueued :
    let s := fetching 3 .burst (onLane 3 (fun l => { l with state := .pending, reserved := 4 }) act)
    awaitsFetch s 3 .burst ∧ (s.lane 3).state ≠ .starved
      ∧ ([0, 0, 0, 0] : List (BitVec 256)).length = (s.lane 3).reserved := by
  unfold awaitsFetch noLeftRead
  decide

theorem test_met_FetchErrorIsPendingBusError :
    awaitsFetch (fetching 0 .burst (onLane 0 (fun l => { l with state := .starved }) act)) 0 .burst
      ∧ awaitsFetch (fetching 3 .link act) 3 .link ∧ ((fetching 3 .link act).lane 3).state ≠ .starved := by
  unfold awaitsFetch noLeftRead
  decide

/-- 63 records leave room, 64 do not. -/
theorem test_met_FullFifoLosesTheRecord : (records 63).length < 64 ∧ 64 ≤ (records 64).length := by decide

/-- A current page with one record and an expired flush timer. -/
def filling (fifo : List CaptureRecord) : State :=
  { act with
    journal := { act.journal with state := .filling, page := some (512, 1), flushTimer := some 0, fifo := fifo } }

theorem test_met_FlushAndTimerCloseThePage :
    (filling []).awake ∧ (filling []).part = .active ∧ (filling []).engine.command = none
      ∧ act.journal.page = none ∧ (filling []).journal.page = some (512, 1) ∧ (filling []).journal.fifo = []
      ∧ (filling (records 1)).journal.fifo ≠ [] ∧ (filling []).part ≠ .failed
      ∧ (filling []).journal.flushTimer = some 0 ∧ reached (filling []).time.elapsed 0 = true := by
  unfold State.awake
  decide

/-- Head pages 512 in the windows and out of them. -/
theorem test_met_JournalRestartStartsAnew :
    let s := reading .journalHead (busyWith .journalRestart (journalReading .link act))
    awaitsEngine s .journalHead ∧ s.engine.command = some .journalRestart ∧ s.journal.draining = false
      ∧ (512#64).toNat % 512 = 0 ∧ windowOk s .journal 512#64 32 = false ∧ awaitsEngine (wide s) .journalHead
      ∧ windowOk (wide s) .journal 512#64 32 = true ∧ (511#64).toNat % 512 ≠ 0 := by
  unfold awaitsEngine noLeftRead
  decide

theorem test_met_JournalAnswersAreJudged :
    let s := fun r => wide (journalReading r act)
    awaitsJournal (s .header) .header ∧ awaitsJournal (s .link) .link ∧ awaitsJournal (s .headField) .headField
      ∧ (s .link).journal.draining = false ∧ (s .link).journal.state = .starved
      ∧ windowOk (s .link) .journal 512#64 32 = true := by
  unfold awaitsJournal noLeftRead
  decide

/-- A slot one below its limit, at it, and one with its count write still to come. -/
theorem test_met_PostingsRaiseAndWritesFixTheCount :
    0xFFFFFE#24 - 0 ≠ 0xFFFFFF#24 ∧ 0xFFFFFF#24 - 0 = 0xFFFFFF#24 ∧ (act.slot 15).writeDue = false
      ∧ ((onSlot 15 (fun x => { x with writeDue := true }) act).slot 15).writeDue = true
      ∧ ({ act.notice with inProgress := some (15, 1) } : NoticeUnit).inProgress = some (15, 1)
      ∧ act.engine.command ≠ some (.start .writing) := by
  decide

/-- The gather timer at its expiry, with a SECONDARY slot pending and with none. -/
theorem test_met_GatherExpiryOpensOrIdles :
    let s := { act with notice := { act.notice with gather := .running 0 } }
    let u := onSlot 15 (fun x => { x with secondary := true, posted := 1 }) s
    s.awake ∧ s.part ≠ .failed ∧ s.notice.gather = .running 0 ∧ reached s.time.elapsed 0 = true
      ∧ (∀ k, (s.slot k).secondary = true → (s.slot k).posted = (s.slot k).acknowledged)
      ∧ (∃ k, (u.slot k).posted ≠ (u.slot k).acknowledged ∧ (u.slot k).secondary = true) := by
  unfold State.awake
  decide

/-- The journal last served: the status writer is first, and takes a write while the path holds 7; with 8 none can. -/
theorem test_met_ArbiterServesTheRing :
    let w := dataWrite 0 [0]
    let s := fun n => { act with
      handed := [.journalStatus], port := { act.port with last := .journal, path := List.replicate n w } }
    act.awake ∧ act.port.live = true
      ∧ ringAfter .journal = [] ++ Requester.statusWriter ::
          [.engine, .fetcher 0, .fetcher 1, .fetcher 2, .fetcher 3, .journal]
      ∧ takeable (s 7) .statusWriter = some (.status .journalStatus)
      ∧ (∀ q ∈ ring, takeable (s 8) q = none) := by
  unfold State.awake
  decide

/-- What waits at the arbiter: a fetcher's read, and none while one is in flight; the journal's read and its record; LANE_RESTART's
read, and none behind a retirement write; the clearing of a slot, and none behind a count write. A port that is not live. -/
theorem test_met_waiting :
    let f := onLane 3 (fun l => { l with request := some .burst }) act
    let j := { act with journal := { act.journal with request := some .link } }
    let r := { filling (records 1) with handed := [.retireOwner 3] }
    let e := fun its => { busyWith (.laneRestart 3) act with
      handed := its, engine := { (busyWith (.laneRestart 3) act).engine with request := some .laneRecord } }
    let c := fun its => { act with handed := its, engine := { act.engine with writes := [.clearSlot 15] } }
    waiting f (.fetcher 3) = some (.fetch 3 .burst) ∧ (fetching 3 .link f).lane 3 ≠ f.lane 3
      ∧ waiting (fetching 3 .link f) (.fetcher 3) = none
      ∧ waiting j .journal = some (.journalRead .link) ∧ waiting r .journal = some .record
      ∧ waiting act .journal = none ∧ waiting r .statusWriter = some (.status (.retireOwner 3))
      ∧ waiting (e []) .engine = some (.engineRead .laneRecord) ∧ waiting (e [.retireOwner 3]) .engine = none
      ∧ waiting (e [.retireOwner 2]) .engine = some (.engineRead .laneRecord)
      ∧ waiting (c []) .engine = some (.engineWrite (.clearSlot 15)) ∧ waiting (c [.noticeCount 0]) .engine = none
      ∧ waiting act .engine = none ∧ (enterFailed act).awake ∧ (enterFailed act).port.live = false := by
  unfold State.awake
  decide

/-- Reads issued over a path of two writes: one that overlaps the first by its last byte is held behind it, one that ends where
the first begins is sent at once. A held read has no answer to come. -/
theorem test_met_readIssue :
    let w : Nat → Write := fun a => { addr := BitVec.ofNat 64 a, bytes := [0xA5#8], tag := .data, awaited := false }
    let s := { onLane 3 (fun l => { l with nextAddr := 512 }) act with
      port := { act.port with path := [w 543, w 4096], leftReads := [] } }
    let u := { onLane 3 (fun l => { l with nextAddr := 512 }) act with port := { act.port with path := [w 544, w 4096] } }
    (issueAccess (.fetch 3 .header) s).lane 3
        = { s.lane 3 with flight := some { kind := .header, discard := false, behind := 1 } }
      ∧ (issueAccess (.fetch 3 .header) u).lane 3
        = { u.lane 3 with flight := some { kind := .header, discard := false, behind := 0 } }
      ∧ noLeftRead (issueAccess (.fetch 3 .header) s) (.fetcher 3) ∧ noLeftRead s .journal
      ∧ (issueAccess (.journalRead .headField) s).journal.flight = some { kind := .headField, discard := false, behind := 0 }
      ∧ nextHas (exec .writeComplete (issueAccess (.fetch 3 .header) s))
          (fun t => (t.lane 3).flight = some { kind := .header, discard := false, behind := 0 }) = true := by
  unfold noLeftRead
  decide

/-- The window check at both bounds of the last of four windows. -/
theorem test_met_windowOk :
    let s := { act with
      port := { act.port with
        windows := act.port.windows.set 3 { base := 0x1000, size := 0, cueRead := true, journal := false } } }
    windowOk s .cueRead 0x1000 32 = true ∧ windowOk s .cueRead 0x1FF8 8 = true ∧ windowOk s .cueRead 0x1FF9 8 = false
      ∧ windowOk s .cueRead 0xFFF 8 = false ∧ windowOk s .journal 0x1000 32 = false := by
  decide

/-- The 29th and the 30th record of a page, and a retiring page. -/
theorem test_met_RecordAndRetirementWritesAreIssued :
    let s := fun i => { act with
      journal := { act.journal with state := .filling, page := some (512, i), fifo := records 1 } }
    let p : PageEntry := { takenEntry 0 0 with retiring := some (.complete, 0) }
    let u := onLane 3 (fun l => { l with pages := [p] }) act
    (s 28).journal.page = some (512, 28) ∧ (s 29).journal.page = some (512, 29)
      ∧ (s 29).journal.fifo = records 1 ∧ (s 29).journal.draining = false ∧ (s 29).journal.flushRequest = 0
      ∧ (u.lane 3).pages = [p] ∧ p.retiring = some (.complete, 0) ∧ (u.lane 3).running = false := by
  decide

/-- One write in the path, up to the last byte of memory. -/
def oneWrite : State :=
  { act with port := { act.port with path := [{ addr := 0xFFFFFFFFFFFFFFFC#64, bytes := [1, 2, 3, 4],
                                                tag := .noticeCount 15 1, awaited := false }] } }

theorem test_met_WriteCompletionLandsTheBytes :
    oneWrite.port.leftWrites = []
      ∧ oneWrite.port.path = { addr := 0xFFFFFFFFFFFFFFFC#64, bytes := [1, 2, 3, 4], tag := .noticeCount 15 1,
                               awaited := false } :: []
      ∧ (0xFFFFFFFFFFFFFFFC#64).toNat + [1, 2, 3, 4].length ≤ 2 ^ 64 := by
  decide

/-- WriteErrorFailsThePart has the premises of WriteCompletionLandsTheBytes; these are those of the invariants, with a step that
answers a next state. -/
theorem test_met_StepKeeps :
    step { act with pending := [.writeComplete] } = .next act
      ∧ fifoBounded State.reset = true ∧ pathBounded State.reset = true ∧ Memory.wf State.reset.memory = true
      ∧ failedAgrees State.reset = true ∧ addressAligned State.reset = true ∧ lanesBounded State.reset = true
      ∧ claimsSound act = true ∧ bindingsSound act = true ∧ sessionSound act = true :=
  ⟨rfl, by decide⟩

/-! ## Hypotheses met, clause by clause -/

/-- Line 15 owned by lane 1, whose cue of this action and policy is due, `late` ticks late; the line is STATIC. -/
def due1 (a : Action) (policy : Policy) (late : Ticks) : State :=
  let s := onLine 15 (fun x => { x with driveEnable := true, owner := some 1, mode := .static .high })
    (waitingOn 1 .pending { cue a with policy := policy } act)
  { s with time := { s.time with schedule := late } }

/-- Lanes 0 and 2 wait in this order for line 15, which lane 1 owns; lane 1's RELEASE of it is due. -/
def claimed : State :=
  let claim := cue (.claim 15 1)
  onLine 15 (fun x => { x with waiters := [{ lane := 0, expiry := 9 }, { lane := 2, expiry := 9 }] })
    (onLane 0 (fun l => { l with wait := .claim 15 }) (onLane 2 (fun l => { l with wait := .claim 15 })
      (waitingOn 0 .waitLine claim (waitingOn 2 .waitLine claim (due1 (.release 0x8000) .run 0)))))

/-- One cue of each kind that a due carries out, with the conditions its clause has beside those of OnTimeSetLinesIsCarriedOut. -/
theorem test_met_kinds (a : Action)
    (h : a ∈ [Action.nop, .setLines 0x8000 0, .pulse 15 .low 2, .wave 15 .high 2 2 0, .track 15 1 256, .captureOn 0x8001,
      .captureOff 1, .mark 5, .waitInput 0 .fall 0 true, .claim 15 0, .claim 3 9, .release 0x8000, .endLane]) :
    let s := due1 a .run 1
    s.awake ∧ s.part = .active ∧ (s.lane 1).state = .pending ∧ soleCue s 1 { cue a with policy := .run } 0
      ∧ reached s.time.schedule (s.lane 1).due = true
      ∧ (s.lane 1).config.tolerance.toNat < lateness s.time.schedule (s.lane 1).due
      ∧ (∀ k : LineNo, (0x8000#16).getLsbD k.val = true → (s.line k).owner = some 1 ∧ (s.line k).waiters = [])
      ∧ (s.line 15).baseLevel = some .high ∧ (s.gen 1).bound = none ∧ s.journal.fifo.length < 64 := by
  unfold State.awake soleCue
  fin_cases h <;> decide

/-- A free line to claim, one that another lane owns, and a RELEASE with a waiter whose CLAIM is its only cue. -/
theorem test_met_claims :
    let free := onLine 3 (fun x => { x with driveEnable := true }) (due1 (.claim 3 0) .run 0)
    let taken := onLine 3 (fun x => { x with driveEnable := true, owner := some 0 }) (due1 (.claim 3 1) .run 0)
    (free.line 3).driveEnable = true ∧ (free.line 3).owner = none
      ∧ (taken.line 3).driveEnable = true ∧ (taken.line 3).owner = some 0
      ∧ (∀ j : LineNo, (0x8000#16).getLsbD j.val = true ↔ j = 15)
      ∧ (claimed.line 15).waiters = [{ lane := 0, expiry := 9 }, { lane := 2, expiry := 9 }]
      ∧ (claimed.lane 0).state = .waitLine ∧ soleCue claimed 0 (cue (.claim 15 1)) 0
      ∧ (claimed.lane 1).state = .pending := by
  unfold soleCue
  decide

/-- The invariants at a state with an owner, two waiters and a line in TRACK. -/
theorem test_met_sound :
    let s := onGen 1 (fun x => { x with bound := some 2 }) (onLine 2 (fun x => { x with mode := .track .low 1 }) claimed)
    claimsSound s = true ∧ bindingsSound s = true ∧ sessionSound s = true ∧ (∀ k, (act.line k).waiters = [])
      ∧ nextHas (step { s with pending := [.disarmAlign 0] }) (fun t => claimsSound t && sessionSound t) = true := by
  decide +kernel

/-- The faults of LateCueUnderFaultFaultsTheLane: a line not owned, a generator bound elsewhere, a line not drive-enabled, and
a line of another lane with timeout 0. -/
theorem test_met_faults :
    let s := onGen 0 (fun x => { x with bound := some 3 }) (onLine 3 (fun x => { x with driveEnable := true, owner := some 0 })
      (due1 (.track 15 0 1) .fault 0))
    (s.line 3).owner ≠ some 1 ∧ (0x0008#16).getLsbD (3 : LineNo).val = true ∧ (s.line 15).owner = some 1
      ∧ (s.gen 0).bound = some 3 ∧ (s.line 4).driveEnable = false ∧ (s.line 3).owner = some 0
      ∧ (s.lane 1).wait = .none ∧ (s.lane 1).current = some { cue (.track 15 0 1) with policy := .fault } := by
  decide

/-- A HELD lane without a current cue: the bad mark, an ABS cue before the anchor, one at it, a REL cue, a pending fault and an
empty queue. -/
theorem test_met_resumes :
    let s := fun q => onLane 3 (fun l => { l with state := .held, anchor := 9, queue := q, pendingFault := some (.badPage, 512) }) act
    ((s []).lane 3).state = .held ∧ ((s []).lane 3).hasCurrent = false ∧ ((s []).lane 3).holdRequest = false
      ∧ ((s []).lane 3).wait = .none ∧ ((s []).lane 3).pendingFault = some (.badPage, 512) ∧ (act.lane 3).pendingFault = none
      ∧ ((s [{ cue := none, page := 512 }]).lane 3).queue = [{ cue := none, page := 512 }]
      ∧ (8 : Ticks) ≠ 9 ∧ ((9 : Ticks) - 8).toNat < 2 ^ 47 ∧ ¬((9 : Ticks) - 10).toNat < 2 ^ 47
      ∧ ¬(act.time.schedule - (9 + 1)).toNat < 2 ^ 47 := by
  decide

/-- An idle step's due event, and a part held in reset. -/
theorem test_met_idleStep :
    dueSet.pending = [] ∧ dueSet.awake ∧ dueEvents dueSet ≠ [] ∧ ({ State.reset with resetPin := .low } : State).resetPin = .low := by
  unfold State.awake
  decide

/-- FAILED as the entry leaves it, and a step in it. -/
theorem test_met_failed :
    (enterFailed oneWrite).part = .failed ∧ failedQuiet (enterFailed oneWrite) = true
      ∧ nextHas (step { (enterFailed oneWrite) with pending := [.noticeAck 0] }) (fun t => t.part = .failed) = true := by
  decide +kernel

/-- A first read that covers the whole configuration, and the part status record at the notice step. -/
theorem test_met_opening :
    let im := (startOn .first goodBytes (BitVec.allOnes 768)).engine.image.putAll 0x2FF [0]
    let s := startOn .opening goodBytes (BitVec.allOnes 768)
    im.exchangeOk = true ∧ im.complete = true ∧ im.valid = true ∧ (im.syncSelect?).isSome = true
      ∧ s.engine.command = some (.start .opening) := by
  decide +kernel

/-- START's activation: a line pre-assigned to an enabled lane, head pages 512 in and out of the windows, a survey interval. -/
theorem test_met_activation :
    let s := { wide (onLine 3 (fun x => { x with preassigned := some 1 })
      (onLane 1 (fun l => { l with config := { l.config with head := 512 } }) written)) with
      survey := { interval := 1, expiry := none } }
    (s.line 3).preassigned = some 1 ∧ (s.lane 1).config.enable = true ∧ (s.lane 1).config.head ≠ 0
      ∧ (512#64).toNat % 512 = 0 ∧ (s.lane 1).pages.length < 17 ∧ windowOk s .cueRead 512#64 32 = true
      ∧ windowOk written .cueRead 512#64 32 = false ∧ windowOk s .journal 512#64 32 = true
      ∧ s.journal.head = 0 ∧ s.survey.interval ≠ 0 := by
  decide

/-- A lane and the journal stalled at LINK or HEADER, pages in and out of the windows. -/
theorem test_met_stalls :
    let s := fun st a => wide (onLane 3 (fun l => { l with
      state := .starved, running := true, stall := st, nextAddr := a, fetchPage := some a }) act)
    let j := fun st => wide { act with journal := { act.journal with state := .starved, stall := st, linkPage := some 512 } }
    (((s .link 512).lane 3).stall = .link) ∧ windowOk (s .link 512) .cueRead (512 + 8#64) 8 = true
      ∧ ((s .header 512).lane 3).stall = .header ∧ windowOk (s .header 512) .cueRead 512 32 = true
      ∧ windowOk (s .header 0xFFFFFFFFFFFFFE00#64) .cueRead 0xFFFFFFFFFFFFFE00#64 32 = false
      ∧ windowOk (s .link 0x100000000#64) .cueRead (0x100000000#64 + 8#64) 8 = false
      ∧ ((s .link 512).lane 3).state = .starved ∧ ((s .link 512).lane 3).pages.length < 17
      ∧ ((onLane 3 (fun l => { l with state := .pending }) (s .link 512)).lane 3).state ≠ .starved
      ∧ windowOk { j .link with port := act.port } .journal (512 + 8#64) 8 = false ∧ (j .link).journal.draining = false
      ∧ windowOk { j .header with port := act.port } .journal 0 32 = false ∧ (j .header).journal.nextAddr = 0
      ∧ (j .link).journal.state = .starved ∧ (j .link).journal.request = none ∧ (j .link).journal.flight = none
      ∧ windowOk (j .link) .journal (512 + 8#64) 8 = true ∧ (j .header).journal.stall = .header := by
  decide

/-- A STARVED lane: its first page with a burst the windows hold; and its burst's last cues, one of them bad. -/
theorem test_met_starved :
    let s := wide (fetching 3 .header (onLane 3 (fun l => { l with state := .starved, running := true, nextAddr := 512 }) act))
    let u := wide (fetching 3 .burst (onLane 3 (fun l => { l with
      state := .starved, reserved := 1, fetchPage := some 512, pages := [{ takenEntry 512 0 with count := 1 }] }) act))
    awaitsFetch s 3 .header ∧ (s.lane 3).state = .starved ∧ (s.lane 3).wait = .none ∧ (s.lane 3).request = none
      ∧ windowOk s .cueRead (512 + 32#64) (32 * min 4 (min 15 (16 - 0 - 0))) = true
      ∧ awaitsFetch u 3 .burst ∧ (u.lane 3).state = .starved ∧ (u.lane 3).queue = [] ∧ (u.lane 3).wait = .none
      ∧ windowOk u .cueRead ((u.lane 3).fetchPage.getD 0 + 8#64) 8 = true
      ∧ parseCue 0xFF#256 = none ∧ (parseCue 0x0100#256).isSome = true
      ∧ (parseCue 0x000000000001000000#256).isSome = true ∧ ¬(u.time.schedule - 1).toNat < 2 ^ 47 := by
  unfold awaitsFetch noLeftRead
  decide

/-- The last record of a flush request with the flush timer expired; one of the drain; a record the windows do not hold; a
running lane that waits for room. -/
theorem test_met_recordClauses :
    let s := fun q d => wide { filling (records 1) with
      journal := { (filling (records 1)).journal with flushRequest := q, draining := d } }
    let u := wide (onLane 3 (fun l => { l with
      running := true, step := .header, nextAddr := 512, pages := [{ takenEntry 0 0 with retiring := some (.complete, 0) }] }) act)
    windowOk (s 1 false) .journal (512 + BitVec.ofNat 64 (32 + 16 * 1)) 16 = true
      ∧ windowOk (filling (records 1)) .journal (512 + BitVec.ofNat 64 (32 + 16 * 1)) 16 = false
      ∧ (s 1 false).journal.flushRequest = 1 ∧ reached (s 1 false).time.elapsed 0 = true
      ∧ (s 0 true).journal.draining = true ∧ (s 0 true).journal.state = .filling ∧ (s 0 true).journal.stall = .none
      ∧ (u.lane 3).running = true ∧ (u.lane 3).stall = .none ∧ (u.lane 3).request = none ∧ (u.lane 3).flight = none
      ∧ (u.lane 3).step = .header ∧ windowOk u .cueRead (u.lane 3).nextAddr 32 = true := by
  decide

/-- The gather table: a PRIMARY slot, and a SECONDARY one in IDLE with interval 0 and 1, and in OPEN. -/
theorem test_met_gatherTable :
    let s := fun i g => { onSlot 15 (fun x => { x with secondary := true }) oneWrite with
      notice := { (onSlot 15 (fun x => { x with secondary := true }) oneWrite).notice with gatherInterval := i, gather := g } }
    (oneWrite.slot 15).secondary = false ∧ ((s 0 .idle).slot 15).secondary = true ∧ (s 1 .idle).notice.gatherInterval ≠ 0
      ∧ (s 1 .opened).notice.gather ≠ .idle := by
  decide

/-- FAILED takes a binding away: line 2 in TRACK on generator 0. -/
theorem test_met_boundTrack :
    (deriving4.gen 0).bound = some 2 ∧ (deriving4.line 2).mode = .track .low 0 ∧ (deriving4.gen 1).bound = none := by
  decide

/-! ## The bytes of Memory Formats -/

/-- REL and NOTIFY with policy SKIP on a NOP due 0x010203040506; END; and kind 12, which names none. -/
theorem test_cue_flags :
    parseCue 0x0102030405060700#256
        = some { rel := true, notify := true, policy := .skip, due := 0x010203040506, action := .nop }
      ∧ parseCue 0x0B#256 = some { rel := false, notify := false, policy := .run, due := 0, action := .endLane }
      ∧ parseCue 0x0C#256 = none ∧ parseCue 0x0C00#256 = none := by decide

/-- SET_LINES, CAPTURE_ON, CAPTURE_OFF, MARK and RELEASE take every value of their fields. -/
theorem test_cue_masks :
    actionOf? 0x800100030000000000000001#256 = some (.setLines 0x0003 0x8001)
      ∧ actionOf? 0x80000000000000000005#256 = some (.captureOn 0x8000)
      ∧ actionOf? 0x00010000000000000006#256 = some (.captureOff 0x0001)
      ∧ actionOf? 0xDEADBEEF0000000000000007#256 = some (.mark 0xDEADBEEF)
      ∧ actionOf? 0xFFFF000000000000000A#256 = some (.release 0xFFFF) := by decide

/-- PULSE and WAVE with the shortest and longest durations, and with one tick, which fails. -/
theorem test_cue_pulse_wave :
    actionOf? 0x000000020000010F0000000000000002#256 = some (.pulse 15 .high 2)
      ∧ actionOf? 0x000000010000010F0000000000000002#256 = none
      ∧ actionOf? 0x00FFFFFF00000002000300010000000000000003#256 = some (.wave 1 .low 2 0xFFFFFF 3) := by decide

/-- TRACK with multiplier 256, and with 257, which fails; WAIT_INPUT for EITHER; CLAIM. -/
theorem test_cue_track_wait_claim :
    actionOf? 0x0100010F0000000000000004#256 = some (.track 15 1 256)
      ∧ actionOf? 0x0101010F0000000000000004#256 = none
      ∧ actionOf? 0x0000007D000003020000000000001008#256 = some (.waitInput 2 .either 125 true)
      ∧ actionOf? 0xFFFF00070000000000000009#256 = some (.claim 7 0xFFFF) := by decide

/-- The lengths of the records (Table 12-3) and of a slot's two writes. -/
theorem test_record_lengths :
    (Lane.reset.statusBytes 0).length = 64 ∧ (Journal.reset.statusBytes 0).length = 48
      ∧ (Generator.reset.statusBytes 0).length = 32 ∧ (partStatusBytes true 1 0).length = 16
      ∧ ((takenEntry 0 0).summaryBytes .complete 0).length = 16 ∧ (CaptureRecord.sync true 0).bytes.length = 16
      ∧ (detailsBytes act (.alignment 0 0)).length = 28 ∧ (countBytes 5).length = 4 := by decide

/-- A MARK record of lane 2 at time 0x0A0B0C, and an EDGE record (Table 12-7). -/
theorem test_capture_bytes :
    (CaptureRecord.mark 2 0x01020304 0x0A0B0C).bytes
        = [2, 2, 0x0C, 0x0B, 0x0A, 0, 0, 0, 0x04, 0x03, 0x02, 0x01, 0, 0, 0, 0]
      ∧ (CaptureRecord.edge 15 .fall 1).bytes = [1, 15, 1, 0, 0, 0, 0, 0, 2, 0, 0, 0, 0, 0, 0, 0] := by decide

/-! ## Small steps -/

/-- START in CONFIG shows busy with code 1; a second one is refused with REFUSED_BUSY and shows nothing else. -/
theorem test_step_start :
    nextHas (exec (.start 7) State.reset) (fun t => readRegister t .cmdStatus = 0x00000101#32
      && nextHas (exec (.start 7) t) (fun u => readRegister u .cmdStatus = 0x00010103#32)) = true := by decide +kernel

/-- The last configuration read of a valid START enters the session; the issue of the part status record is the notice step;
START_ACTIVATE needs the sixteen slots issued too. -/
theorem test_step_startReadDone :
    nextHas (exec (.startReadDone 0x2FF [0]) (startOn .reading goodBytes (BitVec.allOnes 768)))
      (fun t => t.engine.session = 1 && t.engine.writes = [.partStatus true] && t.engine.command = some (.start .opening)
        && nextHas (exec .memoryService t) (fun u => u.engine.writes.length = 16
          && u.engine.command = some (.start .writing) && u.port.path.length = 1
          && nextHas (exec .startActivate u) (fun v => v.part = .starting))) = true := by decide +kernel

/-- START_ACTIVATE: line 3 drives its rest level, line 4 floats, lane 1 is STARVED. -/
theorem test_step_startActivate :
    nextHas (exec .startActivate written) (fun t => t.part = .active && (t.line 3).mode = .static .low && (t.line 4).mode = .float
      && (t.lane 1).state = .starved && readRegister t .cmdStatus = 0x00010000#32) = true := by decide +kernel

/-- RESET_N LOW from ACTIVE, and a write while it is held. -/
theorem test_step_resetN :
    nextHas (exec (.resetN .low) claiming) (fun t => t.part = .config && (t.line 3).waiters = []
      && nextHas (exec (.controlWrite 1) t) (fun u => u.regs.attnEnable = false)) = true := by decide +kernel

/-- CONTROL and EXB_LO. -/
theorem test_step_registers :
    nextHas (exec (.controlWrite 0x7FFFFFFF#32) State.reset) (fun t => readRegister t .control = 3)
      && nextHas (exec (.registerWrite .exbLo 0xFFFFFFFF#32) State.reset)
        (fun t => readRegister t .exbLo = 0xFFFFF800#32)
      && nextHas (exec (.registerWrite .exbLo 0x800#32) act) (fun t => readRegister t .exbLo = 0) = true := by
  decide +kernel

/-- A due cue on time sets line 15; one tick late, under FAULT, it faults the lane. -/
theorem test_step_dueReached :
    nextHas (exec (.dueReached 1) dueSet) (fun t => (t.line 15).mode = .static .high && (t.lane 1).state = .starved
      && (t.lane 1).executed = 1)
      && nextHas (exec (.dueReached 1) lateSet) (fun t => (t.line 15).mode = .float && (t.lane 1).state = .faulted
        && (t.lane 1).fault = .late && (t.line 15).owner = some 1) = true := by decide +kernel

/-- An input wait that expires, with TIMEOUT_CONTINUES and without. -/
theorem test_step_waitInputExpiry :
    nextHas (exec (.waitInputExpiry 1) (waited true)) (fun t => (t.lane 1).state = .starved && (t.lane 1).anchor = 1)
      && nextHas (exec (.waitInputExpiry 1) (waited false)) (fun t => (t.lane 1).fault = .waitTimeout) = true := by
  decide +kernel

/-- Lane 2's claim expires; lane 0 stays in the list. -/
theorem test_step_claimExpiry :
    nextHas (exec (.claimExpiry 3 2) claiming) (fun t => (t.lane 2).fault = .claimTimeout
      && (t.line 3).waiters = [{ lane := 0, expiry := 9 }] && (t.line 3).owner = some 1) = true := by decide +kernel

/-- A rise on IN5 ends lane 1's wait; the same level again is no transition. -/
theorem test_step_inputTransition :
    nextHas (exec (.inputTransition 5 .high) edgeWait) (fun t => (t.lane 1).state = .starved
      && nextHas (exec (.inputTransition 5 .high) t) (fun u => u = t)) = true := by decide +kernel

/-- A generator locks on a measured gap, with a TRACK record. -/
theorem test_step_realEdge :
    nextHas (exec (.inputTransition 7 .high) (follows .firstEdge 100)) (fun t => (t.gen 1).state = .locked
      && (t.gen 1).period = 100 && t.journal.fifo = [.track 1 .locked 100 0]) = true := by decide +kernel

/-- The last derived edge toggles line 2 and leaves none due. -/
theorem test_step_derivedEdge :
    nextHas (exec (.derivedEdge 0) deriving4) (fun t => (t.line 2).mode = .track .high 0 && (t.gen 0).nextIndex = 4
      && nextHas (exec (.derivedEdge 0) t) (fun u => u = t)) = true := by decide +kernel

/-- An aligned SYNC event steps schedule time to the armed value and is recorded with the old time. -/
theorem test_step_syncEvent :
    nextHas (exec (.syncEvent .low) (syncing true)) (fun t => t.time.schedule = 9 && t.time.armed = false
      && t.journal.fifo = records 63 ++ [.sync true 0] && (t.slot 15).details = .alignment 0 9) = true := by
  decide +kernel

/-- A survey re-reads lane 3's head field, and the timer starts again. -/
theorem test_step_surveyExpiry :
    nextHas (exec .surveyExpiry stalled) (fun t => (t.lane 3).request = some .headField
      && t.survey.expiry = some 125) = true := by decide +kernel

/-- A burst of two cues wakes a STARVED lane: the MARK due now is recorded, the one a tick later is PENDING. -/
theorem test_step_cueBurstDone :
    let page : PageEntry := { takenEntry 512 0 with count := 2 }
    let s := wide (fetching 0 .burst (onLane 0
      (fun l => { l with state := .starved, running := true, step := .cues, reserved := 2, fetchPage := some 512,
                         pages := [page] }) act))
    nextHas (exec (.cueBurstDone 0 [0x050000000000000007#256 <<< 0, 0x0100#256 <<< 8]) s)
      (fun t => t.journal.fifo = [.mark 0 5 0] && (t.lane 0).state = .pending && (t.lane 0).executed = 1
        && (t.lane 0).request = some .link) = true := by decide +kernel

/-- A page header with 3 cues is taken, and its first burst is presented; owner HOST stalls. -/
theorem test_step_headerReadDone :
    let s := wide (fetching 3 .header (onLane 3 (fun l => { l with state := .starved, running := true, nextAddr := 512 }) act))
    nextHas (exec (.headerReadDone 3 0x0003005A#256) s) (fun t => (t.lane 3).request = some .burst
      && (t.lane 3).burstSize = 3)
      && nextHas (exec (.headerReadDone 3 0#256) s) (fun t => (t.lane 3).stall = .header) = true := by decide +kernel

/-- The journal takes a page, and a link of 0 stalls at LINK. -/
theorem test_step_journalReads :
    nextHas (exec (.journalHeaderReadDone 0x5A#256) (wide (journalReading .header act)))
        (fun t => t.journal.state = .filling && t.journal.page = some (0, 0))
      && nextHas (exec (.journalLinkReadDone 0) (wide (journalReading .link act)))
        (fun t => t.journal.stall = .link) = true := by decide +kernel

/-- The flush timer closes the page TIMED. -/
theorem test_step_flushTimerExpiry :
    nextHas (exec .flushTimerExpiry (filling [])) (fun t => t.journal.page = none && t.handed = [.closeSummary, .journalStatus]) = true := by
  decide +kernel

/-- The arbiter issues the record write of a filling journal. -/
theorem test_step_memoryService :
    nextHas (exec .memoryService (wide (filling (records 1)))) (fun t => t.journal.fifo = [] && t.journal.page = some (512, 2)
      && t.port.path = [dataWrite 560 (CaptureRecord.sync false 0).bytes] && t.port.last = .journal) = true := by
  decide +kernel

/-- A count write completes: four bytes land, the slot is pending, and a PRIMARY slot opens the gather state. -/
theorem test_step_writeComplete :
    nextHas (exec .writeComplete oneWrite) (fun t => (t.slot 15).posted = 1 && t.notice.gather = .opened
      && Memory.get t.memory 0xFFFFFFFFFFFFFFFC = some 1 && Memory.get t.memory 0xFFFFFFFFFFFFFFFF = some 4
      && Memory.wf t.memory && readRegister t .noticeAck = 0x8000#32) = true := by decide +kernel

/-- A write error fails the part, and ATTN's request is true. -/
theorem test_step_writeError :
    (enterFailed oneWrite).part = .failed ∧ attentionRequest (enterFailed oneWrite) = true
      ∧ (enterFailed oneWrite).port.path = [] := by decide +kernel

/-- LANE_HOLD and LANE_RESUME on a STARVED lane; a lane operand of 4 is BAD_OPERAND. -/
theorem test_step_laneHold :
    let s := onLane 3 (fun l => { l with state := .starved }) act
    nextHas (exec (.laneHold 3) s) (fun t => (t.lane 3).state = .held
        && nextHas (exec (.laneResume 3) t) (fun u => (u.lane 3).state = .starved))
      && nextHas (exec (.laneHold 4) s) (fun t => t.engine.lastOutcome = .badOperand && t.engine.lastOperand = 4) = true := by
  decide +kernel

/-- LANE_STOP releases lane 1's line 15 to rest; STOP quiets the part. -/
theorem test_step_stops :
    nextHas (exec (.laneStop 1) dueSet) (fun t => (t.lane 1).state = .off && (t.line 15).owner = none
        && (t.line 15).mode = .static .low && (t.lane 1).discarded = 1)
      && nextHas (exec (.stop 0) dueSet) (fun t => t.part = .stopping && (t.line 15).owner = none) = true := by
  decide +kernel

/-- A step of an idle part takes the due event that is there, and then ticks. -/
theorem test_step_idle :
    nextHas (step dueSet) (fun t => (t.lane 1).executed = 1 && t.time.elapsed = 0
      && nextHas (step t) (fun u => u.time.elapsed = 1 && u.time.schedule = 1)) = true := by decide +kernel

/-- The pins show a line's level only from the tick on: a line that rises and falls between two ticks is not seen. -/
theorem test_step_pins :
    let s := { deriving4 with time := { deriving4.time with elapsed := 47 } }
    nextHas (step { s with pending := [.pulseEnd 0] }) (fun t => outPin t 2 = none
      && nextHas (step t) (fun u => outPin u 2 = some .low)) = true := by decide +kernel

/-- IN6 is sampled once per tick: a fall after a rise changes nothing until the tick. -/
theorem test_step_sampledOnce :
    nextHas (exec (.inputTransition 6 .high) edgeWait) (fun t => (t.input 6).moved
      && nextHas (exec (.inputTransition 6 .low) t) (fun u => u = t)
      && nextHas (step t) (fun u => !(u.input 6).moved && u.time.elapsed = 1)) = true := by decide +kernel

/-- A new claim wait, entered in the run that ended the one before, marks the lane's status record stale. -/
theorem test_step_waitAgain :
    let t := beginClaimWait 0 3 1 claimed
    (claimed.lane 0).state = .waitLine ∧ StatusItem.laneStatus 0 ∉ claimed.handed ∧ (t.lane 0).wait = .claim 3
      ∧ StatusItem.laneStatus 0 ∈ t.handed := by decide

/-- A record outside the windows faults the journal with the page's address. -/
theorem test_step_recordWindow :
    nextHas (exec .memoryService (filling (records 1))) (fun t => t.journal.fault = .window
      && t.journal.faultAddr = some 512 && t.port.path = []) = true := by decide +kernel

/-- The align value is read at +0x098, and lane 3's record at +0x070. -/
theorem test_engineRange :
    engineRange act .alignValue = (0x098#64, 8)
      ∧ engineRange (busyWith (.laneRestart 3) act) .laneRecord = (0x070#64, 16) := by decide

/-- Codes of edge selects, policies and levels that name none are refused. -/
theorem test_badCodes :
    EdgeSelect.ofCode? 4 = Option.none ∧ actionOf? 0x4000000000000000008#256 = none
      ∧ actionOf? 0x0000000000000000008#256 = none
      ∧ ((startOn .reading goodBytes (BitVec.allOnes 768)).engine.image.putAll 0x140 [4]).valid = false := by
  decide +kernel

/-- The command a word written to COMMAND carries; bits 31 to 16 are ignored. -/
theorem test_commandOfWord :
    commandOfWord 0xFFFF0301#32 = .start 3 ∧ commandOfWord 0x00000204#32 = .laneRestart 2
      ∧ commandOfWord 0x0000FF0C#32 = .disarmAlign 0xFF ∧ commandOfWord 0x0000010D#32 = .undefinedCommand 13 1
      ∧ commandOfWord 0xABCD0000#32 = .undefinedCommand 0 0 := by decide

/-- No word spells a command. -/
theorem test_decodeTableWord (s : State) : decodeTableWord 8 0 = none ∧ s.withFetchWord 8 0 = s := ⟨rfl, rfl⟩

end Sys2Proof.Tests
end

