-- ==== Sys2Proof/Proofs/ScheduleTime.lean ====
section
/-!
THEOREM. Schedule times are compared by the half range of their 48-bit difference (R56), for a due (R6) and for the ORDER
condition (R5).
-/

namespace Sys2Proof.Machine

/-! ## The half-range comparison -/

/-- The lateness is the difference of the two times modulo 2^48 (R56). -/
theorem lateness_eq_mod (t d : Ticks) : lateness t d = (t.toNat + 2 ^ 48 - d.toNat) % 2 ^ 48 := by
  have hd : d.toNat ≤ 2 ^ 48 := d.isLt.le
  calc lateness t d
      = (2 ^ 48 - d.toNat + t.toNat) % 2 ^ 48 := BitVec.toNat_sub t d
    _ = (t.toNat + 2 ^ 48 - d.toNat) % 2 ^ 48 := by rw [Nat.add_comm, Nat.add_sub_assoc hd]

/-- A time is reached when its lateness lies in the lower half of the range (R56). -/
theorem reached_iff_lateness_lt (t d : Ticks) : reached t d = true ↔ lateness t d < 2 ^ 47 := by
  rw [reached, lateness, decide_eq_true_iff]

/-- The lateness and the ticks that `d` lies ahead of `t` make up one whole range, unless the two times are equal. -/
theorem ahead_add_lateness {t d : Ticks} (h : lateness t d ≠ 0) :
    (d.toNat + 2 ^ 48 - t.toNat) % 2 ^ 48 + lateness t d = 2 ^ 48 := by
  rw [lateness_eq_mod] at h ⊢
  have ht : t.toNat < 2 ^ 48 := t.isLt
  have hd : d.toNat < 2 ^ 48 := d.isLt
  omega

/-- A time not reached lies at least one tick and at most half the range ahead (R56). -/
theorem ahead_of_not_reached {t d : Ticks} (h : reached t d = false) :
    1 ≤ (d.toNat + 2 ^ 48 - t.toNat) % 2 ^ 48 ∧ (d.toNat + 2 ^ 48 - t.toNat) % 2 ^ 48 ≤ 2 ^ 47 := by
  have hlate : 2 ^ 47 ≤ lateness t d := by
    rw [← Nat.not_lt, ← reached_iff_lateness_lt, h]
    exact Bool.false_ne_true
  have hrange : lateness t d < 2 ^ 48 := (t - d).isLt
  have hsum := ahead_add_lateness (t := t) (d := d) (by omega)
  omega

/-! ## Its use by the executors -/

/-- What makes a lane's due ready: a PENDING lane of an ACTIVE part, its current cue, and the due reached (R6). -/
theorem dueReady_iff (s : State) (n : LaneNo) :
    dueReady s n = true ↔ s.part = .active ∧ (s.lane n).state = .pending ∧ (s.lane n).current.isSome = true
      ∧ reached s.time.schedule (s.lane n).due = true := by
  simp only [dueReady, Bool.and_eq_true, decide_eq_true_iff, and_assoc]

/-- The ORDER condition: an ABS cue whose due is another time than the anchor, and one the anchor has reached (R5). -/
theorem ordersBack_iff (anchor : Ticks) (c : Cue) :
    ordersBack anchor c = true ↔ c.rel = false ∧ c.due ≠ anchor ∧ reached anchor c.due = true := by
  simp only [ordersBack, Bool.and_eq_true, Bool.not_eq_true', bne_iff_ne, and_assoc]

/-- Settles O27: the lateness is the difference modulo 2^48, and both executors' conditions hold the comparison. -/
theorem reachedIsHalfRange : Obligations.ReachedIsHalfRange := by
  intro t d
  refine ⟨?half, lateness_eq_mod t d, ?late, ahead_of_not_reached, ?due, ordersBack_iff t⟩
  case half => rw [reached_iff_lateness_lt, lateness_eq_mod]
  case late => exact fun h => Nat.le_sub_one_of_lt ((reached_iff_lateness_lt t d).mp h)
  case due =>
    intro s n h
    obtain ⟨_hactive, _hpending, _hcurrent, hreached⟩ := (dueReady_iff s n).mp h
    exact hreached

end Sys2Proof.Machine
end

