-- ==== Sys2Proof/Proofs/OutputLines.lean ====
section
/-!
THEOREM. A pulse end returns its line to STATIC at the return level and reaches nothing else (R77).
-/

namespace Sys2Proof.Machine

/-! ## Events -/

/-- An event of the part whose condition holds, while RESET_N is HIGH. -/
theorem whenEvent_of_ready {s : State} (hs : s.awake) {ready : Bool} (h : ready = true) (t : State) :
    whenEvent s ready t = .next t := by
  have hpin : s.resetPin ≠ .low := by rw [show s.resetPin = .high from hs]; decide
  rw [whenEvent, unlessHeld, if_neg hpin, if_pos h]

/-- An event whose condition does not hold changes nothing, held or not (log 4). -/
theorem whenEvent_of_not_ready (s : State) {ready : Bool} (h : ready ≠ true) (t : State) :
    whenEvent s ready t = .next s := by
  rw [whenEvent, unlessHeld, if_neg h, ite_self]

/-! ## The pulse end (R77) -/

theorem exec_pulseEnd_eq (k : LineNo) (s : State) :
    exec (.pulseEnd k) s = whenEvent s (pulseDue s k) (endPulse k s) := rfl

/-- A pulse end is due on a line in PULSE alone, once the elapsed count reaches it. -/
theorem pulseDue_iff (s : State) (k : LineNo) :
    pulseDue s k = true ↔ ∃ active ret e, (s.line k).mode = .pulse active ret e ∧ reached s.time.elapsed e = true := by
  unfold pulseDue
  cases (s.line k).mode with
  | pulse active ret e => simp
  | float => simp
  | static level => simp
  | wave first d1 d2 periods completed phase phaseEnd => simp
  | track level gen => simp

theorem endPulse_of_pulse {s : State} {k : LineNo} {active ret : Level} {e : Ticks}
    (hmode : (s.line k).mode = .pulse active ret e) :
    endPulse k s = s.setLine k { s.line k with mode := .static ret } := by
  simp only [endPulse, hmode, setMode]

/-- Settles O34, by the condition of the event: it holds at the end of a pulse, not before it and in no other mode. -/
theorem pulseEndReturnsTheLine : Obligations.PulseEndReturnsTheLine := by
  intro k s hs
  simp only [exec_pulseEnd_eq]
  refine ⟨?atEnd, ?early, ?otherMode⟩
  case atEnd =>
    intro active ret e hmode hreached
    have hdue : pulseDue s k = true := (pulseDue_iff s k).mpr ⟨active, ret, e, hmode, hreached⟩
    rw [whenEvent_of_ready hs hdue, endPulse_of_pulse hmode]
  case early =>
    intro active ret e hmode hearly
    refine whenEvent_of_not_ready s (fun hdue => ?_) _
    obtain ⟨active', ret', e', hmode', hreached⟩ := (pulseDue_iff s k).mp hdue
    obtain ⟨rfl, rfl, rfl⟩ := OutMode.pulse.inj (hmode.symm.trans hmode')
    exact absurd (hearly.symm.trans hreached) Bool.false_ne_true
  case otherMode =>
    intro hmode
    refine whenEvent_of_not_ready s (fun hdue => ?_) _
    obtain ⟨active, ret, e, hpulse, _⟩ := (pulseDue_iff s k).mp hdue
    exact hmode active ret e hpulse

end Sys2Proof.Machine
end

