-- ==== Sys2Proof/Proofs/AttentionPin.lean ====
section
/-!
THEOREM. ATTN shows the attention request through the enable and the polarity of CONTROL, and is LOW after either reset
(R163, R180, R193).
-/

namespace Sys2Proof.Machine

/-! ## The attention request (R163) -/

theorem Slot.pending_iff (x : Slot) : x.pending = true ↔ x.posted ≠ x.acknowledged := bne_iff_ne

theorem allSlots_any_iff (p : SlotNo → Bool) : allSlots.any p = true ↔ ∃ k, p k = true := by
  simp only [List.any_eq_true, mem_allSlots, true_and]

theorem primaryPending_iff (s : State) :
    primaryPending s = true ↔ ∃ k, (s.slot k).posted ≠ (s.slot k).acknowledged ∧ (s.slot k).secondary = false := by
  simp only [primaryPending, allSlots_any_iff, Bool.and_eq_true, Bool.not_eq_true', Slot.pending_iff]

theorem secondaryPending_iff (s : State) :
    secondaryPending s = true ↔ ∃ k, (s.slot k).posted ≠ (s.slot k).acknowledged ∧ (s.slot k).secondary = true := by
  simp only [secondaryPending, allSlots_any_iff, Bool.and_eq_true, Slot.pending_iff]

theorem attentionRequest_iff (s : State) :
    attentionRequest s = true ↔
      s.part = .failed
        ∨ (∃ k, (s.slot k).posted ≠ (s.slot k).acknowledged ∧ (s.slot k).secondary = false)
        ∨ ((∃ k, (s.slot k).posted ≠ (s.slot k).acknowledged ∧ (s.slot k).secondary = true)
            ∧ s.notice.gather = .opened) := by
  simp only [attentionRequest, Bool.or_eq_true, Bool.and_eq_true, decide_eq_true_iff, primaryPending_iff,
    secondaryPending_iff, or_assoc]

/-! ## The pin -/

theorem levelOfBit_eq_high_iff (b : Bool) : levelOfBit b = .high ↔ b = true := by
  cases b <;> decide

theorem levelOfBit_not_eq_low_iff (b : Bool) : levelOfBit (!b) = .low ↔ b = true := by
  cases b <;> decide

theorem attnPin_of_highAsserted {s : State} (h : s.regs.attnLowAsserted = false) :
    attnPin s = levelOfBit (s.regs.attnEnable && attentionRequest s) := by
  rw [attnPin, h, Bool.xor_false]

theorem attnPin_of_lowAsserted {s : State} (h : s.regs.attnLowAsserted = true) :
    attnPin s = levelOfBit (!(s.regs.attnEnable && attentionRequest s)) := by
  rw [attnPin, h, Bool.xor_true]

/-- With the enable clear and the polarity HIGH_ASSERTED the pin is LOW whatever the request is. -/
theorem attnPin_of_disabled {s : State} (he : s.regs.attnEnable = false) (hp : s.regs.attnLowAsserted = false) :
    attnPin s = .low := by
  rw [attnPin_of_highAsserted hp, he, Bool.false_and]
  rfl

/-! ## CONTROL writes and the resets (R180, R193, R194) -/

theorem unlessHeld_of_awake {s : State} (hs : s.awake) (t : State) : unlessHeld s t = .next t := by
  have hpin : s.resetPin ≠ .low := by rw [show s.resetPin = .high from hs]; decide
  rw [unlessHeld, if_neg hpin]

/-- A CONTROL write without the soft reset bit takes the two attention fields (R180). -/
theorem exec_controlWrite_fields {s : State} (hs : s.awake) {v : Word} (hv : v.getLsbD 31 = false) :
    exec (.controlWrite v) s = .next (setAttention v s) := by
  have hbit : softResetBit v ≠ true := ne_true_of_eq_false hv
  calc exec (.controlWrite v) s
      = unlessHeld s (if softResetBit v then resetKeepingAddress s else setAttention v s) := rfl
    _ = .next (setAttention v s) := by rw [if_neg hbit, unlessHeld_of_awake hs]

/-- A CONTROL write with the soft reset bit is a soft reset, whatever its other bits are (R180). -/
theorem exec_controlWrite_softReset {s : State} (hs : s.awake) {v : Word} (hv : v.getLsbD 31 = true) :
    exec (.controlWrite v) s = .next (resetKeepingAddress s) := by
  have hbit : softResetBit v = true := hv
  calc exec (.controlWrite v) s
      = unlessHeld s (if softResetBit v then resetKeepingAddress s else setAttention v s) := rfl
    _ = .next (resetKeepingAddress s) := by rw [if_pos hbit, unlessHeld_of_awake hs]

theorem exec_resetN_low (s : State) : exec (.resetN .low) s = .next (resetAll { s with resetPin := .low }) := rfl

/-- The request does not depend on the fields of CONTROL. -/
theorem attentionRequest_setAttention (v : Word) (s : State) :
    attentionRequest (setAttention v s) = attentionRequest s := rfl

theorem attnPin_resetKeepingAddress (s : State) : attnPin (resetKeepingAddress s) = .low :=
  attnPin_of_disabled rfl rfl

theorem attnPin_resetAll (s : State) : attnPin (resetAll s) = .low :=
  attnPin_of_disabled rfl rfl

/-- Settles O12: the request by its three causes, the pin by the polarity, and both resets by the cleared fields. -/
theorem attnShowsTheRequest : Obligations.AttnShowsTheRequest := by
  intro s
  refine ⟨attentionRequest_iff s, ?highAsserted, ?lowAsserted, ?fields, ?resetN, ?softReset⟩
  case highAsserted =>
    intro hp
    rw [attnPin_of_highAsserted hp, levelOfBit_eq_high_iff, Bool.and_eq_true]
  case lowAsserted =>
    intro hp
    rw [attnPin_of_lowAsserted hp, levelOfBit_not_eq_low_iff, Bool.and_eq_true]
  case fields =>
    intro v hs hv
    exact ⟨setAttention v s, exec_controlWrite_fields hs hv, rfl, rfl, attentionRequest_setAttention v s⟩
  case resetN =>
    intro t ht
    obtain rfl := Host.Outcome.next.inj ((exec_resetN_low s).symm.trans ht)
    exact attnPin_resetAll _
  case softReset =>
    intro v t hs hv ht
    obtain rfl := Host.Outcome.next.inj ((exec_controlWrite_softReset hs hv).symm.trans ht)
    exact attnPin_resetKeepingAddress s

end Sys2Proof.Machine
end

