-- ==== Sys2Proof/Proofs/Effects.lean ====
section
/-!
SUPPORT. What every command can do, said once: the relation `Effect` has one constructor per effect with the condition it
needs, `exec_effect` that every command answers a next state which is the old one or an effect, and `step_keeps` that what
every effect, every tick and every draw keeps, every step keeps.
-/

namespace Sys2Proof.Machine

/-! ## Outcomes -/

/-- The outcome is a next state with a property. -/
def Answers (o : Out) (P : State → Prop) : Prop := ∃ t, o = .next t ∧ P t

theorem Answers.of_next {o : Out} {P : State → Prop} (h : Answers o P) {t : State} (ht : o = .next t) : P t := by
  obtain ⟨u, hu, hP⟩ := h
  obtain rfl := Host.Outcome.next.inj (hu.symm.trans ht)
  exact hP

theorem answers_next {P : State → Prop} {t : State} (h : P t) : Answers (.next t) P := ⟨t, rfl, h⟩

theorem awake_of_not_low {s : State} (h : s.resetPin ≠ .low) : s.awake := by
  cases hp : s.resetPin
  · exact absurd hp h
  · exact hp

/-- A command that RESET_N holds back, or that acts (R179, R193). -/
theorem answers_unlessHeld {P : State → Prop} {s t : State} (hs : P s) (ht : s.awake → P t) :
    Answers (unlessHeld s t) P := by
  unfold unlessHeld
  split
  · exact answers_next hs
  · rename_i h; exact answers_next (ht (awake_of_not_low h))

/-- An event that is due, or that is none (log 4). -/
theorem answers_whenEvent {P : State → Prop} {s t : State} {ready : Bool} (hs : P s)
    (ht : s.awake → ready = true → P t) : Answers (whenEvent s ready t) P := by
  refine answers_unlessHeld hs fun ha => ?_
  split
  · rename_i h; exact ht ha h
  · exact hs

/-- No time-taking command is in progress and the part is in CONFIG or ACTIVE: a command can be taken (R183). -/
structure Takes (s : State) : Prop where
  awake : s.awake
  notFailed : s.part ≠ .failed
  notStarting : s.part ≠ .starting
  notStopping : s.part ≠ .stopping
  idle : s.engine.command = none

/-- A command written to COMMAND that is not refused is one the part can take now. -/
theorem takes_of_refusal {s : State} {known ready : Bool} (ha : s.awake) (h : refusal s known ready = none) :
    Takes s ∧ known = true ∧ ready = true := by
  unfold refusal engineBusy at h
  split at h
  · simp at h
  · rename_i hf
    split at h
    · simp at h
    · rename_i hb
      split at h
      · simp at h
      · rename_i hk
        split at h
        · simp at h
        · rename_i hr
          simp only [Bool.or_eq_true, not_or, decide_eq_true_iff, Option.isSome_iff_ne_none, ne_eq, not_not] at hb
          obtain ⟨⟨hc, hst⟩, hsp⟩ := hb
          exact ⟨⟨ha, hf, hst, hsp, hc⟩, by simpa using hk, by simpa using hr⟩

/-- A command written to COMMAND is held back, refused, which shows in the last fields, or taken (R183, R184). -/
theorem answers_writeCommand {P : State → Prop} {s t : State} {code shown : Byte} {known ready : Bool} (hs : P s)
    (hlast : ∀ o, P (setLast code shown o s)) (ht : Takes s → known = true → ready = true → P t) :
    Answers (writeCommand code shown known ready t s) P := by
  refine answers_unlessHeld hs fun ha => ?_
  split
  · exact hlast _
  · rename_i h
    obtain ⟨htakes, hk, hr⟩ := takes_of_refusal ha h
    exact ht htakes hk hr

/-- A command on a lane (R183). -/
theorem answers_writeLaneCommand {P : State → Prop} {s : State} {code operand : Byte} {taken : LaneNo → Out}
    (hs : P s) (hlast : ∀ o, P (setLast code operand o s)) (ht : ∀ n : LaneNo, operand.toNat = n.val → Answers (taken n) P) :
    Answers (writeLaneCommand code operand taken s) P := by
  unfold writeLaneCommand
  split
  · exact ht _ rfl
  · exact answers_writeCommand hs hlast (fun _ h _ => by simp at h)

/-! ## Answers to reads -/

/-- The answer to a fetcher's read is one left from before, one to be discarded, one awaited, or none. -/
theorem fetchAnswer_keeps {P : State → Prop} {s : State} {n : LaneNo} {fits : FetchRead → Bool}
    {act : FetchRead → State → State} (hs : P s) (hleft : ∀ x, P (dropLeftRead x s))
    (hdiscard : ∀ f, (s.lane n).flight = some f → f.discard = true → P (clearFetch n s))
    (hact : ∀ f, (s.lane n).flight = some f → f.discard = false → fits f.kind = true → f.behind = 0 →
      P (act f.kind (clearFetch n s))) :
    P (fetchAnswer n fits act s) := by
  unfold fetchAnswer answered
  split
  · split
    · exact hleft _
    · exact hs
  · split
    · exact hs
    · rename_i f hf
      split
      · rename_i hfit
        simp only [Flight.answers, Bool.and_eq_true, decide_eq_true_iff] at hfit
        split
        · rename_i hd; exact hdiscard f hf hd
        · rename_i hd; exact hact f hf (by simpa using hd) hfit.1 hfit.2
      · exact hs

/-- The answer to a journal read likewise. -/
theorem journalAnswer_keeps {P : State → Prop} {s : State} {fits : JournalRead → Bool}
    {act : JournalRead → State → State} (hs : P s) (hleft : ∀ x, P (dropLeftRead x s))
    (hdiscard : ∀ f, s.journal.flight = some f → f.discard = true → P (clearJournalFlight s))
    (hact : ∀ f, s.journal.flight = some f → f.discard = false → fits f.kind = true → f.behind = 0 →
      P (act f.kind (clearJournalFlight s))) :
    P (journalAnswer fits act s) := by
  unfold journalAnswer answered
  split
  · split
    · exact hleft _
    · exact hs
  · split
    · exact hs
    · rename_i f hf
      split
      · rename_i hfit
        simp only [Flight.answers, Bool.and_eq_true, decide_eq_true_iff] at hfit
        split
        · rename_i hd; exact hdiscard f hf hd
        · rename_i hd; exact hact f hf (by simpa using hd) hfit.1 hfit.2
      · exact hs

/-- The command engine's flight is answered. -/
def clearEngineFlight (s : State) : State := { s with engine := { s.engine with flight := none } }

/-- The answer to a read of the command engine likewise. -/
theorem engineAnswer_keeps {P : State → Prop} {s : State} {kind : EngineRead} {act : State → State} (hs : P s)
    (hleft : ∀ x, P (dropLeftRead x s))
    (hdiscard : ∀ f, s.engine.flight = some f → P (clearEngineFlight s))
    (hact : ∀ f, s.engine.flight = some f → f.discard = false → f.kind = kind → f.behind = 0 →
      P (act (clearEngineFlight s))) :
    P (engineAnswer kind act s) := by
  unfold engineAnswer answered
  split
  · split
    · exact hleft _
    · exact hs
  · split
    · exact hs
    · rename_i f hf
      split
      · rename_i hfit
        simp only [Flight.answers, Bool.and_eq_true, decide_eq_true_iff] at hfit
        dsimp only
        split
        · exact hdiscard f hf
        · rename_i hd; exact hact f hf (by simpa using hd) hfit.1 hfit.2
      · exact hs

/-! ## Every effect -/

/-- The commands that are the answer to a read. -/
def answersRead : Instr → Bool
  | .startReadDone _ _ => true
  | .startReadError => true
  | .laneRestartReadDone _ => true
  | .laneRestartReadError => true
  | .journalRestartReadDone _ => true
  | .journalRestartReadError => true
  | .armAlignReadDone _ => true
  | .armAlignReadError => true
  | .alignNowReadDone _ => true
  | .alignNowReadError => true
  | .headFieldReadDone _ _ => true
  | .headerReadDone _ _ => true
  | .cueBurstDone _ _ => true
  | .linkReadDone _ _ => true
  | .fetchReadError _ => true
  | .journalHeadFieldReadDone _ => true
  | .journalHeaderReadDone _ => true
  | .journalLinkReadDone _ => true
  | .journalReadError => true
  | _ => false

/-- The commands that end a time-taking command whose writes have come far enough. -/
def endsCommand : Instr → Bool
  | .laneStopComplete => true
  | .laneRestartComplete => true
  | .journalRestartComplete => true
  | .alignNowComplete => true
  | _ => false

/-- A fetcher's read of a kind is answered now and its answer acted on. -/
def FetchAnswered (s : State) (n : LaneNo) (r : FetchRead) : Prop :=
  ∃ f, (s.lane n).flight = some f ∧ f.discard = false ∧ f.kind = r ∧ f.behind = 0

/-- A journal read of a kind is answered now and its answer acted on. -/
def JournalAnswered (s : State) (r : JournalRead) : Prop :=
  ∃ f, s.journal.flight = some f ∧ f.discard = false ∧ f.kind = r ∧ f.behind = 0

/-- A read of the command engine of a kind is answered now and its answer acted on. -/
def EngineAnswered (s : State) (r : EngineRead) : Prop :=
  ∃ f, s.engine.flight = some f ∧ f.discard = false ∧ f.kind = r ∧ f.behind = 0

/-- The effects of the commands, each with its condition. -/
inductive Effect : Instr → State → State → Prop
  | resetLow (s) : Effect (.resetN .low) s (resetAll { s with resetPin := .low })
  | resetHigh (s) : Effect (.resetN .high) s { s with resetPin := .high }
  | softReset (s) : s.awake → Effect .softReset s (resetKeepingAddress s)
  | controlReset (v s) : s.awake → v.getLsbD 31 = true → Effect (.controlWrite v) s (resetKeepingAddress s)
  | control (v s) : s.awake → v.getLsbD 31 = false → Effect (.controlWrite v) s (setAttention v s)
  | plainWrite (r v s) : s.awake → Effect (.registerWrite r v) s (writePlain r v s)
  | ack (v s) : s.awake → ackTaken (s.slot (ackSlot v)) (ackCount v) = true →
      Effect (.noticeAck v) s (acknowledge (ackSlot v) (ackCount v) s)
  | refused (c s code shown o) : commandShown c = some (code, shown) → Effect c s (setLast code shown o s)
  | start (b s) : Takes s → s.part = .config → Effect (.start b) s (takeStart s)
  | stop (b s) : Takes s → s.part = .active → Effect (.stop b) s (takeStop s)
  | laneStop (b s n) : Takes s → s.part = .active → b.toNat = n.val → Effect (.laneStop b) s (takeLaneStop n s)
  | laneRestart (b s n) : Takes s → s.part = .active → b.toNat = n.val → (s.lane n).state.closed = true →
      Effect (.laneRestart b) s (takeLaneRestart n s)
  | journalRestart (b s) : Takes s → s.part = .active → journalRestartable s = true →
      Effect (.journalRestart b) s (takeJournalRestart s)
  | armAlign (b s) : Takes s → s.part = .active → Effect (.armAlign b) s (takeArmAlign s)
  | alignNow (b s) : Takes s → s.part = .active → Effect (.alignNow b) s (takeAlignNow s)
  | resurvey (b s) : Takes s → s.part = .active →
      Effect (.resurvey b) s (setLast codeResurvey 0#8 .done (surveyAll s))
  | laneHold (b s n) : Takes s → s.part = .active → b.toNat = n.val → (s.lane n).state.closed = false →
      Effect (.laneHold b) s (setLast codeLaneHold (laneByte n) .done (holdLane n s))
  | laneResume (b s n) : Takes s → s.part = .active → b.toNat = n.val → resumable s n = true →
      Effect (.laneResume b) s (setLast codeLaneResume (laneByte n) .done (resumeLane n s))
  | journalFlush (b s) : Takes s → s.part = .active →
      Effect (.journalFlush b) s (setLast codeJournalFlush 0#8 .done (flushJournal s))
  | disarm (b s) : Takes s → s.part = .active →
      Effect (.disarmAlign b) s (setLast codeDisarmAlign 0#8 .done (setArmed false s))
  | leftRead (c s x) : answersRead c = true → Effect c s (dropLeftRead x s)
  | discardFetch (c s n f) : answersRead c = true → (s.lane n).flight = some f → f.discard = true → Effect c s (clearFetch n s)
  | discardJournal (c s f) : answersRead c = true → s.journal.flight = some f → f.discard = true → Effect c s (clearJournalFlight s)
  | discardEngine (c s f) : answersRead c = true → s.engine.flight = some f → Effect c s (clearEngineFlight s)
  | startBadExchange (o bs s) : EngineAnswered s .configuration → s.engine.command = some (.start .first) →
      Effect (.startReadDone o bs) s (endStart .badExchange (clearEngineFlight s))
  | startRead (o bs s im p) : EngineAnswered s .configuration → s.engine.command = some (.start p) →
      Effect (.startReadDone o bs) s (afterConfigurationRead im (clearEngineFlight s))
  | startReadError (s p) : EngineAnswered s .configuration → s.engine.command = some (.start p) →
      Effect .startReadError s (endStart .busError (clearEngineFlight s))
  | activate (s) : s.awake → startWritten s = true → Effect .startActivate s (activate s)
  | statusStep (s) : s.awake → stopDrained s = true → Effect .stopStatusStep s (statusStep s)
  | floatStep (s) : s.awake → stopWritten s = true → Effect .stopFloatStep s (floatStep s)
  | complete (c s d) : endsCommand c = true → s.awake → s.engine.command = some d → Effect c s (completeCommand .done s)
  | laneRestartRead (data s n) : EngineAnswered s .laneRecord → s.engine.command = some (.laneRestart n) →
      (s.lane n).state.closed = true →
      Effect (.laneRestartReadDone data) s (restartLane n (laneConfigOf data 0) (clearEngineFlight s))
  | readError (c s d) : answersRead c = true → EngineAnswered s d → Effect c s (completeCommand .busError (clearEngineFlight s))
  | journalRestartRead (data s) : EngineAnswered s .journalHead →
      Effect (.journalRestartReadDone data) s (restartJournal data (clearEngineFlight s))
  | journalRestartReadError (s) : EngineAnswered s .journalHead →
      Effect .journalRestartReadError s (completeCommand .busError (resumeJournal (clearEngineFlight s)))
  | armAlignRead (data s) : EngineAnswered s .alignValue → s.engine.command = some .armAlign →
      Effect (.armAlignReadDone data) s (completeCommand .done (armAt (timeOf data) (clearEngineFlight s)))
  | alignNowRead (data s) : EngineAnswered s .alignValue → s.engine.command = some .alignNow →
      Effect (.alignNowReadDone data) s (stepSchedule (timeOf data) (awaitAlignment (clearEngineFlight s)))
  | dueReached (n s) : s.awake → dueReady s n = true → Effect (.dueReached n) s (takeDue n s)
  | waitExpired (n s) : s.awake → waitExpired s n = true → Effect (.waitInputExpiry n) s (expireWait n s)
  | claimExpired (k n s) : s.awake → claimExpired s k n = true → Effect (.claimExpiry k n) s (expireClaim k n s)
  | input (k l s) : Effect (.inputTransition k l) s (sampleInput k l s)
  | deadTime (k s) : s.awake → deadTimeDue s k = true → Effect (.deadTimeExpiry k) s (endDeadTime k s)
  | sync (l s) : Effect (.syncEvent l) s (sampleSync l s)
  | pulse (k s) : s.awake → pulseDue s k = true → Effect (.pulseEnd k) s (endPulse k s)
  | wave (k s) : s.awake → wavePhaseDue s k = true → Effect (.wavePhaseEnd k) s (endWavePhase k s)
  | derived (g s) : s.awake → derivedEdgeDue s g = true → Effect (.derivedEdge g) s (emitDerivedEdge g s)
  | ofVirtual (g s) : s.awake → virtualEdgeDue s g = true → Effect (.virtualEdge g) s (virtualEdge g s)
  | survey (s) : s.awake → surveyDue s = true → Effect .surveyExpiry s (surveyAll (restartSurvey s))
  | gather (s) : s.awake → gatherDue s = true → Effect .gatherExpiry s (expireGather s)
  | flushTimer (s) : s.awake → flushTimerDue s = true → Effect .flushTimerExpiry s (closePage .timed s)
  | headField (n d s) : FetchAnswered s n .headField →
      Effect (.headFieldReadDone n d) s (headFieldRead n d (clearFetch n s))
  | header (n d s) : FetchAnswered s n .header → Effect (.headerReadDone n d) s (judgeHeader n d (clearFetch n s))
  | burst (n cs s) : FetchAnswered s n .burst → cs.length = (s.lane n).reserved →
      Effect (.cueBurstDone n cs) s (wakeLane n (fetchOn n (queueBurst n cs (clearFetch n s))))
  | link (n d s) : FetchAnswered s n .link → Effect (.linkReadDone n d) s (judgeLink n d (clearFetch n s))
  | fetchError (n r s) : FetchAnswered s n r → Effect (.fetchReadError n) s (fetchErrored n r (clearFetch n s))
  | journalHead (d s) : JournalAnswered s .headField →
      Effect (.journalHeadFieldReadDone d) s (journalHeadRead d (clearJournalFlight s))
  | journalHeader (d s) : JournalAnswered s .header →
      Effect (.journalHeaderReadDone d) s (judgeJournalHeader d (clearJournalFlight s))
  | journalLink (d s) : JournalAnswered s .link →
      Effect (.journalLinkReadDone d) s (judgeJournalLink d (clearJournalFlight s))
  | journalError (r s) : JournalAnswered s r → Effect .journalReadError s (journalErrored r (clearJournalFlight s))
  | serve (s) : s.awake → s.port.live = true → Effect .memoryService s (serve s)
  | writeComplete (s) : Effect .writeComplete s (completeWrite s)
  | writeError (s) : Effect .writeError s (errorWrite s)

/-- The old state, or an effect of the command. -/
def Outcome (c : Instr) (s t : State) : Prop := t = s ∨ Effect c s t

theorem Outcome.none (c : Instr) (s : State) : Outcome c s s := Or.inl rfl

theorem outcome_writeCommand {c : Instr} {s t : State} {code shown : Byte} {known ready : Bool}
    (hc : commandShown c = some (code, shown)) (ht : Takes s → known = true → ready = true → Effect c s t) :
    Answers (writeCommand code shown known ready t s) (Outcome c s) :=
  answers_writeCommand (.none c s) (fun o => .inr (.refused c s code shown o hc)) (fun h k r => .inr (ht h k r))

theorem outcome_event {c : Instr} {s t : State} {ready : Bool} (ht : s.awake → ready = true → Effect c s t) :
    Answers (whenEvent s ready t) (Outcome c s) :=
  answers_whenEvent (.none c s) (fun ha h => .inr (ht ha h))

theorem outcome_fetchAnswer {c : Instr} {s : State} {n : LaneNo} {fits : FetchRead → Bool}
    {act : FetchRead → State → State} (hc : answersRead c = true)
    (hact : ∀ r, FetchAnswered s n r → fits r = true → Outcome c s (act r (clearFetch n s))) :
    Answers (.next (fetchAnswer n fits act s)) (Outcome c s) :=
  answers_next (fetchAnswer_keeps (P := Outcome c s) (.none c s) (fun x => .inr (.leftRead c s x hc))
    (fun f hf hd => .inr (.discardFetch c s n f hc hf hd))
    (fun f hf hd hfit hb => hact f.kind ⟨f, hf, hd, rfl, hb⟩ hfit))

theorem outcome_journalAnswer {c : Instr} {s : State} {fits : JournalRead → Bool}
    {act : JournalRead → State → State} (hc : answersRead c = true)
    (hact : ∀ r, JournalAnswered s r → fits r = true → Effect c s (act r (clearJournalFlight s))) :
    Answers (.next (journalAnswer fits act s)) (Outcome c s) :=
  answers_next (journalAnswer_keeps (P := Outcome c s) (.none c s) (fun x => .inr (.leftRead c s x hc))
    (fun f hf hd => .inr (.discardJournal c s f hc hf hd))
    (fun f hf hd hfit hb => .inr (hact f.kind ⟨f, hf, hd, rfl, hb⟩ hfit)))

theorem outcome_engineAnswer {c : Instr} {s : State} {kind : EngineRead} {act : State → State}
    (hc : answersRead c = true) (hact : EngineAnswered s kind → Outcome c s (act (clearEngineFlight s))) :
    Answers (.next (engineAnswer kind act s)) (Outcome c s) :=
  answers_next (engineAnswer_keeps (P := Outcome c s) (.none c s) (fun x => .inr (.leftRead c s x hc))
    (fun f hf => .inr (.discardEngine c s f hc hf))
    (fun f hf hd hk hb => hact ⟨f, hf, hd, hk, hb⟩))

/-- The commands on a lane name it by their operand (R183). -/
theorem laneByte_eq {b : Byte} {n : LaneNo} (h : b.toNat = n.val) : laneByte n = b := by
  apply BitVec.eq_of_toNat_eq
  have hn := n.isLt
  simp [laneByte, ← h]

/-- START's answer by the command in progress: nothing but a START takes it. -/
theorem outcome_configurationRead (o : Nat) (bs : List Byte) (s : State) (h : EngineAnswered s .configuration) :
    Outcome (.startReadDone o bs) s (configurationRead o bs s (clearEngineFlight s)) := by
  unfold configurationRead
  dsimp only
  split
  · rename_i hcmd
    split
    · exact .none _ _
    · split
      · exact .inr (.startBadExchange o bs s h hcmd)
      · exact .inr (.startRead o bs s _ _ h hcmd)
  · rename_i hcmd; exact .inr (.startRead o bs s _ _ h hcmd)
  · exact .none _ _

theorem outcome_configurationErrored (s : State) (h : EngineAnswered s .configuration) :
    Outcome .startReadError s (configurationErrored s (clearEngineFlight s)) := by
  unfold configurationErrored
  split
  · rename_i p hcmd; exact .inr (.startReadError s p h hcmd)
  · exact .none _ _

theorem outcome_laneRecordRead (data : BitVec 128) (s : State) (h : EngineAnswered s .laneRecord) :
    Outcome (.laneRestartReadDone data) s (laneRecordRead data s (clearEngineFlight s)) := by
  unfold laneRecordRead
  split
  · rename_i n hcmd
    split
    · rename_i hclosed; exact .inr (.laneRestartRead data s n h hcmd hclosed)
    · exact .none _ _
  · exact .none _ _

theorem outcome_burstRead (n : LaneNo) (cs : List (BitVec 256)) (s : State) (h : FetchAnswered s n .burst) :
    Outcome (.cueBurstDone n cs) s (burstRead n cs s (clearFetch n s)) := by
  unfold burstRead
  split
  · rename_i hlen; exact .inr (.burst n cs s h (by simpa [clearFetch] using hlen))
  · exact .none _ _

theorem outcome_laneCommand {c : Instr} {s : State} {code b : Byte} {ready : LaneNo → Bool} {t : LaneNo → State}
    (hc : commandShown c = some (code, b))
    (ht : ∀ n : LaneNo, Takes s → b.toNat = n.val → ready n = true → Effect c s (t n)) :
    Answers (writeLaneCommand code b (fun n => writeCommand code (laneByte n) true (ready n) (t n) s) s) (Outcome c s) := by
  refine answers_writeLaneCommand (.none c s) (fun o => .inr (.refused c s code b o hc)) (fun n hn => ?_)
  exact outcome_writeCommand (by rw [laneByte_eq hn]; exact hc) (fun h _ r => ht n h hn r)

theorem outcome_complete {c : Instr} {s : State} (hc : endsCommand c = true) {ready : Bool}
    (h : ready = true → ∃ d, s.engine.command = some d) :
    Answers (whenEvent s ready (completeCommand .done s)) (Outcome c s) :=
  outcome_event fun ha hr => by
    obtain ⟨d, hd⟩ := h hr
    exact .complete c s d hc ha hd

/-- Every command answers a next state: the old one, or an effect of the command. -/
theorem exec_effect (c : Instr) (s : State) : Answers (exec c s) (Outcome c s) := by
  cases c with
  | resetN level =>
    cases level with
    | low => exact answers_next (.inr (.resetLow s))
    | high => exact answers_next (.inr (.resetHigh s))
  | softReset => exact answers_unlessHeld (.none _ s) fun h => .inr (.softReset s h)
  | controlWrite v =>
    refine answers_unlessHeld (.none _ s) fun h => ?_
    split
    · rename_i hv; exact .inr (.controlReset v s h hv)
    · rename_i hv; exact .inr (.control v s h (by simpa [softResetBit] using hv))
  | registerWrite r v => exact answers_unlessHeld (.none _ s) fun h => .inr (.plainWrite r v s h)
  | noticeAck v =>
    refine answers_unlessHeld (.none _ s) fun h => ?_
    split
    · rename_i ht; exact .inr (.ack v s h ht)
    · exact .none _ s
  | undefinedCommand code operand =>
    show Answers (execUndefinedCommand code operand s) _
    unfold execUndefinedCommand
    split
    · exact answers_next (.none _ s)
    · rename_i h; exact outcome_writeCommand (by simp [commandShown, h]) (fun _ hk _ => by simp at hk)
  | start b => exact outcome_writeCommand rfl fun h _ hr => .start b s h (by simpa using hr)
  | startReadDone o bs =>
    show Answers (execStartReadDone o bs s) _
    unfold execStartReadDone
    split
    · exact outcome_engineAnswer rfl (outcome_configurationRead o bs s)
    · exact answers_next (.none _ s)
  | startReadError => exact outcome_engineAnswer rfl (outcome_configurationErrored s)
  | startActivate => exact outcome_event (.activate s)
  | stop b => exact outcome_writeCommand rfl fun h _ hr => .stop b s h (by simpa using hr)
  | stopStatusStep => exact outcome_event (.statusStep s)
  | stopFloatStep => exact outcome_event (.floatStep s)
  | laneStop b =>
    refine outcome_laneCommand (ready := fun _ => s.part = .active) (t := fun n => takeLaneStop n s) rfl
      fun n h hn hr => ?_
    exact .laneStop b s n h (by simpa using hr) hn
  | laneStopComplete =>
    refine outcome_complete rfl fun h => ?_
    unfold laneStopWritten at h
    split at h
    · exact ⟨_, by assumption⟩
    · simp at h
  | laneRestart b =>
    refine outcome_laneCommand (ready := fun n => s.part = .active && (s.lane n).state.closed)
      (t := fun n => takeLaneRestart n s) rfl fun n h hn hr => ?_
    simp only [Bool.and_eq_true, decide_eq_true_iff] at hr
    exact .laneRestart b s n h hr.1 hn hr.2
  | laneRestartReadDone data => exact outcome_engineAnswer rfl (outcome_laneRecordRead data s)
  | laneRestartReadError => exact outcome_engineAnswer rfl fun h => .inr (.readError _ s _ rfl h)
  | laneRestartComplete =>
    refine outcome_complete rfl fun h => ?_
    unfold laneRestartWritten at h
    split at h
    · exact ⟨_, by assumption⟩
    · simp at h
  | journalRestart b =>
    refine outcome_writeCommand rfl fun h _ hr => ?_
    simp only [Bool.and_eq_true, decide_eq_true_iff] at hr
    exact .journalRestart b s h hr.1 hr.2
  | journalRestartReadDone data => exact outcome_engineAnswer rfl fun h => .inr (.journalRestartRead data s h)
  | journalRestartReadError => exact outcome_engineAnswer rfl fun h => .inr (.journalRestartReadError s h)
  | journalRestartComplete =>
    refine outcome_complete rfl fun h => ?_
    simp only [journalRestartWritten, Bool.and_eq_true, decide_eq_true_iff] at h
    exact ⟨_, h.1⟩
  | armAlign b => exact outcome_writeCommand rfl fun h _ hr => .armAlign b s h (by simpa using hr)
  | armAlignReadDone data =>
    refine outcome_engineAnswer rfl fun h => ?_
    split
    · rename_i ha; exact .inr (.armAlignRead data s h (of_decide_eq_true ha))
    · exact .none _ s
  | armAlignReadError =>
    refine outcome_engineAnswer rfl fun h => ?_
    split
    · exact .inr (.readError _ s _ rfl h)
    · exact .none _ s
  | alignNow b => exact outcome_writeCommand rfl fun h _ hr => .alignNow b s h (by simpa using hr)
  | alignNowReadDone data =>
    refine outcome_engineAnswer rfl fun h => ?_
    split
    · rename_i ha; exact .inr (.alignNowRead data s h (of_decide_eq_true ha))
    · exact .none _ s
  | alignNowComplete =>
    refine outcome_complete rfl fun h => ?_
    simp only [alignmentIssued, aligning, Bool.and_eq_true, decide_eq_true_iff] at h
    exact ⟨_, h.1⟩
  | alignNowReadError =>
    refine outcome_engineAnswer rfl fun h => ?_
    split
    · exact .inr (.readError _ s _ rfl h)
    · exact .none _ s
  | resurvey b => exact outcome_writeCommand rfl fun h _ hr => .resurvey b s h (by simpa using hr)
  | laneHold b =>
    refine outcome_laneCommand (ready := fun n => s.part = .active && !(s.lane n).state.closed)
      (t := fun n => setLast codeLaneHold (laneByte n) .done (holdLane n s)) rfl fun n h hn hr => ?_
    simp only [Bool.and_eq_true, decide_eq_true_iff, Bool.not_eq_true'] at hr
    exact .laneHold b s n h hr.1 hn hr.2
  | laneResume b =>
    refine outcome_laneCommand (ready := fun n => s.part = .active && resumable s n)
      (t := fun n => setLast codeLaneResume (laneByte n) .done (resumeLane n s)) rfl fun n h hn hr => ?_
    simp only [Bool.and_eq_true, decide_eq_true_iff] at hr
    exact .laneResume b s n h hr.1 hn hr.2
  | journalFlush b => exact outcome_writeCommand rfl fun h _ hr => .journalFlush b s h (by simpa using hr)
  | disarmAlign b => exact outcome_writeCommand rfl fun h _ hr => .disarm b s h (by simpa using hr)
  | dueReached n => exact outcome_event (.dueReached n s)
  | waitInputExpiry n => exact outcome_event (.waitExpired n s)
  | claimExpiry k n => exact outcome_event (.claimExpired k n s)
  | inputTransition k l => exact answers_next (.inr (.input k l s))
  | deadTimeExpiry k => exact outcome_event (.deadTime k s)
  | syncEvent l => exact answers_next (.inr (.sync l s))
  | pulseEnd k => exact outcome_event (.pulse k s)
  | wavePhaseEnd k => exact outcome_event (.wave k s)
  | derivedEdge g => exact outcome_event (.derived g s)
  | virtualEdge g => exact outcome_event (.ofVirtual g s)
  | surveyExpiry => exact outcome_event (.survey s)
  | gatherExpiry => exact outcome_event (.gather s)
  | flushTimerExpiry => exact outcome_event (.flushTimer s)
  | headFieldReadDone n d =>
    exact outcome_fetchAnswer rfl fun r h hr => by
      obtain rfl : r = .headField := by simpa using hr
      exact .inr (.headField n d s h)
  | headerReadDone n d =>
    exact outcome_fetchAnswer rfl fun r h hr => by
      obtain rfl : r = .header := by simpa using hr
      exact .inr (.header n d s h)
  | cueBurstDone n cs =>
    exact outcome_fetchAnswer rfl fun r h hr => by
      obtain rfl : r = .burst := by simpa using hr
      exact outcome_burstRead n cs s h
  | linkReadDone n d =>
    exact outcome_fetchAnswer rfl fun r h hr => by
      obtain rfl : r = .link := by simpa using hr
      exact .inr (.link n d s h)
  | fetchReadError n => exact outcome_fetchAnswer rfl fun r h _ => .inr (.fetchError n r s h)
  | journalHeadFieldReadDone d =>
    exact outcome_journalAnswer rfl fun r h hr => by
      obtain rfl : r = .headField := by simpa using hr
      exact .journalHead d s h
  | journalHeaderReadDone d =>
    exact outcome_journalAnswer rfl fun r h hr => by
      obtain rfl : r = .header := by simpa using hr
      exact .journalHeader d s h
  | journalLinkReadDone d =>
    exact outcome_journalAnswer rfl fun r h hr => by
      obtain rfl : r = .link := by simpa using hr
      exact .journalLink d s h
  | journalReadError => exact outcome_journalAnswer rfl fun r h _ => .journalError r s h
  | memoryService => exact outcome_event (.serve s)
  | writeComplete => exact answers_next (.inr (.writeComplete s))
  | writeError => exact answers_next (.inr (.writeError s))

/-! ## Every step -/

/-- A next state of a command is the old one or an effect. -/
theorem effect_of_exec {c : Instr} {s t : State} (h : exec c s = .next t) : t = s ∨ Effect c s t :=
  (exec_effect c s).of_next h

/-- What a step does: nothing, one tick, or one command on the state with its queue and its draws moved on. -/
theorem step_cases {s t : State} (h : step s = .next t) :
    t = s ∨ (s.resetPin ≠ .low ∧ s.pending = [] ∧ t = tick s)
      ∨ ∃ c p k, exec c { s with pending := p, choices := k } = .next t := by
  unfold step at h
  split at h
  · rename_i hp
    unfold idle at h
    split at h
    · exact Or.inl (Host.Outcome.next.inj h).symm
    · rename_i hpin
      unfold nextEvent at h
      by_cases hd : dueEvents s = []
      · rw [hd] at h
        exact Or.inr (Or.inl ⟨hpin, hp, (Host.Outcome.next.inj h).symm⟩)
      · obtain ⟨i, _, c, hc⟩ := chooseEvent_mem hd s
        rw [hc] at h
        exact Or.inr (Or.inr ⟨i, s.pending, c, h⟩)
  · rename_i c rest _
    exact Or.inr (Or.inr ⟨c, rest, s.choices, h⟩)

/-- What every effect, every tick and every draw keeps, every step keeps. -/
theorem step_keeps {P : State → Prop} (hdraw : ∀ s p k, P s → P { s with pending := p, choices := k })
    (htick : ∀ s, P s → P (tick s)) (heffect : ∀ c s t, P s → Effect c s t → P t) {s t : State} (hs : P s)
    (h : step s = .next t) : P t := by
  rcases step_cases h with rfl | ⟨_, _, rfl⟩ | ⟨c, p, k, hx⟩
  · exact hs
  · exact htick s hs
  · have hd := hdraw s p k hs
    rcases effect_of_exec hx with rfl | he
    · exact hd
    · exact heffect c _ t hd he

end Sys2Proof.Machine
end

