-- ==== Sys2Proof/Proofs/FixedParts.lean ====
section
/-!
SUPPORT. What each command that changes the fixed part of the state changes of it: the engine, the part state, the port, the
clocks, the live flags. One equation per operation; `effect_pending` and its like read one field of all of them.
-/

namespace Sys2Proof.Machine

/-! ## The engine alone -/

/-- Of the fixed part only the engine has changed. -/
def EngineOnly (s t : State) : Prop := t.fixed = { s.fixed with engine := t.fixed.engine }

theorem EngineOnly.of_fixed {s t : State} (h : t.fixed = s.fixed) : EngineOnly s t := by
  unfold EngineOnly
  rw [h]

theorem EngineOnly.trans {s t u : State} (h : EngineOnly s t) (h' : EngineOnly t u) : EngineOnly s u := by
  unfold EngineOnly at *
  rw [h', h]

/-- An operation that keeps the fixed part, after one that changes the engine alone. -/
theorem EngineOnly.andThen {s t u : State} (h : EngineOnly s t) (h' : u.fixed = t.fixed) : EngineOnly s u :=
  h.trans (.of_fixed h')

theorem setLast_engineOnly (c o : Byte) (r : CmdOutcome) (s : State) : EngineOnly s (setLast c o r s) := rfl

/-- An immediate command that keeps the fixed part changes the last fields and nothing else of it. -/
theorem setLast_after {s t : State} (c o : Byte) (r : CmdOutcome) (h : t.fixed = s.fixed) :
    EngineOnly s (setLast c o r t) := (EngineOnly.of_fixed h).trans (setLast_engineOnly c o r t)

theorem beginCommand_engineOnly (c : Command) (s : State) : EngineOnly s (beginCommand c s) := rfl

theorem presentEngine_engineOnly (r : EngineRead) (s : State) : EngineOnly s (presentEngine r s) := rfl

theorem clearEngineFlight_engineOnly (s : State) : EngineOnly s (clearEngineFlight s) := rfl

theorem awaitStatus_engineOnly (s : State) : EngineOnly s (awaitStatus s) := rfl

theorem completeCommand_engineOnly (o : CmdOutcome) (s : State) : EngineOnly s (completeCommand o s) := by
  unfold completeCommand
  split
  · exact .of_fixed rfl
  · exact EngineOnly.andThen (t := { s with engine := _ }) rfl (post_fixed _ _ _)

theorem resumeJournal_fixed (s : State) : (resumeJournal s).fixed = s.fixed := by
  unfold resumeJournal; dsimp only; split <;> rfl

theorem takeLaneStop_engineOnly (n : LaneNo) (s : State) : EngineOnly s (takeLaneStop n s) :=
  EngineOnly.andThen (t := awaitStatus (beginCommand (.laneStop n) s)) rfl (stopLane_fixed _ _)

theorem takeLaneRestart_engineOnly (n : LaneNo) (s : State) : EngineOnly s (takeLaneRestart n s) := rfl

theorem takeJournalRestart_engineOnly (s : State) : EngineOnly s (takeJournalRestart s) := rfl

theorem takeAlignNow_engineOnly (s : State) : EngineOnly s (takeAlignNow s) := rfl

theorem holdLane_fixed (n : LaneNo) (s : State) : (holdLane n s).fixed = s.fixed := by
  unfold holdLane; split <;> simp

theorem resumeLane_fixed (n : LaneNo) (s : State) : (resumeLane n s).fixed = s.fixed := by
  unfold resumeLane resumeHeld
  split
  · dsimp only; split
    · split <;> simp
    · simp
  · simp

theorem restartLane_engineOnly (n : LaneNo) (c : LaneConfig) (s : State) : EngineOnly s (restartLane n c s) := by
  unfold restartLane; dsimp only
  refine EngineOnly.andThen (t := awaitStatus ((releaseAndGrant (ownedLines s n) s).1.setLane n
    { ((releaseAndGrant (ownedLines s n) s).1.lane n).started _ with config := c })) ?_
    (by rw [runAll_fixed, inFreeOrder_fixed, startFetcher_fixed, markLane_fixed])
  exact (EngineOnly.of_fixed (by rw [setLane_fixed, releaseAndGrant_fixed])).trans (awaitStatus_engineOnly _)

theorem restartJournal_engineOnly (a : Addr) (s : State) : EngineOnly s (restartJournal a s) :=
  EngineOnly.andThen (t := awaitStatus (s.setJournal (s.journal.restarted a))) rfl
    (by unfold restartJournal; dsimp only; rw [judgeJournalHead_fixed, markJournal_fixed, setJournalState_fixed])

/-! ## START -/

theorem takeStart_fixed (s : State) :
    (takeStart s).fixed = { s.fixed with part := .starting, engine := (takeStart s).engine } := rfl

theorem loadLine_fixed (im : ConfigImage) (k : LineNo) (s : State) : (loadLine im k s).fixed = s.fixed := by
  unfold loadLine; split <;> rfl

theorem loadInput_fixed (im : ConfigImage) (k : LineNo) (s : State) : (loadInput im k s).fixed = s.fixed := by
  unfold loadInput; split <;> rfl

theorem loadGen_fixed (im : ConfigImage) (g : GenNo) (s : State) : (loadGen im g s).fixed = s.fixed := by
  unfold loadGen; split <;> rfl

/-- The configuration step loads the windows, SYNC, the survey interval and the session number (R188 step 1). -/
theorem loadConfiguration_fixed (im : ConfigImage) (s : State) :
    (loadConfiguration im s).fixed = { s.fixed with
      sync := { s.fixed.sync with select := im.syncSelect?.getD none, report := im.timeMarkReport }
      port := { s.fixed.port with windows := #v[im.window 0, im.window 1, im.window 2, im.window 3] }
      survey := { s.fixed.survey with interval := im.surveyInterval }
      engine := { s.fixed.engine with session := s.fixed.engine.session + 1 } } := by
  have h : (State.each allGens (loadGen im) (State.each allLines (loadInput im) (State.each allLines (loadLine im)
      (State.each allLanes (loadLane im) s)))).fixed = s.fixed := by
    rw [each_keeps State.fixed (loadGen_fixed im), each_keeps State.fixed (loadInput_fixed im),
      each_keeps State.fixed (loadLine_fixed im), each_keeps State.fixed (f := loadLane im) (fun _ _ => rfl)]
  unfold loadConfiguration; dsimp only
  generalize State.each allGens (loadGen im) _ = u at h ⊢
  rw [← h]; rfl

/-- What START's reads can change of the fixed part: it ends in CONFIG or goes on in the same part state. -/
structure StartFrame (f g : Fixed) : Prop where
  fixed : g = { f with part := g.part, sync := g.sync, port := g.port, survey := g.survey, engine := g.engine }
  port : g.port = { f.port with windows := g.port.windows }
  sync : g.sync.live = f.sync.live
  survey : g.survey.expiry = f.survey.expiry
  part : (g.part = .config ∧ g.engine.command = none) ∨ (g.part = f.part ∧ ∃ p, g.engine.command = some (.start p))
  flight : g.engine.flight = f.engine.flight

theorem endStart_frame (o : CmdOutcome) (s : State) : StartFrame s.fixed (endStart o s).fixed :=
  ⟨rfl, rfl, rfl, rfl, Or.inl ⟨rfl, rfl⟩, rfl⟩

theorem openSession_frame (im : ConfigImage) (s : State) :
    StartFrame s.fixed (openSession (loadConfiguration im s)).fixed := by
  have h := loadConfiguration_fixed im s
  generalize loadConfiguration im s = u at h ⊢
  have ho : (openSession u).fixed = { u.fixed with engine := (openSession u).engine } := rfl
  have hf : (openSession u).engine.flight = u.fixed.engine.flight := rfl
  have hc : (openSession u).engine.command = some (.start .opening) := rfl
  generalize (openSession u).engine = e at ho hf hc
  rw [ho, h]
  exact ⟨rfl, rfl, rfl, rfl, Or.inr ⟨rfl, .opening, hc⟩, by rw [h] at hf; exact hf⟩

theorem afterConfigurationRead_frame (im : ConfigImage) (s : State) :
    StartFrame s.fixed (afterConfigurationRead im s).fixed := by
  unfold afterConfigurationRead
  split
  · unfold validateConfiguration
    split
    · obtain ⟨h1, h2, h3, h4, h5, h6⟩ := openSession_frame im (storeImage im s)
      exact ⟨h1, h2, h3, h4, h5, h6⟩
    · exact ⟨rfl, rfl, rfl, rfl, Or.inl ⟨rfl, rfl⟩, rfl⟩
  · exact ⟨rfl, rfl, rfl, rfl, Or.inr ⟨rfl, .reading, rfl⟩, rfl⟩

theorem inputStep_fixed (s : State) :
    (inputStep s).fixed = { s.fixed with
      inputsLive := true, sync := { s.fixed.sync with live := true },
      time := { s.fixed.time with armed := false, armValue := 0 } } := by
  have h : (State.each allGens startGen (State.each allLines clearDeadTime s)).fixed = s.fixed := by
    rw [each_keeps State.fixed (f := startGen) (fun g s => by simp [startGen]),
      each_keeps State.fixed (f := clearDeadTime) (fun _ _ => rfl)]
  unfold inputStep; dsimp only
  generalize State.each allGens startGen _ = u at h ⊢
  rw [← h]; rfl

theorem startLane_fixed (n : LaneNo) (s : State) : (startLane n s).fixed = s.fixed := by
  unfold startLane; dsimp only; split <;> simp

theorem driveLine_fixed (k : LineNo) (s : State) : (driveLine k s).fixed = s.fixed := by
  unfold driveLine; dsimp only; split <;> rfl

theorem startSurvey_fixed (s : State) :
    (startSurvey s).fixed = { s.fixed with survey := (startSurvey s).fixed.survey } := by
  unfold startSurvey; split <;> rfl

/-- START's last steps: the part is ACTIVE, its inputs are live, its arm is disarmed (R188). -/
theorem activate_fixed (s : State) :
    (activate s).fixed = { s.fixed with
      part := .active, inputsLive := true, sync := { s.fixed.sync with live := true },
      time := { s.fixed.time with armed := false, armValue := 0 },
      survey := (activate s).fixed.survey, engine := (activate s).fixed.engine } := by
  have h : (startJournal (State.each allLanes startLane (inputStep (State.each allLines driveLine s)))).fixed = _ :=
    (startJournal_fixed _).trans ((each_keeps State.fixed startLane_fixed _ _).trans (inputStep_fixed _))
  rw [each_keeps State.fixed driveLine_fixed] at h
  unfold activate; dsimp only
  generalize startJournal _ = j at h ⊢
  have hj : (startSurvey j).fixed = { j.fixed with survey := (startSurvey j).fixed.survey } := startSurvey_fixed j
  generalize startSurvey j = v at hj ⊢
  have hc := completeCommand_engineOnly .done { v with part := .active }
  generalize completeCommand .done { v with part := .active } = w at hc ⊢
  rw [show w.fixed = _ from hc, show State.fixed { v with part := .active } = { v.fixed with part := .active } from rfl,
    hj, h]

/-! ## STOP -/

theorem quietStep_fixed (s : State) :
    (quietStep s).fixed = { s.fixed with
      inputsLive := false, sync := { s.fixed.sync with live := false }, time := { s.fixed.time with armed := false },
      survey := { s.fixed.survey with expiry := none } } := by
  have h : (State.each allGens ceaseGen s).fixed = s.fixed :=
    each_keeps State.fixed (f := ceaseGen) (fun _ _ => rfl) _ _
  unfold quietStep; dsimp only
  generalize State.each allGens ceaseGen s = u at h ⊢
  rw [← h]; rfl

/-- STOP's first steps: STOPPING, nothing live, the arm disarmed (R190 steps 1 to 3). -/
theorem takeStop_fixed (s : State) :
    (takeStop s).fixed = { s.fixed with
      part := .stopping, engine := (beginCommand (.stop false) s).engine
      inputsLive := false, sync := { s.fixed.sync with live := false }, time := { s.fixed.time with armed := false },
      survey := { s.fixed.survey with expiry := none } } := by
  unfold takeStop; dsimp only
  rw [beginDrain_fixed, each_keeps State.fixed stopLane_fixed, quietStep_fixed]; rfl

theorem statusStep_engineOnly (s : State) : EngineOnly s (statusStep s) := by
  have h : (State.each allGens (fun g => markStale (.genStatus g)) (markJournal s)).fixed = s.fixed := by
    rw [each_keeps State.fixed (fun g s => markStale_fixed _ s), markJournal_fixed]
  unfold statusStep; dsimp only
  generalize State.each allGens _ _ = u at h ⊢
  exact (EngineOnly.of_fixed h).trans rfl

theorem floatStep_fixed (s : State) :
    (floatStep s).fixed = { s.fixed with part := .config, engine := (floatStep s).fixed.engine } := by
  have h : (State.each allGens floatGen (State.each allLines floatLine s)).fixed = s.fixed := by
    rw [each_keeps State.fixed (f := floatGen) (fun _ _ => rfl), each_keeps State.fixed (f := floatLine) (fun _ _ => rfl)]
  unfold floatStep; dsimp only
  generalize State.each allGens floatGen _ = u at h ⊢
  have hc := completeCommand_engineOnly .done { u with part := .config }
  generalize completeCommand .done { u with part := .config } = w at hc ⊢
  rw [show w.fixed = _ from hc, show State.fixed { u with part := .config } = { u.fixed with part := .config } from rfl, h]

/-! ## Clocks -/

theorem stepSchedule_fixed (v : Ticks) (s : State) :
    (stepSchedule v s).fixed = { s.fixed with time := { s.fixed.time with schedule := v } } := by
  simp [stepSchedule]; rfl

theorem reportTimeMark_fixed (t : Ticks) (s : State) : (reportTimeMark t s).fixed = s.fixed := by
  unfold reportTimeMark; split <;> simp

/-- A SYNC event: with the arm disarmed nothing of the fixed part, else the clocks and the arm (R59). -/
theorem syncEvent_fixed (s : State) :
    (syncEvent s).fixed =
      if s.time.armed then
        { s.fixed with time := { s.fixed.time with armed := false, schedule := s.fixed.time.armValue } }
      else s.fixed := by
  unfold syncEvent; dsimp only
  have h : (reportTimeMark s.time.schedule (capture (.sync s.time.armed s.time.schedule) s)).fixed = s.fixed := by
    rw [reportTimeMark_fixed, capture_fixed]
  generalize reportTimeMark s.time.schedule _ = u at h ⊢
  split
  · rw [stepSchedule_fixed, ← h]; rfl
  · exact h

/-- SYNC sampled: its level and note, and where it is an event with the arm armed the clocks (R58, R59). -/
theorem sampleSync_fixed (l : Level) (s : State) :
    ∃ y t, (sampleSync l s).fixed = { s.fixed with sync := y, time := t }
      ∧ y.live = s.sync.live ∧ t.elapsed = s.time.elapsed ∧ (s.time.armed = false → t = s.time) := by
  have hset : (setSyncLevel l s).fixed = { s.fixed with sync := (setSyncLevel l s).fixed.sync } := rfl
  unfold sampleSync
  split
  · exact ⟨s.sync, s.time, rfl, rfl, rfl, fun _ => rfl⟩
  · split
    · rw [syncEvent_fixed]
      cases ha : s.time.armed
      · rw [if_neg (show ¬(setSyncLevel l s).time.armed = true by show ¬s.time.armed = true; rw [ha]; simp), hset]
        exact ⟨_, s.time, rfl, rfl, rfl, fun _ => rfl⟩
      · rw [if_pos (show (setSyncLevel l s).time.armed = true from ha), hset]
        exact ⟨_, _, rfl, rfl, rfl, fun h => by simp at h⟩
    · exact ⟨_, s.time, hset, rfl, rfl, fun _ => rfl⟩

/-! ## The port -/

/-- What the issue of an access changes of the fixed part: the engine, and a write that joins the path. -/
structure Issued (s t : State) : Prop where
  fixed : t.fixed = { s.fixed with
    engine := t.fixed.engine, port := { s.fixed.port with path := t.fixed.port.path } }
  length : t.port.path.length ≤ s.port.path.length + 1

theorem Issued.of_engineOnly {s t : State} (h : EngineOnly s t) : Issued s t := by
  have hp : t.fixed.port = s.fixed.port := (congrArg Fixed.port h).trans rfl
  refine ⟨?_, (congrArg (fun p => p.path.length) hp).le.trans (Nat.le_succ _)⟩
  rw [hp]; exact h

theorem Issued.of_fixed {s t : State} (h : t.fixed = s.fixed) : Issued s t := .of_engineOnly (.of_fixed h)

/-- A change of the engine after an issue. -/
theorem Issued.andThen {s t u : State} (h : Issued s t) (h' : EngineOnly t u) : Issued s u := by
  have hp : u.fixed.port = t.fixed.port := (congrArg Fixed.port h').trans rfl
  refine ⟨?_, (congrArg (fun p => p.path.length) hp).le.trans h.length⟩
  rw [hp, show u.fixed = _ from h', h.fixed]

/-- An issue after a change of the engine. -/
theorem EngineOnly.thenIssued {s t u : State} (h : EngineOnly s t) (h' : Issued t u) : Issued s u := by
  have hp : t.fixed.port = s.fixed.port := (congrArg Fixed.port h).trans rfl
  refine ⟨?_, h'.length.trans (by rw [show t.port = s.port from hp])⟩
  rw [h'.fixed, show t.fixed = _ from h]

theorem Issued.ite {s t u : State} {c : Prop} [Decidable c] (ht : Issued s t) (hu : Issued s u) :
    Issued s (if c then t else u) := by split <;> assumption

theorem issueWrite_issued (w : Write) (s : State) : Issued s (issueWrite w s) :=
  ⟨rfl, by simp [issueWrite]⟩

/-- A write that joins the path, and then a change of the engine. -/
theorem Issued.write (w : Write) {s u : State} (h : EngineOnly (issueWrite w s) u) : Issued s u :=
  (issueWrite_issued w s).andThen h

theorem handOwner_fixed (must : StatusItem → Bool) (it : StatusItem) (s : State) :
    (handOwner must it s).fixed = s.fixed := by
  unfold handOwner; split <;> rfl

theorem issueStatusRecord_issued (it : StatusItem) (o : Nat) (bs : List Byte) (s : State) :
    Issued s (issueStatusRecord it o bs s) := by
  unfold issueStatusRecord; dsimp only
  exact EngineOnly.thenIssued (by split <;> rfl) (issueWrite_issued _ _)

theorem noteDetails_engineOnly (k : SlotNo) (s : State) : EngineOnly s (noteDetails k s) := by
  unfold noteDetails
  split
  · exact .of_fixed rfl
  · split
    · rfl
    · exact .of_fixed rfl

theorem noteCount_engineOnly (k : SlotNo) (s : State) : EngineOnly s (noteCount k s) := by
  unfold noteCount
  split
  · exact .of_fixed (followLink_fixed s)
  · split
    · rfl
    · exact .of_fixed rfl

theorem presentWaitingHeader_fixed (n : LaneNo) (s : State) : (presentWaitingHeader n s).fixed = s.fixed := by
  unfold presentWaitingHeader; split <;> simp

theorem issueRecord_issued (s : State) : Issued s (issueRecord s) := by
  unfold issueRecord
  split
  · split
    · exact (issueWrite_issued _ _).andThen (.of_fixed (afterRecord_fixed _ _ _))
    · exact .of_fixed (journalFault_fixed _ _ _)
  · exact .of_fixed rfl

theorem issueRetireOwner_issued (n : LaneNo) (s : State) : Issued s (issueRetireOwner n s) := by
  unfold issueRetireOwner
  split
  · exact .of_fixed rfl
  · rename_i p _ _
    refine Issued.write (dataWrite p.addr ownerDoneBytes) (.of_fixed ?_)
    dsimp only
    rw [presentWaitingHeader_fixed]
    split <;> simp

theorem issueNoticeDetails_issued (k : SlotNo) (s : State) : Issued s (issueNoticeDetails k s) := by
  unfold issueNoticeDetails; dsimp only
  refine Issued.write { dataWrite (exbOffset s (noticeSlotOffset k + 4)) (detailsBytes s (s.slot k).details) with
    tag := .notice } (EngineOnly.andThen (EngineOnly.trans ?_ (noteDetails_engineOnly k _)) (handOwner_fixed _ _ _))
  exact .of_fixed rfl

theorem issueNoticeCount_issued (k : SlotNo) (s : State) : Issued s (issueNoticeCount k s) := by
  unfold issueNoticeCount
  split
  · exact .of_fixed rfl
  · rename_i q c _
    dsimp only
    refine Issued.ite (Issued.write { dataWrite (exbOffset s (noticeSlotOffset k)) (countBytes c) with
      tag := countTag s k c } (EngineOnly.andThen (EngineOnly.trans ?_ (noteCount_engineOnly k _)) (handNotice_fixed _)))
      (.of_fixed rfl)
    exact .of_fixed rfl

theorem issueStatus_issued (it : StatusItem) (s : State) : Issued s (issueStatus it s) := by
  cases it with
  | laneStatus n =>
    exact Issued.andThen (issueStatusRecord_issued _ _ _ s)
      (.of_fixed ((each_keeps State.fixed (fun _ s => post_fixed _ _ s) _ _).trans rfl))
  | journalStatus =>
    exact Issued.andThen (issueStatusRecord_issued _ _ _ s)
      (.of_fixed ((each_keeps State.fixed (fun _ s => post_fixed _ _ s) _ _).trans rfl))
  | genStatus g =>
    exact Issued.andThen (issueStatusRecord_issued _ _ _ s)
      (.of_fixed ((each_keeps State.fixed (fun _ s => post_fixed _ _ s) _ _).trans rfl))
  | retireSummary n =>
    show Issued s (issueRetireSummary n s)
    unfold issueRetireSummary
    split
    · exact .of_fixed rfl
    · split
      · exact .of_fixed rfl
      · exact (issueWrite_issued _ _).andThen (.of_fixed (handOwner_fixed _ _ _))
  | retireOwner n => exact issueRetireOwner_issued n s
  | closeSummary =>
    show Issued s (issueCloseSummary s)
    unfold issueCloseSummary
    split
    · exact .of_fixed rfl
    · exact (issueWrite_issued _ _).andThen (.of_fixed (handOwner_fixed _ _ _))
  | closeOwner =>
    show Issued s (issueCloseOwner s)
    unfold issueCloseOwner
    split
    · exact .of_fixed rfl
    · exact (issueWrite_issued _ _).andThen (.of_fixed (post_fixed _ _ _))
  | noticeDetails k => exact issueNoticeDetails_issued k s
  | noticeCount k => exact issueNoticeCount_issued k s

/-- The slots at START's notice step (R157). -/
def clearedSlots (s : State) : State :=
  State.each allSlots (fun k t => t.setSlot k ((t.slot k).atStart (s.notice.loadedMask.getLsbD k.val))) s

theorem noticeStep_eq (s : State) :
    noticeStep s = { clearedSlots s with
      notice := { (clearedSlots s).notice with
        issueQueue := [], gather := .idle, gatherInterval := (clearedSlots s).notice.loadedInterval }
      handed := (clearedSlots s).handed.filter fun it => !it.isDetails
      port := { (clearedSlots s).port with path := (clearedSlots s).port.path.map Write.countDropped }
      engine := { (clearedSlots s).engine with
        command := some (.start .writing), writes := allSlots.map EngineWrite.clearSlot } } := rfl

/-- START's notice step, of the fixed part: the path's count writes carry no count any more, and the engine goes on to the
notice table (R157). -/
theorem noticeStep_fixed (s : State) :
    (noticeStep s).fixed = { s.fixed with
      port := { s.fixed.port with path := s.fixed.port.path.map Write.countDropped }
      engine := { s.fixed.engine with
        command := some (.start .writing), writes := allSlots.map EngineWrite.clearSlot } } := by
  have h : (clearedSlots s).fixed = s.fixed := each_keeps State.fixed
    (f := fun k t => State.setSlot t k ((t.slot k).atStart (s.notice.loadedMask.getLsbD k.val)))
    (fun k t => setSlot_fixed t k _) _ _
  rw [noticeStep_eq]
  generalize clearedSlots s = u at h ⊢
  rw [← h]; rfl

theorem Issued.noticeStep {s t : State} (h : Issued s t) : Issued s (noticeStep t) := by
  have hn := noticeStep_fixed t
  have hp : (Machine.noticeStep t).port.path = t.port.path.map Write.countDropped := congrArg (·.port.path) hn
  refine ⟨?_, by rw [hp, List.length_map]; exact h.length⟩
  rw [hn, h.fixed]

/-- The engine has presented its oldest write. -/
def engineWriteTaken (s : State) : State := { s with engine := { s.engine with writes := s.engine.writes.tail } }

theorem issueEngineWrite_eq (w : EngineWrite) (s : State) :
    issueEngineWrite w s =
      if s.engine.command = some (.start .opening) then noticeStep (engineWriteTaken (issueWrite (engineWriteOf s w) s))
      else engineWriteTaken (issueWrite (engineWriteOf s w) s) := rfl

theorem issueEngineWrite_issued (w : EngineWrite) (s : State) : Issued s (issueEngineWrite w s) := by
  have h : Issued s (engineWriteTaken (issueWrite (engineWriteOf s w) s)) := (issueWrite_issued _ s).andThen rfl
  rw [issueEngineWrite_eq]
  exact Issued.ite h.noticeStep h

/-- The issue of any access. -/
theorem issueAccess_issued (a : Access) (s : State) : Issued s (issueAccess a s) := by
  cases a with
  | fetch n r => exact .of_fixed rfl
  | journalRead r => exact .of_fixed rfl
  | record => exact issueRecord_issued s
  | status it =>
    have h : EngineOnly s { s with handed := s.handed.tail } := rfl
    exact h.thenIssued (issueStatus_issued it _)
  | engineRead r => exact .of_engineOnly rfl
  | engineWrite w => exact issueEngineWrite_issued w s

/-- An access that is a read leaves the path. -/
theorem issueAccess_read_path {a : Access} (h : a.isWrite = false) (s : State) :
    (issueAccess a s).port = s.port := by
  cases a with
  | fetch n r => rfl
  | journalRead r => rfl
  | engineRead r => rfl
  | record => cases h
  | status it => cases h
  | engineWrite w => cases h

/-- What the arbiter serves could be taken (R170). -/
theorem nextServed_canBeTaken {s : State} {r : Requester} {a : Access} (h : nextServed s = some (r, a)) :
    waiting s r = some a ∧ canBeTaken s a = true := by
  unfold nextServed at h
  obtain ⟨r', _, hr'⟩ := List.exists_of_findSome?_eq_some h
  simp only [Option.map_eq_some_iff, Prod.mk.injEq] at hr'
  obtain ⟨a', ha', rfl, rfl⟩ := hr'
  unfold takeable at ha'
  exact Option.filter_eq_some_iff.mp ha'

/-- The arbiter with its last served requester. -/
def setServed (r : Requester) (s : State) : State := { s with port := { s.port with last := r } }

/-- One service: the requester served becomes the last, and its access, which could be taken, is issued (R170). -/
theorem serve_cases (s : State) :
    serve s = s ∨ ∃ r a, waiting s r = some a ∧ canBeTaken s a = true ∧ serve s = issueAccess a (setServed r s) := by
  unfold serve
  split
  · exact Or.inl rfl
  · rename_i r a hn
    obtain ⟨hw, hcan⟩ := nextServed_canBeTaken hn
    exact Or.inr ⟨r, a, hw, hcan, rfl⟩

/-- A service, of the fixed part. -/
theorem serve_fixed (s : State) :
    (serve s).fixed = { s.fixed with
        engine := (serve s).fixed.engine
        port := { s.fixed.port with last := (serve s).fixed.port.last, path := (serve s).fixed.port.path } }
      ∧ ((serve s).port.path.length ≤ s.port.path.length ∨ (serve s).port.path.length ≤ Config.pathCapacity) := by
  rcases serve_cases s with h | ⟨r, a, _, hcan, h⟩
  · rw [h]; exact ⟨rfl, Or.inl (Nat.le_refl _)⟩
  · have hi := issueAccess_issued a (setServed r s)
    rw [h]
    refine ⟨by rw [hi.fixed]; rfl, ?_⟩
    cases hw : a.isWrite with
    | false => left; rw [issueAccess_read_path hw]; exact Nat.le_refl _
    | true =>
      right
      simp only [canBeTaken, hw, Bool.not_true, Bool.false_or, decide_eq_true_iff] at hcan
      exact Nat.le_trans hi.length hcan

theorem advanceFlights_fixed (s : State) :
    (advanceFlights s).fixed = { s.fixed with
      engine := { s.fixed.engine with flight := s.fixed.engine.flight.map Flight.advance } } := by
  have h : (State.each allLanes
      (fun n t => t.setLane n { t.lane n with flight := (t.lane n).flight.map Flight.advance }) s).fixed = s.fixed :=
    each_keeps State.fixed
      (f := fun n t => State.setLane t n { t.lane n with flight := (t.lane n).flight.map Flight.advance })
      (fun n t => setLane_fixed t n _) _ _
  unfold advanceFlights; dsimp only
  generalize State.each allLanes _ s = u at h ⊢
  rw [← h]; rfl

/-- Of the engine a completed write can change only how far the status write that is awaited has come. -/
theorem afterWrite_fixed (w : Write) (s : State) :
    ∃ a, (afterWrite w s).fixed = { s.fixed with engine := { s.fixed.engine with await := a } } := by
  unfold afterWrite; dsimp only
  have h : ∃ a, (if w.awaited then { s with engine := { s.engine with await := .completed } } else s).fixed
      = { s.fixed with engine := { s.fixed.engine with await := a } } := by
    split
    · exact ⟨_, rfl⟩
    · exact ⟨s.engine.await, rfl⟩
  generalize (if w.awaited then { s with engine := { s.engine with await := .completed } } else s) = u at h ⊢
  obtain ⟨a, ha⟩ := h
  exact ⟨a, by split <;> exact ha⟩

/-- A completed write: memory holds its bytes and the port has one write less (R171). -/
theorem completeWrite_fixed (s : State) :
    ∃ p e m, (completeWrite s).fixed = { s.fixed with engine := e, port := p, memory := m }
      ∧ p.path.length ≤ s.port.path.length ∧ p.live = s.port.live
      ∧ (Memory.wf s.memory = true → Memory.wf m = true)
      ∧ e.command = s.engine.command ∧ (s.engine.flight = none → e.flight = none) := by
  unfold completeWrite
  split
  · exact ⟨_, _, _, rfl, Nat.le_refl _, rfl, Memory.write_wf _ _ _, rfl, id⟩
  · split
    · exact ⟨_, _, _, rfl, Nat.le_refl _, rfl, id, rfl, id⟩
    · rename_i w rest hp
      have hw : State.fixed (performWrite w { s with port := { s.port with path := rest } })
          = { s.fixed with port := { s.fixed.port with path := rest }, memory := Memory.write s.memory w.addr w.bytes } := rfl
      generalize performWrite w { s with port := { s.port with path := rest } } = u at hw ⊢
      obtain ⟨a, ha⟩ := afterWrite_fixed w (advanceFlights u)
      rw [ha, advanceFlights_fixed, hw]
      refine ⟨_, _, _, rfl, ?_, rfl, Memory.write_wf _ _ _, rfl, fun hf => ?_⟩
      · rw [hp]; simp
      · show Option.map _ s.engine.flight = none
        rw [hf]; rfl

/-- The entry to FAILED, of the fixed part (Table 10-3). -/
theorem enterFailed_fixed (s : State) :
    (enterFailed s).fixed = { s.fixed with
      part := .failed, engine := s.fixed.engine.failed, port := s.fixed.port.failed (readsLeft s), inputsLive := false,
      sync := { s.fixed.sync with live := false }, survey := { s.fixed.survey with expiry := none } } := by
  have h : (State.each allLanes (fun n t => t.setLane n (t.lane n).failed)
      (State.each allLines takeFaultAction s)).fixed = s.fixed := by
    rw [each_keeps State.fixed (f := fun n t => State.setLane t n (t.lane n).failed) (fun _ _ => rfl),
      each_keeps State.fixed takeFaultAction_fixed]
  unfold enterFailed; dsimp only
  generalize State.each allLanes _ _ = u at h ⊢
  generalize readsLeft s = left
  rw [← h]; rfl

theorem failWrite_fixed (w : Write) (s : State) :
    (failWrite w s).fixed = { s.fixed with memory := (failWrite w s).memory }
      ∧ (Memory.wf s.memory = true → Memory.wf (failWrite w s).memory = true) := by
  unfold failWrite; dsimp only
  split
  · exact ⟨rfl, performWrite_wf w { s with choices := s.choices + 1 }⟩
  · exact ⟨rfl, id⟩

end Sys2Proof.Machine
end

