-- ==== Sys2Proof/Proofs/FixedSteps.lean ====
section
/-!
THEOREM. What every command keeps of the fixed part: the queue of commands, the clocks but for resets and alignment, memory
but for write answers, the part state's FAILED, and the soundness of the port.
-/

namespace Sys2Proof.Machine

/-- The port is live exactly outside FAILED, where no command is in progress and no read of the engine in flight (R177). -/
def Fixed.agrees (f : Fixed) : Prop :=
  (f.port.live = true ↔ f.part ≠ .failed)
    ∧ (f.part = .failed → f.engine.command = none ∧ f.engine.flight = none)

theorem failedAgrees_iff (s : State) : failedAgrees s = true ↔ s.fixed.agrees := by
  unfold failedAgrees Fixed.agrees
  show _ ↔ (s.port.live = true ↔ s.part ≠ .failed) ∧ (s.part = .failed → s.engine.command = none ∧ s.engine.flight = none)
  cases hl : s.port.live <;> by_cases hp : s.part = .failed <;> simp [hp]

/-- The command is a reset. -/
def resets : Instr → Bool
  | .resetN _ => true
  | .softReset => true
  | .controlWrite v => v.getLsbD 31
  | _ => false

/-- What a command keeps of the fixed part. -/
structure FixedStep (c : Instr) (f g : Fixed) : Prop where
  pending : g.pending = f.pending
  elapsed : resets c = false → g.time.elapsed = f.time.elapsed
  schedule : resets c = false → g.time.schedule = f.time.schedule
    ∨ (∃ l, c = .syncEvent l ∧ f.time.armed = true) ∨ ∃ d, c = .alignNowReadDone d
  memory : g.memory = f.memory ∨ c = .writeComplete ∨ c = .writeError
  wf : Memory.wf f.memory = true → Memory.wf g.memory = true
  failed : g.part = .failed → f.part = .failed ∨ c = .writeError
  path : g.port.path.length ≤ f.port.path.length ∨ g.port.path.length ≤ Config.pathCapacity
  agrees : f.agrees → g.agrees
  aligned : f.regs.exbLo &&& 0x7FF#32 = 0#32 → g.regs.exbLo &&& 0x7FF#32 = 0#32

theorem FixedStep.refl (c : Instr) (f : Fixed) : FixedStep c f f :=
  ⟨rfl, fun _ => rfl, fun _ => .inl rfl, .inl rfl, id, .inl, .inl (Nat.le_refl _), id, id⟩

theorem FixedStep.of_fixed {c : Instr} {s t : State} (h : t.fixed = s.fixed) : FixedStep c s.fixed t.fixed := by
  rw [h]; exact .refl _ _

/-- A command that ends or goes on outside FAILED and changes the engine, the part state, SYNC, the live flags, the arm or
the survey timer. -/
theorem FixedStep.outsideFailed {c : Instr} {f : Fixed} {part : PartState} {live : Bool} {y : SyncInput} {time : Timekeeping}
    {v : Survey} {e : Engine} {p : Port} (hf : f.agrees → f.part ≠ .failed) (hp : part = .failed → f.part = .failed)
    (he : time.elapsed = f.time.elapsed) (hs : time.schedule = f.time.schedule ∨ ∃ d, c = .alignNowReadDone d)
    (hport : p.path = f.port.path ∧ p.live = f.port.live) :
    FixedStep c f { f with
      part := part, inputsLive := live, sync := y, time := time, survey := v, engine := e, port := p } := by
  refine ⟨rfl, fun _ => he, fun _ => hs.imp_right .inr, .inl rfl, id, fun h => .inl (hp h), .inl ?_,
    fun ha => ⟨?_, fun h => absurd (hp h) (hf ha)⟩, id⟩
  · rw [hport.1]
  · rw [hport.2]
    exact iff_of_true (ha.1.mpr (hf ha)) fun h => hf ha (hp h)

/-- An engine command outside FAILED. -/
theorem FixedStep.engine {c : Instr} {s t : State} (h : EngineOnly s t) (hf : s.fixed.agrees → s.part ≠ .failed) :
    FixedStep c s.fixed t.fixed := by
  rw [show t.fixed = _ from h]
  refine ⟨rfl, fun _ => rfl, fun _ => .inl rfl, .inl rfl, id, .inl, .inl (Nat.le_refl _), fun ha => ⟨ha.1, fun hp => ?_⟩,
    id⟩
  exact absurd hp (hf ha)

/-- Part states with a command in progress or a read of the engine in flight are not FAILED. -/
theorem notFailed_of_command {s : State} {d : Command} (h : s.engine.command = some d) :
    s.fixed.agrees → s.part ≠ .failed := fun ha hp => by
  have := (ha.2 hp).1
  rw [show s.fixed.engine.command = some d from h] at this
  exact absurd this (by simp)

theorem notFailed_of_flight {s : State} {k : EngineRead} (h : EngineAnswered s k) :
    s.fixed.agrees → s.part ≠ .failed := fun ha hp => by
  obtain ⟨f, hf, _⟩ := h
  have := (ha.2 hp).2
  rw [show s.fixed.engine.flight = some f from hf] at this
  exact absurd this (by simp)

theorem FixedStep.setLast (c : Instr) (code o : Byte) (r : CmdOutcome) (s : State) :
    FixedStep c s.fixed (setLast code o r s).fixed :=
  ⟨rfl, fun _ => rfl, fun _ => .inl rfl, .inl rfl, id, .inl, .inl (Nat.le_refl _), id, id⟩

theorem FixedStep.taken {c : Instr} {s t : State} (h : Takes s) (ht : EngineOnly s t) :
    FixedStep c s.fixed t.fixed := .engine ht fun _ => h.notFailed

/-- A reset. -/
theorem FixedStep.reset {c : Instr} (hc : resets c = true) (s : State) :
    FixedStep c s.fixed (resetKeepingAddress s).fixed :=
  ⟨rfl, fun h => by simp [hc] at h, fun h => by simp [hc] at h, .inl rfl, id, fun h => by simp [resetKeepingAddress, State.fixed] at h,
    .inl (Nat.zero_le _), fun _ => ⟨by simp [resetKeepingAddress, State.fixed, Port.reset], fun h => by
      simp [resetKeepingAddress, State.fixed] at h⟩, id⟩

theorem FixedStep.resetAll (s : State) : FixedStep (.resetN .low) s.fixed (resetAll { s with resetPin := .low }).fixed := by
  refine ⟨rfl, fun h => by simp [resets] at h, fun h => by simp [resets] at h, .inl rfl, id, fun h => ?_,
    .inl (Nat.zero_le _), fun _ => ⟨?_, fun h => ?_⟩, fun _ => (show 0#32 &&& 0x7FF#32 = 0#32 from rfl)⟩
  · simp [Machine.resetAll, resetKeepingAddress, State.fixed] at h
  · simp [Machine.resetAll, resetKeepingAddress, State.fixed, Port.reset]
  · simp [Machine.resetAll, resetKeepingAddress, State.fixed] at h

/-- The low 11 bits of a written EXB_LO are clear (R181). -/
theorem exbLo_masked (v : Word) : (v &&& exbLoMask) &&& 0x7FF#32 = 0#32 := by
  rw [BitVec.and_assoc, show exbLoMask &&& 0x7FF#32 = 0#32 from by decide, BitVec.and_zero]

theorem FixedStep.writePlain (c : Instr) (r : PlainReg) (v : Word) (s : State) :
    FixedStep c s.fixed (writePlain r v s).fixed := by
  have hregs : ∀ g : Registers, (s.regs.exbLo &&& 0x7FF#32 = 0#32 → g.exbLo &&& 0x7FF#32 = 0#32) →
      FixedStep c s.fixed { s.fixed with regs := g } := fun g hg =>
    ⟨rfl, fun _ => rfl, fun _ => .inl rfl, .inl rfl, id, .inl, .inl (Nat.le_refl _), id, hg⟩
  unfold Machine.writePlain
  split
  · split
    · exact hregs _ fun _ => exbLo_masked v
    · exact .refl _ _
  · split
    · exact hregs _ id
    · exact .refl _ _
  · exact .refl _ _
  · exact .refl _ _
  · exact .refl _ _

theorem ackFixed (k : SlotNo) (v : Count24) (s : State) : (acknowledge k v s).fixed = s.fixed := by
  unfold acknowledge settleGather; dsimp only
  split
  · rfl
  · split <;> rfl

theorem deliver_fixed (e : AcceptedEdge) (s : State) : (deliver e s).fixed = s.fixed := by
  unfold deliver; dsimp only
  rw [each_keeps State.fixed (f := deliverEdge e) (fun c t => ?_), inFreeOrder_fixed]
  unfold deliverEdge
  split
  · simp
  · simp
  · split <;> simp

theorem sampleInput_fixed (k : LineNo) (l : Level) (s : State) : (sampleInput k l s).fixed = s.fixed := by
  unfold sampleInput
  split
  · rfl
  · split
    · unfold filterTransition; dsimp only
      split
      · rfl
      · rw [deliver_fixed]; rfl
    · rfl

theorem headFieldRead_fixed (n : LaneNo) (a : Addr) (s : State) : (headFieldRead n a s).fixed = s.fixed := by
  simp [headFieldRead]

theorem wakeLane_fixed (n : LaneNo) (s : State) : (wakeLane n s).fixed = s.fixed := by
  unfold wakeLane; split <;> simp

theorem clearFetch_fixed (n : LaneNo) (s : State) : (clearFetch n s).fixed = s.fixed := rfl

theorem clearJournalFlight_fixed (s : State) : (clearJournalFlight s).fixed = s.fixed := rfl

theorem fetchErrored_fixed (n : LaneNo) (r : FetchRead) (s : State) : (fetchErrored n r s).fixed = s.fixed := by
  simp [fetchErrored]

theorem journalHeadRead_fixed (a : Addr) (s : State) : (journalHeadRead a s).fixed = s.fixed := by
  simp [journalHeadRead]

theorem journalErrored_fixed (r : JournalRead) (s : State) : (journalErrored r s).fixed = s.fixed := by
  simp [journalErrored]

theorem restartSurvey_fixed (s : State) :
    (restartSurvey s).fixed = { s.fixed with survey := (restartSurvey s).fixed.survey } := rfl

/-- What a write error changes of the fixed part: memory at most, or the entry to FAILED (R176). -/
theorem errorWrite_fixed (s : State) :
    FixedStep .writeError s.fixed (errorWrite s).fixed := by
  unfold errorWrite
  split
  · rename_i w rest _
    obtain ⟨h, hwf⟩ := failWrite_fixed w { s with port := { s.port with leftWrites := rest } }
    rw [h]
    exact ⟨rfl, fun _ => rfl, fun _ => .inl rfl, .inr (.inr rfl), hwf, .inl, .inl (Nat.le_refl _), id, id⟩
  · split
    · exact .refl _ _
    · rename_i w rest _
      obtain ⟨h, hwf⟩ := failWrite_fixed w s
      rw [enterFailed_fixed, h]
      exact ⟨rfl, fun _ => rfl, fun _ => .inl rfl, .inr (.inr rfl), hwf, fun _ => .inr rfl, .inl (Nat.zero_le _),
        fun _ => ⟨by simp [Port.failed], fun _ => ⟨rfl, rfl⟩⟩, id⟩

theorem completeWrite_fixedStep (s : State) : FixedStep .writeComplete s.fixed (completeWrite s).fixed := by
  obtain ⟨p, e, m, h, hpath, hlive, hwf, hcmd, hflight⟩ := completeWrite_fixed s
  rw [h]
  refine ⟨rfl, fun _ => rfl, fun _ => .inl rfl, .inr (.inl rfl), hwf, .inl, .inl hpath, fun ha => ⟨?_, fun hp => ?_⟩, id⟩
  · show p.live = true ↔ _
    rw [hlive]; exact ha.1
  · exact ⟨hcmd.trans (ha.2 hp).1, hflight (ha.2 hp).2⟩

theorem serve_fixedStep {s : State} (hlive : s.port.live = true) (c : Instr) : FixedStep c s.fixed (serve s).fixed := by
  obtain ⟨h, hpath⟩ := serve_fixed s
  have hpath' : (serve s).fixed.port.path.length ≤ s.fixed.port.path.length
      ∨ (serve s).fixed.port.path.length ≤ Config.pathCapacity := hpath
  rw [h]
  refine ⟨rfl, fun _ => rfl, fun _ => .inl rfl, .inl rfl, id, .inl, hpath', fun ha => ⟨ha.1, fun hp => ?_⟩, id⟩
  exact absurd hp (ha.1.mp hlive)

/-- What every effect keeps of the fixed part. -/
theorem effect_fixedStep {c : Instr} {s t : State} (h : Effect c s t) : FixedStep c s.fixed t.fixed := by
  cases h with
  | resetLow => exact .resetAll s
  | resetHigh =>
    exact ⟨rfl, fun h => by simp [resets] at h, fun h => by simp [resets] at h, .inl rfl, id, .inl, .inl (Nat.le_refl _),
      id, id⟩
  | softReset => exact .reset rfl s
  | controlReset v _ _ hv => exact .reset (c := .controlWrite v) hv s
  | control v =>
    exact ⟨rfl, fun _ => rfl, fun _ => .inl rfl, .inl rfl, id, .inl, .inl (Nat.le_refl _), id, id⟩
  | plainWrite r v => exact .writePlain _ r v s
  | ack v => exact .of_fixed (ackFixed _ _ s)
  | refused => exact .setLast _ _ _ _ s
  | start b _ h =>
    rw [takeStart_fixed]
    exact .outsideFailed (fun _ => h.notFailed) (fun h => by cases h) rfl (.inl rfl) ⟨rfl, rfl⟩
  | stop b _ h =>
    rw [takeStop_fixed]
    exact .outsideFailed (fun _ => h.notFailed) (fun h => by cases h) rfl (.inl rfl) ⟨rfl, rfl⟩
  | laneStop b _ n h => exact .taken h (takeLaneStop_engineOnly n s)
  | laneRestart b _ n h => exact .taken h (takeLaneRestart_engineOnly n s)
  | journalRestart b _ h => exact .taken h (takeJournalRestart_engineOnly s)
  | armAlign b _ h =>
    exact .outsideFailed (f := s.fixed) (part := s.part) (fun _ => h.notFailed) id rfl (.inl rfl) ⟨rfl, rfl⟩
  | alignNow b _ h => exact .taken h (takeAlignNow_engineOnly s)
  | resurvey b _ h => exact .taken h (setLast_after _ _ _ (surveyAll_fixed s))
  | laneHold b _ n h => exact .taken h (setLast_after _ _ _ (holdLane_fixed n s))
  | laneResume b _ n h => exact .taken h (setLast_after _ _ _ (resumeLane_fixed n s))
  | journalFlush b _ h => exact .taken h (setLast_after _ _ _ (flushJournal_fixed s))
  | disarm b _ h =>
    exact .outsideFailed (f := s.fixed) (part := s.part) (fun _ => h.notFailed) id rfl (.inl rfl) ⟨rfl, rfl⟩
  | leftRead _ _ x =>
    exact ⟨rfl, fun _ => rfl, fun _ => .inl rfl, .inl rfl, id, .inl, .inl (Nat.le_refl _), id, id⟩
  | discardFetch => exact .of_fixed rfl
  | discardJournal => exact .of_fixed rfl
  | discardEngine _ _ f _ hf =>
    exact ⟨rfl, fun _ => rfl, fun _ => .inl rfl, .inl rfl, id, .inl, .inl (Nat.le_refl _),
      fun ha => ⟨ha.1, fun hp => ⟨(ha.2 hp).1, rfl⟩⟩, id⟩
  | startBadExchange o bs _ hk =>
    exact .outsideFailed (f := s.fixed) (part := .config) (notFailed_of_flight hk) (fun h => by cases h) rfl (.inl rfl) ⟨rfl, rfl⟩
  | startRead o bs _ im p hk =>
    obtain ⟨h1, h2, h3, h4, h5, h6⟩ := afterConfigurationRead_frame im (clearEngineFlight s)
    generalize (afterConfigurationRead im (clearEngineFlight s)).fixed = g at *
    rw [h1, h2]
    refine .outsideFailed (f := s.fixed) (notFailed_of_flight hk) (fun hg => ?_) rfl (.inl rfl) ⟨rfl, rfl⟩
    rcases h5 with ⟨hc, _⟩ | ⟨hs, _⟩
    · rw [hc] at hg; cases hg
    · exact hs.symm.trans hg
  | startReadError _ p hk =>
    exact .outsideFailed (f := s.fixed) (part := .config) (notFailed_of_flight hk) (fun h => by cases h) rfl (.inl rfl) ⟨rfl, rfl⟩
  | activate _ _ h =>
    have hpart : s.part = .starting := by
      simp only [startWritten, Bool.and_eq_true, decide_eq_true_iff] at h
      exact h.1.1
    rw [activate_fixed]
    exact .outsideFailed (fun _ hp => by rw [show s.fixed.part = s.part from rfl, hpart] at hp; cases hp)
      (fun h => by cases h) rfl (.inl rfl) ⟨rfl, rfl⟩
  | statusStep _ _ h => 
    simp only [stopDrained, Bool.and_eq_true, decide_eq_true_iff] at h
    exact .engine (statusStep_engineOnly s) (notFailed_of_command h.1.1)
  | floatStep _ _ h =>
    simp only [stopWritten, Bool.and_eq_true, decide_eq_true_iff] at h
    rw [floatStep_fixed]
    exact .outsideFailed (notFailed_of_command h.1.1.1) (fun h => by cases h) rfl (.inl rfl) ⟨rfl, rfl⟩
  | complete _ _ d _ _ hd => exact .engine (completeCommand_engineOnly _ s) (notFailed_of_command hd)
  | laneRestartRead data _ n hk =>
    exact .engine ((clearEngineFlight_engineOnly s).trans (restartLane_engineOnly n _ _)) (notFailed_of_flight hk)
  | readError _ _ k _ hk =>
    exact .engine ((clearEngineFlight_engineOnly s).trans (completeCommand_engineOnly _ _)) (notFailed_of_flight hk)
  | journalRestartRead data _ hk =>
    exact .engine ((clearEngineFlight_engineOnly s).trans (restartJournal_engineOnly _ _)) (notFailed_of_flight hk)
  | journalRestartReadError _ hk =>
    exact .engine (((clearEngineFlight_engineOnly s).andThen (resumeJournal_fixed _)).trans (completeCommand_engineOnly _ _))
      (notFailed_of_flight hk)
  | armAlignRead data _ hk =>
    rw [show (completeCommand .done (armAt (timeOf data) (clearEngineFlight s))).fixed = _ from
      completeCommand_engineOnly .done (armAt (timeOf data) (clearEngineFlight s))]
    exact .outsideFailed (f := s.fixed) (part := s.part) (notFailed_of_flight hk) id rfl (.inl rfl) ⟨rfl, rfl⟩
  | alignNowRead data _ hk =>
    rw [stepSchedule_fixed]
    exact .outsideFailed (f := s.fixed) (part := s.part) (notFailed_of_flight hk) id rfl (.inr ⟨data, rfl⟩) ⟨rfl, rfl⟩
  | dueReached n => exact .of_fixed (takeDue_fixed n s)
  | waitExpired n => exact .of_fixed (expireWait_fixed n s)
  | claimExpired k n => exact .of_fixed (expireClaim_fixed k n s)
  | input k l => exact .of_fixed (sampleInput_fixed k l s)
  | deadTime k => exact .of_fixed rfl
  | sync l =>
    obtain ⟨y, t, h, _, he, ha⟩ := sampleSync_fixed l s
    rw [h]
    refine ⟨rfl, fun _ => he, fun _ => ?_, .inl rfl, id, .inl, .inl (Nat.le_refl _), id, id⟩
    cases harmed : s.time.armed
    · exact .inl (congrArg Timekeeping.schedule (ha harmed))
    · exact .inr (.inl ⟨l, rfl, harmed⟩)
  | pulse k => exact .of_fixed (endPulse_fixed k s)
  | wave k => exact .of_fixed (endWavePhase_fixed k s)
  | derived g => exact .of_fixed (emitDerivedEdge_fixed g s)
  | ofVirtual g => exact .of_fixed (virtualEdge_fixed g s)
  | survey =>
    rw [surveyAll_fixed, restartSurvey_fixed]
    exact ⟨rfl, fun _ => rfl, fun _ => .inl rfl, .inl rfl, id, .inl, .inl (Nat.le_refl _), id, id⟩
  | gather => exact .of_fixed rfl
  | flushTimer => exact .of_fixed (closePage_fixed _ s)
  | headField n d => exact .of_fixed (headFieldRead_fixed n d _)
  | header n d => exact .of_fixed (judgeHeader_fixed n d _)
  | burst n cs => exact .of_fixed (by rw [wakeLane_fixed, fetchOn_fixed, queueBurst_fixed, clearFetch_fixed])
  | link n d => exact .of_fixed (judgeLink_fixed n d _)
  | fetchError n r => exact .of_fixed (fetchErrored_fixed n r _)
  | journalHead d => exact .of_fixed (journalHeadRead_fixed d _)
  | journalHeader d => exact .of_fixed (judgeJournalHeader_fixed d _)
  | journalLink d => exact .of_fixed (judgeJournalLink_fixed d _)
  | journalError r => exact .of_fixed (journalErrored_fixed r _)
  | serve _ _ hlive => exact serve_fixedStep hlive _
  | writeComplete => exact completeWrite_fixedStep s
  | writeError => exact errorWrite_fixed s

/-- What every command keeps of the fixed part. -/
theorem exec_fixedStep {c : Instr} {s t : State} (h : exec c s = .next t) : FixedStep c s.fixed t.fixed := by
  rcases effect_of_exec h with rfl | he
  · exact .refl _ _
  · exact effect_fixedStep he

/-! ## The statements -/

/-- Settles O2: every command answers, by `exec_effect`, and keeps the queue, by `exec_fixedStep`. -/
theorem everyCommandAnswersNext : Obligations.EveryCommandAnswersNext := by
  intro c s
  obtain ⟨t, ht, _⟩ := exec_effect c s
  exact ⟨t, ht, (exec_fixedStep ht).pending⟩

theorem resets_eq_false {c : Instr} (hr : ∀ level, c ≠ .resetN level) (hs : c ≠ .softReset)
    (hw : ∀ v, c = .controlWrite v → v.getLsbD 31 = false) : resets c = false := by
  cases c with
  | resetN level => exact absurd rfl (hr level)
  | softReset => exact absurd rfl hs
  | controlWrite v => exact hw v rfl
  | _ => rfl

/-- Settles O4: no command but a reset moves the elapsed count, and schedule time steps by alignment alone. -/
theorem clocksChangeOnlyByResetAndAlignment : Obligations.ClocksChangeOnlyByResetAndAlignment := by
  intro c s t h hr hs hw
  have hc := resets_eq_false hr hs hw
  have hx := exec_fixedStep h
  refine ⟨hx.elapsed hc, fun hsync halign => ?_, fun l hl harm => ?_⟩
  · rcases hx.schedule hc with h | ⟨l, hl, _⟩ | ⟨d, hd⟩
    · exact h
    · exact absurd hl (hsync l)
    · exact absurd hd (halign d)
  · rcases hx.schedule hc with h | ⟨_, _, ha⟩ | ⟨d, hd⟩
    · exact h
    · rw [show s.fixed.time.armed = s.time.armed from rfl, harm] at ha; cases ha
    · rw [hl] at hd; cases hd

/-- Settles O5: memory changes by the answers to writes alone, and FAILED comes by a write error alone. -/
theorem onlyWriteAnswersReachMemoryOrFail : Obligations.OnlyWriteAnswersReachMemoryOrFail := by
  intro c s t h
  have hx := exec_fixedStep h
  refine ⟨fun hc he => ?_, hx.failed⟩
  rcases hx.memory with h | h | h
  · exact h
  · exact absurd h hc
  · exact absurd h he

/-- The events of the lanes, lines, inputs, generators and the flush timer. -/
def blockEvent : Instr → Bool
  | .dueReached _ => true
  | .waitInputExpiry _ => true
  | .claimExpiry _ _ => true
  | .inputTransition _ _ => true
  | .deadTimeExpiry _ => true
  | .pulseEnd _ => true
  | .wavePhaseEnd _ => true
  | .derivedEdge _ => true
  | .virtualEdge _ => true
  | .flushTimerExpiry => true
  | _ => false

/-- A block's event is no write to COMMAND, no answer to a read and no end of a command. -/
theorem blockEvent_alone {c : Instr} (h : blockEvent c = true) :
    commandShown c = none ∧ answersRead c = false ∧ endsCommand c = false := by
  cases c <;> first | exact ⟨rfl, rfl, rfl⟩ | cases h

theorem blockEvent_fixed {c : Instr} {s t : State} (hc : blockEvent c = true) (h : Effect c s t) : t.fixed = s.fixed := by
  cases h with
  | dueReached n => exact takeDue_fixed n s
  | waitExpired n => exact expireWait_fixed n s
  | claimExpired k n => exact expireClaim_fixed k n s
  | input k l => exact sampleInput_fixed k l s
  | deadTime k => rfl
  | pulse k => exact endPulse_fixed k s
  | wave k => exact endWavePhase_fixed k s
  | derived g => exact emitDerivedEdge_fixed g s
  | ofVirtual g => exact virtualEdge_fixed g s
  | flushTimer => exact closePage_fixed _ s
  | refused _ _ _ _ _ hs => rw [(blockEvent_alone hc).1] at hs; cases hs
  | leftRead _ _ _ ha => rw [(blockEvent_alone hc).2.1] at ha; cases ha
  | discardFetch _ _ _ _ ha => rw [(blockEvent_alone hc).2.1] at ha; cases ha
  | discardJournal _ _ _ ha => rw [(blockEvent_alone hc).2.1] at ha; cases ha
  | discardEngine _ _ _ ha => rw [(blockEvent_alone hc).2.1] at ha; cases ha
  | complete _ _ _ ha => rw [(blockEvent_alone hc).2.2] at ha; cases ha
  | readError _ _ _ ha => rw [(blockEvent_alone hc).2.1] at ha; cases ha
  | _ => cases hc

/-- Settles O33, by the fixed part of each of the events' operations. -/
theorem blockEventsKeepTheFixedPart : Obligations.BlockEventsKeepTheFixedPart := by
  intro c s t h hc
  have hb : blockEvent c = true := by
    rcases hc with ⟨_, rfl⟩ | ⟨_, rfl⟩ | ⟨_, _, rfl⟩ | ⟨_, _, rfl⟩ | ⟨_, rfl⟩ | ⟨_, rfl⟩ | ⟨_, rfl⟩ | ⟨_, rfl⟩
      | ⟨_, rfl⟩ | rfl <;> rfl
  rcases effect_of_exec h with rfl | he
  · rfl
  · exact blockEvent_fixed hb he

theorem tick_fixed (s : State) :
    (tick s).fixed = { s.fixed with
      pins := drivenPins s, sync := { s.fixed.sync with moved := false },
      time := { s.fixed.time with elapsed := s.fixed.time.elapsed + 1, schedule := s.fixed.time.schedule + 1 } } := by
  obtain ⟨_, _, h⟩ := tick_spec s
  rw [h]; rfl

/-- The path holds at most 8 writes, memory has its canonical form, the port agrees with FAILED, EXB_LO is aligned. -/
structure PortSound (f : Fixed) : Prop where
  path : f.port.path.length ≤ Config.pathCapacity
  memory : Memory.wf f.memory = true
  agrees : f.agrees
  aligned : f.regs.exbLo &&& 0x7FF#32 = 0#32

theorem portSound_iff (s : State) :
    PortSound s.fixed ↔
      pathBounded s = true ∧ Memory.wf s.memory = true ∧ failedAgrees s = true ∧ addressAligned s = true := by
  rw [failedAgrees_iff]
  unfold pathBounded addressAligned
  simp only [decide_eq_true_iff]
  exact ⟨fun ⟨a, b, c, d⟩ => ⟨a, b, c, d⟩, fun ⟨a, b, c, d⟩ => ⟨a, b, c, d⟩⟩

theorem PortSound.effect {c : Instr} {f g : Fixed} (hf : PortSound f) (h : FixedStep c f g) : PortSound g :=
  ⟨h.path.elim (fun hp => hp.trans hf.path) id, h.wf hf.memory, h.agrees hf.agrees, h.aligned hf.aligned⟩

/-- Settles O58: each clause is one of `effect_fixedStep`, and a tick keeps all of them. -/
theorem stepKeepsThePortSound : Obligations.StepKeepsThePortSound := by
  intro s t hs h
  rw [← portSound_iff] at hs ⊢
  refine step_keeps (P := fun s => PortSound s.fixed) (fun s p k hs => ?_) (fun s hs => ?_)
    (fun c s t hs he => hs.effect (effect_fixedStep he)) hs h
  · exact ⟨hs.path, hs.memory, hs.agrees, hs.aligned⟩
  · rw [tick_fixed]
    exact ⟨hs.path, hs.memory, hs.agrees, hs.aligned⟩

end Sys2Proof.Machine
end

