-- ==== Sys2Proof/Proofs/FifoBound.lean ====
section
/-!
THEOREM. Every step keeps the capture FIFO at 64 records or fewer (R136): a capture looks at the room, and every other
operation takes records away or leaves them.
-/

namespace Sys2Proof.Machine

/-! ## Operations that take no record in -/

/-- The FIFO has not grown. -/
def FifoKept (s t : State) : Prop := t.journal.fifo.length ≤ s.journal.fifo.length

theorem FifoKept.of_journal {s t : State} (h : t.journal = s.journal) : FifoKept s t := by
  unfold FifoKept; rw [h]

theorem FifoKept.trans {s t u : State} (h : FifoKept s t) (h' : FifoKept t u) : FifoKept s u := Nat.le_trans h' h

theorem setJournalState_fifo (st : JournalState) (s : State) :
    (setJournalState st s).journal.fifo = s.journal.fifo := by
  unfold setJournalState; split <;> simp

theorem setJournalStall_fifo (st : Stall) (s : State) : (setJournalStall st s).journal.fifo = s.journal.fifo := by
  unfold setJournalStall; split <;> simp

theorem closePage_fifo (c : EndCode) (s : State) : (closePage c s).journal.fifo = s.journal.fifo := by
  unfold closePage
  split
  · rfl
  · dsimp only
    rw [setJournalState_fifo]; rfl

theorem endDrain_fifo (s : State) : (endDrain s).journal.fifo = [] := by
  rw [endDrain, setJournalStall_fifo, setJournalState_fifo]; rfl

theorem drainCheck_fifoKept (s : State) : FifoKept s (drainCheck s) := by
  unfold drainCheck FifoKept; dsimp only
  split
  · exact Nat.le_refl _
  · split
    · rw [endDrain_fifo]; exact Nat.zero_le _
    · split
      · rw [endDrain_fifo]; exact Nat.zero_le _
      · exact Nat.le_refl _

/-- A drain's check after an operation that takes no record in. -/
theorem FifoKept.drainCheck {s t : State} (h : t.journal.fifo = s.journal.fifo) : FifoKept s (drainCheck t) := by
  refine FifoKept.trans ?_ (drainCheck_fifoKept t)
  unfold FifoKept; rw [h]

theorem beginDrain_fifoKept (s : State) : FifoKept s (beginDrain s) := FifoKept.drainCheck rfl

theorem journalFault_fifoKept (c : FaultCode) (a : Option Addr) (s : State) : FifoKept s (journalFault c a s) :=
  FifoKept.drainCheck (by rw [markJournal_journal, setJournalStall_fifo, setJournalState_fifo]; rfl)

theorem stallJournal_fifoKept (st : Stall) (s : State) : FifoKept s (stallJournal st s) :=
  FifoKept.drainCheck (by rw [setJournalStall_fifo]; rfl)

theorem presentJournalHeader_fifoKept (s : State) : FifoKept s (presentJournalHeader s) := by
  unfold presentJournalHeader
  split
  · exact Nat.le_refl _
  · exact journalFault_fifoKept _ _ s

theorem presentJournalLink_fifoKept (s : State) : FifoKept s (presentJournalLink s) := by
  unfold presentJournalLink
  split
  · exact Nat.le_refl _
  · exact journalFault_fifoKept _ _ s

theorem goToJournalHeader_fifoKept (a : Addr) (s : State) : FifoKept s (goToJournalHeader a s) := by
  refine FifoKept.trans ?_ (presentJournalHeader_fifoKept _)
  unfold FifoKept; rw [setJournalStall_fifo]; exact Nat.le_refl _

theorem judgeJournalHead_fifoKept (a : Addr) (s : State) : FifoKept s (judgeJournalHead a s) := by
  unfold judgeJournalHead
  split
  · exact stallJournal_fifoKept _ s
  · split
    · exact journalFault_fifoKept _ _ s
    · exact goToJournalHeader_fifoKept a s

theorem judgeJournalLink_fifoKept (a : Addr) (s : State) : FifoKept s (judgeJournalLink a s) := by
  unfold judgeJournalLink
  split
  · exact stallJournal_fifoKept _ s
  · split
    · exact journalFault_fifoKept _ _ s
    · exact goToJournalHeader_fifoKept a s

theorem takeCapturePage_fifoKept (s : State) : FifoKept s (takeCapturePage s) :=
  FifoKept.drainCheck (by rw [setJournalStall_fifo, setJournalState_fifo]; rfl)

theorem judgeJournalHeader_fifoKept (h : BitVec 256) (s : State) : FifoKept s (judgeJournalHeader h s) := by
  unfold judgeJournalHeader; dsimp only
  split
  · exact takeCapturePage_fifoKept s
  · split
    · exact stallJournal_fifoKept _ s
    · exact journalFault_fifoKept _ _ s

theorem surveyJournal_fifoKept (s : State) : FifoKept s (surveyJournal s) := by
  unfold surveyJournal; dsimp only
  split
  · split
    · exact Nat.le_refl _
    · exact presentJournalLink_fifoKept s
    · exact presentJournalHeader_fifoKept s
    · exact Nat.le_refl _
    · exact Nat.le_refl _
  · exact Nat.le_refl _

theorem surveyAll_fifoKept (s : State) : FifoKept s (surveyAll s) := by
  refine FifoKept.trans (.of_journal ?_) (surveyJournal_fifoKept _)
  exact each_keeps State.journal (fun n t => surveyFetcher_journal t n) _ _

theorem followLink_fifoKept (s : State) : FifoKept s (followLink s) := by
  unfold followLink; dsimp only
  split
  · exact Nat.le_refl _
  · exact FifoKept.trans (t := s.setJournal { s.journal with readyPost := .idle }) (Nat.le_refl _)
      (presentJournalLink_fifoKept _)

theorem closeFlushed_fifo (s : State) : (closeFlushed s).journal.fifo = s.journal.fifo := by
  unfold closeFlushed
  split
  · dsimp only; rw [closePage_fifo]; rfl
  · rw [closePage_fifo]

theorem afterRecord_fifoKept (a : Addr) (i : Nat) (s : State) : FifoKept s (afterRecord a i s) := by
  unfold afterRecord; dsimp only
  have h : FifoKept s (s.setJournal (s.journal.recordIssued a i s.time.elapsed)) := by
    unfold FifoKept; simp [Journal.recordIssued]
  split
  · exact h.trans (FifoKept.drainCheck (closePage_fifo _ _))
  · split
    · exact h.trans (FifoKept.drainCheck (closeFlushed_fifo _))
    · exact h.trans (drainCheck_fifoKept _)

theorem flushJournal_fifo (s : State) : (flushJournal s).journal.fifo = s.journal.fifo := by
  unfold flushJournal; dsimp only
  split
  · rfl
  · split
    · split
      · rfl
      · exact closePage_fifo _ _
    · rfl

theorem startJournal_fifoKept (s : State) : FifoKept s (startJournal s) := by
  refine FifoKept.trans ?_ (judgeJournalHead_fifoKept _ _)
  unfold FifoKept; rw [markJournal_journal]; exact Nat.le_refl _

theorem restartJournal_fifoKept (a : Addr) (s : State) : FifoKept s (restartJournal a s) := by
  refine FifoKept.trans ?_ (judgeJournalHead_fifoKept _ _)
  unfold FifoKept; rw [markJournal_journal, setJournalState_fifo]; exact Nat.le_refl _

theorem resumeJournal_fifo (s : State) : (resumeJournal s).journal.fifo = s.journal.fifo := by
  unfold resumeJournal; dsimp only; split <;> rfl

theorem completeCommand_journal (o : CmdOutcome) (s : State) : (completeCommand o s).journal = s.journal := by
  unfold completeCommand; split
  · rfl
  · rw [post_journal]

/-! ## Issues -/

theorem handOwner_journal (must : StatusItem → Bool) (it : StatusItem) (s : State) :
    (handOwner must it s).journal = s.journal := by
  unfold handOwner; split <;> rfl

theorem posts_journal {α : Type} (k : SlotNo) (d : α → Details) (xs : List α) (s : State) :
    (State.each xs (fun x => post k (d x)) s).journal = s.journal :=
  each_keeps State.journal (fun x t => post_journal t k (d x)) xs s

theorem issueStatusRecord_journal (it : StatusItem) (o : Nat) (bs : List Byte) (s : State) :
    (issueStatusRecord it o bs s).journal = s.journal := by
  unfold issueStatusRecord; dsimp only; split <;> rfl

theorem presentWaitingHeader_journal (n : LaneNo) (s : State) : (presentWaitingHeader n s).journal = s.journal := by
  unfold presentWaitingHeader; split <;> simp

theorem noteDetails_fifo (k : SlotNo) (s : State) : (noteDetails k s).journal.fifo = s.journal.fifo := by
  unfold noteDetails
  split
  · rfl
  · split <;> rfl

theorem noteCount_fifoKept (k : SlotNo) (s : State) : FifoKept s (noteCount k s) := by
  unfold noteCount
  split
  · exact followLink_fifoKept s
  · split <;> exact Nat.le_refl _

theorem issueJournalStatus_fifo (s : State) : (issueJournalStatus s).journal.fifo = s.journal.fifo := by
  unfold issueJournalStatus; dsimp only
  rw [each_keeps State.journal (fun c t => post_journal t _ _)]
  simp [issueStatusRecord_journal]

theorem issueRecord_fifoKept (s : State) : FifoKept s (issueRecord s) := by
  unfold issueRecord
  split
  · rename_i addr i r rest _ _
    split
    · exact FifoKept.trans (t := issueWrite (dataWrite (recordAddr addr i) r.bytes) s) (Nat.le_refl _)
        (afterRecord_fifoKept _ _ _)
    · exact journalFault_fifoKept _ _ s
  · exact Nat.le_refl _

theorem issueNoticeCount_fifoKept (k : SlotNo) (s : State) : FifoKept s (issueNoticeCount k s) := by
  unfold issueNoticeCount
  split
  · exact Nat.le_refl _
  · split
    · rename_i q c _ _
      dsimp only
      refine FifoKept.trans (FifoKept.trans ?_ (noteCount_fifoKept k _)) (.of_journal (handNotice_journal _))
      exact Nat.le_refl _
    · exact Nat.le_refl _

theorem issueLaneStatus_journal (n : LaneNo) (s : State) : (issueLaneStatus n s).journal = s.journal := by
  unfold issueLaneStatus; dsimp only
  rw [posts_journal, setLane_journal, issueStatusRecord_journal]

theorem issueGenStatus_journal (g : GenNo) (s : State) : (issueGenStatus g s).journal = s.journal := by
  unfold issueGenStatus; dsimp only
  rw [posts_journal, setGen_journal, issueStatusRecord_journal]

theorem issueRetireSummary_journal (n : LaneNo) (s : State) : (issueRetireSummary n s).journal = s.journal := by
  unfold issueRetireSummary
  split
  · rfl
  · split
    · rfl
    · rw [handOwner_journal]; rfl

theorem issueRetireOwner_journal (n : LaneNo) (s : State) : (issueRetireOwner n s).journal = s.journal := by
  unfold issueRetireOwner
  split
  · rfl
  · dsimp only
    rw [presentWaitingHeader_journal]
    split
    · rw [postProgress_journal]; rfl
    · rfl

theorem issueStatus_fifoKept (it : StatusItem) (s : State) : FifoKept s (issueStatus it s) := by
  cases it with
  | laneStatus n => exact .of_journal (issueLaneStatus_journal n s)
  | journalStatus => exact (congrArg List.length (issueJournalStatus_fifo s)).le
  | genStatus g => exact .of_journal (issueGenStatus_journal g s)
  | retireSummary n => exact .of_journal (issueRetireSummary_journal n s)
  | retireOwner n => exact .of_journal (issueRetireOwner_journal n s)
  | closeSummary =>
    show FifoKept s (issueCloseSummary s)
    unfold issueCloseSummary
    split
    · exact Nat.le_refl _
    · exact .of_journal (by rw [handOwner_journal]; rfl)
  | closeOwner =>
    show FifoKept s (issueCloseOwner s)
    unfold issueCloseOwner
    split
    · exact Nat.le_refl _
    · unfold FifoKept; rw [post_journal]; exact Nat.le_refl _
  | noticeDetails k =>
    show FifoKept s (issueNoticeDetails k s)
    unfold issueNoticeDetails FifoKept; dsimp only
    rw [handOwner_journal, noteDetails_fifo]
    exact Nat.le_refl _
  | noticeCount k => exact issueNoticeCount_fifoKept k s

theorem clearedSlots_journal (s : State) : (clearedSlots s).journal = s.journal :=
  each_keeps State.journal
    (f := fun k t => State.setSlot t k ((t.slot k).atStart (s.notice.loadedMask.getLsbD k.val)))
    (fun k t => setSlot_journal t k _) _ _

theorem noticeStep_journal (s : State) : (noticeStep s).journal = s.journal := by
  have h := clearedSlots_journal s
  rw [noticeStep_eq]
  generalize clearedSlots s = u at h ⊢
  exact h

theorem issueEngineWrite_journal (w : EngineWrite) (s : State) : (issueEngineWrite w s).journal = s.journal := by
  have h : (engineWriteTaken (issueWrite (engineWriteOf s w) s)).journal = s.journal := rfl
  rw [issueEngineWrite_eq]
  split
  · rw [noticeStep_journal, h]
  · exact h

theorem issueAccess_fifoKept (a : Access) (s : State) : FifoKept s (issueAccess a s) := by
  cases a with
  | fetch n r => exact Nat.le_refl _
  | journalRead r => exact Nat.le_refl _
  | record => exact issueRecord_fifoKept s
  | status it => exact FifoKept.trans (t := { s with handed := s.handed.tail }) (Nat.le_refl _) (issueStatus_fifoKept it _)
  | engineRead r => exact Nat.le_refl _
  | engineWrite w => exact .of_journal (issueEngineWrite_journal w s)

theorem serve_fifoKept (s : State) : FifoKept s (serve s) := by
  rcases serve_cases s with h | ⟨r, a, _, _, h⟩
  · rw [h]; exact Nat.le_refl _
  · rw [h]; exact FifoKept.trans (t := setServed r s) (Nat.le_refl _) (issueAccess_fifoKept a _)

/-! ## Operations that may capture -/

/-- The FIFO is within its bound. -/
def FifoOk (s : State) : Prop := s.journal.fifo.length ≤ 64

theorem FifoOk.kept {s t : State} (hs : FifoOk s) (h : FifoKept s t) : FifoOk t := Nat.le_trans h hs

theorem FifoOk.work {s t : State} (hs : FifoOk s) (h : WorkFrame s t) : FifoOk t := h.bound hs

theorem FifoOk.of_journal {s t : State} (hs : FifoOk s) (h : t.journal = s.journal) : FifoOk t :=
  hs.kept (.of_journal h)

theorem reportTransition_fifoOk (g : GenNo) (time : Ticks) {s : State} (hs : FifoOk s) :
    FifoOk (reportTransition g time s) := by
  unfold reportTransition; dsimp only
  exact (hs.work (capture_frame (.track g (s.gen g).state (s.gen g).period time) s)).of_journal
    (by rw [setGen_journal, markStale_journal])

theorem lockOn_fifoOk (g : GenNo) (p : Word) (c : Ticks) {s : State} (hs : FifoOk s) : FifoOk (lockOn g p c s) :=
  hs.of_journal (by simp)

theorem loseByGap_fifoOk (g : GenNo) (time : Ticks) {s : State} (hs : FifoOk s) : FifoOk (loseByGap g time s) := by
  unfold loseByGap; dsimp only
  exact reportTransition_fifoOk _ _ (hs.of_journal (by simp))

theorem realEdge_fifoOk (g : GenNo) (c time : Ticks) {s : State} (hs : FifoOk s) : FifoOk (realEdge g c time s) := by
  unfold realEdge; dsimp only
  have hn : FifoOk (noteRealEdge g c s) := hs.of_journal (by simp)
  generalize noteRealEdge g c s = u at hn ⊢
  split
  · exact hn.of_journal (by simp)
  · split
    · exact hn
    · rename_i p _
      exact reportTransition_fifoOk _ _ ((lockOn_fifoOk g p c hn).of_journal (setGen_journal _ _ _))
  · split
    · exact loseByGap_fifoOk _ _ hn
    · exact lockOn_fifoOk _ _ _ hn
  · exact hn.of_journal (by simp)
  · exact hn.of_journal (by simp)
  · split
    · exact loseByGap_fifoOk _ _ hn
    · refine FifoOk.of_journal ?_ (setGen_journal _ _ _)
      split
      · exact reportTransition_fifoOk _ _ (lockOn_fifoOk _ _ _ hn)
      · exact lockOn_fifoOk _ _ _ hn

theorem virtualEdge_fifoOk (g : GenNo) {s : State} (hs : FifoOk s) : FifoOk (virtualEdge g s) := by
  unfold virtualEdge; dsimp only
  split
  · exact hs
  · exact hs
  · exact hs.of_journal (by simp)
  · exact hs.of_journal (by simp)
  · exact reportTransition_fifoOk _ _ (hs.of_journal (by simp))
  · exact hs.of_journal (by simp)

theorem deliverEdge_fifoOk (e : AcceptedEdge) (c : Consumer) {s : State} (hs : FifoOk s) : FifoOk (deliverEdge e c s) := by
  unfold deliverEdge
  split
  · exact hs.work (capture_frame _ _)
  · exact realEdge_fifoOk _ _ _ hs
  · split
    · exact hs.work (endWait_frame _ _ _)
    · exact hs

theorem sampleInput_fifoOk (k : LineNo) (l : Level) {s : State} (hs : FifoOk s) : FifoOk (sampleInput k l s) := by
  unfold sampleInput
  split
  · exact hs
  · split
    · unfold filterTransition; dsimp only
      split
      · exact hs
      · unfold deliver; dsimp only
        exact each_induct FifoOk (fun c t ht => deliverEdge_fifoOk _ c ht) _ _
          (FifoOk.work (s := (setInputLevel k l s).setInput k _) hs (inFreeOrder_frame _ _))
    · exact hs

theorem stepSchedule_fifoOk (v : Ticks) {s : State} (hs : FifoOk s) : FifoOk (stepSchedule v s) := by
  unfold stepSchedule
  refine FifoOk.work ?_ (runDueLanes_frame _)
  exact FifoOk.of_journal (s := setSchedule v s) hs (post_journal _ _ _)

theorem sampleSync_fifoOk (l : Level) {s : State} (hs : FifoOk s) : FifoOk (sampleSync l s) := by
  unfold sampleSync
  split
  · exact hs
  · split
    · unfold syncEvent; dsimp only
      have hc : FifoOk (capture (.sync (setSyncLevel l s).time.armed (setSyncLevel l s).time.schedule) (setSyncLevel l s)) :=
        FifoOk.work (s := setSyncLevel l s) hs (capture_frame _ _)
      have hr : ∀ t {u}, FifoOk u → FifoOk (reportTimeMark t u) := fun t u hu => by
        unfold reportTimeMark; split
        · exact hu.of_journal (post_journal _ _ _)
        · exact hu
      split
      · exact stepSchedule_fifoOk _ (hr _ hc)
      · exact hr _ hc
    · exact hs

/-! ## Every effect -/

theorem startLane_journal (n : LaneNo) (s : State) : (startLane n s).journal = s.journal := by
  unfold startLane; dsimp only; split <;> simp

theorem inputStep_journal (s : State) : (inputStep s).journal = s.journal := by
  have h : (State.each allGens startGen (State.each allLines clearDeadTime s)).journal = s.journal := by
    rw [each_keeps State.journal (f := startGen) (fun g t => by simp [startGen]),
      each_keeps State.journal (f := clearDeadTime) (fun _ _ => rfl)]
  unfold inputStep; dsimp only
  exact h

theorem driveLine_journal (k : LineNo) (s : State) : (driveLine k s).journal = s.journal := by
  unfold driveLine; dsimp only; split <;> rfl

theorem startSurvey_journal (s : State) : (startSurvey s).journal = s.journal := by
  unfold startSurvey; split <;> rfl

theorem activate_fifoKept (s : State) : FifoKept s (activate s) := by
  have h : (State.each allLanes startLane (inputStep (State.each allLines driveLine s))).journal = s.journal := by
    rw [each_keeps State.journal startLane_journal, inputStep_journal, each_keeps State.journal driveLine_journal]
  unfold activate; dsimp only
  generalize State.each allLanes startLane _ = u at h ⊢
  refine (FifoKept.of_journal h).trans ((startJournal_fifoKept u).trans ?_)
  refine (FifoKept.of_journal (startSurvey_journal _)).trans (FifoKept.trans (t := { startSurvey (startJournal u) with
    part := .active }) (Nat.le_refl _) (.of_journal (completeCommand_journal _ _)))

theorem afterConfigurationRead_fifo (im : ConfigImage) (s : State) :
    (afterConfigurationRead im s).journal.fifo = s.journal.fifo := by
  have hload : (loadConfiguration im (storeImage im s)).journal.fifo = s.journal.fifo := by
    have h : (State.each allGens (loadGen im) (State.each allLines (loadInput im) (State.each allLines (loadLine im)
        (State.each allLanes (loadLane im) (storeImage im s))))).journal = s.journal := by
      rw [each_keeps State.journal (f := loadGen im) (fun k t => by unfold loadGen; split <;> rfl),
        each_keeps State.journal (f := loadInput im) (fun k t => by unfold loadInput; split <;> rfl),
        each_keeps State.journal (f := loadLine im) (fun k t => by unfold loadLine; split <;> rfl),
        each_keeps State.journal (f := loadLane im) (fun _ _ => rfl)]
      rfl
    show (State.each allGens (loadGen im) _).journal.fifo = _
    rw [h]
  unfold afterConfigurationRead
  split
  · unfold validateConfiguration
    split
    · exact hload
    · rfl
  · rfl

theorem quietStep_journal (s : State) : (quietStep s).journal = s.journal := by
  have h : (State.each allGens ceaseGen s).journal = s.journal :=
    each_keeps State.journal (f := ceaseGen) (fun _ _ => rfl) _ _
  unfold quietStep; dsimp only
  exact h

theorem takeStop_fifoOk {s : State} (hs : FifoOk s) : FifoOk (takeStop s) := by
  unfold takeStop; dsimp only
  refine FifoOk.kept ?_ (beginDrain_fifoKept _)
  refine each_induct FifoOk (fun n t ht => ht.work (stopLane_frame n t)) _ _ ?_
  exact FifoOk.of_journal (s := beginCommand (.stop false) { s with part := .stopping }) hs (quietStep_journal _)

theorem resumeLane_fifoOk (n : LaneNo) {s : State} (hs : FifoOk s) : FifoOk (resumeLane n s) := by
  unfold resumeLane resumeHeld
  split
  · dsimp only; split
    · split
      · exact hs.work ((judgeCue_frame _ _ _).trans (runAfter_frame _ _))
      · exact hs.of_journal (by simp)
    · exact hs.work ((takeNext_frame _ _).trans (runAfter_frame _ _))
  · exact hs.of_journal (by simp)

theorem restartLane_fifoOk (n : LaneNo) (c : LaneConfig) {s : State} (hs : FifoOk s) : FifoOk (restartLane n c s) := by
  unfold restartLane; dsimp only
  refine FifoOk.work ?_ ((inFreeOrder_frame _ _).trans (runAll_frame _ _))
  refine FifoOk.of_journal (hs.work (releaseAndGrant_frame (ownedLines s n) s)) ?_
  rw [startFetcher_journal, markLane_journal]; rfl

theorem holdLane_journal (n : LaneNo) (s : State) : (holdLane n s).journal = s.journal := by
  unfold holdLane; split <;> simp

theorem advanceFlights_fifo (s : State) : (advanceFlights s).journal.fifo = s.journal.fifo := by
  have h : (State.each allLanes
      (fun n t => t.setLane n { t.lane n with flight := (t.lane n).flight.map Flight.advance }) s).journal = s.journal :=
    each_keeps State.journal
      (f := fun n t => State.setLane t n { t.lane n with flight := (t.lane n).flight.map Flight.advance })
      (fun n t => setLane_journal t n _) _ _
  show (State.journal (State.each allLanes _ s)).fifo = _
  rw [h]

theorem afterWrite_journal (w : Write) (s : State) : (afterWrite w s).journal = s.journal := by
  unfold afterWrite; dsimp only
  split <;> split <;> rfl

theorem completeWrite_fifo (s : State) : (completeWrite s).journal.fifo = s.journal.fifo := by
  unfold completeWrite
  split
  · rfl
  · split
    · rfl
    · rw [afterWrite_journal, advanceFlights_fifo]; rfl

theorem failWrite_journal (w : Write) (s : State) : (failWrite w s).journal = s.journal := by
  unfold failWrite; dsimp only; split <;> rfl

theorem enterFailed_journal (s : State) : (enterFailed s).journal = s.journal.failed := by
  have h : (State.each allLanes (fun n t => t.setLane n (t.lane n).failed)
      (State.each allLines takeFaultAction s)).journal = s.journal := by
    rw [each_keeps State.journal (f := fun n t => State.setLane t n (t.lane n).failed) (fun _ _ => rfl),
      each_keeps State.journal (fun k t => takeFaultAction_journal t k)]
  show (State.journal (State.each allLanes _ _)).failed = _
  rw [h]

theorem errorWrite_fifo (s : State) : (errorWrite s).journal.fifo = s.journal.fifo := by
  unfold errorWrite
  split
  · rw [failWrite_journal]
  · split
    · rfl
    · rw [enterFailed_journal, failWrite_journal]; rfl

theorem floatStep_journal (s : State) : (floatStep s).journal = s.journal := by
  have h : (State.each allGens floatGen (State.each allLines floatLine s)).journal = s.journal := by
    rw [each_keeps State.journal (f := floatGen) (fun _ _ => rfl), each_keeps State.journal (f := floatLine) (fun _ _ => rfl)]
  unfold floatStep; dsimp only
  generalize State.each allGens floatGen _ = u at h ⊢
  rw [completeCommand_journal]
  exact h

theorem statusStep_journal (s : State) : (statusStep s).journal = s.journal := by
  have h : (State.each allGens (fun g => markStale (.genStatus g)) (markJournal s)).journal = s.journal :=
    (each_keeps State.journal (fun g t => markStale_journal t (.genStatus g)) allGens _).trans (markJournal_journal s)
  unfold statusStep; dsimp only
  exact h

theorem acknowledge_journal (k : SlotNo) (v : Count24) (s : State) : (acknowledge k v s).journal = s.journal := by
  unfold acknowledge settleGather; dsimp only
  split
  · rfl
  · split <;> rfl

theorem writePlain_journal (r : PlainReg) (v : Word) (s : State) : (writePlain r v s).journal = s.journal := by
  unfold writePlain
  cases r with
  | exbLo => dsimp only; split <;> rfl
  | exbHi => dsimp only; split <;> rfl
  | ident => rfl
  | cmdStatus => rfl
  | partState => rfl

theorem wakeLane_fifoOk (n : LaneNo) {s : State} (hs : FifoOk s) : FifoOk (wakeLane n s) := by
  unfold wakeLane; split
  · exact hs.work ((takeNext_frame n s).trans (runAfter_frame _ _))
  · exact hs

theorem setLast_fifoOk (c o : Byte) (r : CmdOutcome) {s : State} (h : FifoOk s) : FifoOk (setLast c o r s) := h

theorem effect_fifoOk {c : Instr} {s t : State} (hs : FifoOk s) (h : Effect c s t) : FifoOk t := by
  cases h with
  | resetLow => exact Nat.zero_le _
  | resetHigh => exact hs
  | softReset => exact Nat.zero_le _
  | controlReset => exact Nat.zero_le _
  | control => exact hs
  | plainWrite r v => exact hs.of_journal (writePlain_journal r v s)
  | ack v => exact hs.of_journal (acknowledge_journal _ _ s)
  | refused => exact hs
  | start => exact hs
  | stop => exact takeStop_fifoOk hs
  | laneStop b _ n => exact FifoOk.work (s := awaitStatus (beginCommand (.laneStop n) s)) hs (stopLane_frame n _)
  | laneRestart => exact hs
  | journalRestart => exact hs
  | armAlign => exact hs
  | alignNow => exact hs
  | resurvey => exact setLast_fifoOk _ _ _ (hs.kept (surveyAll_fifoKept s))
  | laneHold b _ n => exact setLast_fifoOk _ _ _ (hs.of_journal (holdLane_journal n s))
  | laneResume b _ n => exact setLast_fifoOk _ _ _ (resumeLane_fifoOk n hs)
  | journalFlush => exact setLast_fifoOk _ _ _ (hs.kept (congrArg List.length (flushJournal_fifo s)).le)
  | disarm => exact hs
  | leftRead => exact hs
  | discardFetch => exact hs
  | discardJournal => exact hs
  | discardEngine => exact hs
  | startBadExchange => exact hs
  | startRead o bs _ im => exact hs.kept (congrArg List.length (afterConfigurationRead_fifo im _)).le
  | startReadError => exact hs
  | activate => exact hs.kept (activate_fifoKept s)
  | statusStep => exact hs.of_journal (statusStep_journal s)
  | floatStep => exact hs.of_journal (floatStep_journal s)
  | complete => exact hs.of_journal (completeCommand_journal _ s)
  | laneRestartRead data _ n => exact restartLane_fifoOk (s := clearEngineFlight s) n _ hs
  | readError => exact FifoOk.of_journal (s := clearEngineFlight s) hs (completeCommand_journal _ _)
  | journalRestartRead data => exact FifoOk.kept (s := clearEngineFlight s) hs (restartJournal_fifoKept _ _)
  | journalRestartReadError =>
    refine FifoOk.of_journal ?_ (completeCommand_journal _ _)
    exact FifoOk.kept (s := clearEngineFlight s) hs (congrArg List.length (resumeJournal_fifo _)).le
  | armAlignRead data =>
    exact FifoOk.of_journal (s := armAt (timeOf data) (clearEngineFlight s)) hs (completeCommand_journal _ _)
  | alignNowRead data => exact stepSchedule_fifoOk (s := awaitAlignment (clearEngineFlight s)) _ hs
  | dueReached n => exact hs.work (takeDue_frame n s)
  | waitExpired n => exact hs.work (expireWait_frame n s)
  | claimExpired k n => exact hs.work (expireClaim_frame k n s)
  | input k l => exact sampleInput_fifoOk k l hs
  | deadTime => exact hs
  | sync l => exact sampleSync_fifoOk l hs
  | pulse k => exact hs.of_journal (endPulse_journal s k)
  | wave k => exact hs.of_journal (endWavePhase_journal s k)
  | derived g => exact hs.of_journal (emitDerivedEdge_journal s g)
  | ofVirtual g => exact virtualEdge_fifoOk g hs
  | survey => exact FifoOk.kept (s := restartSurvey s) hs (surveyAll_fifoKept _)
  | gather => exact hs
  | flushTimer => exact hs.kept (congrArg List.length (closePage_fifo _ s)).le
  | headField n d => exact FifoOk.of_journal (s := clearFetch n s) hs (by simp [headFieldRead])
  | header n d => exact FifoOk.of_journal (s := clearFetch n s) hs (by simp)
  | burst n cs => exact wakeLane_fifoOk n (FifoOk.of_journal (s := clearFetch n s) hs (by simp))
  | link n d => exact FifoOk.of_journal (s := clearFetch n s) hs (by simp)
  | fetchError n r => exact FifoOk.of_journal (s := clearFetch n s) hs (by simp [fetchErrored])
  | journalHead d => exact FifoOk.kept (s := clearJournalFlight s) hs (judgeJournalHead_fifoKept d _)
  | journalHeader d => exact FifoOk.kept (s := clearJournalFlight s) hs (judgeJournalHeader_fifoKept d _)
  | journalLink d => exact FifoOk.kept (s := clearJournalFlight s) hs (judgeJournalLink_fifoKept d _)
  | journalError r => exact FifoOk.kept (s := clearJournalFlight s) hs (journalFault_fifoKept _ _ _)
  | serve => exact hs.kept (serve_fifoKept s)
  | writeComplete => exact hs.kept (congrArg List.length (completeWrite_fifo s)).le
  | writeError => exact hs.kept (congrArg List.length (errorWrite_fifo s)).le

theorem fifoBounded_iff (s : State) : fifoBounded s = true ↔ FifoOk s := decide_eq_true_iff

/-- Settles O57: a capture looks at the room, and no other operation takes a record in. -/
theorem stepKeepsTheFifoBound : Obligations.StepKeepsTheFifoBound := by
  intro s t hs h
  rw [fifoBounded_iff] at hs ⊢
  refine step_keeps (P := FifoOk) (fun s p k hs => hs) (fun s hs => ?_) (fun c s t hs he => effect_fifoOk hs he) hs h
  obtain ⟨_, _, ht⟩ := tick_spec s
  exact hs.of_journal (by rw [ht])

end Sys2Proof.Machine
end

