-- ==== Sys2Proof/Proofs/KeptBlocks.lean ====
section
/-!
SUPPORT. The operations of the journal, the notice unit, the engine and the port leave every lane, every line and every
generator's binding as it was.
-/

namespace Sys2Proof.Machine

/-- No lane, no line and no binding has changed. -/
structure BlocksKept (s t : State) : Prop where
  lanes : t.lanes = s.lanes
  lines : t.lines = s.lines
  bound : ∀ g, (t.gen g).bound = (s.gen g).bound

namespace BlocksKept

theorem refl (s : State) : BlocksKept s s := ⟨rfl, rfl, fun _ => rfl⟩

theorem trans {s t u : State} (h : BlocksKept s t) (h' : BlocksKept t u) : BlocksKept s u :=
  ⟨h'.lanes.trans h.lanes, h'.lines.trans h.lines, fun g => (h'.bound g).trans (h.bound g)⟩

/-- An operation that leaves the generators too. -/
theorem of_gens {s t : State} (hl : t.lanes = s.lanes) (hk : t.lines = s.lines) (hg : t.gens = s.gens) :
    BlocksKept s t := ⟨hl, hk, fun g => congrArg (fun v => Generator.bound v[g]) hg⟩

/-- After a change of something else. -/
theorem after {s t u : State} (h : BlocksKept t u) (hl : t.lanes = s.lanes) (hk : t.lines = s.lines)
    (hg : t.gens = s.gens) : BlocksKept s u := (of_gens hl hk hg).trans h

/-- With a change of something else after it. -/
theorem andThen {s t u : State} (h : BlocksKept s t) (hl : u.lanes = t.lanes) (hk : u.lines = t.lines)
    (hg : u.gens = t.gens) : BlocksKept s u := h.trans (of_gens hl hk hg)

theorem each {α : Type} {f : α → State → State} (h : ∀ x t, BlocksKept t (f x t)) (xs : List α) (s : State) :
    BlocksKept s (State.each xs f s) :=
  each_induct (BlocksKept s) (fun x t ht => ht.trans (h x t)) xs s (refl s)

theorem lane {s t : State} (h : BlocksKept s t) (n : LaneNo) : t.lane n = s.lane n := congrArg (fun v => v[n]) h.lanes

theorem line {s t : State} (h : BlocksKept s t) (k : LineNo) : t.line k = s.line k := congrArg (fun v => v[k]) h.lines

end BlocksKept

/-! ## Postings, records and the journal -/

theorem post_blocks (k : SlotNo) (d : Details) (s : State) : BlocksKept s (post k d s) :=
  .of_gens (post_lanes _ _ _) (post_lines _ _ _) (post_gens _ _ _)

theorem handNotice_blocks (s : State) : BlocksKept s (handNotice s) :=
  .of_gens (handNotice_lanes _) (handNotice_lines _) (handNotice_gens _)

theorem capture_blocks (r : CaptureRecord) (s : State) : BlocksKept s (capture r s) :=
  .of_gens (capture_lanes _ _) (capture_lines _ _) (capture_gens _ _)

theorem markStale_blocks (it : StatusItem) (s : State) : BlocksKept s (markStale it s) :=
  .of_gens (markStale_lanes _ _) (markStale_lines _ _) (markStale_gens _ _)

theorem followLink_blocks (s : State) : BlocksKept s (followLink s) :=
  .of_gens (followLink_lanes _) (followLink_lines _) (followLink_gens _)

theorem surveyJournal_blocks (s : State) : BlocksKept s (surveyJournal s) :=
  .of_gens (surveyJournal_lanes _) (surveyJournal_lines _) (surveyJournal_gens _)

theorem beginDrain_blocks (s : State) : BlocksKept s (beginDrain s) :=
  .of_gens (beginDrain_lanes _) (beginDrain_lines _) (beginDrain_gens _)

theorem startJournal_blocks (s : State) : BlocksKept s (startJournal s) :=
  .of_gens (startJournal_lanes _) (startJournal_lines _) (startJournal_gens _)

theorem closePage_blocks (c : EndCode) (s : State) : BlocksKept s (closePage c s) :=
  .of_gens (closePage_lanes _ _) (closePage_lines _ _) (closePage_gens _ _)

theorem journalFault_blocks (c : FaultCode) (a : Option Addr) (s : State) : BlocksKept s (journalFault c a s) :=
  .of_gens (journalFault_lanes _ _ _) (journalFault_lines _ _ _) (journalFault_gens _ _ _)

theorem judgeJournalHead_blocks (a : Addr) (s : State) : BlocksKept s (judgeJournalHead a s) :=
  .of_gens (judgeJournalHead_lanes _ _) (judgeJournalHead_lines _ _) (judgeJournalHead_gens _ _)

theorem judgeJournalHeader_blocks (h : BitVec 256) (s : State) : BlocksKept s (judgeJournalHeader h s) :=
  .of_gens (judgeJournalHeader_lanes _ _) (judgeJournalHeader_lines _ _) (judgeJournalHeader_gens _ _)

theorem judgeJournalLink_blocks (a : Addr) (s : State) : BlocksKept s (judgeJournalLink a s) :=
  .of_gens (judgeJournalLink_lanes _ _) (judgeJournalLink_lines _ _) (judgeJournalLink_gens _ _)

theorem afterRecord_blocks (a : Addr) (i : Nat) (s : State) : BlocksKept s (afterRecord a i s) :=
  .of_gens (afterRecord_lanes _ _ _) (afterRecord_lines _ _ _) (afterRecord_gens _ _ _)

theorem flushJournal_blocks (s : State) : BlocksKept s (flushJournal s) :=
  .of_gens (flushJournal_lanes _) (flushJournal_lines _) (flushJournal_gens _)

theorem restartJournal_blocks (a : Addr) (s : State) : BlocksKept s (restartJournal a s) := by
  refine BlocksKept.trans ?_ (judgeJournalHead_blocks _ _)
  refine BlocksKept.trans ?_ (markStale_blocks _ _)
  unfold setJournalState
  split
  · exact .of_gens rfl rfl rfl
  · exact (markStale_blocks _ _).after rfl rfl rfl

theorem resumeJournal_blocks (s : State) : BlocksKept s (resumeJournal s) := by
  unfold resumeJournal; dsimp only; split <;> exact .of_gens rfl rfl rfl

theorem completeCommand_blocks (o : CmdOutcome) (s : State) : BlocksKept s (completeCommand o s) := by
  unfold completeCommand
  split
  · exact .of_gens rfl rfl rfl
  · exact (post_blocks _ _ _).after rfl rfl rfl

theorem reportTimeMark_blocks (t : Ticks) (s : State) : BlocksKept s (reportTimeMark t s) := by
  unfold reportTimeMark
  split
  · exact post_blocks _ _ _
  · exact .of_gens rfl rfl rfl

theorem statusStep_blocks (s : State) : BlocksKept s (statusStep s) := by
  have h : BlocksKept s (State.each allGens (fun g => markStale (.genStatus g)) (markJournal s)) :=
    (markStale_blocks _ _).trans (.each (fun g t => markStale_blocks _ t) _ _)
  unfold statusStep; dsimp only
  generalize State.each allGens _ _ = u at h ⊢
  exact h.andThen rfl rfl rfl

theorem acknowledge_blocks (k : SlotNo) (v : Count24) (s : State) : BlocksKept s (acknowledge k v s) := by
  unfold acknowledge settleGather; dsimp only
  split
  · exact .of_gens rfl rfl rfl
  · split <;> exact .of_gens rfl rfl rfl

theorem writePlain_blocks (r : PlainReg) (v : Word) (s : State) : BlocksKept s (writePlain r v s) := by
  cases r with
  | exbLo => unfold writePlain; dsimp only; split <;> exact .of_gens rfl rfl rfl
  | exbHi => unfold writePlain; dsimp only; split <;> exact .of_gens rfl rfl rfl
  | ident => exact .of_gens rfl rfl rfl
  | cmdStatus => exact .of_gens rfl rfl rfl
  | partState => exact .of_gens rfl rfl rfl

theorem startSurvey_blocks (s : State) : BlocksKept s (startSurvey s) := by
  unfold startSurvey; split <;> exact .of_gens rfl rfl rfl

theorem quietStep_blocks (s : State) : BlocksKept s (quietStep s) := by
  have h : BlocksKept s (State.each allGens ceaseGen s) := by
    refine .each (f := ceaseGen) (fun g t => ⟨rfl, rfl, fun h => ?_⟩) _ _
    unfold ceaseGen
    rw [gen_setGen]
    split
    · rename_i e; rw [e]
    · rfl
  unfold quietStep; dsimp only
  generalize State.each allGens ceaseGen s = u at h ⊢
  exact h.andThen rfl rfl rfl

/-! ## Issues and write answers -/

theorem handOwner_blocks (must : StatusItem → Bool) (it : StatusItem) (s : State) :
    BlocksKept s (handOwner must it s) := by
  unfold handOwner; split <;> exact .of_gens rfl rfl rfl

theorem issueStatusRecord_blocks (it : StatusItem) (o : Nat) (bs : List Byte) (s : State) :
    BlocksKept s (issueStatusRecord it o bs s) := by
  unfold issueStatusRecord; dsimp only; split <;> exact .of_gens rfl rfl rfl

theorem issueJournalStatus_blocks (s : State) : BlocksKept s (issueJournalStatus s) := by
  unfold issueJournalStatus; dsimp only
  refine BlocksKept.trans ?_ (.each (fun c t => post_blocks _ _ t) _ _)
  have h := issueStatusRecord_blocks .journalStatus journalStatusOffset (s.journal.statusBytes s.time.schedule) s
  exact h.andThen rfl rfl rfl

theorem issueGenStatus_blocks (g : GenNo) (s : State) : BlocksKept s (issueGenStatus g s) := by
  unfold issueGenStatus; dsimp only
  refine BlocksKept.trans ?_ (.each (fun c t => post_blocks _ _ t) _ _)
  have h := issueStatusRecord_blocks (.genStatus g) (genStatusOffset g) ((s.gen g).statusBytes s.time.schedule) s
  refine h.trans ⟨rfl, rfl, fun h => ?_⟩
  rw [gen_setGen]
  split
  · rename_i e; rw [e]
  · rfl

theorem issueRetireSummary_blocks (n : LaneNo) (s : State) : BlocksKept s (issueRetireSummary n s) := by
  unfold issueRetireSummary
  split
  · exact .of_gens rfl rfl rfl
  · split
    · exact .of_gens rfl rfl rfl
    · exact (handOwner_blocks _ _ _).after rfl rfl rfl

theorem issueCloseSummary_blocks (s : State) : BlocksKept s (issueCloseSummary s) := by
  unfold issueCloseSummary
  split
  · exact .of_gens rfl rfl rfl
  · exact (handOwner_blocks _ _ _).after rfl rfl rfl

theorem issueCloseOwner_blocks (s : State) : BlocksKept s (issueCloseOwner s) := by
  unfold issueCloseOwner
  split
  · exact .of_gens rfl rfl rfl
  · exact (post_blocks _ _ _).after rfl rfl rfl

theorem noteDetails_blocks (k : SlotNo) (s : State) : BlocksKept s (noteDetails k s) := by
  unfold noteDetails
  split
  · exact .of_gens rfl rfl rfl
  · split <;> exact .of_gens rfl rfl rfl

theorem noteCount_blocks (k : SlotNo) (s : State) : BlocksKept s (noteCount k s) := by
  unfold noteCount
  split
  · exact followLink_blocks s
  · split <;> exact .of_gens rfl rfl rfl

theorem issueNoticeDetails_blocks (k : SlotNo) (s : State) : BlocksKept s (issueNoticeDetails k s) := by
  unfold issueNoticeDetails; dsimp only
  have h : ∀ u, BlocksKept u (handOwner StatusItem.isNotice (.noticeCount k) (noteDetails k u)) := fun u =>
    (noteDetails_blocks k u).trans (handOwner_blocks _ _ _)
  exact (h _).after rfl rfl rfl

theorem issueNoticeCount_blocks (k : SlotNo) (s : State) : BlocksKept s (issueNoticeCount k s) := by
  unfold issueNoticeCount
  split
  · exact .of_gens rfl rfl rfl
  · split
    · have h : ∀ u, BlocksKept u (handNotice (noteCount k u)) := fun u =>
        (noteCount_blocks k u).trans (handNotice_blocks _)
      exact (h _).after rfl rfl rfl
    · exact .of_gens rfl rfl rfl

theorem issueRecord_blocks (s : State) : BlocksKept s (issueRecord s) := by
  unfold issueRecord
  split
  · split
    · exact (afterRecord_blocks _ _ _).after rfl rfl rfl
    · exact journalFault_blocks _ _ s
  · exact .of_gens rfl rfl rfl

theorem noticeStep_blocks (s : State) : BlocksKept s (noticeStep s) := by
  have h : BlocksKept s (clearedSlots s) :=
    .each (f := fun k t => State.setSlot t k ((t.slot k).atStart (s.notice.loadedMask.getLsbD k.val)))
      (fun k t => .of_gens rfl rfl rfl) _ _
  rw [noticeStep_eq]
  generalize clearedSlots s = u at h ⊢
  exact h.andThen rfl rfl rfl

theorem issueEngineWrite_blocks (w : EngineWrite) (s : State) : BlocksKept s (issueEngineWrite w s) := by
  have h : BlocksKept s (engineWriteTaken (issueWrite (engineWriteOf s w) s)) := .of_gens rfl rfl rfl
  rw [issueEngineWrite_eq]
  split
  · exact h.trans (noticeStep_blocks _)
  · exact h

/-- A write of the status writer about no lane. -/
def StatusItem.aboutNoLane : StatusItem → Bool
  | .laneStatus _ => false
  | .retireOwner _ => false
  | _ => true

theorem issueStatus_blocks (it : StatusItem) (s : State) (h : it.aboutNoLane = true) : BlocksKept s (issueStatus it s) := by
  cases it with
  | laneStatus n => cases h
  | retireOwner n => cases h
  | journalStatus => exact issueJournalStatus_blocks s
  | genStatus g => exact issueGenStatus_blocks g s
  | retireSummary n => exact issueRetireSummary_blocks n s
  | closeSummary => exact issueCloseSummary_blocks s
  | closeOwner => exact issueCloseOwner_blocks s
  | noticeDetails k => exact issueNoticeDetails_blocks k s
  | noticeCount k => exact issueNoticeCount_blocks k s

theorem afterWrite_blocks (w : Write) (s : State) : BlocksKept s (afterWrite w s) := by
  unfold afterWrite; dsimp only
  split <;> split <;> exact .of_gens rfl rfl rfl

theorem failWrite_blocks (w : Write) (s : State) : BlocksKept s (failWrite w s) := by
  unfold failWrite; dsimp only; split <;> exact .of_gens rfl rfl rfl

end Sys2Proof.Machine
end

