-- ==== Sys2Proof/Proofs/LaneBounds.lean ====
section
/-!
THEOREM. Every step keeps each lane within its bounds: 16 cues queued or reserved, 17 pages with a header read only below
that, and one read at a time (R32, R35, R36). Most operations leave a lane calmer; what presents or issues a read looks at
the room first.
-/

namespace Sys2Proof.Machine

/-! ## One lane -/

/-- The bounds of one lane, one by one. -/
structure Lane.Fits (l : Lane) : Prop where
  cues : l.queue.length + l.reserved ≤ 16
  pages : l.pages.length ≤ 17
  header : l.readsHeader = true → l.pages.length < 17
  single : l.request = none ∨ l.awaitsNothing = true

theorem Lane.bounded_iff (l : Lane) : l.bounded = true ↔ l.Fits := by
  simp only [Lane.bounded, Bool.and_eq_true, Bool.or_eq_true,
    decide_eq_true_eq, Bool.not_eq_true', Option.isNone_iff_eq_none]
  constructor
  · rintro ⟨⟨⟨hq, hp⟩, hh⟩, hs⟩
    exact ⟨hq, hp, fun h => hh.resolve_left (by simp [h]), hs⟩
  · rintro ⟨hq, hp, hh, hs⟩
    refine ⟨⟨⟨hq, hp⟩, ?_⟩, hs⟩
    cases h : l.readsHeader
    · exact Or.inl rfl
    · exact Or.inr (hh h)

/-- A lane that holds no more cues and pages than before and presents and awaits no read that it did not. -/
structure Lane.Calmer (l m : Lane) : Prop where
  cues : m.queue.length + m.reserved ≤ l.queue.length + l.reserved
  pages : m.pages.length ≤ l.pages.length
  request : m.request = l.request ∨ m.request = none
  flight : m.flight = l.flight ∨ m.awaitsNothing = true

theorem Lane.awaitsNothing_congr {l m : Lane} (h : m.flight = l.flight) : m.awaitsNothing = l.awaitsNothing := by
  unfold Lane.awaitsNothing; rw [h]

theorem Lane.awaitsNothing_of_discarded {l : Lane} {f : Option (Flight FetchRead)}
    (h : l.flight = f.map Flight.discarded) : l.awaitsNothing = true := by
  unfold Lane.awaitsNothing; rw [h]
  cases f <;> rfl

theorem Lane.awaitsNothing_of_none {l : Lane} (h : l.flight = none) : l.awaitsNothing = true := by
  unfold Lane.awaitsNothing; rw [h]

/-- A lane reads a header where the read is presented or where its answer is awaited. -/
theorem Lane.readsHeader_iff (l : Lane) :
    l.readsHeader = true ↔ l.request = some .header ∨ ∃ f, l.flight = some f ∧ f.kind = .header ∧ f.discard = false := by
  unfold Lane.readsHeader
  cases hf : l.flight <;> simp

theorem Lane.not_awaitsNothing {l : Lane} {f : Flight FetchRead} (hf : l.flight = some f) (hd : f.discard = false) :
    l.awaitsNothing = false := by
  unfold Lane.awaitsNothing; rw [hf]; exact hd

theorem Lane.Calmer.refl (l : Lane) : l.Calmer l := ⟨Nat.le_refl _, Nat.le_refl _, Or.inl rfl, Or.inl rfl⟩

theorem Lane.Calmer.trans {l m k : Lane} (h : l.Calmer m) (h' : m.Calmer k) : l.Calmer k where
  cues := Nat.le_trans h'.cues h.cues
  pages := Nat.le_trans h'.pages h.pages
  request := by
    rcases h'.request with e | e
    · rw [e]; exact h.request
    · exact Or.inr e
  flight := by
    rcases h'.flight with e | e
    · rw [Lane.awaitsNothing_congr e, e]; exact h.flight
    · exact Or.inr e

theorem Lane.Calmer.awaitsNothing {l m : Lane} (h : l.Calmer m) (ha : l.awaitsNothing = true) : m.awaitsNothing = true := by
  rcases h.flight with e | e
  · rw [Lane.awaitsNothing_congr e, ha]
  · exact e

theorem Lane.Fits.calmer {l m : Lane} (hl : l.Fits) (h : l.Calmer m) : m.Fits where
  cues := Nat.le_trans h.cues hl.cues
  pages := Nat.le_trans h.pages hl.pages
  header := fun hm => by
    refine Nat.lt_of_le_of_lt h.pages (hl.header ?_)
    rw [Lane.readsHeader_iff] at hm ⊢
    rcases hm with e | ⟨f, hf, hk, hd⟩
    · rcases h.request with e' | e'
      · exact Or.inl (e' ▸ e)
      · rw [e'] at e; cases e
    · rcases h.flight with e' | e'
      · exact Or.inr ⟨f, e' ▸ hf, hk, hd⟩
      · rw [Lane.not_awaitsNothing hf hd] at e'; cases e'
  single := by
    rcases h.request with e | e
    · rw [e]; exact hl.single.imp_right h.awaitsNothing
    · exact Or.inl e

/-- A lane that awaits no read may present one, a header read only with room in its page list. -/
theorem Lane.Fits.present {l : Lane} (hl : l.Fits) (ha : l.awaitsNothing = true) (r : FetchRead)
    (hr : r = .header → l.pages.length < 17) : Lane.Fits { l with request := some r } where
  cues := hl.cues
  pages := hl.pages
  header := fun hm => by
    rw [Lane.readsHeader_iff] at hm
    rcases hm with e | ⟨f, hf, _, hd⟩
    · exact hr (Option.some.inj e)
    · have hl' := Lane.not_awaitsNothing (l := l) hf hd
      rw [ha] at hl'; cases hl'
  single := Or.inr ha

/-! ## The fetcher's operations on its lane -/

theorem onLast_length (f : PageEntry → PageEntry) : ∀ ps, (onLast f ps).length = ps.length
  | [] => rfl
  | [_] => rfl
  | _ :: q :: rest => congrArg Nat.succ (onLast_length f (q :: rest))

theorem onFirstOpen_length (f : PageEntry → PageEntry) : ∀ ps, (onFirstOpen f ps).length = ps.length
  | [] => rfl
  | p :: rest => by
    unfold onFirstOpen
    split
    · rfl
    · exact congrArg Nat.succ (onFirstOpen_length f rest)

/-- A lane whose new value differs only in fields that no bound is about. -/
theorem Lane.Calmer.of_eq {l m : Lane} (hq : m.queue = l.queue) (hv : m.reserved = l.reserved) (hp : m.pages = l.pages)
    (hr : m.request = l.request) (hf : m.flight = l.flight) : l.Calmer m :=
  ⟨by rw [hq, hv], by rw [hp], Or.inl hr, Or.inl hf⟩

theorem setStall_calmer (n : LaneNo) (st : Stall) (s : State) : (s.lane n).Calmer ((setStall n st s).lane n) := by
  rw [setStall_self]; exact .of_eq rfl rfl rfl rfl rfl

theorem laneFault_calmer (n : LaneNo) (c : FaultCode) (a : Addr) (s : State) :
    (s.lane n).Calmer ((laneFault n c a s).lane n) := by
  rw [laneFault_self]
  exact ⟨Nat.zero_le _, (List.length_map _).le, Or.inr rfl, Or.inr (Lane.awaitsNothing_of_discarded rfl)⟩

theorem fetchFault_calmer (n : LaneNo) (c : FaultCode) (a : Addr) (s : State) :
    (s.lane n).Calmer ((fetchFault n c a s).lane n) := by
  by_cases h : (s.lane n).state = .starved
  · rw [fetchFault_starved s n c a h]
    refine Lane.Calmer.trans ?_ (laneFault_calmer n c a _)
    rw [setStall_self, lane_setLane_self]
    exact ⟨Nat.le_refl _, Nat.le_refl _, Or.inr rfl, Or.inl rfl⟩
  · rw [fetchFault_self s n c a h]
    exact ⟨Nat.le_refl _, Nat.le_refl _, Or.inr rfl, Or.inl rfl⟩

theorem presentFetch_fits (n : LaneNo) (r : FetchRead) {s : State} (hs : (s.lane n).Fits)
    (ha : (s.lane n).awaitsNothing = true) (hr : r = .header → (s.lane n).pages.length < 17) :
    ((presentFetch n r s).lane n).Fits := by
  rw [presentFetch_self]; exact hs.present ha r hr

theorem presentHeader_fits (n : LaneNo) {s : State} (hs : (s.lane n).Fits) (ha : (s.lane n).awaitsNothing = true) :
    ((presentHeader n s).lane n).Fits := by
  unfold presentHeader; dsimp only
  split
  · rename_i hp
    split
    · exact presentFetch_fits n .header hs ha fun _ => hp
    · exact hs.calmer (fetchFault_calmer n _ _ s)
  · exact hs

theorem Lane.noRead_awaitsNothing {l : Lane} (h : l.noRead = true) : l.awaitsNothing = true := by
  obtain ⟨_, hf⟩ := Bool.and_eq_true_iff.mp h
  exact hf

theorem Lane.walking_awaitsNothing {l : Lane} (h : l.walking = true) : l.awaitsNothing = true := by
  obtain ⟨_, hr⟩ := Bool.and_eq_true_iff.mp h
  exact Lane.noRead_awaitsNothing hr

theorem presentBurst_fits (n : LaneNo) {s : State} (hs : (s.lane n).Fits) : ((presentBurst n s).lane n).Fits := by
  unfold presentBurst; dsimp only
  split
  · rename_i hw
    obtain ⟨hw, _⟩ := Bool.and_eq_true_iff.mp hw
    obtain ⟨hw, _⟩ := Bool.and_eq_true_iff.mp hw
    split
    · exact presentFetch_fits n .burst hs (Lane.walking_awaitsNothing hw) nofun
    · exact hs.calmer (fetchFault_calmer n _ _ s)
  · exact hs

theorem presentLink_fits (n : LaneNo) {s : State} (hs : (s.lane n).Fits) (ha : (s.lane n).awaitsNothing = true) :
    ((presentLink n s).lane n).Fits := by
  unfold presentLink; dsimp only
  split
  · exact presentFetch_fits n .link hs ha nofun
  · exact hs.calmer (fetchFault_calmer n _ _ s)

theorem goToHeader_fits (n : LaneNo) (a : Addr) {s : State} (hs : (s.lane n).Fits)
    (ha : (s.lane n).awaitsNothing = true) : ((goToHeader n a s).lane n).Fits := by
  have hc : (s.lane n).Calmer ((setStall n .none (s.setLane n { s.lane n with nextAddr := a, step := .header })).lane n) := by
    rw [setStall_self, lane_setLane_self]; exact .of_eq rfl rfl rfl rfl rfl
  exact presentHeader_fits n (hs.calmer hc) (hc.awaitsNothing ha)

theorem judgeHead_fits (n : LaneNo) (a : Addr) {s : State} (hs : (s.lane n).Fits)
    (ha : (s.lane n).awaitsNothing = true) : ((judgeHead n a s).lane n).Fits := by
  unfold judgeHead
  split
  · exact hs.calmer (setStall_calmer n _ s)
  · split
    · exact hs.calmer (fetchFault_calmer n _ _ s)
    · exact goToHeader_fits n a hs ha

theorem judgeLink_fits (n : LaneNo) (a : Addr) {s : State} (hs : (s.lane n).Fits)
    (ha : (s.lane n).awaitsNothing = true) : ((judgeLink n a s).lane n).Fits := by
  unfold judgeLink
  split
  · exact hs.calmer (setStall_calmer n _ s)
  · split
    · exact hs.calmer (fetchFault_calmer n _ _ s)
    · exact goToHeader_fits n a hs ha

theorem startFetcher_fits (n : LaneNo) {s : State} (hs : (s.lane n).Fits) : ((startFetcher n s).lane n).Fits := by
  have ha : (s.lane n).fetcherStarted.awaitsNothing = true := Lane.awaitsNothing_of_discarded rfl
  have hc : (s.lane n).Calmer ((s.setLane n (s.lane n).fetcherStarted).lane n) := by
    rw [lane_setLane_self]
    exact ⟨Nat.le_refl _, Nat.le_refl _, Or.inr rfl, Or.inr ha⟩
  exact judgeHead_fits n _ (hs.calmer hc) (by rw [lane_setLane_self]; exact ha)

/-- A page is taken only in answer to a header read, which needs room for it, and with no other read under way. -/
theorem takePage_fits (n : LaneNo) (h : BitVec 256) {s : State} (hs : (s.lane n).Fits)
    (hp : (s.lane n).pages.length < 17) (hr : (s.lane n).request = none) (ha : (s.lane n).awaitsNothing = true) :
    ((takePage n h s).lane n).Fits := by
  unfold takePage; dsimp only
  refine presentBurst_fits n (Lane.Fits.calmer ?_ (setStall_calmer n _ _))
  rw [lane_setLane_self]
  refine ⟨hs.cues, by simpa using hp, fun hm => ?_, Or.inl hr⟩
  rw [Lane.readsHeader_iff] at hm
  rcases hm with e | ⟨f, hf, _, hd⟩
  · rw [hr] at e; cases e
  · have hn := Lane.not_awaitsNothing (l := s.lane n) hf hd
    rw [ha] at hn; cases hn

theorem judgeHeader_fits (n : LaneNo) (h : BitVec 256) {s : State} (hs : (s.lane n).Fits)
    (hp : (s.lane n).pages.length < 17) (hr : (s.lane n).request = none) (ha : (s.lane n).awaitsNothing = true) :
    ((judgeHeader n h s).lane n).Fits := by
  unfold judgeHeader; dsimp only
  split
  · exact takePage_fits n h hs hp hr ha
  · split
    · exact hs.calmer (setStall_calmer n _ s)
    · exact hs.calmer (fetchFault_calmer n _ _ s)

theorem queueBurst_calmer (n : LaneNo) (cues : List (BitVec 256)) (s : State)
    (h : cues.length = (s.lane n).reserved) : (s.lane n).Calmer ((queueBurst n cues s).lane n) := by
  unfold queueBurst; dsimp only
  rw [lane_setLane_self]
  exact ⟨by simp [h], (onLast_length _ _).le, Or.inl rfl, Or.inl rfl⟩

theorem fetchOn_fits (n : LaneNo) {s : State} (hs : (s.lane n).Fits) (ha : (s.lane n).awaitsNothing = true) :
    ((fetchOn n s).lane n).Fits := by
  unfold fetchOn; dsimp only
  split
  · exact presentBurst_fits n hs
  · exact presentLink_fits n (by rw [lane_setLane_self]; exact hs.calmer (.of_eq rfl rfl rfl rfl rfl))
      (by rw [lane_setLane_self]; exact ha)

theorem surveyFetcher_fits (n : LaneNo) {s : State} (hs : (s.lane n).Fits) : ((surveyFetcher n s).lane n).Fits := by
  unfold surveyFetcher; dsimp only
  split
  · rename_i h
    have ha := Lane.noRead_awaitsNothing (Bool.and_eq_true_iff.mp h).2
    split
    · exact presentFetch_fits n .headField hs ha nofun
    · exact presentLink_fits n hs ha
    · exact presentHeader_fits n hs ha
    · exact hs
    · exact hs
  · exact hs

/-! ## All lanes -/

/-- Every lane is within its bounds. -/
def LanesFit (s : State) : Prop := ∀ n, (s.lane n).Fits

theorem lanesBounded_iff (s : State) : lanesBounded s = true ↔ LanesFit s := by
  unfold lanesBounded LanesFit
  rw [List.all_eq_true]
  exact ⟨fun h n => (Lane.bounded_iff _).mp (h n (mem_allLanes n)), fun h n _ => (Lane.bounded_iff _).mpr (h n)⟩

theorem LanesFit.of_lanes {s t : State} (hs : LanesFit s) (h : t.lanes = s.lanes) : LanesFit t := by
  intro n
  have hn : t.lane n = s.lane n := congrArg (fun v => v[n]) h
  rw [hn]; exact hs n

/-- An operation on one lane. -/
theorem LanesFit.one {s t : State} (n : LaneNo) (hs : LanesFit s) (ho : ∀ m, n ≠ m → t.lane m = s.lane m)
    (hn : (t.lane n).Fits) : LanesFit t := by
  intro m
  by_cases h : n = m
  · exact h ▸ hn
  · rw [ho m h]; exact hs m

theorem LanesFit.calmer {s t : State} (n : LaneNo) (hs : LanesFit s) (ho : ∀ m, n ≠ m → t.lane m = s.lane m)
    (hn : (s.lane n).Calmer (t.lane n)) : LanesFit t := hs.one n ho ((hs n).calmer hn)

theorem LanesFit.setLane {s : State} (n : LaneNo) {l : Lane} (hs : LanesFit s) (h : (s.lane n).Calmer l) :
    LanesFit (s.setLane n l) :=
  hs.calmer n (fun _ hm => lane_setLane_ne s hm l) (by rw [lane_setLane_self]; exact h)

theorem LanesFit.each {α : Type} {f : α → State → State} (h : ∀ x s, LanesFit s → LanesFit (f x s)) (xs : List α)
    {s : State} (hs : LanesFit s) : LanesFit (State.each xs f s) := each_induct LanesFit h xs s hs

/-! ## The run of the lanes -/

theorem countCue_calmer (n : LaneNo) (f : Finish) (s : State) : (s.lane n).Calmer ((countCue n f s).lane n) := by
  obtain ⟨x, hx⟩ := countCue_self s n f
  rw [hx]
  refine ⟨?_, (onFirstOpen_length _ _).le, Or.inl rfl, Or.inl rfl⟩
  simp [Lane.finished]

theorem retireFinished_calmer (n : LaneNo) (s : State) : (s.lane n).Calmer ((retireFinished n s).lane n) := by
  unfold retireFinished; dsimp only
  split
  · exact .refl _
  · split
    · rw [handWrites_lane, lane_setLane_self]
      exact ⟨Nat.le_refl _, (onFirstOpen_length _ _).le, Or.inl rfl, Or.inl rfl⟩
    · exact .refl _

theorem LanesFit.finishCue {s : State} (hs : LanesFit s) (n : LaneNo) (f : Finish) : LanesFit (finishCue n f s) :=
  hs.one n (fun _ hm => finishCue_other s n f hm)
    (presentBurst_fits n ((hs n).calmer ((countCue_calmer n f s).trans (retireFinished_calmer n _))))

theorem LanesFit.laneFault {s : State} (hs : LanesFit s) (n : LaneNo) (c : FaultCode) (a : Addr) :
    LanesFit (laneFault n c a s) :=
  hs.calmer n (fun _ hm => laneFault_other s n c a hm) (laneFault_calmer n c a s)

theorem LanesFit.cueFault {s : State} (hs : LanesFit s) (n : LaneNo) (c : FaultCode) : LanesFit (cueFault n c s).state :=
  hs.laneFault n c _

/-- The finish of a cue after an operation that leaves the lanes. -/
theorem LanesFit.done {s t : State} (hs : LanesFit s) (n : LaneNo) (f : Finish) (h : t.lanes = s.lanes) :
    LanesFit (Ran.done n f t).state := (hs.of_lanes h).finishCue n f

theorem LanesFit.setLaneState {s : State} (hs : LanesFit s) (n : LaneNo) (st : LaneState) :
    LanesFit (setLaneState n st s) :=
  hs.calmer n (fun _ hm => setLaneState_other s n st hm) (by rw [setLaneState_self]; exact .of_eq rfl rfl rfl rfl rfl)

theorem LanesFit.setHold {s : State} (hs : LanesFit s) (n : LaneNo) (b : Bool) : LanesFit (setHold n b s) :=
  hs.calmer n (fun _ hm => setHold_other s n b hm) (by rw [setHold_self]; exact .of_eq rfl rfl rfl rfl rfl)

theorem LanesFit.markLane {s : State} (hs : LanesFit s) (n : LaneNo) : LanesFit (markLane n s) :=
  hs.of_lanes (markLane_lanes s n)

theorem LanesFit.enterWait {s : State} (hs : LanesFit s) (n : LaneNo) (st : LaneState) (w : Wait) :
    LanesFit (enterWait n st w s) :=
  (hs.setLane n (.of_eq (m := { s.lane n with state := st, wait := w }) rfl rfl rfl rfl rfl)).markLane n

theorem LanesFit.releaseAndGrant {s : State} (hs : LanesFit s) (ks : List LineNo) :
    LanesFit (releaseAndGrant ks s).1 := by
  unfold Machine.releaseAndGrant; dsimp only
  exact LanesFit.each (fun n t ht => ht.finishCue n .executed) _ (hs.of_lanes (releaseLines_lanes _ _))

theorem ceaseLane_calmer (n : LaneNo) (st : LaneState) (s : State) : (s.lane n).Calmer ((ceaseLane n st s).lane n) := by
  rw [ceaseLane_self]
  exact ⟨Nat.zero_le _, Nat.le_refl _, Or.inr rfl, Or.inr (Lane.awaitsNothing_of_discarded rfl)⟩

theorem LanesFit.ceaseLane {s : State} (hs : LanesFit s) (n : LaneNo) (st : LaneState) : LanesFit (ceaseLane n st s) :=
  hs.calmer n (fun _ hm => ceaseLane_other s n st hm) (ceaseLane_calmer n st s)

theorem LanesFit.retirePages {s : State} (hs : LanesFit s) (n : LaneNo) (c : EndCode) : LanesFit (retirePages n c s) :=
  hs.calmer n (fun _ hm => retirePages_other s n c hm) (by
    rw [retirePages_self]; exact ⟨Nat.le_refl _, (List.length_map _).le, Or.inl rfl, Or.inl rfl⟩)

theorem LanesFit.oweException {s : State} (hs : LanesFit s) (n : LaneNo) (e : Exception) : LanesFit (oweException n e s) :=
  hs.setLane n (.of_eq rfl rfl rfl rfl rfl)

theorem LanesFit.carryEnd {s : State} (hs : LanesFit s) (n : LaneNo) : LanesFit (carryEnd n s).state := by
  unfold Machine.carryEnd; dsimp only
  have hc : LanesFit (countCue n .executed s) := hs.calmer n (fun _ hm => countCue_other s n _ hm) (countCue_calmer n _ s)
  exact (((hc.releaseAndGrant _).ceaseLane n .ended).retirePages n .ended).oweException n _

theorem LanesFit.carryClaim {s : State} (hs : LanesFit s) (n : LaneNo) (k : LineNo) (t : Half) :
    LanesFit (carryClaim n k t s).state := by
  unfold Machine.carryClaim
  split
  · exact hs.cueFault n _
  · exact hs.finishCue n _
  · exact hs.done n _ (grantLine_lanes _ _ _)
  · exact hs.cueFault n _
  · exact (hs.of_lanes (joinWaiters_lanes _ _ _ _)).enterWait n _ _

theorem LanesFit.carryOut {s : State} (hs : LanesFit s) (n : LaneNo) (a : Action) : LanesFit (carryOut n a s).state := by
  cases a with
  | nop => exact hs.finishCue n _
  | setLines mask levels =>
    show LanesFit (Ran.state (if _ then _ else _))
    split
    · exact hs.done n _ (setLineLevels_lanes _ _ _)
    · exact hs.cueFault n _
  | pulse k active width =>
    show LanesFit (Ran.state (if _ then _ else _))
    split
    · exact hs.done n _ (startPulse_lanes _ _ _ _)
    · exact hs.cueFault n _
  | wave k first d1 d2 periods =>
    show LanesFit (Ran.state (if _ then _ else _))
    split
    · exact hs.done n _ (startWave_lanes _ _ _ _ _ _)
    · exact hs.cueFault n _
  | track k g m =>
    show LanesFit (Ran.state (if _ then _ else if _ then _ else _))
    split
    · exact hs.cueFault n _
    · split
      · exact hs.cueFault n _
      · exact hs.done n _ (trackLine_lanes _ _ _ _)
  | captureOn mask => exact hs.done n _ (setCaptures_lanes _ _ _)
  | captureOff mask => exact hs.done n _ (setCaptures_lanes _ _ _)
  | mark v => exact hs.done n _ (capture_lanes _ _)
  | waitInput k e timeout continues => exact hs.enterWait n _ _
  | claim k timeout => exact hs.carryClaim n k timeout
  | release mask =>
    show LanesFit (Ran.state (if _ then _ else _))
    split
    · exact (hs.releaseAndGrant _).finishCue n _
    · exact hs.cueFault n _
  | endLane => exact hs.carryEnd n

theorem LanesFit.judgeCue {s : State} (hs : LanesFit s) (n : LaneNo) (c : Cue) : LanesFit (judgeCue n c s).state := by
  have hl : ∀ b, LanesFit (setLateRun n b s) := fun b => hs.setLane n (.of_eq rfl rfl rfl rfl rfl)
  unfold Machine.judgeCue; dsimp only
  split
  · exact (hl false).carryOut n _
  · split
    · exact (hl true).carryOut n _
    · exact hs.finishCue n _
    · exact hs.cueFault n _

theorem LanesFit.resolveCue {s : State} (hs : LanesFit s) (n : LaneNo) (c : Cue) : LanesFit (resolveCue n c s).state := by
  unfold Machine.resolveCue; dsimp only
  split
  · exact hs.cueFault n _
  · have hd : LanesFit (s.setLane n { s.lane n with
        due := resolvedDue (s.lane n).anchor c, anchor := resolvedDue (s.lane n).anchor c }) :=
      hs.setLane n (.of_eq rfl rfl rfl rfl rfl)
    split
    · exact hd.judgeCue n c
    · exact hd.setLaneState n _

theorem LanesFit.startCue {s : State} (hs : LanesFit s) (n : LaneNo) (q : QueuedCue) : LanesFit (startCue n q s).state := by
  have hn : LanesFit (s.setLane n { s.lane n with serial := (s.lane n).serial + 1, hasCurrent := true }) :=
    hs.setLane n (.of_eq rfl rfl rfl rfl rfl)
  unfold Machine.startCue; dsimp only
  split
  · exact hn.cueFault n _
  · exact hn.resolveCue n _

theorem LanesFit.starve {s : State} (hs : LanesFit s) (n : LaneNo) : LanesFit (starve n s) := by
  unfold Machine.starve; dsimp only
  split
  · exact (hs.setLaneState n _).of_lanes (post_lanes _ _ _)
  · exact hs.setLaneState n _

theorem LanesFit.takeNext {s : State} (hs : LanesFit s) (n : LaneNo) : LanesFit (takeNext n s).state := by
  unfold Machine.takeNext; dsimp only
  split
  · exact (hs.setHold n false).setLaneState n _
  · split
    · exact hs.startCue n _
    · split
      · exact hs.laneFault n _ _
      · exact hs.starve n

theorem LanesFit.runAll {s : State} (hs : LanesFit s) (work : List LaneNo) : LanesFit (runAll work s) :=
  runLanes_induct LanesFit (fun n _ ht => ht.takeNext n) (fun _ _ ht => ht) _ _ _ hs

theorem LanesFit.runAfter {n : LaneNo} {r : Ran} (hr : LanesFit r.state) : LanesFit (runAfter n r) := by
  unfold Machine.runAfter
  obtain ⟨k, hk⟩ := goOn_state n r []
  dsimp only
  rw [hk]
  exact LanesFit.runAll (s := { r.state with choices := k }) hr _

theorem LanesFit.inFreeOrder {α : Type} {s : State} (hs : LanesFit s) (xs : List α) : LanesFit (inFreeOrder xs s).2 := by
  obtain ⟨k, hk⟩ := inFreeOrder_state xs s
  rw [hk]; exact hs

theorem LanesFit.endWait {s : State} (hs : LanesFit s) (n : LaneNo) (a : Ticks) : LanesFit (endWait n a s) := by
  have ha : LanesFit (s.setLane n { s.lane n with anchor := a }) := hs.setLane n (.of_eq rfl rfl rfl rfl rfl)
  unfold Machine.endWait
  generalize s.setLane n { s.lane n with anchor := a } = t at ha ⊢
  exact LanesFit.runAfter (ha.finishCue n _)

theorem LanesFit.takeDue {s : State} (hs : LanesFit s) (n : LaneNo) : LanesFit (takeDue n s) := by
  unfold Machine.takeDue
  split
  · exact hs
  · exact LanesFit.runAfter (hs.judgeCue n _)

theorem LanesFit.expireWait {s : State} (hs : LanesFit s) (n : LaneNo) : LanesFit (expireWait n s) := by
  unfold Machine.expireWait
  split
  · exact hs
  · split
    · exact hs.endWait n _
    · exact hs.cueFault n _

theorem LanesFit.expireClaim {s : State} (hs : LanesFit s) (k : LineNo) (n : LaneNo) : LanesFit (expireClaim k n s) := by
  have hl : LanesFit (leaveWaiters k n s) := hs.of_lanes (leaveWaiters_lanes _ _ _)
  unfold Machine.expireClaim; dsimp only
  split
  · exact hl.cueFault n _
  · exact hl

theorem LanesFit.stopLane {s : State} (hs : LanesFit s) (n : LaneNo) : LanesFit (stopLane n s) := by
  unfold Machine.stopLane; dsimp only
  exact ((((hs.ceaseLane n .off).releaseAndGrant _).retirePages n .stopped).inFreeOrder _).runAll _

theorem LanesFit.runDueLanes {s : State} (hs : LanesFit s) : LanesFit (runDueLanes s) := by
  unfold Machine.runDueLanes; dsimp only
  refine LanesFit.each (fun n t ht => ?_) _ (hs.inFreeOrder _)
  split
  · exact ht.takeDue n
  · exact ht

theorem LanesFit.stepSchedule {s : State} (hs : LanesFit s) (v : Ticks) : LanesFit (stepSchedule v s) :=
  LanesFit.runDueLanes (hs.of_lanes (post_lanes _ _ _))

/-! ## Commands and events -/

theorem LanesFit.holdLane {s : State} (hs : LanesFit s) (n : LaneNo) : LanesFit (holdLane n s) := by
  unfold Machine.holdLane
  cases (s.lane n).state with
  | starved => exact hs.setLaneState n _
  | pending => exact hs.setLaneState n _
  | waitInput => exact hs.setHold n _
  | waitLine => exact hs.setHold n _
  | held => exact hs
  | off => exact hs
  | faulted => exact hs
  | ended => exact hs

theorem LanesFit.resumeLane {s : State} (hs : LanesFit s) (n : LaneNo) : LanesFit (resumeLane n s) := by
  unfold Machine.resumeLane Machine.resumeHeld; dsimp only
  split
  · split
    · split
      · exact LanesFit.runAfter (hs.judgeCue n _)
      · exact hs.setLaneState n _
    · exact LanesFit.runAfter (hs.takeNext n)
  · exact hs.setHold n _

theorem LanesFit.startFetcher {s : State} (hs : LanesFit s) (n : LaneNo) : LanesFit (startFetcher n s) :=
  hs.one n (fun _ hm => startFetcher_other s n hm) (startFetcher_fits n (hs n))

theorem LanesFit.restartLane {s : State} (hs : LanesFit s) (n : LaneNo) (c : LaneConfig) :
    LanesFit (restartLane n c s) := by
  have hr := hs.releaseAndGrant (ownedLines s n)
  unfold Machine.restartLane; dsimp only
  generalize (Machine.releaseAndGrant (ownedLines s n) s).1 = t at hr ⊢
  have hl : LanesFit (t.setLane n { (t.lane n).started t.time.schedule with config := c }) :=
    hr.setLane n (.of_eq rfl rfl rfl rfl rfl)
  generalize t.setLane n { (t.lane n).started t.time.schedule with config := c } = u at hl ⊢
  have ha : LanesFit (awaitStatus u) := hl
  exact (((ha.markLane n).startFetcher n).inFreeOrder _).runAll _

theorem LanesFit.startLane {s : State} (hs : LanesFit s) (n : LaneNo) : LanesFit (startLane n s) := by
  have hl : LanesFit (s.setLane n ((s.lane n).started s.time.schedule)) := hs.setLane n (.of_eq rfl rfl rfl rfl rfl)
  have ho : LanesFit (s.setLane n (s.lane n).leftOff) :=
    hs.setLane n ⟨Nat.zero_le _, Nat.zero_le _, Or.inr rfl, Or.inr (Lane.awaitsNothing_of_discarded rfl)⟩
  unfold Machine.startLane; dsimp only
  split
  · exact (hl.markLane n).startFetcher n
  · exact ho.markLane n

theorem inputStep_lanes (s : State) : (inputStep s).lanes = s.lanes := by
  have h : (State.each allGens startGen (State.each allLines clearDeadTime s)).lanes = s.lanes := by
    rw [each_keeps State.lanes (f := startGen) (fun g t => by simp [startGen]),
      each_keeps State.lanes (f := clearDeadTime) (fun _ _ => rfl)]
  unfold inputStep; dsimp only
  exact h

theorem driveLine_lanes (k : LineNo) (s : State) : (driveLine k s).lanes = s.lanes := by
  unfold driveLine; dsimp only; split <;> rfl

theorem startSurvey_lanes (s : State) : (startSurvey s).lanes = s.lanes := by
  unfold startSurvey; split <;> rfl

theorem completeCommand_lanes (o : CmdOutcome) (s : State) : (completeCommand o s).lanes = s.lanes := by
  unfold completeCommand; split
  · rfl
  · rw [post_lanes]

theorem LanesFit.activate {s : State} (hs : LanesFit s) : LanesFit (activate s) := by
  have hi : LanesFit (inputStep (State.each allLines driveLine s)) :=
    hs.of_lanes ((inputStep_lanes _).trans (each_keeps State.lanes driveLine_lanes _ _))
  have hl := LanesFit.each (fun n t ht => ht.startLane n) allLanes hi
  unfold Machine.activate; dsimp only
  generalize State.each allLanes Machine.startLane _ = u at hl ⊢
  refine LanesFit.of_lanes ?_ (completeCommand_lanes _ _)
  exact LanesFit.of_lanes (t := { startSurvey (startJournal u) with part := .active }) hl
    ((startSurvey_lanes _).trans (startJournal_lanes _))

theorem LanesFit.afterConfigurationRead {s : State} (hs : LanesFit s) (im : ConfigImage) :
    LanesFit (afterConfigurationRead im s) := by
  have hload : LanesFit (loadConfiguration im (storeImage im s)) := by
    have hl : LanesFit (State.each allLanes (loadLane im) (storeImage im s)) :=
      LanesFit.each (f := loadLane im) (fun n t ht => ht.setLane n (.of_eq rfl rfl rfl rfl rfl)) allLanes hs
    have h : (State.each allGens (loadGen im) (State.each allLines (loadInput im) (State.each allLines (loadLine im)
        (State.each allLanes (loadLane im) (storeImage im s))))).lanes
          = (State.each allLanes (loadLane im) (storeImage im s)).lanes := by
      rw [each_keeps State.lanes (f := loadGen im) (fun k t => by unfold loadGen; split <;> rfl),
        each_keeps State.lanes (f := loadInput im) (fun k t => by unfold loadInput; split <;> rfl),
        each_keeps State.lanes (f := loadLine im) (fun k t => by unfold loadLine; split <;> rfl)]
    have hg := hl.of_lanes h
    unfold loadConfiguration; dsimp only
    generalize State.each allGens (loadGen im) _ = u at hg ⊢
    exact hg
  unfold Machine.afterConfigurationRead
  split
  · unfold validateConfiguration
    split
    · exact hload
    · exact hs
  · exact hs

theorem quietStep_lanes (s : State) : (quietStep s).lanes = s.lanes := by
  have h : (State.each allGens ceaseGen s).lanes = s.lanes :=
    each_keeps State.lanes (f := ceaseGen) (fun _ _ => rfl) _ _
  unfold quietStep; dsimp only
  exact h

theorem LanesFit.takeStop {s : State} (hs : LanesFit s) : LanesFit (takeStop s) := by
  unfold Machine.takeStop; dsimp only
  refine LanesFit.of_lanes ?_ (beginDrain_lanes _)
  refine LanesFit.each (fun n t ht => ht.stopLane n) _ ?_
  exact LanesFit.of_lanes (s := beginCommand (.stop false) { s with part := .stopping }) hs (quietStep_lanes _)

theorem LanesFit.deliverEdge {s : State} (hs : LanesFit s) (e : AcceptedEdge) (c : Consumer) :
    LanesFit (deliverEdge e c s) := by
  unfold Machine.deliverEdge
  split
  · exact hs.of_lanes (capture_lanes _ _)
  · exact hs.of_lanes (realEdge_lanes _ _ _ _)
  · split
    · exact hs.endWait _ _
    · exact hs

theorem LanesFit.sampleInput {s : State} (hs : LanesFit s) (k : LineNo) (l : Level) : LanesFit (sampleInput k l s) := by
  unfold Machine.sampleInput
  split
  · exact hs
  · split
    · unfold filterTransition; dsimp only
      split
      · exact hs
      · unfold deliver; dsimp only
        exact LanesFit.each (fun c t ht => ht.deliverEdge _ c) _
          (LanesFit.inFreeOrder (s := (setInputLevel k l s).setInput k _) hs _)
    · exact hs

theorem reportTimeMark_lanes (t : Ticks) (s : State) : (reportTimeMark t s).lanes = s.lanes := by
  unfold reportTimeMark; split
  · exact post_lanes _ _ _
  · rfl

theorem LanesFit.sampleSync {s : State} (hs : LanesFit s) (l : Level) : LanesFit (sampleSync l s) := by
  unfold Machine.sampleSync
  split
  · exact hs
  · split
    · unfold syncEvent; dsimp only
      have hr : ∀ t r, LanesFit (reportTimeMark t (capture r (setSyncLevel l s))) := fun t r =>
        LanesFit.of_lanes (s := setSyncLevel l s) hs ((reportTimeMark_lanes _ _).trans (capture_lanes _ _))
      split
      · exact LanesFit.stepSchedule (s := setArmed false _) (hr _ _) _
      · exact hr _ _
    · exact hs

theorem LanesFit.surveyAll {s : State} (hs : LanesFit s) : LanesFit (surveyAll s) := by
  unfold Machine.surveyAll
  refine LanesFit.of_lanes ?_ (surveyJournal_lanes _)
  exact LanesFit.each (fun n t ht => ht.one n (fun _ hm => surveyFetcher_other t n hm) (surveyFetcher_fits n (ht n))) _ hs

theorem LanesFit.wakeLane {s : State} (hs : LanesFit s) (n : LaneNo) : LanesFit (wakeLane n s) := by
  unfold Machine.wakeLane
  split
  · exact LanesFit.runAfter (hs.takeNext n)
  · exact hs

/-! ## Issues -/

/-- A burst reserves no more cues than there is room for (R36). -/
theorem issueFetch_fits (n : LaneNo) (r : FetchRead) {s : State} (hs : (s.lane n).Fits)
    (hr : (s.lane n).request = some r) : ((issueFetch n r s).lane n).Fits := by
  unfold issueFetch; dsimp only
  rw [lane_setLane_self]
  refine ⟨?_, hs.pages, fun hm => hs.header ?_, Or.inl rfl⟩
  · have hq := hs.cues
    have hb : (s.lane n).burstSize ≤ 16 - (s.lane n).queue.length - (s.lane n).reserved :=
      Nat.le_trans (Nat.min_le_right _ _) (Nat.min_le_right _ _)
    dsimp only
    split <;> omega
  · rw [Lane.readsHeader_iff] at hm ⊢
    rcases hm with e | ⟨f, hf, hk, _⟩
    · cases e
    · obtain rfl := Option.some.inj hf
      exact Or.inl (hr.trans (congrArg some hk))

theorem LanesFit.issueFetch {s : State} (hs : LanesFit s) (n : LaneNo) (r : FetchRead)
    (hr : (s.lane n).request = some r) : LanesFit (issueFetch n r s) :=
  hs.one n (fun _ hm => lane_setLane_ne _ hm _) (issueFetch_fits n r (hs n) hr)

theorem LanesFit.posts {α : Type} {s : State} (hs : LanesFit s) (k : SlotNo) (d : α → Details) (xs : List α) :
    LanesFit (State.each xs (fun x => post k (d x)) s) :=
  LanesFit.each (fun _ _ ht => ht.of_lanes (post_lanes _ _ _)) xs hs

theorem LanesFit.issueLaneStatus {s : State} (hs : LanesFit s) (n : LaneNo) : LanesFit (issueLaneStatus n s) := by
  unfold Machine.issueLaneStatus; dsimp only
  have h := hs.of_lanes
    (issueStatusRecord_blocks (.laneStatus n) (laneStatusOffset n) ((s.lane n).statusBytes s.time.schedule) s).lanes
  generalize issueStatusRecord _ _ _ s = u at h ⊢
  have hl : LanesFit (u.setLane n { u.lane n with exceptions := [] }) := h.setLane n (.of_eq rfl rfl rfl rfl rfl)
  exact hl.posts _ _ _

theorem LanesFit.presentWaitingHeader {s : State} (hs : LanesFit s) (n : LaneNo) :
    LanesFit (presentWaitingHeader n s) := by
  unfold Machine.presentWaitingHeader
  split
  · rename_i h
    have ha := Lane.walking_awaitsNothing (Bool.and_eq_true_iff.mp h).1
    exact hs.one n (fun _ hm => presentHeader_other s n hm) (presentHeader_fits n (hs n) ha)
  · exact hs

theorem LanesFit.issueRetireOwner {s : State} (hs : LanesFit s) (n : LaneNo) : LanesFit (issueRetireOwner n s) := by
  unfold Machine.issueRetireOwner
  split
  · exact hs
  · rename_i p rest _
    have hr : LanesFit ((issueWrite (dataWrite p.addr ownerDoneBytes) s).setLane n
        (((issueWrite (dataWrite p.addr ownerDoneBytes) s).lane n).pageRetired p)) :=
      LanesFit.setLane (s := issueWrite _ s) n hs
        ⟨Nat.le_refl _, by simp [Lane.pageRetired], Or.inl rfl, Or.inl rfl⟩
    dsimp only
    refine LanesFit.presentWaitingHeader ?_ n
    split
    · exact hr.of_lanes (postProgress_lanes _ _)
    · exact hr

theorem LanesFit.issueStatus {s : State} (hs : LanesFit s) (it : StatusItem) : LanesFit (issueStatus it s) := by
  by_cases h : it.aboutNoLane = true
  · exact hs.of_lanes (issueStatus_blocks it s h).lanes
  · cases it with
    | laneStatus n => exact hs.issueLaneStatus n
    | retireOwner n => exact hs.issueRetireOwner n
    | _ => exact absurd rfl h

theorem fetchWaiting_some {s : State} {m n : LaneNo} {k : FetchRead} (h : fetchWaiting s m = some (.fetch n k)) :
    (s.lane n).request = some k := by
  unfold fetchWaiting at h
  dsimp only at h
  split at h
  · cases h
  · obtain ⟨k', hk', he⟩ := Option.map_eq_some_iff.mp h
    cases he
    exact hk'

/-- A fetcher's waiting access is the read that its lane presents (R169). -/
theorem waiting_fetch {s : State} {r : Requester} {n : LaneNo} {k : FetchRead}
    (h : waiting s r = some (.fetch n k)) : (s.lane n).request = some k := by
  cases r with
  | fetcher m => exact fetchWaiting_some h
  | journal =>
    simp only [waiting, journalWaiting] at h
    grind
  | statusWriter =>
    obtain ⟨_, _, he⟩ := Option.map_eq_some_iff.mp h
    cases he
  | engine =>
    simp only [waiting, engineWaiting] at h
    grind

theorem LanesFit.serve {s : State} (hs : LanesFit s) : LanesFit (serve s) := by
  rcases serve_cases s with h | ⟨r, a, hw, _, h⟩
  · rw [h]; exact hs
  · rw [h]
    have hu : LanesFit (setServed r s) := hs
    cases a with
    | fetch n k => exact LanesFit.issueFetch (s := setServed r s) hs n k (waiting_fetch hw)
    | journalRead k => exact hs
    | record => exact hu.of_lanes (issueRecord_blocks _).lanes
    | status it => exact LanesFit.issueStatus (s := { setServed r s with handed := (setServed r s).handed.tail }) hs it
    | engineRead k => exact hs
    | engineWrite w => exact hu.of_lanes (issueEngineWrite_blocks w _).lanes

theorem LanesFit.advanceFlights {s : State} (hs : LanesFit s) : LanesFit (advanceFlights s) := by
  have h : LanesFit (State.each allLanes
      (fun n t => t.setLane n { t.lane n with flight := (t.lane n).flight.map Flight.advance }) s) := by
    refine LanesFit.each (fun n t ht => ht.one n (fun _ hm => lane_setLane_ne _ hm _) ?_) _ hs
    rw [lane_setLane_self]
    have hf := ht n
    refine ⟨hf.cues, hf.pages, fun hm => hf.header ?_, hf.single.imp_right fun ha => ?_⟩
    · rw [Lane.readsHeader_iff] at hm ⊢
      rcases hm with e | ⟨f, hfl, hk, hd⟩
      · exact Or.inl e
      · obtain ⟨f', hf', rfl⟩ := Option.map_eq_some_iff.mp hfl
        exact Or.inr ⟨f', hf', hk, hd⟩
    · unfold Lane.awaitsNothing at ha ⊢
      dsimp only
      cases hfl : (t.lane n).flight with
      | none => rfl
      | some f => rw [hfl] at ha; exact ha
  unfold Machine.advanceFlights; dsimp only
  generalize State.each allLanes _ s = u at h ⊢
  exact h

theorem LanesFit.completeWrite {s : State} (hs : LanesFit s) : LanesFit (completeWrite s) := by
  unfold Machine.completeWrite
  split
  · exact hs
  · split
    · exact hs
    · rename_i w rest _
      refine LanesFit.of_lanes (LanesFit.advanceFlights ?_) (afterWrite_blocks _ _).lanes
      exact hs

theorem LanesFit.enterFailed {s : State} (hs : LanesFit s) : LanesFit (enterFailed s) := by
  have hl : LanesFit (State.each allLines takeFaultAction s) :=
    hs.of_lanes (each_keeps State.lanes (fun k t => takeFaultAction_lanes t k) _ _)
  unfold Machine.enterFailed; dsimp only
  generalize State.each allLines takeFaultAction s = u at hl ⊢
  have h : LanesFit (State.each allLanes (fun n t => t.setLane n (t.lane n).failed) u) :=
    LanesFit.each (f := fun n t => State.setLane t n (t.lane n).failed) (fun n t ht => ht.setLane n
      ⟨Nat.add_le_add_left (Nat.zero_le _) _, Nat.le_refl _, Or.inr rfl, Or.inr rfl⟩) _ hl
  generalize State.each allLanes _ u = v at h ⊢
  exact h

theorem LanesFit.errorWrite {s : State} (hs : LanesFit s) : LanesFit (errorWrite s) := by
  unfold Machine.errorWrite
  split
  · exact LanesFit.of_lanes hs (failWrite_blocks _ _).lanes
  · split
    · exact hs
    · exact (hs.of_lanes (failWrite_blocks _ _).lanes).enterFailed

theorem floatStep_lanes (s : State) : (floatStep s).lanes = s.lanes := by
  have h : (State.each allGens floatGen (State.each allLines floatLine s)).lanes = s.lanes := by
    rw [each_keeps State.lanes (f := floatGen) (fun _ _ => rfl), each_keeps State.lanes (f := floatLine) (fun _ _ => rfl)]
  unfold floatStep; dsimp only
  generalize State.each allGens floatGen _ = u at h ⊢
  rw [completeCommand_lanes]
  exact h

/-! ## Answers to the fetcher -/

theorem LanesFit.clearFetch {s : State} (hs : LanesFit s) (n : LaneNo) : LanesFit (clearFetch n s) :=
  hs.setLane n ⟨Nat.le_refl _, Nat.le_refl _, Or.inl rfl, Or.inr rfl⟩

theorem clearFetch_awaitsNothing (n : LaneNo) (s : State) : ((clearFetch n s).lane n).awaitsNothing = true := by
  unfold clearFetch; rw [lane_setLane_self]; rfl

theorem LanesFit.headFieldRead {s : State} (hs : LanesFit s) (n : LaneNo) (a : Addr)
    (ha : (s.lane n).awaitsNothing = true) : LanesFit (headFieldRead n a s) := by
  have hc : LanesFit (s.setLane n { s.lane n with config := { (s.lane n).config with head := a } }) :=
    hs.setLane n (.of_eq rfl rfl rfl rfl rfl)
  refine hc.one n (fun _ hm => judgeHead_other _ n a hm) (judgeHead_fits n a (hc n) ?_)
  rw [lane_setLane_self]; exact ha

/-- A header that is awaited had room in the page list, and no other read was presented. -/
theorem LanesFit.headerRead {s : State} (hs : LanesFit s) (n : LaneNo) (d : BitVec 256) (h : FetchAnswered s n .header) :
    LanesFit (judgeHeader n d (Machine.clearFetch n s)) := by
  obtain ⟨f, hf, hd, hk, _⟩ := h
  have hp : (s.lane n).pages.length < 17 := (hs n).header ((Lane.readsHeader_iff _).mpr (Or.inr ⟨f, hf, hk, hd⟩))
  have hr : (s.lane n).request = none := (hs n).single.resolve_right (by rw [Lane.not_awaitsNothing hf hd]; simp)
  refine (hs.clearFetch n).one n (fun _ hm => judgeHeader_other _ n d hm)
    (judgeHeader_fits n d (hs.clearFetch n n) ?_ ?_ (clearFetch_awaitsNothing n s))
  · unfold Machine.clearFetch; rw [lane_setLane_self]; exact hp
  · unfold Machine.clearFetch; rw [lane_setLane_self]; exact hr

theorem LanesFit.burstRead {s : State} (hs : LanesFit s) (n : LaneNo) (cs : List (BitVec 256))
    (h : cs.length = (s.lane n).reserved) (ha : (s.lane n).awaitsNothing = true) :
    LanesFit (Machine.wakeLane n (fetchOn n (queueBurst n cs s))) := by
  have hc := queueBurst_calmer n cs s h
  have hq : LanesFit (queueBurst n cs s) := hs.calmer n (fun _ hm => queueBurst_other s n cs hm) hc
  exact (hq.one n (fun _ hm => fetchOn_other _ n hm) (fetchOn_fits n (hq n) (hc.awaitsNothing ha))).wakeLane n

theorem LanesFit.fetchErrored {s : State} (hs : LanesFit s) (n : LaneNo) (r : FetchRead) :
    LanesFit (fetchErrored n r s) := by
  have hl : LanesFit (s.setLane n { s.lane n with reserved := 0 }) :=
    hs.setLane n ⟨Nat.add_le_add_left (Nat.zero_le _) _, Nat.le_refl _, Or.inl rfl, Or.inl rfl⟩
  exact hl.calmer n (fun _ hm => fetchFault_other _ n _ _ hm) (fetchFault_calmer n _ _ _)

/-! ## Every effect -/

theorem lanesFit_reset {s : State} (h : s.lanes = Vector.replicate 4 Lane.reset) : LanesFit s := by
  have hr : Lane.reset.Fits := (Lane.bounded_iff _).mp (by decide)
  intro n
  have hn : s.lane n = Lane.reset := by simp [State.lane, h]
  rw [hn]; exact hr

theorem LanesFit.setLast {s : State} (hs : LanesFit s) (c o : Byte) (r : CmdOutcome) : LanesFit (setLast c o r s) := hs

theorem effect_lanesFit {c : Instr} {s t : State} (hs : LanesFit s) (h : Effect c s t) : LanesFit t := by
  cases h with
  | resetLow => exact lanesFit_reset rfl
  | resetHigh => exact hs
  | softReset => exact lanesFit_reset rfl
  | controlReset => exact lanesFit_reset rfl
  | control => exact hs
  | plainWrite r v => exact hs.of_lanes (writePlain_blocks r v s).lanes
  | ack v => exact hs.of_lanes (acknowledge_blocks _ _ s).lanes
  | refused => exact hs
  | start => exact hs
  | stop => exact hs.takeStop
  | laneStop b _ n => exact LanesFit.stopLane (s := awaitStatus (beginCommand (.laneStop n) s)) hs n
  | laneRestart => exact hs
  | journalRestart => exact hs
  | armAlign => exact hs
  | alignNow => exact hs
  | resurvey => exact hs.surveyAll.setLast _ _ _
  | laneHold b _ n => exact (hs.holdLane n).setLast _ _ _
  | laneResume b _ n => exact (hs.resumeLane n).setLast _ _ _
  | journalFlush => exact (hs.of_lanes (flushJournal_lanes s)).setLast _ _ _
  | disarm => exact hs
  | leftRead => exact hs
  | discardFetch _ _ n => exact hs.clearFetch n
  | discardJournal => exact hs
  | discardEngine => exact hs
  | startBadExchange => exact hs
  | startRead o bs _ im => exact LanesFit.afterConfigurationRead (s := clearEngineFlight s) hs im
  | startReadError => exact hs
  | activate => exact hs.activate
  | statusStep => exact hs.of_lanes (statusStep_blocks s).lanes
  | floatStep => exact hs.of_lanes (floatStep_lanes s)
  | complete => exact hs.of_lanes (completeCommand_lanes _ s)
  | laneRestartRead data _ n => exact LanesFit.restartLane (s := clearEngineFlight s) hs n _
  | readError => exact LanesFit.of_lanes (s := clearEngineFlight s) hs (completeCommand_lanes _ _)
  | journalRestartRead data => exact LanesFit.of_lanes (s := clearEngineFlight s) hs (restartJournal_blocks _ _).lanes
  | journalRestartReadError =>
    exact LanesFit.of_lanes (s := clearEngineFlight s) hs
      ((completeCommand_lanes _ _).trans (resumeJournal_blocks _).lanes)
  | armAlignRead data => exact LanesFit.of_lanes (s := armAt (timeOf data) (clearEngineFlight s)) hs (completeCommand_lanes _ _)
  | alignNowRead data => exact LanesFit.stepSchedule (s := awaitAlignment (clearEngineFlight s)) hs _
  | dueReached n => exact hs.takeDue n
  | waitExpired n => exact hs.expireWait n
  | claimExpired k n => exact hs.expireClaim k n
  | input k l => exact hs.sampleInput k l
  | deadTime => exact hs
  | sync l => exact hs.sampleSync l
  | pulse k => exact hs.of_lanes (endPulse_lanes s k)
  | wave k => exact hs.of_lanes (endWavePhase_lanes s k)
  | derived g => exact hs.of_lanes (emitDerivedEdge_lanes s g)
  | ofVirtual g => exact hs.of_lanes (virtualEdge_lanes s g)
  | survey => exact LanesFit.surveyAll (s := restartSurvey s) hs
  | gather => exact hs
  | flushTimer => exact hs.of_lanes (closePage_lanes _ _)
  | headField n d => exact (hs.clearFetch n).headFieldRead n d (clearFetch_awaitsNothing n s)
  | header n d _ hf => exact hs.headerRead n d hf
  | burst n cs _ _ hlen =>
    refine (hs.clearFetch n).burstRead n cs ?_ (clearFetch_awaitsNothing n s)
    rw [hlen, clearFetch, lane_setLane_self]
  | link n d =>
    exact (hs.clearFetch n).one n (fun _ hm => judgeLink_other _ n d hm)
      (judgeLink_fits n d (hs.clearFetch n n) (clearFetch_awaitsNothing n s))
  | fetchError n r => exact (hs.clearFetch n).fetchErrored n r
  | journalHead d =>
    exact LanesFit.of_lanes (s := (clearJournalFlight s).setJournal _) hs (judgeJournalHead_lanes _ _)
  | journalHeader d => exact LanesFit.of_lanes (s := clearJournalFlight s) hs (judgeJournalHeader_lanes _ _)
  | journalLink d => exact LanesFit.of_lanes (s := clearJournalFlight s) hs (judgeJournalLink_lanes _ _)
  | journalError r => exact LanesFit.of_lanes (s := clearJournalFlight s) hs (journalFault_lanes _ _ _)
  | serve => exact hs.serve
  | writeComplete => exact hs.completeWrite
  | writeError => exact hs.errorWrite

/-- Settles O59: what adds cues, pages or reads to a lane looks at its room first, and every other operation leaves the
lane calmer. -/
theorem stepKeepsTheLaneBounds : Obligations.StepKeepsTheLaneBounds := by
  intro s t hs h
  rw [lanesBounded_iff] at hs ⊢
  refine step_keeps (P := LanesFit) (fun s p k hs => hs) (fun s hs => ?_) (fun c s t hs he => effect_lanesFit hs he) hs h
  obtain ⟨_, _, ht⟩ := tick_spec s
  exact hs.of_lanes (by rw [ht])

end Sys2Proof.Machine
end

