-- ==== Sys2Proof/Proofs/Claims.lean ====
section
/-!
SUPPORT. The claim arbiter's tables and the generators' bindings, read as propositions, and what each operation on a lane
or a line does to them. `Claims s work` is the invariant in the middle of a run: the lanes of `work` are about to take their
next cues and stand in no waiter list; every other lane agrees with the lists.
-/

namespace Sys2Proof.Machine

/-! ## Lines -/

/-- The claims of one line (R91 to R94). -/
structure OutLine.Sound (x : OutLine) : Prop where
  nodup : (x.waiters.map Waiter.lane).Nodup
  owner : ∀ n, x.owner = some n → x.lists n = false
  free : x.owner = none → x.waiters = []

theorem OutLine.lists_iff (x : OutLine) (n : LaneNo) : x.lists n = true ↔ n ∈ x.waiters.map Waiter.lane := by
  simp [OutLine.lists]

theorem OutLine.not_lists_iff (x : OutLine) (n : LaneNo) : x.lists n = false ↔ n ∉ x.waiters.map Waiter.lane := by
  rw [← OutLine.lists_iff, Bool.not_eq_true]

theorem OutLine.lists_congr {x y : OutLine} (h : y.waiters = x.waiters) (n : LaneNo) : y.lists n = x.lists n := by
  unfold OutLine.lists; rw [h]

theorem OutLine.claimsSound_iff (x : OutLine) : x.claimsSound = true ↔ x.Sound := by
  unfold OutLine.claimsSound
  rw [Bool.and_eq_true, decide_eq_true_iff]
  cases ho : x.owner with
  | none =>
    simp only [List.isEmpty_iff]
    exact ⟨fun ⟨hn, hw⟩ => ⟨hn, by simp [ho], fun _ => hw⟩, fun h => ⟨h.nodup, h.free ho⟩⟩
  | some n =>
    simp only [Bool.not_eq_true']
    exact ⟨fun ⟨hn, hw⟩ => ⟨hn, fun m hm => by rw [ho] at hm; cases hm; exact hw, by simp [ho]⟩,
      fun h => ⟨h.nodup, h.owner n ho⟩⟩

theorem OutLine.Sound.congr {x y : OutLine} (h : x.Sound) (ho : y.owner = x.owner) (hw : y.waiters = x.waiters) :
    y.Sound :=
  ⟨hw ▸ h.nodup, fun n hn => by rw [OutLine.lists_congr hw]; exact h.owner n (ho ▸ hn), fun hn => by
    rw [hw]; exact h.free (ho ▸ hn)⟩

/-! ## Bindings -/

/-- The generator that a line in TRACK tracks. -/
def OutMode.tracked : OutMode → Option GenNo
  | .track _ g => some g
  | .float => none
  | .static _ => none
  | .pulse .. => none
  | .wave .. => none

/-- A generator is bound to a line exactly where that line is in TRACK on it (R80, R129). -/
def Bindings (s : State) : Prop := ∀ g k, (s.gen g).bound = some k ↔ (s.line k).mode.tracked = some g

theorem genBindingSound_iff (s : State) (g : GenNo) :
    genBindingSound s g = true ↔ ∀ k, (s.gen g).bound = some k → (s.line k).mode.tracked = some g := by
  unfold genBindingSound
  cases hb : (s.gen g).bound with
  | none => simp
  | some k =>
    cases hm : (s.line k).mode <;> simp [OutMode.tracked, hm]

theorem lineBindingSound_iff (s : State) (k : LineNo) :
    lineBindingSound s k = true ↔ ∀ g, (s.line k).mode.tracked = some g → (s.gen g).bound = some k := by
  unfold lineBindingSound
  cases hm : (s.line k).mode <;> simp [OutMode.tracked]

theorem bindingsSound_iff (s : State) : bindingsSound s = true ↔ Bindings s := by
  unfold bindingsSound
  rw [Bool.and_eq_true, List.all_eq_true, List.all_eq_true]
  constructor
  · rintro ⟨hg, hk⟩ g k
    exact ⟨(genBindingSound_iff s g).mp (hg g (mem_allGens g)) k, (lineBindingSound_iff s k).mp (hk k (mem_allLines k)) g⟩
  · intro h
    exact ⟨fun g _ => (genBindingSound_iff s g).mpr fun k => (h g k).mp,
      fun k _ => (lineBindingSound_iff s k).mpr fun g => (h g k).mpr⟩

theorem Bindings.congr {s t : State} (h : Bindings s) (hm : ∀ k, (t.line k).mode.tracked = (s.line k).mode.tracked)
    (hb : ∀ g, (t.gen g).bound = (s.gen g).bound) : Bindings t := by
  intro g k; rw [hm, hb]; exact h g k

theorem Bindings.of_blocks {s t : State} (h : Bindings s) (hk : t.lines = s.lines)
    (hb : ∀ g, (t.gen g).bound = (s.gen g).bound) : Bindings t :=
  h.congr (fun k => by rw [show t.line k = s.line k from congrArg (fun v => v[k]) hk]) hb

theorem unbindGen_bound (g : GenNo) (s : State) (h : GenNo) :
    ((unbindGen g s).gen h).bound = if g = h then none else (s.gen h).bound := by
  unfold unbindGen; dsimp only
  split <;> simp only [markStale_gen, gen_setGen] <;> split <;> simp_all

theorem bindGen_bound (g : GenNo) (k : LineNo) (m : Nat) (s : State) (h : GenNo) :
    ((bindGen g k m s).gen h).bound = if g = h then some k else (s.gen h).bound := by
  unfold bindGen; dsimp only
  split <;> simp only [markStale_gen, gen_setGen] <;> split <;> simp_all

/-- The end of a line's activity unbinds the generator that is bound to it (R80). -/
theorem endActivity_bound {s : State} (hs : Bindings s) (k : LineNo) (g : GenNo) :
    ((endActivity k s).gen g).bound = if (s.gen g).bound = some k then none else (s.gen g).bound := by
  have hu : (s.line k).mode.tracked = none → (endActivity k s) = s →
      ((endActivity k s).gen g).bound = if (s.gen g).bound = some k then none else (s.gen g).bound := fun hn he => by
    rw [he, if_neg]
    rw [hs g k, hn]; simp
  cases hm : (s.line k).mode with
  | float => exact hu (by rw [hm]; rfl) (by simp [endActivity, hm])
  | static l => exact hu (by rw [hm]; rfl) (by simp [endActivity, hm])
  | pulse a r e => exact hu (by rw [hm]; rfl) (by simp [endActivity, hm])
  | wave f d1 d2 p c ph e => exact hu (by rw [hm]; rfl) (by simp [endActivity, hm])
  | track l h =>
    have ht : (s.line k).mode.tracked = some h := by rw [hm]; rfl
    have hb : (s.gen h).bound = some k := (hs h k).mpr ht
    have he : endActivity k s = unbindGen h s := by simp [endActivity, hm, hb]
    rw [he, unbindGen_bound]
    by_cases hg : h = g
    · rw [if_pos hg, if_pos (hg ▸ hb)]
    · rw [if_neg hg, if_neg]
      rw [hs g k, ht]
      exact fun e => hg (Option.some.inj e)

/-- A line leaves TRACK, or was not in it (R80). -/
theorem Bindings.quieted {s t : State} (hs : Bindings s) (k : LineNo) (ht : (t.line k).mode.tracked = none)
    (ho : ∀ j, k ≠ j → (t.line j).mode = (s.line j).mode)
    (hb : ∀ g, (t.gen g).bound = if (s.gen g).bound = some k then none else (s.gen g).bound) : Bindings t := by
  intro g j
  rw [hb]
  by_cases hj : k = j
  · subst hj
    rw [ht]
    split <;> simp_all
  · rw [ho j hj, ← hs g j]
    split
    · rename_i h; rw [h]; simp [hj]
    · rfl

theorem setMode_endActivity_bindings {s : State} (hs : Bindings s) (k : LineNo) {m : OutMode} (hm : m.tracked = none) :
    Bindings (setMode k m (endActivity k s)) :=
  hs.quieted k (by rw [setMode_self]; exact hm) (fun j hj => by rw [setMode_other _ _ _ hj, endActivity_line])
    (fun g => by rw [← endActivity_bound hs k g]; rfl)

theorem driveStatic_bindings {s : State} (hs : Bindings s) (k : LineNo) (l : Level) : Bindings (driveStatic k l s) :=
  setMode_endActivity_bindings hs k rfl

theorem faultMode_tracked (a : FaultAction) (m : OutMode) : (faultMode a m).tracked = none := by
  unfold faultMode
  split
  · rfl
  · cases a <;> rfl

theorem takeFaultAction_bindings {s : State} (hs : Bindings s) (k : LineNo) : Bindings (takeFaultAction k s) :=
  setMode_endActivity_bindings hs k (faultMode_tracked _ _)

theorem startPulse_bindings {s : State} (hs : Bindings s) (k : LineNo) (a : Level) (w : BitVec 24) :
    Bindings (startPulse k a w s) := setMode_endActivity_bindings hs k rfl

theorem startWave_bindings {s : State} (hs : Bindings s) (k : LineNo) (f : Level) (d1 d2 : BitVec 24) (p : Half) :
    Bindings (startWave k f d1 d2 p s) := setMode_endActivity_bindings hs k rfl

theorem setLineLevels_bindings {s : State} (hs : Bindings s) (levels : Half) (ks : List LineNo) :
    Bindings (State.each ks (setLineLevel levels) s) :=
  each_induct Bindings (fun k _ ht => driveStatic_bindings ht k _) ks s hs

theorem faultOwnedLines_bindings {s : State} (hs : Bindings s) (n : LaneNo) : Bindings (faultOwnedLines n s) :=
  each_induct Bindings (fun k _ ht => takeFaultAction_bindings ht k) _ s hs

/-! ### TRACK -/

/-- The mode of a line that TRACK starts on (R80). -/
theorem startTrack_self (k : LineNo) (g : GenNo) (s : State) :
    ∃ l, (startTrack k g s).line k = { s.line k with mode := .track l g } := by
  unfold startTrack
  cases hm : (s.line k).mode with
  | track l h =>
    dsimp only
    split
    · rename_i e; subst e; exact ⟨l, by rw [← hm]⟩
    · exact ⟨l, by rw [setMode_self, endActivity_line]⟩
  | float => exact ⟨_, setMode_self _ _ _⟩
  | static l => exact ⟨l, setMode_self _ _ _⟩
  | pulse a r e => exact ⟨r, setMode_self _ _ _⟩
  | wave f d1 d2 p c ph e => exact ⟨_, setMode_self _ _ _⟩

theorem startTrack_other (k : LineNo) (g : GenNo) (s : State) {j : LineNo} (hj : k ≠ j) :
    (startTrack k g s).line j = s.line j := by
  unfold startTrack
  split
  · split
    · rfl
    · rw [setMode_other _ _ _ hj, endActivity_line]
  all_goals exact setMode_other _ _ _ hj

theorem startTrack_bound {s : State} (hs : Bindings s) (k : LineNo) (g : GenNo) (h : GenNo) (hg : g ≠ h) :
    ((startTrack k g s).gen h).bound = if (s.gen h).bound = some k then none else (s.gen h).bound := by
  have hu : (s.line k).mode.tracked ≠ some h → ∀ t : State, (t.gen h).bound = (s.gen h).bound →
      (t.gen h).bound = if (s.gen h).bound = some k then none else (s.gen h).bound := fun hn t he => by
    rw [he, if_neg]
    rw [hs h k]; exact hn
  unfold startTrack
  cases hm : (s.line k).mode with
  | track l g' =>
    dsimp only
    split
    · rename_i e; exact hu (by rw [hm, e]; exact fun x => hg (Option.some.inj x)) s rfl
    · exact endActivity_bound hs k h
  | float => exact hu (by rw [hm]; simp [OutMode.tracked]) _ rfl
  | static l => exact hu (by rw [hm]; simp [OutMode.tracked]) _ rfl
  | pulse a r e => exact hu (by rw [hm]; simp [OutMode.tracked]) _ rfl
  | wave f d1 d2 p c ph e => exact hu (by rw [hm]; simp [OutMode.tracked]) _ rfl

theorem trackLine_other (k : LineNo) (g : GenNo) (m : Nat) (s : State) {j : LineNo} (hj : k ≠ j) :
    (trackLine k g m s).line j = s.line j := by
  unfold trackLine; rw [bindGen_line, startTrack_other _ _ _ hj]

theorem trackLine_self (k : LineNo) (g : GenNo) (m : Nat) (s : State) :
    ∃ l, (trackLine k g m s).line k = { s.line k with mode := .track l g } := by
  unfold trackLine; rw [bindGen_line]; exact startTrack_self k g s

/-- TRACK of a generator that is bound to no other line (R129). -/
theorem trackLine_bindings {s : State} (hs : Bindings s) {k : LineNo} {g : GenNo} (m : Nat)
    (hb : boundElsewhere s g k = false) : Bindings (trackLine k g m s) := by
  have hg : ∀ j, (s.gen g).bound = some j → j = k := fun j hj => by
    simpa [boundElsewhere, hj] using hb
  obtain ⟨l, hl⟩ := trackLine_self k g m s
  intro h j
  have hbound : ((trackLine k g m s).gen h).bound =
      if g = h then some k else if (s.gen h).bound = some k then none else (s.gen h).bound := by
    unfold trackLine; rw [bindGen_bound]
    split
    · rfl
    · rename_i hgh; exact startTrack_bound hs k g h hgh
  rw [hbound]
  by_cases hj : k = j
  · subst hj
    rw [hl]
    by_cases hgh : g = h
    · simp [hgh, OutMode.tracked]
    · have : some g ≠ some h := fun e => hgh (Option.some.inj e)
      simp only [hgh, if_false, OutMode.tracked, this, iff_false]
      split <;> simp_all
  · rw [trackLine_other _ _ _ _ hj]
    by_cases hgh : g = h
    · subst hgh
      rw [if_pos rfl, ← hs g j]
      exact ⟨fun e => absurd (Option.some.inj e) hj, fun e => absurd (hg j e).symm hj⟩
    · rw [if_neg hgh, ← hs h j]
      split
      · rename_i e; rw [e]; simp [hj]
      · rfl

end Sys2Proof.Machine
end

