-- ==== Sys2Proof/Proofs/ClaimRuns.lean ====
section
/-!
SUPPORT. A run of lanes keeps the claims and the bindings sound: each micro-step of a lane that stands in no waiter list
drives its own lines, lets it wait or releases lines to waiting lanes, and takes a cue off a queue for every lane that goes
on, so that the fuel of the run lasts until all lanes rest (R8, R91 to R95, log 11).
-/

namespace Sys2Proof.Machine

/-! ## The invariant -/

/-- A lane has no entry in any waiter list. -/
def Unlisted (s : State) (n : LaneNo) : Prop := ∀ k, (s.line k).lists n = false

/-- A lane has an entry in the list of one line; outside FAILED its wait names it and its CLAIM cue is queued (R92). -/
structure WaitsOn (s : State) (n : LaneNo) (k : LineNo) : Prop where
  lists : ∀ j, (s.line j).lists n = true ↔ j = k
  cue : s.part = .failed ∨ (s.lane n).wait = .claim k ∧ (s.lane n).queue ≠ []

/-- A lane in WAIT_LINE waits on one line, and a lane in another state on none. -/
structure LaneClaim (s : State) (n : LaneNo) : Prop where
  rests : (s.lane n).state ≠ .waitLine → Unlisted s n
  waits : (s.lane n).state = .waitLine → ∃ k, WaitsOn s n k

/-- The invariant in the middle of a run: the lanes about to take their next cues stand in no waiter list; where `tied` holds,
the bindings are sound too. -/
structure Claims (tied : Prop) (s : State) (work : List LaneNo) : Prop where
  lines : ∀ k, (s.line k).Sound
  working : ∀ n ∈ work, Unlisted s n
  resting : ∀ n, n ∉ work → LaneClaim s n
  bindings : tied → Bindings s

variable {tied : Prop}

theorem mem_linesListing (s : State) (n : LaneNo) (k : LineNo) : k ∈ linesListing s n ↔ (s.line k).lists n = true := by
  simp [linesListing, mem_allLines]

theorem linesListing_nil_iff (s : State) (n : LaneNo) : linesListing s n = [] ↔ Unlisted s n := by
  rw [List.eq_nil_iff_forall_not_mem]
  simp only [mem_linesListing, Bool.not_eq_true, Unlisted]

theorem linesListing_singleton_iff (s : State) (n : LaneNo) (k : LineNo) :
    linesListing s n = [k] ↔ ∀ j, (s.line j).lists n = true ↔ j = k := by
  constructor
  · intro h j
    rw [← mem_linesListing, h, List.mem_singleton]
  · intro h
    have hn : (linesListing s n).Nodup := nodup_allLines.filter _
    have hm : ∀ j, j ∈ linesListing s n ↔ j = k := fun j => by rw [mem_linesListing, h]
    refine List.perm_singleton.mp ((List.perm_ext_iff_of_nodup hn (List.nodup_singleton k)).mpr fun j => ?_)
    rw [hm, List.mem_singleton]

theorem claimSound_iff (s : State) (n : LaneNo) : claimSound s n = true ↔ LaneClaim s n := by
  unfold claimSound
  rcases hl : linesListing s n with _ | ⟨k, _ | ⟨j, rest⟩⟩
  · have hu := (linesListing_nil_iff s n).mp hl
    simp only [decide_eq_true_eq]
    refine ⟨fun h => ⟨fun _ => hu, fun hw => absurd hw h⟩, fun h hw => ?_⟩
    obtain ⟨k, hk⟩ := h.waits hw
    have := (hk.lists k).mpr rfl
    rw [hu k] at this; cases this
  · have hk := (linesListing_singleton_iff s n k).mp hl
    have hself := (hk k).mpr rfl
    simp only [Bool.and_eq_true, Bool.or_eq_true, decide_eq_true_eq, Bool.not_eq_true', List.isEmpty_eq_false_iff]
    refine ⟨fun ⟨hw, hc⟩ => ⟨fun h => absurd hw h, fun _ => ⟨k, hk, hc⟩⟩, fun h => ?_⟩
    have hw : (s.lane n).state = .waitLine := Decidable.byContradiction fun hne => by
      have := h.rests hne k
      rw [hself] at this; cases this
    obtain ⟨j, hj⟩ := h.waits hw
    obtain rfl := (hj.lists k).mp hself
    exact ⟨hw, hj.cue⟩
  · simp only [Bool.false_eq_true, false_iff]
    intro h
    have hk : (s.line k).lists n = true := (mem_linesListing s n k).mp (by rw [hl]; simp)
    have hj : (s.line j).lists n = true := (mem_linesListing s n j).mp (by rw [hl]; simp)
    have hne : k ≠ j := by
      have hn : (linesListing s n).Nodup := nodup_allLines.filter _
      rw [hl] at hn
      simp only [List.nodup_cons, List.mem_cons, not_or] at hn
      exact hn.1.1
    have hw : (s.lane n).state = .waitLine := Decidable.byContradiction fun hst => by
      have := h.rests hst k
      rw [hk] at this; cases this
    obtain ⟨i, hi⟩ := h.waits hw
    exact hne (((hi.lists k).mp hk).trans ((hi.lists j).mp hj).symm)

theorem claims_iff_of (s : State) : Claims tied s [] ↔ claimsSound s = true ∧ (tied → bindingsSound s = true) := by
  rw [bindingsSound_iff]
  unfold claimsSound
  simp only [Bool.and_eq_true, List.all_eq_true]
  constructor
  · intro h
    exact ⟨⟨fun k _ => (OutLine.claimsSound_iff _).mpr (h.lines k),
      fun n _ => (claimSound_iff s n).mpr (h.resting n (List.not_mem_nil))⟩, h.bindings⟩
  · rintro ⟨⟨hk, hn⟩, hb⟩
    exact ⟨fun k => (OutLine.claimsSound_iff _).mp (hk k (mem_allLines k)), fun n hm => absurd hm List.not_mem_nil,
      fun n _ => (claimSound_iff s n).mp (hn n (mem_allLanes n)), hb⟩

theorem claims_iff (s : State) : Claims True s [] ↔ claimsSound s = true ∧ bindingsSound s = true := by
  rw [claims_iff_of, forall_true_left]

theorem Claims.congr {s : State} {work others : List LaneNo} (h : Claims tied s work) (hw : ∀ n, n ∈ others ↔ n ∈ work) :
    Claims tied s others :=
  ⟨h.lines, fun n hn => h.working n ((hw n).mp hn), fun n hn => h.resting n (fun hm => hn ((hw n).mpr hm)), h.bindings⟩

/-- A lane that waits for no line joins the work. -/
theorem Claims.cons {s : State} {work : List LaneNo} (h : Claims tied s work) {n : LaneNo}
    (hn : (s.lane n).state ≠ .waitLine) : Claims tied s (n :: work) where
  lines := h.lines
  working := fun m hm => by
    rcases List.mem_cons.mp hm with rfl | hm
    · by_cases hw : m ∈ work
      · exact h.working m hw
      · exact (h.resting m hw).rests hn
    · exact h.working m hm
  resting := fun m hm => h.resting m (fun hw => hm (List.mem_cons_of_mem _ hw))
  bindings := h.bindings

/-- A lane leaves the work. -/
theorem Claims.rest {s : State} {work : List LaneNo} {n : LaneNo} (h : Claims tied s (n :: work)) (hn : LaneClaim s n) :
    Claims tied s work where
  lines := h.lines
  working := fun m hm => h.working m (List.mem_cons_of_mem _ hm)
  resting := fun m hm => by
    by_cases he : m = n
    · exact he ▸ hn
    · exact h.resting m (fun hw => (List.mem_cons.mp hw).elim he hm)
  bindings := h.bindings

/-- A lane leaves the work in a state in which it waits for no line. -/
theorem Claims.restState {s : State} {work : List LaneNo} {n : LaneNo} (h : Claims tied s (n :: work))
    (hn : (s.lane n).state ≠ .waitLine) : Claims tied s work :=
  h.rest ⟨fun _ => h.working n List.mem_cons_self, fun hw => absurd hw hn⟩

/-! ## Operations that leave the tables -/

/-- The line is owned, or it is STATIC at its rest level. -/
def OutLine.AtRestIfFree (x : OutLine) : Prop := x.owner ≠ none ∨ x.mode = .static x.rest

/-- Owned lines may have been driven; owners and waiter lists are as they were. -/
structure Driven (s t : State) : Prop where
  part : t.part = s.part
  owner : ∀ k, (t.line k).owner = (s.line k).owner
  waiters : ∀ k, (t.line k).waiters = (s.line k).waiters
  rest : ∀ k, (t.line k).rest = (s.line k).rest
  unowned : ∀ k, (s.line k).owner = none → (t.line k).mode = (s.line k).mode
  bindings : Bindings s → Bindings t

namespace Driven

theorem trans {s t u : State} (h : Driven s t) (h' : Driven t u) : Driven s u where
  part := h'.part.trans h.part
  owner := fun k => (h'.owner k).trans (h.owner k)
  waiters := fun k => (h'.waiters k).trans (h.waiters k)
  rest := fun k => (h'.rest k).trans (h.rest k)
  unowned := fun k hk => (h'.unowned k ((h.owner k).trans hk)).trans (h.unowned k hk)
  bindings := fun hb => h'.bindings (h.bindings hb)

/-- An operation that leaves the lines and the generators' bindings. -/
theorem of_lines {s t : State} (hp : t.part = s.part) (hl : t.lines = s.lines)
    (hb : ∀ g, (t.gen g).bound = (s.gen g).bound) : Driven s t := by
  have hk : ∀ k, t.line k = s.line k := fun k => congrArg (fun v => v[k]) hl
  exact ⟨hp, fun k => by rw [hk], fun k => by rw [hk], fun k => by rw [hk], fun k _ => by rw [hk],
    fun h => h.of_blocks hl hb⟩

theorem of_gens {s t : State} (hp : t.part = s.part) (hl : t.lines = s.lines) (hg : t.gens = s.gens) : Driven s t :=
  of_lines hp hl fun g => congrArg (fun v => Generator.bound v[g]) hg

theorem refl (s : State) : Driven s s := of_gens rfl rfl rfl

/-- A change of one owned line's mode that the bindings follow. -/
theorem of_mode {s t : State} (n : LaneNo) (k : LineNo) (hp : t.part = s.part) (ho : (s.line k).owner = some n)
    (hk : ∃ m, t.line k = { s.line k with mode := m }) (hj : ∀ j, k ≠ j → t.line j = s.line j)
    (hb : Bindings s → Bindings t) : Driven s t := by
  obtain ⟨m, hm⟩ := hk
  have hline : ∀ j, (t.line j).owner = (s.line j).owner ∧ (t.line j).waiters = (s.line j).waiters
      ∧ (t.line j).rest = (s.line j).rest ∧ ((s.line j).owner = none → (t.line j).mode = (s.line j).mode) := fun j => by
    by_cases h : k = j
    · subst h
      rw [hm]
      exact ⟨rfl, rfl, rfl, fun hn => by rw [ho] at hn; cases hn⟩
    · rw [hj j h]; exact ⟨rfl, rfl, rfl, fun _ => rfl⟩
  exact ⟨hp, fun j => (hline j).1, fun j => (hline j).2.1, fun j => (hline j).2.2.1, fun j => (hline j).2.2.2, hb⟩

theorem unlisted {s t : State} (h : Driven s t) {n : LaneNo} (hn : Unlisted s n) : Unlisted t n := fun k => by
  rw [OutLine.lists_congr (h.waiters k)]; exact hn k

theorem sound {s t : State} (h : Driven s t) {k : LineNo} (hk : (s.line k).Sound) : (t.line k).Sound :=
  hk.congr (h.owner k) (h.waiters k)

theorem atRest {s t : State} (h : Driven s t) {k : LineNo} (hk : (s.line k).AtRestIfFree) : (t.line k).AtRestIfFree := by
  unfold OutLine.AtRestIfFree
  rw [h.owner, h.rest]
  by_cases ho : (s.line k).owner = none
  · exact Or.inr ((h.unowned k ho).trans (hk.resolve_left (not_not_intro ho)))
  · exact Or.inl ho

end Driven

/-- A lane claims as before where it still waits for the same line with a cue queued, and waits for none where it did not. -/
structure Lane.ClaimKept (l m : Lane) : Prop where
  rests : l.state ≠ .waitLine → m.state ≠ .waitLine
  waits : l.state = .waitLine → m.state = .waitLine ∧ m.wait = l.wait ∧ (l.queue ≠ [] → m.queue ≠ [])

theorem Lane.ClaimKept.refl (l : Lane) : l.ClaimKept l := ⟨id, fun h => ⟨h, rfl, id⟩⟩

theorem Lane.ClaimKept.trans {l m k : Lane} (h : l.ClaimKept m) (h' : m.ClaimKept k) : l.ClaimKept k where
  rests := fun hl => h'.rests (h.rests hl)
  waits := fun hl => by
    obtain ⟨hs, hw, hq⟩ := h.waits hl
    obtain ⟨hs', hw', hq'⟩ := h'.waits hs
    exact ⟨hs', hw'.trans hw, fun hn => hq' (hq hn)⟩

/-- A lane whose state, wait and queue are as they were. -/
theorem Lane.ClaimKept.of_eq {l m : Lane} (hs : m.state = l.state) (hw : m.wait = l.wait) (hq : m.queue = l.queue) :
    l.ClaimKept m := ⟨fun h => hs ▸ h, fun h => ⟨hs.trans h, hw, fun hn => hq ▸ hn⟩⟩

theorem LaneClaim.kept {s t : State} {n : LaneNo} (h : LaneClaim s n) (hp : s.part = .failed → t.part = .failed)
    (hw : ∀ k, (t.line k).waiters = (s.line k).waiters) (hl : (s.lane n).ClaimKept (t.lane n)) : LaneClaim t n := by
  by_cases hn : (s.lane n).state = .waitLine
  · obtain ⟨k, hk⟩ := h.waits hn
    obtain ⟨hs, hwait, hq⟩ := hl.waits hn
    refine ⟨fun hne => absurd hs hne, fun _ => ⟨k, fun j => ?_, ?_⟩⟩
    · rw [OutLine.lists_congr (hw j)]; exact hk.lists j
    · rw [hwait]
      exact hk.cue.imp hp fun ⟨hc, hne⟩ => ⟨hc, hq hne⟩
  · exact ⟨fun _ k => by rw [OutLine.lists_congr (hw k)]; exact h.rests hn k, fun hst => absurd hst (hl.rests hn)⟩

/-- Owners and waiter lists are as they were, and every lane outside the work claims as before. -/
theorem Claims.of_tables {s t : State} {work : List LaneNo} (h : Claims tied s work) (hp : s.part = .failed → t.part = .failed)
    (ho : ∀ k, (t.line k).owner = (s.line k).owner) (hw : ∀ k, (t.line k).waiters = (s.line k).waiters)
    (hl : ∀ n, n ∉ work → (s.lane n).ClaimKept (t.lane n)) (hb : tied → Bindings t) : Claims tied t work :=
  ⟨fun k => (h.lines k).congr (ho k) (hw k),
    fun n hn k => by rw [OutLine.lists_congr (hw k)]; exact h.working n hn k,
    fun n hn => (h.resting n hn).kept hp hw (hl n hn), hb⟩

theorem Claims.kept {s t : State} {work : List LaneNo} (h : Claims tied s work) (hd : Driven s t)
    (hl : ∀ n, n ∉ work → (s.lane n).ClaimKept (t.lane n)) : Claims tied t work :=
  h.of_tables (fun hf => hd.part.trans hf) hd.owner hd.waiters hl fun hb => hd.bindings (h.bindings hb)

/-- An operation on a lane of the work. -/
theorem Claims.own {s t : State} {work : List LaneNo} {n : LaneNo} (h : Claims tied s work) (hn : n ∈ work) (hd : Driven s t)
    (ho : ∀ m, n ≠ m → t.lane m = s.lane m) : Claims tied t work :=
  h.kept hd fun m hm => by rw [ho m (fun e => hm (e ▸ hn))]; exact .refl _

theorem Claims.choices {s : State} {work : List LaneNo} (h : Claims tied s work) (k : Nat) :
    Claims tied { s with choices := k } work :=
  h.kept (.of_gens rfl rfl rfl) fun _ _ => .refl _

/-! ## The operations of a lane's own -/

theorem setLane_driven (n : LaneNo) (l : Lane) (s : State) : Driven s (s.setLane n l) := .of_gens rfl rfl rfl

theorem leaveWaiters_unlisted {s : State} {n : LaneNo} {k : LineNo} (h : (s.line k).lists n = false) :
    (s.line k).waiters.filter (fun w => w.lane ≠ n) = (s.line k).waiters := by
  rw [List.filter_eq_self]
  intro w hw
  rw [decide_eq_true_iff]
  rintro rfl
  exact (OutLine.not_lists_iff _ _).mp h (List.mem_map_of_mem hw)

/-- A wait withdrawn from a lane that stands in no list leaves the lines. -/
theorem withdrawWait_line_of_unlisted {s : State} {n : LaneNo} (h : Unlisted s n) (k : LineNo) :
    (withdrawWait n s).line k = s.line k := by
  rw [withdrawWait_line]
  split
  · rw [leaveWaiters_unlisted (h k)]
  · rfl

theorem faultOwnedLines_driven (n : LaneNo) (s : State) : Driven s (faultOwnedLines n s) := by
  have hl : ∀ k, ((faultOwnedLines n s).line k).owner = (s.line k).owner
      ∧ ((faultOwnedLines n s).line k).waiters = (s.line k).waiters
      ∧ ((faultOwnedLines n s).line k).rest = (s.line k).rest
      ∧ ((s.line k).owner = none → ((faultOwnedLines n s).line k).mode = (s.line k).mode) := fun k => by
    rw [faultOwnedLines_line]
    split
    · rename_i h; exact ⟨rfl, rfl, rfl, fun hn => by rw [h] at hn; cases hn⟩
    · exact ⟨rfl, rfl, rfl, fun _ => rfl⟩
  exact ⟨part_of_fixed (faultOwnedLines_fixed n s), fun k => (hl k).1, fun k => (hl k).2.1, fun k => (hl k).2.2.1,
    fun k => (hl k).2.2.2, fun hb => faultOwnedLines_bindings hb n⟩

theorem ceaseLane_driven (n : LaneNo) (st : LaneState) {s : State} (h : Unlisted s n) : Driven s (ceaseLane n st s) := by
  have hk : ∀ k, (ceaseLane n st s).line k = s.line k := fun k => by
    rw [ceaseLane_line, withdrawWait_line_of_unlisted h]
  have hg : (ceaseLane n st s).gens = s.gens := by simp
  exact ⟨part_of_fixed (ceaseLane_fixed n st s), fun k => by rw [hk], fun k => by rw [hk], fun k => by rw [hk],
    fun k _ => by rw [hk], fun hb => hb.congr (fun k => by rw [hk]) fun g => congrArg (fun v => Generator.bound v[g]) hg⟩

theorem laneFault_driven (n : LaneNo) (c : FaultCode) (a : Addr) {s : State} (h : Unlisted s n) :
    Driven s (laneFault n c a s) := by
  have h1 : Driven s ((ceaseLane n .faulted s).setLane n { (ceaseLane n .faulted s).lane n with fault := c }) :=
    (ceaseLane_driven n .faulted h).trans (setLane_driven n _ _)
  unfold laneFault; dsimp only
  generalize (ceaseLane n .faulted s).setLane n _ = u at h1 ⊢
  have h2 := h1.trans (faultOwnedLines_driven n u)
  generalize faultOwnedLines n u = v at h2 ⊢
  exact h2.trans (.of_gens rfl rfl rfl)

/-- A fetch-side fault drives the lines of a STARVED lane, which stands in no list (R44). -/
theorem fetchFault_driven (n : LaneNo) (c : FaultCode) (a : Addr) {s : State}
    (h : (s.lane n).state = .starved → Unlisted s n) : Driven s (fetchFault n c a s) := by
  have h1 : Driven s (setStall n .fetchFault
      (s.setLane n { s.lane n with pendingFault := some (c, a), request := none })) :=
    .of_gens (part_of_fixed (by simp)) (by simp) (by simp)
  unfold fetchFault; dsimp only
  split
  · rename_i hst
    refine h1.trans (laneFault_driven n c a (h1.unlisted (h ?_)))
    rw [setStall_self] at hst
    simpa using hst
  · exact h1

theorem presentBurst_driven (n : LaneNo) {s : State} (h : (s.lane n).state = .starved → Unlisted s n) :
    Driven s (presentBurst n s) := by
  unfold presentBurst; dsimp only
  split
  · split
    · exact setLane_driven n _ s
    · exact fetchFault_driven n _ _ h
  · exact .refl s

theorem countCue_driven (n : LaneNo) (f : Finish) (s : State) : Driven s (countCue n f s) := by
  unfold countCue; dsimp only
  split
  · exact .of_gens (part_of_fixed (by simp)) (by simp) (by simp)
  · exact setLane_driven n _ s

theorem retireFinished_driven (n : LaneNo) (s : State) : Driven s (retireFinished n s) :=
  .of_gens (part_of_fixed (by simp)) (by simp) (by simp)

theorem finishCue_driven (n : LaneNo) (f : Finish) {s : State} (h : Unlisted s n) : Driven s (finishCue n f s) := by
  have h1 := (countCue_driven n f s).trans (retireFinished_driven n _)
  exact h1.trans (presentBurst_driven n fun _ => h1.unlisted h)

/-! ### The cues left -/

theorem fetchFault_queue_le (n : LaneNo) (c : FaultCode) (a : Addr) (s : State) :
    ((fetchFault n c a s).lane n).queue.length ≤ (s.lane n).queue.length := by
  by_cases h : (s.lane n).state = .starved
  · rw [fetchFault_starved s n c a h, laneFault_self]; exact Nat.zero_le _
  · rw [fetchFault_self s n c a h]

theorem presentBurst_queue_le (n : LaneNo) (s : State) :
    ((presentBurst n s).lane n).queue.length ≤ (s.lane n).queue.length := by
  unfold presentBurst; dsimp only
  split
  · split
    · rw [presentFetch_self]
    · exact fetchFault_queue_le n _ _ s
  · exact Nat.le_refl _

theorem retireFinished_queue (n : LaneNo) (s : State) : ((retireFinished n s).lane n).queue = (s.lane n).queue := by
  unfold retireFinished; dsimp only
  split
  · rfl
  · split
    · rw [handWrites_lane, lane_setLane_self]
    · rfl

theorem countCue_queue (n : LaneNo) (f : Finish) (s : State) : ((countCue n f s).lane n).queue = (s.lane n).queue.tail := by
  obtain ⟨x, hx⟩ := countCue_self s n f
  rw [hx]; rfl

/-- A finished cue has left the queue. -/
theorem finishCue_queue (n : LaneNo) (f : Finish) {s : State} (h : (s.lane n).queue ≠ []) :
    ((finishCue n f s).lane n).queue.length + 1 ≤ (s.lane n).queue.length := by
  have hp : 0 < (s.lane n).queue.length := List.length_pos_iff.mpr h
  have hle := presentBurst_queue_le n (retireFinished n (countCue n f s))
  rw [retireFinished_queue, countCue_queue, List.length_tail] at hle
  unfold finishCue
  omega

theorem queuedCues_own {s t : State} (n : LaneNo) (d : Nat) (ho : ∀ m, n ≠ m → t.lane m = s.lane m)
    (hn : (t.lane n).queue.length + d ≤ (s.lane n).queue.length) : queuedCues t + d ≤ queuedCues s := by
  have hle : ∀ m, (t.lane m).queue.length + (if n = m then d else 0) ≤ (s.lane m).queue.length := fun m => by
    by_cases h : n = m
    · subst h; simpa using hn
    · rw [ho m h, if_neg h]; exact Nat.le_refl _
  have h0 := hle 0
  have h1 := hle 1
  have h2 := hle 2
  have h3 := hle 3
  unfold queuedCues
  fin_cases n <;> simp at h0 h1 h2 h3 <;> omega

theorem queuedCues_congr {s t : State} (h : t.lanes = s.lanes) : queuedCues t = queuedCues s := by
  unfold queuedCues State.lane; rw [h]

/-! ## Releases (R94, R95) -/

/-- Ownership has gone only to lanes of a set; a line that has become free is STATIC at its rest level. -/
structure Gains (gain : LaneNo → Prop) (s t : State) : Prop where
  owners : ∀ k m, (t.line k).owner = some m → (s.line k).owner = some m ∨ gain m
  rest : ∀ k, (t.line k).rest = (s.line k).rest
  atRest : ∀ k, (s.line k).AtRestIfFree → (t.line k).AtRestIfFree

theorem Driven.gains {s t : State} (h : Driven s t) (gain : LaneNo → Prop) : Gains gain s t :=
  ⟨fun k _ hm => Or.inl (h.owner k ▸ hm), h.rest, fun _ => h.atRest⟩

theorem Gains.trans {gain : LaneNo → Prop} {s t u : State} (h : Gains gain s t) (h' : Gains gain t u) : Gains gain s u :=
  ⟨fun k m hm => (h'.owners k m hm).elim (h.owners k m) Or.inr, fun k => (h'.rest k).trans (h.rest k),
    fun k hk => h'.atRest k (h.atRest k hk)⟩

theorem Gains.mono {gain more : LaneNo → Prop} {s t : State} (h : Gains gain s t) (hg : ∀ m, gain m → more m) :
    Gains more s t :=
  ⟨fun k m hm => (h.owners k m hm).imp_right (hg m), h.rest, h.atRest⟩

/-- Lines have been released and the lanes granted them are to take their next cues. -/
structure Released (tied : Prop) (ks : List LineNo) (work : List LaneNo) (s t : State) (granted : List LaneNo) : Prop where
  claims : Claims tied t (granted ++ work)
  nodup : granted.Nodup
  fresh : ∀ m ∈ granted, m ∉ work
  waited : ∀ m ∈ granted, (s.lane m).state = .waitLine ∧ (s.part = .failed ∨ (s.lane m).queue ≠ [])
  others : ∀ m, m ∉ granted → t.lane m = s.lane m
  left : ∀ k m, (t.line k).owner = some m → ((s.line k).owner = some m ∧ k ∉ ks) ∨ m ∈ granted
  rest : ∀ k, (t.line k).rest = (s.line k).rest
  atRest : ∀ k, (s.line k).AtRestIfFree ∨ k ∈ ks → (t.line k).AtRestIfFree

theorem Released.gains {ks : List LineNo} {work : List LaneNo} {s t : State} {granted : List LaneNo}
    (h : Released tied ks work s t granted) : Gains (· ∈ granted) s t :=
  ⟨fun k m hm => (h.left k m hm).imp_left And.left, h.rest, fun k hk => h.atRest k (Or.inl hk)⟩

theorem releaseLine_bindings {s : State} (hs : Bindings s) (k : LineNo) : Bindings (releaseLine k s).1 := by
  have hd := driveStatic_bindings hs k (s.line k).rest
  unfold releaseLine passOwnership; dsimp only
  split
  all_goals
    refine hd.congr (fun j => ?_) fun _ => rfl
    rw [line_setLine]
    split
    · rename_i h; rw [h]
    · rfl

/-- One line is released to nobody, or to the oldest waiter (R94). -/
theorem releaseLine_released (k : LineNo) {s : State} {work : List LaneNo} (h : Claims tied s work) :
    Released tied [k] work s (releaseLine k s).1 (releaseLine k s).2.toList := by
  have hlanes : ∀ m, (releaseLine k s).1.lane m = s.lane m := fun m => by simp
  have hpart : (releaseLine k s).1.part = s.part := part_of_fixed (by simp)
  have hb := fun ht => releaseLine_bindings (h.bindings ht) k
  cases hw : (s.line k).waiters with
  | nil =>
    obtain ⟨hg, hk⟩ := releaseLine_free s k hw
    have hlists : ∀ j n, ((releaseLine k s).1.line j).lists n = (s.line j).lists n := fun j n => by
      by_cases hj : k = j
      · subst hj; rw [hk]; rfl
      · rw [releaseLine_other s k hj]
    rw [hg]
    refine ⟨⟨fun j => ?_, fun n hn j => ?_, fun n hn => ⟨fun hst j => ?_, fun hst => ?_⟩, hb⟩, by simp, by simp, by simp,
      fun m _ => hlanes m, fun j m hm => ?_, fun j => ?_, fun j hj => ?_⟩
    · by_cases hj : k = j
      · subst hj; rw [hk]
        exact ⟨by simp [hw], by simp, fun _ => hw⟩
      · rw [releaseLine_other s k hj]; exact h.lines j
    · rw [hlists]; exact h.working n (by simpa using hn) j
    · rw [hlanes] at hst
      rw [hlists]; exact (h.resting n (by simpa using hn)).rests hst j
    · rw [hlanes] at hst
      obtain ⟨i, hi⟩ := (h.resting n (by simpa using hn)).waits hst
      exact ⟨i, fun j => by rw [hlists]; exact hi.lists j, by rw [hpart, hlanes]; exact hi.cue⟩
    · by_cases hj : k = j
      · subst hj; rw [hk] at hm; cases hm
      · rw [releaseLine_other s k hj] at hm
        exact Or.inl ⟨hm, by simpa using Ne.symm hj⟩
    · by_cases hj : k = j
      · subst hj; rw [hk]
      · rw [releaseLine_other s k hj]
    · by_cases hkj : k = j
      · subst hkj; rw [hk]; exact Or.inr rfl
      · rw [releaseLine_other s k hkj]
        exact hj.resolve_right (by simpa using Ne.symm hkj)
  | cons w rest =>
    obtain ⟨hg, hk⟩ := releaseLine_granted s k w rest hw
    have hsound := h.lines k
    have hlw : (s.line k).lists w.lane = true := (OutLine.lists_iff _ _).mpr (by rw [hw]; simp)
    have hnd : w.lane ∉ rest.map Waiter.lane ∧ (rest.map Waiter.lane).Nodup := by
      have := hsound.nodup
      rwa [hw, List.map_cons, List.nodup_cons] at this
    have hfresh : w.lane ∉ work := fun hm => by
      have := h.working _ hm k
      rw [hlw] at this; cases this
    have hc := h.resting _ hfresh
    have hst : (s.lane w.lane).state = .waitLine := Decidable.byContradiction fun hne => by
      have := hc.rests hne k
      rw [hlw] at this; cases this
    obtain ⟨i, hi⟩ := hc.waits hst
    obtain rfl := (hi.lists k).mp hlw
    have hlists : ∀ j n, ((releaseLine k s).1.line j).lists n = true ↔ (s.line j).lists n = true ∧ n ≠ w.lane := fun j n => by
      by_cases hj : k = j
      · subst hj
        rw [hk, OutLine.lists_iff, OutLine.lists_iff, hw, List.map_cons, List.mem_cons]
        constructor
        · intro hm; exact ⟨Or.inr hm, fun e => hnd.1 (e ▸ hm)⟩
        · rintro ⟨hm, hne⟩; exact hm.resolve_left hne
      · rw [releaseLine_other s k hj]
        refine ⟨fun hm => ⟨hm, fun e => ?_⟩, And.left⟩
        exact hj ((hi.lists j).mp (e ▸ hm)).symm
    have hnot : ∀ j n, (s.line j).lists n = false → ((releaseLine k s).1.line j).lists n = false := fun j n hn => by
      rw [← Bool.not_eq_true, hlists, hn]; simp
    rw [hg]
    refine ⟨⟨fun j => ?_, fun n hn j => ?_, fun n hn => ?_, hb⟩, by simp, by simpa using hfresh, ?_,
      fun m _ => hlanes m, fun j m hm => ?_, fun j => ?_, fun j hj => ?_⟩
    · by_cases hj : k = j
      · subst hj; rw [hk]
        refine ⟨hnd.2, fun n hn => ?_, by simp⟩
        cases hn
        exact (OutLine.not_lists_iff _ _).mpr hnd.1
      · rw [releaseLine_other s k hj]; exact h.lines j
    · rcases List.mem_cons.mp (by simpa using hn) with rfl | hn
      · rw [← Bool.not_eq_true, hlists]; simp
      · exact hnot j n (h.working n hn j)
    · have hne : n ≠ w.lane := fun e => hn (by simp [e])
      have hr := h.resting n (fun hm => hn (by simp [hm]))
      refine ⟨fun hs' j => hnot j n (hr.rests (by rwa [hlanes] at hs') j), fun hs' => ?_⟩
      obtain ⟨i, hi'⟩ := hr.waits (by rwa [hlanes] at hs')
      refine ⟨i, fun j => ?_, by rw [hpart, hlanes]; exact hi'.cue⟩
      rw [hlists, hi'.lists]
      exact ⟨And.left, fun e => ⟨e, hne⟩⟩
    · intro m hm
      obtain rfl : m = w.lane := by simpa using hm
      exact ⟨hst, hi.cue.imp_right And.right⟩
    · by_cases hj : k = j
      · subst hj; rw [hk] at hm; exact Or.inr (by simpa using hm.symm)
      · rw [releaseLine_other s k hj] at hm
        exact Or.inl ⟨hm, by simpa using Ne.symm hj⟩
    · by_cases hj : k = j
      · subst hj; rw [hk]
      · rw [releaseLine_other s k hj]
    · by_cases hkj : k = j
      · subst hkj; rw [hk]; exact Or.inl (by simp)
      · rw [releaseLine_other s k hkj]
        exact hj.resolve_right (by simpa using Ne.symm hkj)

theorem releaseLines_released (ks : List LineNo) {s : State} {work : List LaneNo} (h : Claims tied s work) :
    Released tied ks work s (releaseLines ks s).1 (releaseLines ks s).2 := by
  induction ks generalizing s work with
  | nil =>
    exact ⟨h, List.nodup_nil, nofun, nofun, fun _ _ => rfl, fun k m hm => Or.inl ⟨hm, List.not_mem_nil⟩, fun _ => rfl,
      fun k hk => hk.resolve_right List.not_mem_nil⟩
  | cons k ks ih =>
    have h1 := releaseLine_released k h
    have h2 := ih h1.claims
    have hlanes : ∀ m, (releaseLine k s).1.lane m = s.lane m := fun m => by simp
    have hpart : (releaseLine k s).1.part = s.part := part_of_fixed (by simp)
    unfold releaseLines; dsimp only
    generalize releaseLine k s = r at h1 h2 hlanes hpart ⊢
    generalize releaseLines ks r.1 = q at h2 ⊢
    refine ⟨h2.claims.congr fun n => ?_, ?_, ?_, ?_, ?_, ?_, ?_, ?_⟩
    · simp only [List.mem_append]; tauto
    · refine List.Nodup.append h1.nodup h2.nodup fun m hm hm' => ?_
      exact h2.fresh m hm' (List.mem_append_left _ hm)
    · intro m hm hw
      rcases List.mem_append.mp hm with hm | hm
      · exact h1.fresh m hm hw
      · exact h2.fresh m hm (List.mem_append_right _ hw)
    · intro m hm
      rcases List.mem_append.mp hm with hm | hm
      · exact h1.waited m hm
      · rw [← hlanes, ← hpart]; exact h2.waited m hm
    · intro m hm
      rw [h2.others m (fun hm' => hm (List.mem_append_right _ hm')), hlanes]
    · intro j m hm
      rcases h2.left j m hm with ⟨ho, hks⟩ | hm'
      · rcases h1.left j m ho with ⟨ho', hk⟩ | hm''
        · exact Or.inl ⟨ho', fun hj => (List.mem_cons.mp hj).elim (fun e => hk (List.mem_singleton.mpr e)) hks⟩
        · exact Or.inr (List.mem_append_left _ hm'')
      · exact Or.inr (List.mem_append_right _ hm')
    · intro j; rw [h2.rest, h1.rest]
    · intro j hj
      refine h2.atRest j ?_
      rcases hj with hj | hj
      · exact Or.inl (h1.atRest j (Or.inl hj))
      · rcases List.mem_cons.mp hj with e | hj
        · exact Or.inl (h1.atRest j (Or.inr (List.mem_singleton.mpr e)))
        · exact Or.inr hj

/-- Lanes of the work finish their CLAIM cues. -/
theorem acceptGrants_kept (gs : List LaneNo) {s : State} {work : List LaneNo} (h : Claims tied s work) (hw : ∀ m ∈ gs, m ∈ work) :
    Claims tied (State.each gs acceptGrant s) work ∧ Driven s (State.each gs acceptGrant s) := by
  induction gs generalizing s with
  | nil => exact ⟨h, .refl s⟩
  | cons g gs ih =>
    have hg := hw g List.mem_cons_self
    have hd : Driven s (acceptGrant g s) := finishCue_driven g .executed (h.working g hg)
    obtain ⟨h1, h2⟩ := ih (h.own hg hd fun m hm => acceptGrant_other s g hm) fun m hm => hw m (List.mem_cons_of_mem _ hm)
    exact ⟨h1, hd.trans h2⟩

/-- Each of them takes a cue off a queue. -/
theorem acceptGrants_cues (gs : List LaneNo) {s : State} (hn : gs.Nodup) (hq : ∀ m ∈ gs, (s.lane m).queue ≠ []) :
    queuedCues (State.each gs acceptGrant s) + gs.length ≤ queuedCues s := by
  induction gs generalizing s with
  | nil => exact Nat.le_refl _
  | cons g gs ih =>
    obtain ⟨hg, hn⟩ := List.nodup_cons.mp hn
    have hne : ∀ m ∈ gs, g ≠ m := fun m hm e => hg (e ▸ hm)
    have h1 : queuedCues (acceptGrant g s) + 1 ≤ queuedCues s :=
      queuedCues_own g 1 (fun m hm => acceptGrant_other s g hm) (finishCue_queue g .executed (hq g List.mem_cons_self))
    have h2 := ih (s := acceptGrant g s) hn fun m hm => by
      rw [acceptGrant_other s g (hne m hm)]; exact hq m (List.mem_cons_of_mem _ hm)
    show queuedCues (State.each gs acceptGrant (acceptGrant g s)) + (gs.length + 1) ≤ _
    omega

/-- Lines are released and the waiting lanes they go to answered (R94, R95). -/
theorem releaseAndGrant_released (ks : List LineNo) {s : State} {work : List LaneNo} (h : Claims tied s work)
    (hlive : s.part ≠ .failed) :
    Released tied ks work s (releaseAndGrant ks s).1 (releaseAndGrant ks s).2
      ∧ queuedCues (releaseAndGrant ks s).1 + (releaseAndGrant ks s).2.length ≤ queuedCues s := by
  have hr := releaseLines_released ks h
  have hlanes : (releaseLines ks s).1.lanes = s.lanes := releaseLines_lanes _ _
  have hlane : ∀ m, (releaseLines ks s).1.lane m = s.lane m := fun m => congrArg (fun v => v[m]) hlanes
  have hall : (releaseLines ks s).2.filter (awaitsGrant (releaseLines ks s).1) = (releaseLines ks s).2 := by
    rw [List.filter_eq_self]
    intro m hm
    obtain ⟨hst, hq⟩ := hr.waited m hm
    unfold awaitsGrant
    rw [hlane, hst]
    simpa using hq.resolve_left hlive
  unfold releaseAndGrant; dsimp only
  rw [hall]
  generalize releaseLines ks s = r at hr hlanes hlane ⊢
  obtain ⟨hc, hd⟩ := acceptGrants_kept r.2 hr.claims fun m hm => List.mem_append_left _ hm
  refine ⟨⟨hc, hr.nodup, hr.fresh, hr.waited, fun m hm => ?_, fun k m hm => hr.left k m (hd.owner k ▸ hm), fun k => ?_,
    fun k hk => hd.atRest (hr.atRest k hk)⟩, ?_⟩
  · exact (finishCue_elsewhere r.2 r.1 m hm).trans (hlane m)
  · rw [hd.rest, hr.rest]
  · rw [← queuedCues_congr hlanes]
    exact acceptGrants_cues r.2 hr.nodup fun m hm => by rw [hlane]; exact (hr.waited m hm).2.resolve_left hlive

end Sys2Proof.Machine
end

