-- ==== Sys2Proof/Proofs/ClaimSteps.lean ====
section
/-!
SUPPORT. The micro-steps of a run and the run as a whole: each keeps the invariant of the claims and uses up fuel, and at
the end every lane rests (R8, R94).
-/

namespace Sys2Proof.Machine

variable {tied : Prop}

/-- A lane is about to take a micro-step, with other lanes of the work behind it. -/
structure Working (tied : Prop) (n : LaneNo) (others : List LaneNo) (s : State) : Prop where
  claims : Claims tied s (n :: others)
  nodup : (n :: others).Nodup
  live : s.part ≠ .failed

/-- The lane itself, where it goes on. -/
def Ran.own (n : LaneNo) (r : Ran) : List LaneNo := if r.again then [n] else []

/-- A micro-step of lane n has been taken: the lanes that go on stand in no list, and each has cost a cue. -/
structure Stepped (tied : Prop) (n : LaneNo) (others : List LaneNo) (s : State) (r : Ran) : Prop where
  claims : Claims tied r.state (r.own n ++ r.granted ++ others)
  nodup : (r.own n ++ r.granted ++ others).Nodup
  cues : queuedCues r.state + (r.own n).length + r.granted.length ≤ queuedCues s
  gains : Gains (fun m => m = n ∨ m ∈ r.granted) s r.state

theorem Working.unlisted {n : LaneNo} {others : List LaneNo} {s : State} (h : Working tied n others s) : Unlisted s n :=
  h.claims.working n List.mem_cons_self

/-- An operation of the lane's own before the rest of its micro-step. -/
theorem Working.after {n : LaneNo} {others : List LaneNo} {s t : State} (h : Working tied n others s) (hd : Driven s t)
    (ho : ∀ m, n ≠ m → t.lane m = s.lane m) : Working tied n others t :=
  ⟨h.claims.own List.mem_cons_self hd ho, h.nodup, by rw [hd.part]; exact h.live⟩

theorem Working.setLane {n : LaneNo} {others : List LaneNo} {s : State} (h : Working tied n others s) (l : Lane) :
    Working tied n others (s.setLane n l) := h.after (setLane_driven n l s) fun _ hm => lane_setLane_ne s hm l

theorem Stepped.after {n : LaneNo} {others : List LaneNo} {s t : State} {r : Ran} (h : Stepped tied n others t r)
    (hd : Driven s t) (hq : queuedCues t ≤ queuedCues s) : Stepped tied n others s r :=
  ⟨h.claims, h.nodup, Nat.le_trans h.cues hq, (hd.gains _).trans h.gains⟩

theorem setLane_queuedCues (n : LaneNo) {l : Lane} {s : State} (h : l.queue.length ≤ (s.lane n).queue.length) :
    queuedCues (s.setLane n l) ≤ queuedCues s :=
  queuedCues_own n 0 (fun _ hm => lane_setLane_ne s hm l) (by rw [lane_setLane_self]; exact h)

theorem Stepped.setLane {n : LaneNo} {others : List LaneNo} {s : State} {r : Ran} {l : Lane}
    (h : Stepped tied n others (s.setLane n l) r) (hq : l.queue = (s.lane n).queue) : Stepped tied n others s r :=
  h.after (setLane_driven n l s) (setLane_queuedCues n (by rw [hq]))

/-- The lane rests. -/
theorem Stepped.rests {n : LaneNo} {others : List LaneNo} {s t : State} (h : Working tied n others s) (hc : Claims tied t others)
    (hq : queuedCues t ≤ queuedCues s) (hg : Gains (· = n) s t) : Stepped tied n others s (Ran.rest t) where
  claims := hc
  nodup := (List.nodup_cons.mp h.nodup).2
  cues := hq
  gains := hg.mono fun _ hm => Or.inl hm

/-- The lane rests in a state in which it waits for no line. -/
theorem Stepped.restsIn {n : LaneNo} {others : List LaneNo} {s t : State} (h : Working tied n others s) (hd : Driven s t)
    (ho : ∀ m, n ≠ m → t.lane m = s.lane m) (hst : (t.lane n).state ≠ .waitLine)
    (hq : (t.lane n).queue.length ≤ (s.lane n).queue.length) : Stepped tied n others s (Ran.rest t) :=
  .rests h ((h.after hd ho).claims.restState hst) (queuedCues_own n 0 ho hq) (hd.gains _)

/-- A cue-side fault (R17). -/
theorem laneFault_stepped {n : LaneNo} {others : List LaneNo} {s : State} (h : Working tied n others s) (c : FaultCode)
    (a : Addr) : Stepped tied n others s (Ran.rest (laneFault n c a s)) :=
  .restsIn h (laneFault_driven n c a h.unlisted) (fun _ hm => laneFault_other s n c a hm)
    (by rw [laneFault_self]; exact nofun) (by rw [laneFault_self]; exact Nat.zero_le _)

theorem cueFault_stepped {n : LaneNo} {others : List LaneNo} {s : State} (h : Working tied n others s) (c : FaultCode) :
    Stepped tied n others s (cueFault n c s) := laneFault_stepped h c _

/-- The current cue finishes and the lane goes on (R3, R10). -/
theorem done_stepped {n : LaneNo} {others : List LaneNo} {s : State} (h : Working tied n others s)
    (hq : (s.lane n).queue ≠ []) (f : Finish) : Stepped tied n others s (Ran.done n f s) := by
  have hd := finishCue_driven n f h.unlisted
  have ho : ∀ m, n ≠ m → (finishCue n f s).lane m = s.lane m := fun m hm => finishCue_other s n f hm
  have hw := h.after hd ho
  have hc := queuedCues_own n 1 ho (finishCue_queue n f hq)
  have hg : Gains (fun m => m = n ∨ m ∈ ([] : List LaneNo)) s (finishCue n f s) := hd.gains _
  unfold Ran.done
  generalize finishCue n f s = t at hw hc hg ⊢
  exact ⟨hw.claims, h.nodup, hc, hg⟩

/-- A cue that drives the lane's lines, and finishes. -/
theorem doneAfter_stepped {n : LaneNo} {others : List LaneNo} {s t : State} (h : Working tied n others s)
    (hq : (s.lane n).queue ≠ []) (f : Finish) (hd : Driven s t) (hl : t.lanes = s.lanes) :
    Stepped tied n others s (Ran.done n f t) := by
  have hlane : ∀ m, t.lane m = s.lane m := fun m => congrArg (fun v => v[m]) hl
  refine (done_stepped (h.after hd fun m _ => hlane m) ?_ f).after hd (queuedCues_congr hl).le
  rw [hlane]; exact hq

/-! ## Driving lines -/

theorem mem_maskLines (mask : Half) (k : LineNo) : k ∈ maskLines mask ↔ mask.getLsbD k.val = true := by
  simp [maskLines, mem_allLines]

theorem ownsAll_owner {s : State} {n : LaneNo} {mask : Half} (h : ownsAll s n mask = true) {k : LineNo}
    (hk : mask.getLsbD k.val = true) : (s.line k).owner = some n := by
  unfold ownsAll at h
  rw [List.all_eq_true] at h
  simpa using h k ((mem_maskLines mask k).mpr hk)

theorem setLineLevels_driven {s : State} {n : LaneNo} {mask : Half} (levels : Half) (h : ownsAll s n mask = true) :
    Driven s (State.each (maskLines mask) (setLineLevel levels) s) := by
  have hl : ∀ k, ((State.each (maskLines mask) (setLineLevel levels) s).line k).owner = (s.line k).owner
      ∧ ((State.each (maskLines mask) (setLineLevel levels) s).line k).waiters = (s.line k).waiters
      ∧ ((State.each (maskLines mask) (setLineLevel levels) s).line k).rest = (s.line k).rest
      ∧ ((s.line k).owner = none →
        ((State.each (maskLines mask) (setLineLevel levels) s).line k).mode = (s.line k).mode) := fun k => by
    rw [setLineLevels_line]
    split
    · rename_i hk
      exact ⟨rfl, rfl, rfl, fun hn => by rw [ownsAll_owner h hk] at hn; cases hn⟩
    · exact ⟨rfl, rfl, rfl, fun _ => rfl⟩
  exact ⟨part_of_fixed (by simp), fun k => (hl k).1, fun k => (hl k).2.1, fun k => (hl k).2.2.1, fun k => (hl k).2.2.2,
    fun hb => setLineLevels_bindings hb levels _⟩

theorem startPulse_driven {s : State} {n : LaneNo} {k : LineNo} (a : Level) (w : BitVec 24) (h : owns s n k = true) :
    Driven s (startPulse k a w s) :=
  .of_mode n k (part_of_fixed (by simp)) (by simpa [owns] using h)
    ⟨_, by unfold startPulse; dsimp only; rw [setMode_self, endActivity_line]⟩
    (fun j hj => by unfold startPulse; dsimp only; rw [setMode_other _ _ _ hj, endActivity_line])
    fun hb => startPulse_bindings hb k a w

theorem startWave_driven {s : State} {n : LaneNo} {k : LineNo} (f : Level) (d1 d2 : BitVec 24) (p : Half)
    (h : owns s n k = true) : Driven s (startWave k f d1 d2 p s) :=
  .of_mode n k (part_of_fixed (by simp)) (by simpa [owns] using h)
    ⟨_, by unfold startWave; rw [setMode_self, endActivity_line]⟩
    (fun j hj => by unfold startWave; rw [setMode_other _ _ _ hj, endActivity_line])
    fun hb => startWave_bindings hb k f d1 d2 p

theorem trackLine_driven {s : State} {n : LaneNo} {k : LineNo} {g : GenNo} (m : Nat) (h : owns s n k = true)
    (hb : boundElsewhere s g k = false) : Driven s (trackLine k g m s) := by
  obtain ⟨l, hl⟩ := trackLine_self k g m s
  exact .of_mode n k (part_of_fixed (by simp)) (by simpa [owns] using h) ⟨_, hl⟩
    (fun j hj => trackLine_other k g m s hj) fun hs => trackLine_bindings hs m hb

/-! ## Claims and releases -/

/-- A claim that finds its line free (R91). -/
theorem grantLine_working {n : LaneNo} {others : List LaneNo} {s : State} {k : LineNo} (h : Working tied n others s)
    (hk : (s.line k).owner = none) : Working tied n others (grantLine k n s) := by
  have hline : ∀ j, ((grantLine k n s).line j).waiters = (s.line j).waiters
      ∧ ((grantLine k n s).line j).mode = (s.line j).mode := fun j => by
    unfold grantLine
    rw [line_setLine]
    split
    · rename_i e; subst e; exact ⟨rfl, rfl⟩
    · exact ⟨rfl, rfl⟩
  have hlists : ∀ j m, ((grantLine k n s).line j).lists m = (s.line j).lists m := fun j m =>
    OutLine.lists_congr (hline j).1 m
  have hlane : ∀ m, (grantLine k n s).lane m = s.lane m := fun m => by simp
  refine ⟨⟨fun j => ?_, fun m hm j => by rw [hlists]; exact h.claims.working m hm j, fun m hm => ?_, ?_⟩, h.nodup, ?_⟩
  · by_cases hj : k = j
    · subst hj
      unfold grantLine; rw [line_setLine_self]
      have hw := (h.claims.lines k).free hk
      exact ⟨by simp [hw], fun m _ => by simp [OutLine.lists, hw], by simp⟩
    · unfold grantLine; rw [line_setLine_ne _ hj]; exact h.claims.lines j
  · have hr := h.claims.resting m hm
    refine ⟨fun hst j => ?_, fun hst => ?_⟩
    · rw [hlists]; exact hr.rests (by rwa [hlane] at hst) j
    · obtain ⟨i, hi⟩ := hr.waits (by rwa [hlane] at hst)
      exact ⟨i, fun j => by rw [hlists]; exact hi.lists j, by rw [hlane]; exact hi.cue⟩
  · exact fun ht => (h.claims.bindings ht).congr (fun j => by rw [(hline j).2]) fun _ => rfl
  · exact h.live

theorem grantLine_gains (n : LaneNo) (k : LineNo) (s : State) : Gains (· = n) s (grantLine k n s) := by
  refine ⟨fun j m hm => ?_, fun j => ?_, fun j hj => ?_⟩
  all_goals unfold grantLine at *
  · rw [line_setLine] at hm
    split at hm
    · cases hm; exact Or.inr rfl
    · exact Or.inl hm
  · rw [line_setLine]; split
    · rename_i e; rw [e]
    · rfl
  · rw [line_setLine]; split
    · exact Or.inl (by simp)
    · exact hj

/-- A claim that must wait: the lane's entry is the line's last, and the lane waits on that line alone (R91, R92). -/
theorem beginClaimWait_claims {n : LaneNo} {others : List LaneNo} {s : State} {k : LineNo} (t : Half)
    (h : Working tied n others s) (hq : (s.lane n).queue ≠ []) (hown : (s.line k).owner ≠ some n)
    (hfree : (s.line k).owner ≠ none) : Claims tied (beginClaimWait n k t s) others := by
  have hu := h.unlisted
  have hk : ∃ e, (beginClaimWait n k t s).line k =
      { s.line k with waiters := (s.line k).waiters ++ [{ lane := n, expiry := e }] } :=
    ⟨_, by simp [beginClaimWait, enterWait, joinWaiters]; rfl⟩
  have hj : ∀ j, k ≠ j → (beginClaimWait n k t s).line j = s.line j := fun j hj => by
    simp [beginClaimWait, enterWait, joinWaiters, line_setLine_ne _ hj]
  have hlists : ∀ j m, ((beginClaimWait n k t s).line j).lists m = true ↔ (s.line j).lists m = true ∨ j = k ∧ m = n := by
    intro j m
    by_cases e : k = j
    · subst e
      obtain ⟨x, hx⟩ := hk
      rw [hx, OutLine.lists_iff, OutLine.lists_iff, List.map_append, List.mem_append]
      simp
    · rw [hj j e]; simp [Ne.symm e]
  have hnone : ∀ j m, m ≠ n → (s.line j).lists m = false → ((beginClaimWait n k t s).line j).lists m = false := by
    intro j m hm hl
    rw [← Bool.not_eq_true, hlists, hl]; simp [hm]
  have hself : (beginClaimWait n k t s).lane n = { s.lane n with state := .waitLine, wait := .claim k } := by
    simp [beginClaimWait, enterWait]
  have hother : ∀ m, n ≠ m → (beginClaimWait n k t s).lane m = s.lane m := fun m hm => beginClaimWait_other s n k t hm
  have hpart : (beginClaimWait n k t s).part = s.part := part_of_fixed (by simp)
  have hbind : tied → Bindings (beginClaimWait n k t s) := fun ht => by
    refine (h.claims.bindings ht).congr (fun j => ?_) fun g => ?_
    · by_cases e : k = j
      · subst e; obtain ⟨x, hx⟩ := hk; rw [hx]
      · rw [hj j e]
    · simp [beginClaimWait, enterWait]
  have hnd := List.nodup_cons.mp h.nodup
  refine ⟨fun j => ?_, fun m hm j => ?_, fun m hm => ?_, hbind⟩
  · by_cases e : k = j
    · subst e
      obtain ⟨x, hx⟩ := hk
      have hs := h.claims.lines k
      rw [hx]
      refine ⟨?_, fun m hm => ?_, fun hn => absurd hn hfree⟩
      · rw [List.map_append, List.nodup_append]
        refine ⟨hs.nodup, by simp, fun a ha b hb => ?_⟩
        obtain rfl : b = n := by simpa using hb
        exact fun e => (OutLine.not_lists_iff _ _).mp (hu k) (e ▸ ha)
      · have hne : n ≠ m := fun e => hown (e ▸ hm)
        have := hs.owner m hm
        simp [OutLine.lists, hne] at this ⊢
        exact this
    · rw [hj j e]; exact h.claims.lines j
  · exact hnone j m (fun e => hnd.1 (e ▸ hm)) (h.claims.working m (List.mem_cons_of_mem _ hm) j)
  · by_cases hmn : m = n
    · subst hmn
      refine ⟨fun hst => absurd (by rw [hself]) hst, fun _ => ⟨k, fun j => ?_, Or.inr ⟨by rw [hself], by rw [hself]; exact hq⟩⟩⟩
      rw [hlists, hu j]; simp
    · have hr := h.claims.resting m (fun hm' => (List.mem_cons.mp hm').elim hmn hm)
      refine ⟨fun hst j => hnone j m hmn (hr.rests (by rwa [hother m (Ne.symm hmn)] at hst) j), fun hst => ?_⟩
      obtain ⟨i, hi⟩ := hr.waits (by rwa [hother m (Ne.symm hmn)] at hst)
      refine ⟨i, fun j => ?_, by rw [hpart, hother m (Ne.symm hmn)]; exact hi.cue⟩
      rw [hlists, hi.lists]; simp [hmn]

theorem beginClaimWait_gains (n : LaneNo) (k : LineNo) (t : Half) (s : State) :
    Gains (· = n) s (beginClaimWait n k t s) := by
  have hline : ∀ j, ∃ ws, (beginClaimWait n k t s).line j = { s.line j with waiters := ws } := fun j => by
    by_cases e : k = j
    · subst e
      exact ⟨_, by simp [beginClaimWait, enterWait, joinWaiters]; rfl⟩
    · exact ⟨(s.line j).waiters, by simp [beginClaimWait, enterWait, joinWaiters, line_setLine_ne _ e]⟩
  refine ⟨fun j m hm => ?_, fun j => ?_, fun j hj => ?_⟩
  all_goals obtain ⟨ws, hw⟩ := hline j
  · rw [hw] at hm; exact Or.inl hm
  · rw [hw]
  · rw [hw]; exact hj

theorem carryClaim_stepped {n : LaneNo} {others : List LaneNo} {s : State} (h : Working tied n others s)
    (hq : (s.lane n).queue ≠ []) (k : LineNo) (t : Half) : Stepped tied n others s (carryClaim n k t s) := by
  unfold carryClaim claimAnswer; dsimp only
  split <;> rename_i ha
  · exact cueFault_stepped h _
  · exact done_stepped h hq _
  · have hk : (s.line k).owner = none := by grind
    have hd := done_stepped (grantLine_working h hk) (by rw [grantLine_lane]; exact hq) .executed
    refine ⟨hd.claims, hd.nodup, Nat.le_trans hd.cues (queuedCues_congr (grantLine_lanes _ _ _)).le, ?_⟩
    exact ((grantLine_gains n k s).mono fun _ => Or.inl).trans hd.gains
  · exact cueFault_stepped h _
  · have hk : (s.line k).owner ≠ some n ∧ (s.line k).owner ≠ none := by grind
    refine .rests h (beginClaimWait_claims t h hq hk.1 hk.2) ?_ (beginClaimWait_gains n k t s)
    refine queuedCues_own n 0 (fun m hm => beginClaimWait_other s n k t hm) ?_
    simp [beginClaimWait, enterWait]

/-- RELEASE of a mask the lane owns: the granted lanes' cues finish, then the lane's (R95, log 45). -/
theorem carryRelease_stepped {n : LaneNo} {others : List LaneNo} {s : State} (h : Working tied n others s)
    (hq : (s.lane n).queue ≠ []) (mask : Half) : Stepped tied n others s (carryRelease n mask s) := by
  obtain ⟨hr, hc⟩ := releaseAndGrant_released (maskLines mask) h.claims h.live
  unfold carryRelease; dsimp only
  generalize releaseAndGrant (maskLines mask) s = r at hr hc ⊢
  have hn : n ∉ r.2 := fun hm => hr.fresh n hm List.mem_cons_self
  have hw : n ∈ r.2 ++ (n :: others) := List.mem_append_right _ List.mem_cons_self
  have hd := finishCue_driven n .executed (hr.claims.working n hw)
  have ho : ∀ m, n ≠ m → (finishCue n .executed r.1).lane m = r.1.lane m := fun m hm => finishCue_other r.1 n _ hm
  have hcue : queuedCues (finishCue n .executed r.1) + 1 ≤ queuedCues r.1 :=
    queuedCues_own n 1 ho (finishCue_queue n .executed (by rw [hr.others n hn]; exact hq))
  have hnd := List.nodup_cons.mp h.nodup
  generalize finishCue n .executed r.1 = t at hd ho hcue ⊢
  refine ⟨(hr.claims.own hw hd ho).congr fun m => ?_, ?_, ?_, ?_⟩
  · simp only [Ran.own, if_true, List.mem_append, List.mem_cons, List.not_mem_nil]; tauto
  · show (n :: (r.2 ++ others)).Nodup
    refine List.nodup_cons.mpr ⟨fun hm => (List.mem_append.mp hm).elim hn hnd.1, hr.nodup.append hnd.2 fun m hm hm' => ?_⟩
    exact hr.fresh m hm (List.mem_cons_of_mem _ hm')
  · show queuedCues t + 1 + r.2.length ≤ queuedCues s
    omega
  · exact (hr.gains.trans (hd.gains _)).mono fun _ => Or.inr

/-- END: the cue finishes, the lane's lines are released and it ends (R16). -/
theorem carryEnd_stepped {n : LaneNo} {others : List LaneNo} {s : State} (h : Working tied n others s) : Stepped tied n others s (carryEnd n s) := by
  have hd0 := countCue_driven n .executed s
  have ho0 : ∀ m, n ≠ m → (countCue n .executed s).lane m = s.lane m := fun m hm => countCue_other s n _ hm
  have h0 := h.after hd0 ho0
  have hc0 : queuedCues (countCue n .executed s) ≤ queuedCues s :=
    queuedCues_own n 0 ho0 (by rw [countCue_queue, List.length_tail]; exact Nat.sub_le _ _)
  unfold carryEnd; dsimp only
  generalize countCue n .executed s = u at hd0 h0 hc0 ⊢
  obtain ⟨hr, hc⟩ := releaseAndGrant_released (ownedLines u n) h0.claims h0.live
  generalize releaseAndGrant (ownedLines u n) u = r at hr hc ⊢
  have hw : n ∈ r.2 ++ (n :: others) := List.mem_append_right _ List.mem_cons_self
  have hun := hr.claims.working n hw
  have hcease : Driven r.1 (ceaseLane n .ended r.1) := ceaseLane_driven n .ended hun
  have hself := ceaseLane_self r.1 n .ended
  have hother : ∀ m, n ≠ m → (ceaseLane n .ended r.1).lane m = r.1.lane m := fun m hm => ceaseLane_other r.1 n .ended hm
  generalize ceaseLane n .ended r.1 = v at hcease hself hother ⊢
  have hend : ∀ e, Driven r.1 (oweException n e (retirePages n .ended v)) := fun e => hcease.trans (.of_gens rfl rfl rfl)
  have hendSelf : ∀ e, ((oweException n e (retirePages n .ended v)).lane n).state = .ended
      ∧ ((oweException n e (retirePages n .ended v)).lane n).queue = [] := fun e => by
    rw [oweException_self, retirePages_self, hself]; exact ⟨rfl, rfl⟩
  have hendOther : ∀ e m, n ≠ m → (oweException n e (retirePages n .ended v)).lane m = r.1.lane m := fun e m hm => by
    rw [oweException_other _ n e hm, retirePages_other _ n _ hm, hother m hm]
  generalize Exception.mk _ _ _ _ = e
  specialize hend e
  specialize hendSelf e
  specialize hendOther e
  generalize oweException n e (retirePages n .ended v) = t at hend hendSelf hendOther ⊢
  have hnd := List.nodup_cons.mp h.nodup
  refine ⟨?_, hr.nodup.append hnd.2 fun m hm hm' => hr.fresh m hm (List.mem_cons_of_mem _ hm'), ?_, ?_⟩
  · refine Claims.restState (n := n) ((hr.claims.own hw hend hendOther).congr fun m => ?_) (by rw [hendSelf.1]; exact nofun)
    simp only [Ran.own, Bool.false_eq_true, if_false, List.nil_append, List.mem_append, List.mem_cons]; tauto
  · have ht := queuedCues_own n 0 hendOther (by rw [hendSelf.2]; exact Nat.zero_le _)
    show queuedCues t + 0 + r.2.length ≤ queuedCues s
    omega
  · exact ((hd0.gains _).trans (hr.gains.trans (hend.gains _))).mono fun _ => Or.inr

/-! ## A cue, a micro-step -/

theorem enterWait_stepped {n : LaneNo} {others : List LaneNo} {s : State} (h : Working tied n others s) {st : LaneState}
    (w : Wait) (hst : st ≠ .waitLine) : Stepped tied n others s (Ran.rest (enterWait n st w s)) :=
  .restsIn h (.of_gens (part_of_fixed (by simp)) (by simp) (by simp)) (fun m hm => enterWait_other s n st w hm)
    (by simpa [enterWait] using hst) (by simp [enterWait])

theorem carryOut_stepped {n : LaneNo} {others : List LaneNo} {s : State} (h : Working tied n others s)
    (hq : (s.lane n).queue ≠ []) (a : Action) : Stepped tied n others s (carryOut n a s) := by
  cases a with
  | nop => exact done_stepped h hq _
  | setLines mask levels =>
    unfold carryOut; dsimp only
    split
    · rename_i ho; exact doneAfter_stepped h hq _ (setLineLevels_driven levels ho) (setLineLevels_lanes _ _ _)
    · exact cueFault_stepped h _
  | pulse k active width =>
    unfold carryOut; dsimp only
    split
    · rename_i ho; exact doneAfter_stepped h hq _ (startPulse_driven active width ho) (startPulse_lanes _ _ _ _)
    · exact cueFault_stepped h _
  | wave k first d1 d2 periods =>
    unfold carryOut; dsimp only
    split
    · rename_i ho; exact doneAfter_stepped h hq _ (startWave_driven first d1 d2 periods ho) (startWave_lanes _ _ _ _ _ _)
    · exact cueFault_stepped h _
  | track k g m =>
    unfold carryOut; dsimp only
    split
    · exact cueFault_stepped h _
    · rename_i ho
      split
      · exact cueFault_stepped h _
      · rename_i hb
        exact doneAfter_stepped h hq _ (trackLine_driven m (by simpa using ho) (by simpa using hb)) (trackLine_lanes _ _ _ _)
  | captureOn mask =>
    exact doneAfter_stepped h hq _ (.of_gens (part_of_fixed (by simp)) (by simp) (by simp)) (setCaptures_lanes _ _ _)
  | captureOff mask =>
    exact doneAfter_stepped h hq _ (.of_gens (part_of_fixed (by simp)) (by simp) (by simp)) (setCaptures_lanes _ _ _)
  | mark v =>
    exact doneAfter_stepped h hq _ (.of_gens (part_of_fixed (by simp)) (by simp) (by simp)) (capture_lanes _ _)
  | waitInput k e timeout continues => exact enterWait_stepped h _ nofun
  | claim k timeout => exact carryClaim_stepped h hq k timeout
  | release mask =>
    unfold carryOut; dsimp only
    split
    · exact carryRelease_stepped h hq mask
    · exact cueFault_stepped h _
  | endLane => exact carryEnd_stepped h

theorem judgeCue_stepped {n : LaneNo} {others : List LaneNo} {s : State} (h : Working tied n others s)
    (hq : (s.lane n).queue ≠ []) (c : Cue) : Stepped tied n others s (judgeCue n c s) := by
  have hl : ∀ b, Stepped tied n others s (carryOut n c.action (setLateRun n b s)) := fun b =>
    Stepped.setLane (carryOut_stepped (h.setLane _) (by rw [lane_setLane_self]; exact hq) c.action) rfl
  unfold judgeCue; dsimp only
  split
  · exact hl false
  · split
    · exact hl true
    · exact done_stepped h hq _
    · exact cueFault_stepped h _

theorem setLaneState_driven (n : LaneNo) (st : LaneState) (s : State) : Driven s (setLaneState n st s) :=
  .of_gens (part_of_fixed (by simp)) (by simp) (by simp)

theorem setLaneState_stepped {n : LaneNo} {others : List LaneNo} {s : State} (h : Working tied n others s) {st : LaneState}
    (hst : st ≠ .waitLine) : Stepped tied n others s (Ran.rest (setLaneState n st s)) :=
  .restsIn h (setLaneState_driven n st s) (fun m hm => setLaneState_other s n st hm)
    (by rw [setLaneState_self]; exact hst) (by rw [setLaneState_self])

theorem resolveCue_stepped {n : LaneNo} {others : List LaneNo} {s : State} (h : Working tied n others s)
    (hq : (s.lane n).queue ≠ []) (c : Cue) : Stepped tied n others s (resolveCue n c s) := by
  unfold resolveCue; dsimp only
  split
  · exact cueFault_stepped h _
  · refine Stepped.setLane (l := { s.lane n with
      due := resolvedDue (s.lane n).anchor c, anchor := resolvedDue (s.lane n).anchor c }) ?_ rfl
    split
    · exact judgeCue_stepped (h.setLane _) (by rw [lane_setLane_self]; exact hq) c
    · exact setLaneState_stepped (h.setLane _) nofun

theorem startCue_stepped {n : LaneNo} {others : List LaneNo} {s : State} (h : Working tied n others s)
    (hq : (s.lane n).queue ≠ []) (q : QueuedCue) : Stepped tied n others s (startCue n q s) := by
  unfold startCue; dsimp only
  refine Stepped.setLane (l := { s.lane n with serial := (s.lane n).serial + 1, hasCurrent := true }) ?_ rfl
  split
  · exact cueFault_stepped (h.setLane _) _
  · exact resolveCue_stepped (h.setLane _) (by rw [lane_setLane_self]; exact hq) _

theorem starve_stepped {n : LaneNo} {others : List LaneNo} {s : State} (h : Working tied n others s) :
    Stepped tied n others s (Ran.rest (starve n s)) := by
  have hs : (starve n s).lane n = { s.lane n with state := .starved } := by
    unfold starve; dsimp only
    split <;> simp [setLaneState_self]
  exact .restsIn h (.of_gens (part_of_fixed (by simp)) (by simp) (by simp)) (fun m hm => starve_other s n hm)
    (by rw [hs]; exact nofun) (by rw [hs])

theorem takeNext_stepped {n : LaneNo} {others : List LaneNo} {s : State} (h : Working tied n others s) :
    Stepped tied n others s (takeNext n s) := by
  have hhold : Driven s (setHold n false s) := .of_gens (part_of_fixed (by simp)) (by simp) (by simp)
  unfold takeNext; dsimp only
  split
  · refine .restsIn h (hhold.trans (setLaneState_driven n _ _)) (fun m hm => ?_) ?_ ?_
    · rw [setLaneState_other _ n _ hm, setHold_other s n _ hm]
    · rw [setLaneState_self]; exact nofun
    · rw [setLaneState_self, setHold_self]
  · split
    · rename_i q rest hq
      exact startCue_stepped h (by rw [hq]; simp) q
    · split
      · exact laneFault_stepped h _ _
      · exact starve_stepped h

/-! ## The run -/

theorem shuffle_perm {α : Type} (fuel : Nat) (xs : List α) (s : State) : (shuffle fuel xs s).1.Perm xs := by
  induction fuel generalizing xs s with
  | zero =>
    match xs with
    | [] => exact .refl _
    | [_] => exact .refl _
    | _ :: _ :: _ => exact .refl _
  | succ fuel ih =>
    match xs with
    | [] => exact .refl _
    | [_] => exact .refl _
    | a :: b :: rest =>
      unfold shuffle; dsimp only
      split
      · exact .refl _
      · rename_i y hy
        obtain ⟨hlt, hget⟩ := List.getElem?_eq_some_iff.mp hy
        have hp := List.getElem_cons_eraseIdx_perm hlt
        rw [hget] at hp
        exact ((ih _ _).cons y).trans hp

theorem inFreeOrder_perm {α : Type} (xs : List α) (s : State) : (inFreeOrder xs s).1.Perm xs := shuffle_perm _ _ _

/-- The work after a micro-step, in some order (log 11). -/
theorem goOn_perm (n : LaneNo) (r : Ran) (others : List LaneNo) :
    (goOn n r others).1.Perm (r.own n ++ r.granted ++ others) := by
  unfold goOn Ran.own; dsimp only
  split
  · rename_i hg; rw [hg, List.append_nil]
  · rename_i g gs hg
    have hp := inFreeOrder_perm (g :: gs) r.state
    rw [hg]
    generalize inFreeOrder (g :: gs) r.state = q at hp ⊢
    generalize (if r.again = true then [n] else []) = own
    dsimp only
    split
    · exact (((hp.append_right own).trans List.perm_append_comm).append_right others)
    · exact ((hp.append_left own).append_right others)

/-- All lanes rest, and ownership has gone only to lanes that ran. -/
structure RunDone (tied : Prop) (work : List LaneNo) (s t : State) : Prop where
  claims : Claims tied t []
  gains : Gains (fun m => m ∈ work ∨ (s.lane m).state = .waitLine) s t

theorem Claims.perm {s : State} {work others : List LaneNo} (h : Claims tied s work) (hp : others.Perm work) :
    Claims tied s others := h.congr fun _ => hp.mem_iff

/-- With a cue's worth of fuel for each lane and each cue, a run ends with every lane at rest (log 11). -/
theorem runLanes_done (fuel : Nat) {work : List LaneNo} {s : State} (hf : 2 * queuedCues s + work.length ≤ fuel)
    (hc : Claims tied s work) (hn : work.Nodup) (hl : s.part ≠ .failed) : RunDone tied work s (runLanes fuel work s) := by
  induction fuel generalizing work s with
  | zero =>
    obtain rfl : work = [] := List.eq_nil_of_length_eq_zero (by omega)
    exact ⟨hc, (Driven.refl s).gains _⟩
  | succ fuel ih =>
    match work with
    | [] => exact ⟨hc, (Driven.refl s).gains _⟩
    | n :: others =>
      have hstep := takeNext_stepped (n := n) (others := others) ⟨hc, hn, hl⟩
      have hpart : (takeNext n s).state.part = s.part := part_of_fixed (takeNext_frame n s).fixed
      have hother : ∀ m, n ≠ m → (s.lane m).state ≠ .waitLine →
          (takeNext n s).state.lane m = s.lane m ∧ m ∉ (takeNext n s).granted := fun m hm h => takeNext_other n s hm h
      have hperm := goOn_perm n (takeNext n s) others
      obtain ⟨k, hk⟩ := goOn_state n (takeNext n s) others
      unfold runLanes; dsimp only
      generalize takeNext n s = r at hstep hpart hother hperm hk ⊢
      rw [hk]
      generalize (goOn n r others).1 = next at hperm ⊢
      have hlen : next.length = (r.own n).length + r.granted.length + others.length := by
        rw [hperm.length_eq, List.length_append, List.length_append]
      have hcues := hstep.cues
      have hsame : queuedCues { r.state with choices := k } = queuedCues r.state := rfl
      have hdone := ih (work := next) (s := { r.state with choices := k }) (by
          rw [hsame]; simp only [List.length_cons] at hf; omega)
        ((hstep.claims.choices k).perm hperm) (hperm.nodup_iff.mpr hstep.nodup) (by rw [← hpart] at hl; exact hl)
      have hdraw : Driven r.state { r.state with choices := k } := .of_gens rfl rfl rfl
      refine ⟨hdone.claims, Gains.trans (t := { r.state with choices := k }) ?_ (hdone.gains.mono ?_)⟩
      · refine Gains.trans (t := r.state) (hstep.gains.mono fun m hm => ?_) (hdraw.gains _)
        by_cases hmn : n = m
        · exact Or.inl (hmn ▸ List.mem_cons_self)
        · refine Or.inr (Decidable.byContradiction fun hst => (hother m hmn hst).2 (hm.resolve_left (Ne.symm hmn)))
      · intro m hm
        by_cases hmn : n = m
        · exact Or.inl (hmn ▸ List.mem_cons_self)
        · refine Decidable.byContradiction fun hnot => ?_
          simp only [List.mem_cons, not_or] at hnot
          obtain ⟨hlane, hg⟩ := hother m hmn hnot.2
          rcases hm with hm | hm
          · have hm' := hperm.mem_iff.mp hm
            simp only [List.mem_append, Ran.own] at hm'
            rcases hm' with (hm' | hm') | hm'
            · split at hm' <;> simp [Ne.symm hmn] at hm'
            · exact hg hm'
            · exact hnot.1.2 hm'
          · exact hnot.2 (hlane ▸ hm)

theorem runAll_done {work : List LaneNo} {s : State} (hc : Claims tied s work) (hn : work.Nodup) (hl : s.part ≠ .failed) :
    RunDone tied work s (runAll work s) := runLanes_done _ (Nat.le_refl _) hc hn hl

/-- A run after a first micro-step. -/
theorem runAfter_claims {n : LaneNo} {r : Ran} (hc : Claims tied r.state (r.own n ++ r.granted))
    (hn : (r.own n ++ r.granted).Nodup) (hl : r.state.part ≠ .failed) : Claims tied (runAfter n r) [] := by
  have hperm := goOn_perm n r []
  obtain ⟨k, hk⟩ := goOn_state n r []
  unfold runAfter; dsimp only
  rw [hk]
  generalize (goOn n r []).1 = next at hperm ⊢
  rw [List.append_nil] at hperm
  exact (runAll_done (s := { r.state with choices := k }) ((hc.choices k).perm hperm) (hperm.nodup_iff.mpr hn) hl).claims

theorem Stepped.runAfter {n : LaneNo} {s : State} {r : Ran} (h : Stepped tied n [] s r) (hl : r.state.part ≠ .failed) :
    Claims tied (runAfter n r) [] :=
  runAfter_claims (by simpa using h.claims) (by simpa using h.nodup) hl

end Sys2Proof.Machine
end

