-- ==== Sys2Proof/Proofs/LiveOperations.lean ====
section
/-!
SUPPORT. Outside FAILED: the claims, the bindings and the fit of lanes, lines and command to the part state are kept by each
operation of the fetchers, the lanes, the generators and the blocks beside them.
-/

namespace Sys2Proof.Machine

variable {tied : Prop}

/-! ## The session outside FAILED -/

/-- The invariant outside FAILED: claims and bindings are sound, the command in progress fits the part state, every lane is
OFF outside ACTIVE and every line in FLOAT before it. -/
structure Live (s : State) : Prop where
  live : s.part ≠ .failed
  claims : Claims True s []
  fits : commandFits s = true
  off : s.part ≠ .active → ∀ n, (s.lane n).state = .off
  float : s.part = .config ∨ s.part = .starting → ∀ k, (s.line k).mode = .float

/-- Part state and command in progress are as they were. -/
structure SamePhase (s t : State) : Prop where
  part : t.part = s.part
  command : t.engine.command = s.engine.command

theorem SamePhase.of_fixed {s t : State} (h : t.fixed = s.fixed) : SamePhase s t :=
  ⟨part_of_fixed h, congrArg (fun f => f.engine.command) h⟩

theorem SamePhase.trans {s t u : State} (h : SamePhase s t) (h' : SamePhase t u) : SamePhase s u :=
  ⟨h'.part.trans h.part, h'.command.trans h.command⟩

theorem SamePhase.fits {s t : State} (h : SamePhase s t) (hs : commandFits s = true) : commandFits t = true := by
  unfold commandFits; rw [h.part, h.command]; exact hs

theorem commandFits_none {s : State} (h : s.engine.command = none) : commandFits s = true := by
  unfold commandFits; rw [h]

/-- In ACTIVE nothing is asked of the lanes and the lines but their claims and bindings. -/
theorem Live.active {t : State} (hc : Claims True t []) (hp : t.part = .active) (hf : commandFits t = true) : Live t :=
  ⟨by rw [hp]; exact nofun, hc, hf, fun h => absurd hp h, fun h => by rw [hp] at h; rcases h with h | h <;> cases h⟩

theorem Live.run {s t : State} (h : Live s) (hp : s.part = .active) (hf : SamePhase s t) (hc : Claims True t []) : Live t :=
  .active hc (hf.part.trans hp) (hf.fits h.fits)

/-- A lane that is not OFF is one of an ACTIVE part. -/
theorem Live.active_of_lane {s : State} (h : Live s) {n : LaneNo} (hn : (s.lane n).state ≠ .off) : s.part = .active :=
  Decidable.byContradiction fun hp => hn (h.off hp n)

theorem Live.keep {s t : State} (h : Live s) (hp : t.part = s.part) (hf : commandFits t = true) (hc : Claims True t [])
    (ho : ∀ n, (s.lane n).state = .off → (t.lane n).state = .off)
    (hl : ∀ k, (s.line k).mode = .float → (t.line k).mode = .float) : Live t :=
  ⟨hp ▸ h.live, hc, hf, fun hne n => ho n (h.off (hp ▸ hne) n), fun hcs k => hl k (h.float (hp ▸ hcs) k)⟩

/-- An operation of the blocks that hold no lane and no line. -/
theorem Live.blocks {s t : State} (h : Live s) (hb : BlocksKept s t) (hp : t.part = s.part)
    (hf : commandFits t = true) : Live t :=
  h.keep hp hf
    (h.claims.of_tables (fun hf => hp.trans hf) (fun k => by rw [hb.line]) (fun k => by rw [hb.line])
      (fun n _ => by rw [hb.lane]; exact .refl _) (fun ht => (h.claims.bindings ht).of_blocks hb.lines hb.bound))
    (fun n hn => by rw [hb.lane]; exact hn) (fun k hk => by rw [hb.line]; exact hk)

theorem Live.blocksKept {s t : State} (h : Live s) (hb : BlocksKept s t) (hf : SamePhase s t) : Live t :=
  h.blocks hb hf.part (hf.fits h.fits)

/-! ## A fetcher's operations -/

/-- What the work of a fetcher leaves: its lane keeps its state, or was STARVED and has faulted (R44). -/
structure Fetched (n : LaneNo) (s t : State) : Prop where
  driven : ((s.lane n).state = .starved → Unlisted s n) → Driven s t
  kept : (s.lane n).ClaimKept (t.lane n)
  others : ∀ m, n ≠ m → t.lane m = s.lane m
  calm : (s.lane n).state ≠ .starved → t.lines = s.lines ∧ (t.lane n).state = (s.lane n).state

theorem Fetched.trans {n : LaneNo} {s t u : State} (h : Fetched n s t) (h' : Fetched n t u) : Fetched n s u where
  driven := fun hu => by
    refine (h.driven hu).trans (h'.driven fun ht => ?_)
    by_cases hs : (s.lane n).state = .starved
    · exact (h.driven hu).unlisted (hu hs)
    · exact absurd ((h.calm hs).2.symm.trans ht) hs
  kept := h.kept.trans h'.kept
  others := fun m hm => (h'.others m hm).trans (h.others m hm)
  calm := fun hs => by
    obtain ⟨hl, hst⟩ := h.calm hs
    obtain ⟨hl', hst'⟩ := h'.calm (by rw [hst]; exact hs)
    exact ⟨hl'.trans hl, hst'.trans hst⟩

/-- A change of a lane that leaves its state and its wait and takes no cue. -/
theorem Fetched.of_lane {n : LaneNo} {s t : State} (hp : t.part = s.part) (hl : t.lines = s.lines) (hg : t.gens = s.gens)
    (ho : ∀ m, n ≠ m → t.lane m = s.lane m) (hs : (t.lane n).state = (s.lane n).state)
    (hw : (t.lane n).wait = (s.lane n).wait) (hq : (s.lane n).queue ≠ [] → (t.lane n).queue ≠ []) : Fetched n s t where
  driven := fun _ => .of_gens hp hl hg
  kept := ⟨fun h => hs ▸ h, fun h => ⟨hs.trans h, hw, hq⟩⟩
  others := ho
  calm := fun _ => ⟨hl, hs⟩

theorem Fetched.refl (n : LaneNo) (s : State) : Fetched n s s := .of_lane rfl rfl rfl (fun _ _ => rfl) rfl rfl id

theorem Fetched.setLane {n : LaneNo} {s : State} {l : Lane} (hs : l.state = (s.lane n).state)
    (hw : l.wait = (s.lane n).wait) (hq : (s.lane n).queue ≠ [] → l.queue ≠ []) : Fetched n s (s.setLane n l) :=
  .of_lane rfl rfl rfl (fun _ hm => lane_setLane_ne s hm l) (by rw [lane_setLane_self]; exact hs)
    (by rw [lane_setLane_self]; exact hw) (by rw [lane_setLane_self]; exact hq)

theorem setStall_fetched (n : LaneNo) (st : Stall) (s : State) : Fetched n s (setStall n st s) :=
  .of_lane (part_of_fixed (by simp)) (by simp) (by simp) (fun _ hm => setStall_other s n st hm)
    (by rw [setStall_self]) (by rw [setStall_self]) (by rw [setStall_self]; exact id)

theorem fetchFault_fetched (n : LaneNo) (c : FaultCode) (a : Addr) (s : State) : Fetched n s (fetchFault n c a s) where
  driven := fetchFault_driven n c a
  kept := by
    by_cases h : (s.lane n).state = .starved
    · refine ⟨fun _ => ?_, fun hw => by rw [h] at hw; cases hw⟩
      rw [fetchFault_starved s n c a h, laneFault_self]; exact nofun
    · rw [fetchFault_self s n c a h]; exact .of_eq rfl rfl rfl
  others := fun _ hm => fetchFault_other s n c a hm
  calm := fun h => by
    refine ⟨?_, by rw [fetchFault_self s n c a h]⟩
    unfold fetchFault; dsimp only
    rw [setStall_self, lane_setLane_self, if_neg h, setStall_lines]; rfl

theorem presentFetch_fetched (n : LaneNo) (r : FetchRead) (s : State) : Fetched n s (presentFetch n r s) :=
  .setLane rfl rfl id

theorem presentHeader_fetched (n : LaneNo) (s : State) : Fetched n s (presentHeader n s) := by
  unfold presentHeader; dsimp only
  split
  · split
    · exact presentFetch_fetched n _ s
    · exact fetchFault_fetched n _ _ s
  · exact .refl n s

theorem presentBurst_fetched (n : LaneNo) (s : State) : Fetched n s (presentBurst n s) := by
  unfold presentBurst; dsimp only
  split
  · split
    · exact presentFetch_fetched n _ s
    · exact fetchFault_fetched n _ _ s
  · exact .refl n s

theorem presentLink_fetched (n : LaneNo) (s : State) : Fetched n s (presentLink n s) := by
  unfold presentLink; dsimp only
  split
  · exact presentFetch_fetched n _ s
  · exact fetchFault_fetched n _ _ s

theorem goToHeader_fetched (n : LaneNo) (a : Addr) (s : State) : Fetched n s (goToHeader n a s) := by
  have h : Fetched n s (s.setLane n { s.lane n with nextAddr := a, step := .header }) := .setLane rfl rfl id
  exact h.trans ((setStall_fetched n .none _).trans (presentHeader_fetched n _))

theorem judgeHead_fetched (n : LaneNo) (a : Addr) (s : State) : Fetched n s (judgeHead n a s) := by
  unfold judgeHead
  split
  · exact setStall_fetched n _ s
  · split
    · exact fetchFault_fetched n _ _ s
    · exact goToHeader_fetched n a s

theorem judgeLink_fetched (n : LaneNo) (a : Addr) (s : State) : Fetched n s (judgeLink n a s) := by
  unfold judgeLink
  split
  · exact setStall_fetched n _ s
  · split
    · exact fetchFault_fetched n _ _ s
    · exact goToHeader_fetched n a s

theorem takePage_fetched (n : LaneNo) (d : BitVec 256) (s : State) : Fetched n s (takePage n d s) := by
  have h : Fetched n s (s.setLane n { s.lane n with
      pages := (s.lane n).pages ++ [takenEntry (s.lane n).nextAddr d], fetchPage := some (s.lane n).nextAddr
      step := .cues }) := .setLane rfl rfl id
  exact h.trans ((setStall_fetched n .none _).trans (presentBurst_fetched n _))

theorem judgeHeader_fetched (n : LaneNo) (d : BitVec 256) (s : State) : Fetched n s (judgeHeader n d s) := by
  unfold judgeHeader; dsimp only
  split
  · exact takePage_fetched n d s
  · split
    · exact setStall_fetched n _ s
    · exact fetchFault_fetched n _ _ s

theorem startFetcher_fetched (n : LaneNo) (s : State) : Fetched n s (startFetcher n s) := by
  have h : Fetched n s (s.setLane n (s.lane n).fetcherStarted) := .setLane rfl rfl id
  exact h.trans (judgeHead_fetched n _ _)

theorem queueBurst_fetched (n : LaneNo) (cs : List (BitVec 256)) (s : State) : Fetched n s (queueBurst n cs s) :=
  .setLane rfl rfl fun h he => h (List.append_eq_nil_iff.mp he).1

theorem fetchOn_fetched (n : LaneNo) (s : State) : Fetched n s (fetchOn n s) := by
  unfold fetchOn; dsimp only
  split
  · exact presentBurst_fetched n s
  · have h : Fetched n s (s.setLane n { s.lane n with step := .link }) := .setLane rfl rfl id
    exact h.trans (presentLink_fetched n _)

theorem surveyFetcher_fetched (n : LaneNo) (s : State) : Fetched n s (surveyFetcher n s) := by
  unfold surveyFetcher; dsimp only
  split
  · split
    · exact presentFetch_fetched n _ s
    · exact presentLink_fetched n s
    · exact presentHeader_fetched n s
    · exact .refl n s
    · exact .refl n s
  · exact .refl n s

theorem clearFetch_fetched (n : LaneNo) (s : State) : Fetched n s (clearFetch n s) := .setLane rfl rfl id

theorem headFieldRead_fetched (n : LaneNo) (a : Addr) (s : State) : Fetched n s (headFieldRead n a s) := by
  have h : Fetched n s (s.setLane n { s.lane n with config := { (s.lane n).config with head := a } }) := .setLane rfl rfl id
  exact h.trans (judgeHead_fetched n a _)

theorem fetchErrored_fetched (n : LaneNo) (r : FetchRead) (s : State) : Fetched n s (fetchErrored n r s) := by
  have h : Fetched n s (s.setLane n { s.lane n with reserved := 0 }) := .setLane rfl rfl id
  exact h.trans (fetchFault_fetched n _ _ _)

theorem issueFetch_fetched (n : LaneNo) (r : FetchRead) (s : State) : Fetched n s (issueFetch n r s) := .setLane rfl rfl id

theorem presentWaitingHeader_fetched (n : LaneNo) (s : State) : Fetched n s (presentWaitingHeader n s) := by
  unfold presentWaitingHeader
  split
  · exact presentHeader_fetched n s
  · exact .refl n s

/-- A lane that is STARVED stands in no waiter list. -/
theorem Claims.unlisted_of_starved {s : State} {work : List LaneNo} (h : Claims tied s work) {n : LaneNo}
    (hn : (s.lane n).state = .starved) : Unlisted s n := by
  by_cases hw : n ∈ work
  · exact h.working n hw
  · exact (h.resting n hw).rests (by rw [hn]; exact nofun)

theorem Claims.fetched {s t : State} {work : List LaneNo} {n : LaneNo} (h : Claims tied s work) (hf : Fetched n s t) :
    Claims tied t work := by
  refine h.kept (hf.driven fun hn => h.unlisted_of_starved hn) fun m _ => ?_
  by_cases hm : n = m
  · exact hm ▸ hf.kept
  · rw [hf.others m hm]; exact .refl _

theorem Live.fetched {s t : State} {n : LaneNo} (h : Live s) (hf : Fetched n s t) (hp : SamePhase s t) : Live t := by
  by_cases ha : s.part = .active
  · exact h.run ha hp (h.claims.fetched hf)
  · have hn : (s.lane n).state ≠ .starved := by rw [h.off ha n]; exact nofun
    obtain ⟨hl, hst⟩ := hf.calm hn
    refine h.keep hp.part (hp.fits h.fits) (h.claims.fetched hf) (fun m hm => ?_) fun k hk => ?_
    · by_cases hnm : n = m
      · subst hnm; rw [hst]; exact hm
      · rw [hf.others m hnm]; exact hm
    · rw [show t.line k = s.line k from congrArg (fun v => v[k]) hl]; exact hk

/-- An operation done for each of a list. -/
theorem Live.each {α : Type} {f : α → State → State} (h : ∀ x s, Live s → Live (f x s)) (xs : List α) {s : State}
    (hs : Live s) : Live (State.each xs f s) := each_induct Live h xs s hs

theorem Live.choices {s : State} (h : Live s) (k : Nat) : Live { s with choices := k } :=
  h.blocksKept (.of_gens rfl rfl rfl) ⟨rfl, rfl⟩

theorem Live.inFreeOrder {α : Type} {s : State} (h : Live s) (xs : List α) : Live (inFreeOrder xs s).2 := by
  obtain ⟨k, hk⟩ := inFreeOrder_state xs s
  rw [hk]; exact h.choices k

/-! ## Generators -/

/-- A line whose mode is as it was, or has toggled in TRACK (R128). -/
def OutMode.ToggledFrom (old new : OutMode) : Prop :=
  new = old ∨ ∃ g l l', old = .track l g ∧ new = .track l' g

theorem OutMode.ToggledFrom.trans {a b c : OutMode} (h : a.ToggledFrom b) (h' : b.ToggledFrom c) : a.ToggledFrom c := by
  rcases h' with rfl | ⟨g, l, l', hb, hc⟩
  · exact h
  · rcases h with rfl | ⟨g', m, m', ha, hb'⟩
    · exact Or.inr ⟨g, l, l', hb, hc⟩
    · rw [hb'] at hb
      cases hb
      exact Or.inr ⟨g, m, l', ha, hc⟩

theorem OutMode.ToggledFrom.tracked {a b : OutMode} (h : a.ToggledFrom b) : b.tracked = a.tracked := by
  rcases h with rfl | ⟨g, l, l', rfl, rfl⟩
  · rfl
  · rfl

theorem OutMode.ToggledFrom.float {a b : OutMode} (h : a.ToggledFrom b) (ha : a = .float) : b = .float := by
  rcases h with rfl | ⟨g, l, l', rfl, rfl⟩
  · exact ha
  · cases ha

/-- Lines in TRACK may have toggled; nothing else of a line, no lane and no binding has changed. -/
structure Toggled (s t : State) : Prop where
  lanes : t.lanes = s.lanes
  bound : ∀ g, (t.gen g).bound = (s.gen g).bound
  owner : ∀ k, (t.line k).owner = (s.line k).owner
  waiters : ∀ k, (t.line k).waiters = (s.line k).waiters
  mode : ∀ k, (s.line k).mode.ToggledFrom (t.line k).mode

namespace Toggled

theorem of_blocks {s t : State} (h : BlocksKept s t) : Toggled s t :=
  ⟨h.lanes, h.bound, fun k => by rw [h.line], fun k => by rw [h.line], fun k => Or.inl (by rw [h.line])⟩

theorem refl (s : State) : Toggled s s := .of_blocks (.refl s)

theorem trans {s t u : State} (h : Toggled s t) (h' : Toggled t u) : Toggled s u :=
  ⟨h'.lanes.trans h.lanes, fun g => (h'.bound g).trans (h.bound g), fun k => (h'.owner k).trans (h.owner k),
    fun k => (h'.waiters k).trans (h.waiters k), fun k => (h.mode k).trans (h'.mode k)⟩

/-- A change of a generator that leaves its binding. -/
theorem setGen {s : State} {g : GenNo} {x : Generator} (h : x.bound = (s.gen g).bound) : Toggled s (s.setGen g x) :=
  .of_blocks ⟨rfl, rfl, fun j => by
    rw [gen_setGen]
    split
    · rename_i e; subst e; exact h
    · rfl⟩

end Toggled

theorem toggleLine_toggled (k : LineNo) (g : GenNo) (s : State) : Toggled s (toggleLine k g s) := by
  unfold toggleLine
  split
  · rename_i l g' hm
    split
    · rename_i e
      have hline : ∀ j, ∃ m, (setMode k (.track (opposite l) g) s).line j = { s.line j with mode := m }
          ∧ (s.line j).mode.ToggledFrom m := fun j => by
        by_cases hj : k = j
        · subst hj
          exact ⟨_, setMode_self _ _ _, Or.inr ⟨g, l, opposite l, by rw [hm, e], rfl⟩⟩
        · exact ⟨_, setMode_other _ _ _ hj, Or.inl rfl⟩
      refine ⟨rfl, fun _ => rfl, fun j => ?_, fun j => ?_, fun j => ?_⟩
      all_goals
        obtain ⟨m, he, ht⟩ := hline j
        rw [he]
      exact ht
    · exact .refl s
  all_goals exact .refl s

theorem emitDerivedEdge_toggled (g : GenNo) (s : State) : Toggled s (emitDerivedEdge g s) := by
  unfold emitDerivedEdge; dsimp only
  split
  · exact .refl s
  · refine Toggled.trans (Toggled.setGen ?_) (toggleLine_toggled _ _ _)
    rfl

theorem startPhase_bound (x : Generator) (t : Ticks) : (x.startPhase t).bound = x.bound := by
  unfold Generator.startPhase; rfl

theorem startPhase_toggled (g : GenNo) (t : Ticks) (s : State) : Toggled s (startPhase g t s) := by
  unfold startPhase; dsimp only
  split
  · exact .setGen (startPhase_bound (s.gen g) t)
  · split
    · exact .setGen (startPhase_bound (s.gen g) t)
    · exact (Toggled.setGen (startPhase_bound (s.gen g) t)).trans (emitDerivedEdge_toggled g _)

theorem setGenState_toggled (g : GenNo) (st : GenState) (s : State) : Toggled s (setGenState g st s) := by
  unfold setGenState
  split
  · exact .refl s
  · refine Toggled.trans (Toggled.setGen ?_) (.of_blocks (markStale_blocks _ _))
    rfl

theorem reportTransition_toggled (g : GenNo) (t : Ticks) (s : State) : Toggled s (reportTransition g t s) := by
  unfold reportTransition; dsimp only
  refine (Toggled.of_blocks ((capture_blocks _ s).trans (markStale_blocks (.genStatus g) _))).trans (Toggled.setGen ?_)
  rfl

theorem noteRealEdge_toggled (g : GenNo) (c : Ticks) (s : State) : Toggled s (noteRealEdge g c s) := .setGen rfl

theorem lockOn_toggled (g : GenNo) (p : Word) (c : Ticks) (s : State) : Toggled s (lockOn g p c s) := by
  have h : Toggled s (s.setGen g { s.gen g with period := p }) := .setGen rfl
  exact h.trans ((startPhase_toggled g c _).trans (setGenState_toggled g _ _))

theorem loseByGap_toggled (g : GenNo) (t : Ticks) (s : State) : Toggled s (loseByGap g t s) := by
  have h : Toggled s (s.setGen g { s.gen g with nextIndex := (s.gen g).phaseMultiplier, holdoverSeen := false }) :=
    .setGen rfl
  exact h.trans ((setGenState_toggled g _ _).trans (reportTransition_toggled g t _))

theorem realEdge_toggled (g : GenNo) (c t : Ticks) (s : State) : Toggled s (realEdge g c t s) := by
  have hseen : ∀ u : State, Toggled u (u.setGen g { u.gen g with holdoverSeen := false }) := fun u => .setGen rfl
  unfold realEdge; dsimp only
  refine (noteRealEdge_toggled g c s).trans ?_
  generalize noteRealEdge g c s = u
  split
  · exact (hseen u).trans (setGenState_toggled g _ _)
  · split
    · exact .refl u
    · rename_i p _
      exact (lockOn_toggled g p c u).trans ((hseen _).trans (reportTransition_toggled g t _))
  · split
    · exact loseByGap_toggled g t u
    · exact lockOn_toggled g _ c u
  · exact (startPhase_toggled g c u).trans (setGenState_toggled g _ _)
  · exact (startPhase_toggled g c u).trans (setGenState_toggled g _ _)
  · split
    · exact loseByGap_toggled g t u
    · rename_i p _
      refine Toggled.trans ?_ (hseen _)
      split
      · exact (lockOn_toggled g p c u).trans (reportTransition_toggled g t _)
      · exact lockOn_toggled g p c u

theorem virtualEdge_toggled (g : GenNo) (s : State) : Toggled s (virtualEdge g s) := by
  have hset : ∀ v h, Toggled s (s.setGen g { s.gen g with virtuals := v, holdoverSeen := h }) := fun _ _ => .setGen rfl
  unfold virtualEdge; dsimp only
  split
  · exact .refl s
  · exact .refl s
  · exact (hset 1 _).trans ((startPhase_toggled g _ _).trans (setGenState_toggled g _ _))
  · exact (hset 1 _).trans ((startPhase_toggled g _ _).trans (setGenState_toggled g _ _))
  · exact (hset 2 true).trans ((startPhase_toggled g _ _).trans
      ((setGenState_toggled g _ _).trans (reportTransition_toggled g _ _)))
  · exact (hset _ _).trans (startPhase_toggled g _ _)

theorem Live.toggled {s t : State} (h : Live s) (ht : Toggled s t) (hp : SamePhase s t) : Live t := by
  have hlane : ∀ n, t.lane n = s.lane n := fun n => congrArg (fun v => v[n]) ht.lanes
  exact h.keep hp.part (hp.fits h.fits)
    (h.claims.of_tables (fun hf => hp.part.trans hf) ht.owner ht.waiters (fun n _ => by rw [hlane]; exact .refl _)
      (fun hb => (h.claims.bindings hb).congr (fun k => (ht.mode k).tracked) ht.bound))
    (fun n hn => by rw [hlane]; exact hn) (fun k hk => (ht.mode k).float hk)

end Sys2Proof.Machine
end

