-- ==== Sys2Proof/Proofs/LiveRuns.lean ====
section
/-!
SUPPORT. Outside FAILED: what sets lanes running keeps the claims and the bindings sound: waits that end, dues and claims that
are reached, stops, restarts, resumes, edges and steps of schedule time (R13, R24, R25, R64, R93, R111).
-/

namespace Sys2Proof.Machine

variable {tied : Prop}

/-! ## A lane leaves the waiter lists -/

/-- A lane's entries are withdrawn from every list, and it joins the work. -/
theorem Claims.leave {s t : State} {work : List LaneNo} {n : LaneNo} (h : Claims tied s work)
    (hp : s.part = .failed → t.part = .failed) (ho : ∀ k, (t.line k).owner = (s.line k).owner)
    (hw : ∀ k, (t.line k).waiters = (s.line k).waiters.filter fun w => w.lane ≠ n)
    (hl : ∀ m, n ≠ m → t.lane m = s.lane m) (hb : tied → Bindings t) : Claims tied t (n :: work) := by
  have hlists : ∀ k m, (t.line k).lists m = true ↔ (s.line k).lists m = true ∧ m ≠ n := fun k m => by
    rw [OutLine.lists_iff, OutLine.lists_iff, hw]
    simp only [List.mem_map, List.mem_filter, decide_eq_true_eq]
    constructor
    · rintro ⟨w, ⟨hm, hne⟩, rfl⟩; exact ⟨⟨w, hm, rfl⟩, hne⟩
    · rintro ⟨⟨w, hm, rfl⟩, hne⟩; exact ⟨w, ⟨hm, hne⟩, rfl⟩
  have hnot : ∀ k m, (s.line k).lists m = false → (t.line k).lists m = false := fun k m hm => by
    rw [← Bool.not_eq_true, hlists, hm]; simp
  refine ⟨fun k => ⟨?_, fun m hm => hnot k m ((h.lines k).owner m (ho k ▸ hm)), fun hn => ?_⟩, fun m hm k => ?_,
    fun m hm => ?_, hb⟩
  · rw [hw]
    exact (h.lines k).nodup.sublist (List.filter_sublist.map _)
  · rw [hw, (h.lines k).free (ho k ▸ hn)]; rfl
  · rcases List.mem_cons.mp hm with rfl | hm
    · rw [← Bool.not_eq_true, hlists]; simp
    · exact hnot k m (h.working m hm k)
  · have hmn : m ≠ n := fun e => hm (e ▸ List.mem_cons_self)
    have hr := h.resting m (fun hm' => hm (List.mem_cons_of_mem _ hm'))
    have hlane := hl m (Ne.symm hmn)
    refine ⟨fun hst k => hnot k m (hr.rests (hlane ▸ hst) k), fun hst => ?_⟩
    obtain ⟨k, hk⟩ := hr.waits (hlane ▸ hst)
    refine ⟨k, fun j => ?_, by rw [hlane]; exact hk.cue.imp_left hp⟩
    rw [hlists, hk.lists]
    exact ⟨And.left, fun e => ⟨e, hmn⟩⟩

/-- Withdrawing a wait takes the lane out of every list. -/
theorem withdrawWait_waiters {s : State} {n : LaneNo} (h : LaneClaim s n) (hl : s.part ≠ .failed) (k : LineNo) :
    (withdrawWait n s).line k = { s.line k with waiters := (s.line k).waiters.filter fun w => w.lane ≠ n } := by
  rw [withdrawWait_line]
  split
  · rfl
  · rename_i hw
    have hk : (s.line k).lists n = false := Bool.eq_false_iff.mpr fun hlist => by
      have hst : (s.lane n).state = .waitLine := Decidable.byContradiction fun hne => by
        have := h.rests hne k
        rw [hlist] at this; cases this
      obtain ⟨j, hj⟩ := h.waits hst
      obtain rfl := (hj.lists k).mp hlist
      exact hw (hj.cue.resolve_left hl).1
    rw [leaveWaiters_unlisted hk]

/-- A lane whose execution ceases stands in no list (R16, R19, R24). -/
theorem ceaseLane_claims {s : State} {n : LaneNo} (h : Claims tied s []) (hl : s.part ≠ .failed) (st : LaneState) :
    Claims tied (ceaseLane n st s) [n] := by
  have hline : ∀ k, (ceaseLane n st s).line k =
      { s.line k with waiters := (s.line k).waiters.filter fun w => w.lane ≠ n } := fun k => by
    rw [ceaseLane_line, withdrawWait_waiters (h.resting n List.not_mem_nil) hl]
  have hg : (ceaseLane n st s).gens = s.gens := by simp
  have hp : (ceaseLane n st s).part = s.part := part_of_fixed (ceaseLane_fixed n st s)
  refine h.leave (fun hf => absurd hf hl) (fun k => by rw [hline]) (fun k => by rw [hline])
    (fun m hm => ceaseLane_other s n st hm) (fun ht => (h.bindings ht).congr (fun k => by rw [hline]) fun g => ?_)
  exact congrArg (fun v => Generator.bound v[g]) hg

/-! ## LANE_STOP on one lane -/

theorem mem_ownedLines (s : State) (n : LaneNo) (k : LineNo) : k ∈ ownedLines s n ↔ (s.line k).owner = some n := by
  simp [ownedLines, owns, mem_allLines]

/-- A lane has been stopped: it owns no line, and its lines went to rest or to waiting lanes (R24, R94). -/
structure Stopped (tied : Prop) (n : LaneNo) (s t : State) : Prop where
  claims : Claims tied t []
  owners : ∀ k m, (t.line k).owner = some m → m ≠ n ∧ ((s.line k).owner = some m ∨ (s.lane m).state = .waitLine)
  rest : ∀ k, (t.line k).rest = (s.line k).rest
  atRest : ∀ k, (s.line k).AtRestIfFree ∨ (s.line k).owner = some n → (t.line k).AtRestIfFree

/-- Lines that a lane released, the runs of the lanes they were granted to, and operations on that lane between. -/
theorem releases_done {n : LaneNo} {s t u : State} {granted : List LaneNo} (hl : s.part ≠ .failed)
    (hr : Released tied (ownedLines s n) [n] s t granted) (hd : Driven t u) (ho : ∀ m, n ≠ m → u.lane m = t.lane m)
    (hst : (u.lane n).state ≠ .waitLine) (hp : t.part = s.part) :
    Stopped tied n s (runAll (inFreeOrder granted u).1 (inFreeOrder granted u).2) := by
  have hn : n ∉ granted := fun hm => hr.fresh n hm List.mem_cons_self
  have hperm := inFreeOrder_perm granted u
  obtain ⟨k, hk⟩ := inFreeOrder_state granted u
  generalize inFreeOrder granted u = q at hperm hk ⊢
  rw [hk]
  have hc : Claims tied u granted := by
    have h1 := hr.claims.own (n := n) (List.mem_append_right _ List.mem_cons_self) hd ho
    exact Claims.restState (n := n) (h1.congr fun m => by simp only [List.mem_cons, List.mem_append, List.not_mem_nil]; tauto) hst
  have hpart : u.part ≠ .failed := by rw [hd.part, hp]; exact hl
  have hrun := runAll_done (work := q.1) (s := { u with choices := k }) ((hc.choices k).perm hperm)
    (hperm.nodup_iff.mpr hr.nodup) hpart
  generalize runAll q.1 { u with choices := k } = v at hrun ⊢
  have hgain : ∀ j m, (v.line j).owner = some m → m ≠ n ∧ ((s.line j).owner = some m ∨ (s.lane m).state = .waitLine) := by
    intro j m hm
    have hwait : ∀ m, m ∈ granted → m ≠ n ∧ (s.lane m).state = .waitLine := fun m hm =>
      ⟨fun e => hn (e ▸ hm), (hr.waited m hm).1⟩
    rcases hrun.gains.owners j m hm with hu | hm | hm
    · have hu' : (t.line j).owner = some m := (hd.owner j).symm.trans hu
      rcases hr.left j m hu' with ⟨hs, hnot⟩ | hm
      · exact ⟨fun e => hnot ((mem_ownedLines s n j).mpr (e ▸ hs)), Or.inl hs⟩
      · exact ⟨(hwait m hm).1, Or.inr (hwait m hm).2⟩
    · have := hwait m (hperm.mem_iff.mp hm)
      exact ⟨this.1, Or.inr this.2⟩
    · have hmn : n ≠ m := fun e => hst (e ▸ hm)
      by_cases hg : m ∈ granted
      · exact ⟨Ne.symm hmn, Or.inr (hwait m hg).2⟩
      · refine ⟨Ne.symm hmn, Or.inr ?_⟩
        have hm' : (u.lane m).state = .waitLine := hm
        rwa [ho m hmn, hr.others m hg] at hm'
  refine ⟨hrun.claims, hgain, fun j => ?_, fun j hj => ?_⟩
  · exact (hrun.gains.rest j).trans ((hd.rest j).trans (hr.rest j))
  · exact hrun.gains.atRest j (hd.atRest (hr.atRest j (hj.imp_right (mem_ownedLines s n j).mpr)))

theorem stopLane_stopped {s : State} (h : Claims tied s []) (hl : s.part ≠ .failed) (n : LaneNo) :
    Stopped tied n s (stopLane n s) := by
  have hc := ceaseLane_claims (n := n) h hl .off
  have hline : ∀ k, (ceaseLane n .off s).line k =
      { s.line k with waiters := (s.line k).waiters.filter fun w => w.lane ≠ n } := fun k => by
    rw [ceaseLane_line, withdrawWait_waiters (h.resting n List.not_mem_nil) hl]
  have hp : (ceaseLane n .off s).part = s.part := part_of_fixed (ceaseLane_fixed n .off s)
  have hself := ceaseLane_self s n .off
  have hother : ∀ m, n ≠ m → (ceaseLane n .off s).lane m = s.lane m := fun m hm => ceaseLane_other s n .off hm
  unfold stopLane; dsimp only
  generalize ceaseLane n .off s = v at hc hline hp hself hother ⊢
  have hlv : v.part ≠ .failed := by rw [hp]; exact hl
  obtain ⟨hr, _⟩ := releaseAndGrant_released (ownedLines v n) hc hlv
  have hpr : (releaseAndGrant (ownedLines v n) v).1.part = v.part := part_of_fixed (by simp)
  generalize releaseAndGrant (ownedLines v n) v = r at hr hpr ⊢
  have hn : n ∉ r.2 := fun hm => hr.fresh n hm List.mem_cons_self
  have hoff : ((retirePages n .stopped r.1).lane n).state ≠ .waitLine := by
    rw [retirePages_self, hr.others n hn, hself]; exact nofun
  have hs := releases_done (u := retirePages n .stopped r.1) hlv hr (.of_gens rfl rfl rfl)
    (fun m hm => retirePages_other r.1 n _ hm) hoff hpr
  refine ⟨hs.claims, fun k m hm => ?_, fun k => ?_, fun k hk => hs.atRest k ?_⟩
  · obtain ⟨hmn, ho⟩ := hs.owners k m hm
    rw [hline, hother m (Ne.symm hmn)] at ho
    exact ⟨hmn, ho⟩
  · rw [hs.rest, hline]
  · rw [hline]; exact hk

/-! ## Events that set a lane running -/

theorem Claims.begin {s : State} (h : Claims tied s []) {n : LaneNo} (hl : s.part ≠ .failed)
    (hn : (s.lane n).state ≠ .waitLine) : Working tied n [] s := ⟨h.cons hn, List.nodup_singleton n, hl⟩

theorem takeNext_part (n : LaneNo) (s : State) : (takeNext n s).state.part = s.part :=
  part_of_fixed (takeNext_frame n s).fixed

theorem judgeCue_part (n : LaneNo) (c : Cue) (s : State) : (judgeCue n c s).state.part = s.part :=
  part_of_fixed (judgeCue_frame n c s).fixed

theorem runNext_claims {s : State} (h : Claims tied s []) {n : LaneNo} (hl : s.part ≠ .failed)
    (hn : (s.lane n).state ≠ .waitLine) : Claims tied (runAfter n (takeNext n s)) [] :=
  (takeNext_stepped (h.begin hl hn)).runAfter (by rw [takeNext_part]; exact hl)

theorem Lane.current_queue {l : Lane} {c : Cue} (h : l.current = some c) : l.queue ≠ [] := by
  unfold Lane.current at h
  intro e
  rw [e] at h
  cases h

theorem runJudged_claims {s : State} (h : Claims tied s []) {n : LaneNo} {c : Cue} (hl : s.part ≠ .failed)
    (hn : (s.lane n).state ≠ .waitLine) (hc : (s.lane n).current = some c) : Claims tied (runAfter n (judgeCue n c s)) [] :=
  (judgeCue_stepped (h.begin hl hn) (Lane.current_queue hc) c).runAfter (by rw [judgeCue_part]; exact hl)

theorem takeDue_claims {s : State} (h : Claims tied s []) {n : LaneNo} (hl : s.part ≠ .failed)
    (hn : (s.lane n).state ≠ .waitLine) : Claims tied (takeDue n s) [] := by
  unfold takeDue
  split
  · exact h
  · rename_i c hc; exact runJudged_claims h hl hn hc

theorem endWait_claims {s : State} (h : Claims tied s []) {n : LaneNo} (hl : s.part ≠ .failed)
    (hn : (s.lane n).state ≠ .waitLine) (a : Ticks) : Claims tied (endWait n a s) [] := by
  have hw := (h.begin hl hn).setLane { s.lane n with anchor := a }
  unfold endWait
  generalize s.setLane n { s.lane n with anchor := a } = u at hw ⊢
  have hd := finishCue_driven n .executed hw.unlisted
  refine runAfter_claims (r := Ran.done n .executed u) ?_ (List.nodup_singleton n) ?_
  · exact (hw.after hd fun m hm => finishCue_other u n _ hm).claims
  · show (finishCue n .executed u).part ≠ .failed
    rw [hd.part]; exact hw.live

theorem laneFault_claims {s : State} {work : List LaneNo} {n : LaneNo} (h : Claims tied s (n :: work)) (c : FaultCode) (a : Addr) :
    Claims tied (laneFault n c a s) work :=
  (h.own List.mem_cons_self (laneFault_driven n c a (h.working n List.mem_cons_self))
    fun m hm => laneFault_other s n c a hm).restState (by rw [laneFault_self]; exact nofun)

theorem dueReady_active {s : State} {n : LaneNo} (h : dueReady s n = true) :
    s.part = .active ∧ (s.lane n).state = .pending := by
  simp only [dueReady, Bool.and_eq_true, decide_eq_true_eq] at h
  exact ⟨h.1.1.1, h.1.1.2⟩

theorem inputWait_state {s : State} {n : LaneNo} {w : InputWait} (h : inputWait s n = some w) :
    (s.lane n).state = .waitInput := by
  unfold inputWait at h
  split at h
  · assumption
  · cases h

theorem Live.takeDue {s : State} (h : Live s) {n : LaneNo} (hd : dueReady s n = true) : Live (takeDue n s) := by
  obtain ⟨ha, hst⟩ := dueReady_active hd
  exact h.run ha (.of_fixed (takeDue_frame n s).fixed) (takeDue_claims h.claims h.live (by rw [hst]; exact nofun))

theorem Live.endWait {s : State} (h : Live s) {n : LaneNo} {w : InputWait} (hw : inputWait s n = some w) (a : Ticks) :
    Live (endWait n a s) := by
  have hst := inputWait_state hw
  exact h.run (h.active_of_lane (n := n) (by rw [hst]; exact nofun)) (.of_fixed (endWait_frame n a s).fixed)
    (endWait_claims h.claims h.live (by rw [hst]; exact nofun) a)

theorem Live.expireWait {s : State} (h : Live s) (n : LaneNo) : Live (expireWait n s) := by
  have hf := (expireWait_frame n s).fixed
  unfold Machine.expireWait at hf ⊢
  cases hw : inputWait s n with
  | none => exact h
  | some w =>
    rw [hw] at hf
    dsimp only at hf ⊢
    have hst := inputWait_state hw
    split
    · exact h.endWait hw _
    · rename_i hc
      rw [if_neg hc] at hf
      exact h.run (h.active_of_lane (n := n) (by rw [hst]; exact nofun)) (.of_fixed hf)
        (laneFault_claims (h.claims.cons (by rw [hst]; exact nofun)) _ _)

/-- An entry that expires is that of a lane in WAIT_LINE, which faults (R93). -/
theorem Live.expireClaim {s : State} (h : Live s) {k : LineNo} {n : LaneNo} (hx : claimExpired s k n = true) :
    Live (expireClaim k n s) := by
  have hlist : (s.line k).lists n = true := by
    simp only [claimExpired, Bool.and_eq_true, List.any_eq_true] at hx
    obtain ⟨_, w, hw, hlane, _⟩ := hx
    rw [OutLine.lists_iff]
    exact List.mem_map.mpr ⟨w, hw, of_decide_eq_true hlane⟩
  have hr := h.claims.resting n List.not_mem_nil
  have hst : (s.lane n).state = .waitLine := Decidable.byContradiction fun hne => by
    have := hr.rests hne k
    rw [hlist] at this; cases this
  obtain ⟨i, hi⟩ := hr.waits hst
  obtain rfl := (hi.lists k).mp hlist
  have hline : ∀ j, (leaveWaiters k n s).line j =
      { s.line j with waiters := (s.line j).waiters.filter fun w => w.lane ≠ n } := fun j => by
    unfold leaveWaiters; dsimp only
    by_cases hj : k = j
    · subst hj; rw [line_setLine_self]
    · rw [line_setLine_ne _ hj, leaveWaiters_unlisted]
      exact Bool.eq_false_iff.mpr fun hl => hj ((hi.lists j).mp hl).symm
  have hc : Claims True (leaveWaiters k n s) [n] :=
    h.claims.leave (fun hf => hf) (fun j => by rw [hline]) (fun j => by rw [hline]) (fun m _ => by simp)
      (fun ht => (h.claims.bindings ht).congr (fun j => by rw [hline]) fun _ => rfl)
  refine h.run (h.active_of_lane (n := n) (by rw [hst]; exact nofun)) (.of_fixed (expireClaim_frame k n s).fixed) ?_
  unfold Machine.expireClaim; dsimp only
  rw [if_pos (by rw [leaveWaiters_lane]; exact hst)]
  exact laneFault_claims hc _ _

theorem Live.runDueLanes {s : State} (h : Live s) : Live (runDueLanes s) := by
  unfold Machine.runDueLanes; dsimp only
  refine Live.each (fun n t ht => ?_) _ (h.inFreeOrder _)
  split
  · rename_i hd; exact ht.takeDue hd
  · exact ht

theorem Live.stepSchedule {s : State} (h : Live s) (v : Ticks) : Live (stepSchedule v s) := by
  have hset : Live (setSchedule v s) := h.blocksKept (.of_gens rfl rfl rfl) ⟨rfl, rfl⟩
  unfold Machine.stepSchedule
  generalize setSchedule v s = u at hset ⊢
  exact (hset.blocksKept (post_blocks _ _ u) (.of_fixed (post_fixed _ _ u))).runDueLanes

theorem Live.resumeLane {s : State} (h : Live s) (ha : s.part = .active) (n : LaneNo) : Live (resumeLane n s) := by
  have hhold : ∀ b, Claims True (setHold n b s) [] := fun b => h.claims.fetched (n := n) (.of_lane (part_of_fixed (by simp))
    (by simp) (by simp) (fun _ hm => setHold_other s n b hm) (by rw [setHold_self]) (by rw [setHold_self])
    (by rw [setHold_self]; exact id))
  refine h.run ha (.of_fixed (resumeLane_fixed n s)) ?_
  unfold Machine.resumeLane resumeHeld; dsimp only
  split
  · rename_i hst
    have hn : (s.lane n).state ≠ .waitLine := by rw [hst]; exact nofun
    split
    · rename_i c hc
      split
      · exact runJudged_claims h.claims h.live hn hc
      · exact ((h.claims.cons hn).own List.mem_cons_self (setLaneState_driven n _ s)
          fun m hm => setLaneState_other s n _ hm).restState (by rw [setLaneState_self]; exact nofun)
    · exact runNext_claims h.claims h.live hn
  · exact hhold false

theorem Live.holdLane {s : State} (h : Live s) (ha : s.part = .active) (n : LaneNo) : Live (holdLane n s) := by
  have hhold : Claims True (setHold n true s) [] := h.claims.fetched (n := n) (.of_lane (part_of_fixed (by simp))
    (by simp) (by simp) (fun _ hm => setHold_other s n true hm) (by rw [setHold_self]) (by rw [setHold_self])
    (by rw [setHold_self]; exact id))
  have hheld : (s.lane n).state ≠ .waitLine → Claims True (setLaneState n .held s) [] := fun hn =>
    ((h.claims.cons hn).own List.mem_cons_self (setLaneState_driven n _ s)
      fun m hm => setLaneState_other s n _ hm).restState (by rw [setLaneState_self]; exact nofun)
  refine h.run ha (.of_fixed (holdLane_fixed n s)) ?_
  unfold Machine.holdLane
  cases hst : (s.lane n).state with
  | starved => exact hheld (by rw [hst]; exact nofun)
  | pending => exact hheld (by rw [hst]; exact nofun)
  | waitInput => exact hhold
  | waitLine => exact hhold
  | held => exact h.claims
  | off => exact h.claims
  | faulted => exact h.claims
  | ended => exact h.claims

/-- A STARVED lane is one of an ACTIVE part, and it runs (R37). -/
theorem Live.wakeLane {s : State} (h : Live s) (n : LaneNo) : Live (wakeLane n s) := by
  by_cases hst : (s.lane n).state = .starved
  · refine h.run (h.active_of_lane (n := n) (by rw [hst]; exact nofun)) (.of_fixed (wakeLane_fixed n s)) ?_
    unfold Machine.wakeLane
    rw [if_pos hst]
    exact runNext_claims h.claims h.live (by rw [hst]; exact nofun)
  · unfold Machine.wakeLane
    rw [if_neg hst]; exact h

/-! ## LANE_RESTART -/

/-- A lane in no waiter list starts anew: STARVED, with its lines released (R25). -/
theorem restartLane_stopped {s : State} (h : Claims tied s []) (hl : s.part ≠ .failed) {n : LaneNo}
    (hn : (s.lane n).state ≠ .waitLine) (c : LaneConfig) : Stopped tied n s (restartLane n c s) := by
  have hw := h.begin hl hn
  obtain ⟨hr, _⟩ := releaseAndGrant_released (ownedLines s n) hw.claims hl
  have hpr : (releaseAndGrant (ownedLines s n) s).1.part = s.part := part_of_fixed (by simp)
  unfold restartLane; dsimp only
  generalize releaseAndGrant (ownedLines s n) s = r at hr hpr ⊢
  have hng : n ∉ r.2 := fun hm => hr.fresh n hm List.mem_cons_self
  have hw' : n ∈ r.2 ++ [n] := List.mem_append_right _ List.mem_cons_self
  have hd : Driven r.1 (r.1.setLane n { (r.1.lane n).started r.1.time.schedule with config := c }) := setLane_driven n _ r.1
  have hself : ((r.1.setLane n { (r.1.lane n).started r.1.time.schedule with config := c }).lane n).state = .starved := by
    rw [lane_setLane_self]; rfl
  have hother : ∀ m, n ≠ m → (r.1.setLane n { (r.1.lane n).started r.1.time.schedule with config := c }).lane m = r.1.lane m :=
    fun m hm => lane_setLane_ne _ hm _
  generalize r.1.setLane n { (r.1.lane n).started r.1.time.schedule with config := c } = u at hd hself hother ⊢
  have hd2 : Driven u (markLane n (awaitStatus u)) := .of_gens
    ((part_of_fixed (markLane_fixed n (awaitStatus u))).trans rfl) (markLane_lines (awaitStatus u) n) (markLane_gens (awaitStatus u) n)
  have hlane2 : ∀ m, (markLane n (awaitStatus u)).lane m = u.lane m := fun m => by rw [markLane_lane]; rfl
  generalize markLane n (awaitStatus u) = v at hd2 hlane2 ⊢
  have hf := startFetcher_fetched n v
  have hd3 := (hd.trans hd2).trans (hf.driven fun _ => (hd.trans hd2).unlisted (hr.claims.working n hw'))
  refine releases_done hl hr hd3 (fun m hm => ?_) ?_ hpr
  · rw [hf.others m hm, hlane2, hother m hm]
  · exact hf.kept.rests (by rw [hlane2, hself]; exact nofun)

/-! ## Edges -/

theorem Live.deliverEdge {s : State} (h : Live s) (e : AcceptedEdge) (c : Consumer) : Live (deliverEdge e c s) := by
  unfold Machine.deliverEdge
  split
  · exact h.blocksKept (capture_blocks _ s) (.of_fixed (by simp))
  · exact h.toggled (realEdge_toggled _ _ _ s) (.of_fixed (by simp))
  · split
    · rename_i n hw
      cases hi : inputWait s n with
      | none => unfold edgeEndsWait at hw; rw [hi] at hw; cases hw
      | some w => exact h.endWait hi _
    · exact h

theorem Live.sampleInput {s : State} (h : Live s) (k : LineNo) (l : Level) : Live (sampleInput k l s) := by
  have hlevel : Live (setInputLevel k l s) := h.blocksKept (.of_gens rfl rfl rfl) ⟨rfl, rfl⟩
  unfold Machine.sampleInput
  split
  · exact h
  · split
    · unfold filterTransition; dsimp only
      split
      · exact hlevel
      · unfold deliver; dsimp only
        refine Live.each (fun c t ht => ht.deliverEdge _ c) _ (Live.inFreeOrder ?_ _)
        exact hlevel.blocksKept (.of_gens rfl rfl rfl) ⟨rfl, rfl⟩
    · exact hlevel

theorem Live.sampleSync {s : State} (h : Live s) (l : Level) : Live (sampleSync l s) := by
  have hlevel : Live (setSyncLevel l s) := h.blocksKept (.of_gens rfl rfl rfl) ⟨rfl, rfl⟩
  unfold Machine.sampleSync
  split
  · exact h
  · split
    · unfold syncEvent; dsimp only
      generalize setSyncLevel l s = u at hlevel ⊢
      have hr : Live (reportTimeMark u.time.schedule (capture (.sync u.time.armed u.time.schedule) u)) :=
        hlevel.blocksKept ((capture_blocks _ u).trans (reportTimeMark_blocks _ _))
          (.of_fixed ((reportTimeMark_fixed _ _).trans (capture_fixed _ _)))
      generalize reportTimeMark _ _ = v at hr ⊢
      split
      · have ha : Live (setArmed false v) := hr.blocksKept (.of_gens rfl rfl rfl) ⟨rfl, rfl⟩
        exact ha.stepSchedule _
      · exact hr
    · exact hlevel

theorem Live.surveyAll {s : State} (h : Live s) : Live (surveyAll s) := by
  unfold Machine.surveyAll
  have hl := Live.each (fun n t ht => ht.fetched (surveyFetcher_fetched n t) (.of_fixed (by simp))) allLanes h
  generalize State.each allLanes surveyFetcher s = u at hl ⊢
  exact hl.blocksKept (surveyJournal_blocks u) (.of_fixed (by simp))

end Sys2Proof.Machine
end

