-- ==== Sys2Proof/Proofs/Sessions.lean ====
section
/-!
THEOREM. Every step keeps the claims, the bindings and the session sound: outside FAILED each effect does, the entry to FAILED
leaves every block at rest, and there only the registers, the levels and the answers that memory owes still move.
-/

namespace Sys2Proof.Machine

variable {tied : Prop}

/-! ## Tables that are set or kept -/

/-- No lane waits for a line, and no line has a waiter. -/
theorem Claims.of_empty {s : State} (hw : ∀ k, (s.line k).waiters = []) (hn : ∀ n, (s.lane n).state ≠ .waitLine)
    (hb : Bindings s) : Claims True s [] := by
  have hl : ∀ n, Unlisted s n := fun n k => by simp [OutLine.lists, hw k]
  exact ⟨fun k => ⟨by simp [hw k], fun n _ => hl n k, fun _ => hw k⟩, fun n _ => hl n,
    fun n _ => ⟨fun _ => hl n, fun h => absurd h (hn n)⟩, fun _ => hb⟩

theorem Bindings.of_none {s : State} (hm : ∀ k, (s.line k).mode.tracked = none) (hb : ∀ g, (s.gen g).bound = none) :
    Bindings s := fun g k => by rw [hm, hb]; simp

/-- Every lane is OFF and every line in FLOAT, and no line is owned or bound. -/
theorem Live.of_floating {s : State} (hp : s.part ≠ .failed) (hf : commandFits s = true)
    (hn : ∀ n, (s.lane n).state = .off) (hk : ∀ k, (s.line k).mode = .float ∧ (s.line k).waiters = [])
    (hb : ∀ g, (s.gen g).bound = none) : Live s where
  live := hp
  claims := .of_empty (fun k => (hk k).2) (fun n => by rw [hn]; exact nofun)
    (.of_none (fun k => by rw [(hk k).1]; rfl) hb)
  fits := hf
  off := fun _ => hn
  float := fun _ k => (hk k).1

/-- The lanes' waits and queues, the lines' modes, owners and waiters, and the bindings are as they were. -/
structure TablesKept (s t : State) : Prop where
  lane : ∀ n, (t.lane n).state = (s.lane n).state ∧ (t.lane n).wait = (s.lane n).wait
    ∧ (t.lane n).queue = (s.lane n).queue
  line : ∀ k, (t.line k).owner = (s.line k).owner ∧ (t.line k).waiters = (s.line k).waiters
    ∧ (t.line k).mode = (s.line k).mode
  bound : ∀ g, (t.gen g).bound = (s.gen g).bound

namespace TablesKept

theorem of_blocks {s t : State} (h : BlocksKept s t) : TablesKept s t :=
  ⟨fun n => by rw [h.lane]; exact ⟨rfl, rfl, rfl⟩, fun k => by rw [h.line]; exact ⟨rfl, rfl, rfl⟩, h.bound⟩

theorem trans {s t u : State} (h : TablesKept s t) (h' : TablesKept t u) : TablesKept s u where
  lane := fun n => by
    obtain ⟨a, b, c⟩ := h.lane n
    obtain ⟨a', b', c'⟩ := h'.lane n
    exact ⟨a'.trans a, b'.trans b, c'.trans c⟩
  line := fun k => by
    obtain ⟨a, b, c⟩ := h.line k
    obtain ⟨a', b', c'⟩ := h'.line k
    exact ⟨a'.trans a, b'.trans b, c'.trans c⟩
  bound := fun g => (h'.bound g).trans (h.bound g)

theorem each {α : Type} {f : α → State → State} (h : ∀ x t, TablesKept t (f x t)) (xs : List α) (s : State) :
    TablesKept s (State.each xs f s) :=
  each_induct (TablesKept s) (fun x t ht => ht.trans (h x t)) xs s (of_blocks (.refl s))

theorem setLane {s : State} {n : LaneNo} {l : Lane} (hs : l.state = (s.lane n).state) (hw : l.wait = (s.lane n).wait)
    (hq : l.queue = (s.lane n).queue) : TablesKept s (s.setLane n l) where
  lane := fun m => by
    rw [lane_setLane]
    split
    · rename_i e; subst e; exact ⟨hs, hw, hq⟩
    · exact ⟨rfl, rfl, rfl⟩
  line := fun _ => ⟨rfl, rfl, rfl⟩
  bound := fun _ => rfl

theorem setLine {s : State} {k : LineNo} {x : OutLine} (ho : x.owner = (s.line k).owner)
    (hw : x.waiters = (s.line k).waiters) (hm : x.mode = (s.line k).mode) : TablesKept s (s.setLine k x) where
  lane := fun _ => ⟨rfl, rfl, rfl⟩
  line := fun j => by
    rw [line_setLine]
    split
    · rename_i e; subst e; exact ⟨ho, hw, hm⟩
    · exact ⟨rfl, rfl, rfl⟩
  bound := fun _ => rfl

theorem claims {s t : State} {work : List LaneNo} (h : TablesKept s t) (hp : s.part = .failed → t.part = .failed)
    (hc : Claims tied s work) : Claims tied t work :=
  hc.of_tables hp (fun k => (h.line k).1) (fun k => (h.line k).2.1)
    (fun n _ => by obtain ⟨hs, hw, hq⟩ := h.lane n; exact .of_eq hs hw hq)
    (fun ht => (hc.bindings ht).congr (fun k => by rw [(h.line k).2.2]) h.bound)

end TablesKept

theorem Live.tables {s t : State} (h : Live s) (ht : TablesKept s t) (hp : t.part = s.part) (hf : commandFits t = true) :
    Live t :=
  h.keep hp hf (ht.claims (fun e => hp.trans e) h.claims) (fun n hn => (ht.lane n).1.trans hn)
    (fun k hk => (ht.line k).2.2.trans hk)

/-! ## START and STOP -/

theorem Live.part_of_start {s : State} (h : Live s) {p : StartPhase} (hc : s.engine.command = some (.start p)) :
    s.part = .starting := by
  have hf := h.fits
  unfold commandFits at hf
  rw [hc] at hf
  simpa using hf

theorem Live.part_of_stop {s : State} (h : Live s) {b : Bool} (hc : s.engine.command = some (.stop b)) :
    s.part = .stopping := by
  have hf := h.fits
  unfold commandFits at hf
  rw [hc] at hf
  simpa using hf

theorem Live.part_of_laneRestart {s : State} (h : Live s) {n : LaneNo} (hc : s.engine.command = some (.laneRestart n)) :
    s.part = .active := by
  have hf := h.fits
  unfold commandFits at hf
  rw [hc] at hf
  simpa using hf

/-- A command that has ended, in the part state it leaves. -/
theorem Live.ended {s t : State} (h : Live s) (hb : BlocksKept s t) (hp : s.part = .starting) (ht : t.part = .config)
    (hc : t.engine.command = none) : Live t where
  live := by rw [ht]; exact nofun
  claims := (TablesKept.of_blocks hb).claims (fun e => by rw [hp] at e; cases e) h.claims
  fits := commandFits_none hc
  off := fun _ n => by rw [hb.lane]; exact h.off (by rw [hp]; exact nofun) n
  float := fun _ k => by rw [hb.line]; exact h.float (Or.inr hp) k

theorem Live.endStart {s : State} (h : Live s) {p : StartPhase} (hc : s.engine.command = some (.start p)) (o : CmdOutcome) :
    Live (endStart o s) := h.ended (.of_gens rfl rfl rfl) (h.part_of_start hc) rfl rfl

theorem loadConfiguration_tables (im : ConfigImage) (s : State) : TablesKept s (loadConfiguration im s) := by
  have h1 : TablesKept s (State.each allLanes (loadLane im) s) :=
    .each (f := loadLane im) (fun n t => .setLane rfl rfl rfl) _ _
  have h2 : ∀ t, TablesKept t (State.each allLines (loadLine im) t) := fun t =>
    .each (fun k u => by
      unfold loadLine
      split
      · exact .of_blocks (.refl u)
      · exact .setLine rfl rfl rfl) _ _
  have h3 : ∀ t, TablesKept t (State.each allLines (loadInput im) t) := fun t =>
    .each (fun k u => by unfold loadInput; split <;> exact .of_blocks (.of_gens rfl rfl rfl)) _ _
  have h4 : ∀ t, TablesKept t (State.each allGens (loadGen im) t) := fun t =>
    .each (fun g u => by
      unfold loadGen
      split
      · exact .of_blocks (.refl u)
      · refine .of_blocks ⟨rfl, rfl, fun j => ?_⟩
        rw [gen_setGen]
        split
        · rename_i e; rw [e]
        · rfl) _ _
  have h := ((h1.trans (h2 _)).trans (h3 _)).trans (h4 _)
  unfold loadConfiguration; dsimp only
  generalize State.each allGens (loadGen im) _ = u at h ⊢
  exact h.trans (.of_blocks (.of_gens rfl rfl rfl))

theorem Live.afterConfigurationRead {s : State} (h : Live s) {p : StartPhase} (hc : s.engine.command = some (.start p))
    (im : ConfigImage) : Live (afterConfigurationRead im s) := by
  have hp := h.part_of_start hc
  have hi : Live (storeImage im s) := h.blocksKept (.of_gens rfl rfl rfl) ⟨rfl, rfl⟩
  have hstart : ∀ t : State, t.part = .starting → (∃ q, t.engine.command = some (.start q)) → commandFits t = true := by
    rintro t ht ⟨q, hq⟩
    unfold commandFits; rw [hq]; simpa using ht
  unfold Machine.afterConfigurationRead
  split
  · unfold validateConfiguration
    split
    · have ht := loadConfiguration_tables im (storeImage im s)
      have hpart : (loadConfiguration im (storeImage im s)).part = s.part := congrArg Fixed.part (loadConfiguration_fixed _ _)
      generalize loadConfiguration im (storeImage im s) = u at ht hpart ⊢
      exact hi.tables (ht.trans (.of_blocks (.of_gens rfl rfl rfl))) hpart (hstart _ (hpart.trans hp) ⟨.opening, rfl⟩)
    · exact hi.endStart hc _
  · exact h.tables (.of_blocks (.of_gens rfl rfl rfl)) rfl (hstart _ hp ⟨.reading, rfl⟩)

/-- A line at START's line step (R188 step 3). -/
theorem driveLines_line (s : State) (k : LineNo) :
    (State.each allLines driveLine s).line k =
      if (s.line k).driveEnable then
        { s.line k with mode := .static (s.line k).rest, owner := startOwner s (s.line k), waiters := [] }
      else s.line k := by
  have h := each_at (get := State.line) (f := driveLine)
    (g := fun _ x => if x.driveEnable then { x with mode := .static x.rest, owner := startOwner s x, waiters := [] } else x)
    (fun t => t.lanes = s.lanes) (fun k t ht => (driveLine_lanes k t).trans ht)
    (fun k t ht => by
      unfold driveLine startOwner State.lane
      dsimp only
      rw [ht]
      split <;> simp)
    (fun k j t hkj => by
      unfold driveLine; dsimp only
      split
      · exact line_setLine_ne _ hkj _
      · rfl)
    allLines nodup_allLines s rfl k
  rw [h, if_pos (mem_allLines k)]

theorem startLane_claims {s : State} (h : Claims True s []) (hn : ∀ n, (s.lane n).state ≠ .waitLine) (n : LaneNo) :
    Claims True (startLane n s) [] ∧ ∀ m, ((startLane n s).lane m).state ≠ .waitLine := by
  have hset : ∀ l : Lane, l.state ≠ .waitLine → Claims True (markLane n (s.setLane n l)) []
      ∧ ∀ m, ((markLane n (s.setLane n l)).lane m).state ≠ .waitLine := fun l hl => by
    have hst : ∀ m, ((s.setLane n l).lane m).state ≠ .waitLine := fun m => by
      rw [lane_setLane]; split
      · exact hl
      · exact hn m
    have hc : Claims True (s.setLane n l) [] :=
      h.kept (setLane_driven n l s) fun m _ => ⟨fun _ => hst m, fun e => absurd e (hn m)⟩
    exact ⟨(TablesKept.of_blocks (markStale_blocks _ _)).claims (fun e => (part_of_fixed (markLane_fixed _ _)).trans e) hc,
      fun m => by rw [markLane_lane]; exact hst m⟩
  unfold startLane; dsimp only
  split
  · obtain ⟨hc, hst⟩ := hset ((s.lane n).started s.time.schedule) nofun
    have hf := startFetcher_fetched n (markLane n (s.setLane n ((s.lane n).started s.time.schedule)))
    refine ⟨hc.fetched hf, fun m => ?_⟩
    by_cases hm : n = m
    · subst hm; exact hf.kept.rests (hst n)
    · rw [hf.others m hm]; exact hst m
  · exact hset _ nofun

theorem inputStep_blocksOf {s : State} (h : ∀ g, (s.gen g).bound = none) : BlocksKept s (inputStep s) := by
  have hd : BlocksKept s (State.each allLines clearDeadTime s) := .each (f := clearDeadTime) (fun _ _ => .of_gens rfl rfl rfl) _ _
  have hg : (State.each allGens startGen (State.each allLines clearDeadTime s)).lanes = s.lanes
      ∧ (State.each allGens startGen (State.each allLines clearDeadTime s)).lines = s.lines
      ∧ ∀ g, ((State.each allGens startGen (State.each allLines clearDeadTime s)).gen g).bound = none := by
    refine each_induct (fun t => t.lanes = s.lanes ∧ t.lines = s.lines ∧ ∀ g, (t.gen g).bound = none)
      (fun g t ht => ?_) _ _ ⟨hd.lanes, hd.lines, fun g => (hd.bound g).trans (h g)⟩
    obtain ⟨hl, hk, hb⟩ := ht
    refine ⟨by simp [startGen, hl], by simp [startGen, hk], fun j => ?_⟩
    unfold startGen
    rw [markStale_gen, gen_setGen]
    split
    · rfl
    · exact hb j
  obtain ⟨hl, hk, hb⟩ := hg
  unfold inputStep; dsimp only
  generalize State.each allGens startGen _ = u at hl hk hb ⊢
  exact ⟨hl, hk, fun g => (hb g).trans (h g).symm⟩

theorem State.fixed_part (s : State) : s.fixed.part = s.part := rfl

theorem State.fixed_command (s : State) : s.fixed.engine.command = s.engine.command := rfl

theorem completeCommand_command (o : CmdOutcome) (s : State) : (completeCommand o s).engine.command = none := by
  unfold completeCommand
  split
  · assumption
  · exact congrArg (fun f => f.engine.command) (post_fixed _ _ _)

/-- START's last steps: no lane waits and no line has a waiter (R188). -/
theorem Live.activate {s : State} (h : Live s) (hp : s.part = .starting) : Live (activate s) := by
  have hoff := h.off (by rw [hp]; exact nofun)
  have hfloat := h.float (Or.inr hp)
  have hbound : ∀ g, (s.gen g).bound = none := fun g => by
    cases hb : (s.gen g).bound with
    | none => rfl
    | some k =>
      have := (h.claims.bindings trivial g k).mp hb
      rw [hfloat k] at this; cases this
  have hwaiters : ∀ k, (s.line k).waiters = [] := fun k => List.eq_nil_iff_forall_not_mem.mpr fun w hw => by
    have hl := (h.claims.resting w.lane List.not_mem_nil).rests (by rw [hoff]; exact nofun) k
    exact (OutLine.not_lists_iff _ _).mp hl (List.mem_map_of_mem hw)
  have hdl : (State.each allLines driveLine s).lanes = s.lanes := each_keeps State.lanes driveLine_lanes _ _
  have hdg : (State.each allLines driveLine s).gens = s.gens :=
    each_keeps State.gens (fun k t => by unfold driveLine; dsimp only; split <;> rfl) _ _
  have hdp : (State.each allLines driveLine s).part = s.part :=
    part_of_fixed (each_keeps State.fixed driveLine_fixed _ _)
  have hline := driveLines_line s
  have hpart : (Machine.activate s).part = .active := by rw [← State.fixed_part, activate_fixed]
  have hcmd : (Machine.activate s).engine.command = none := by
    unfold Machine.activate; dsimp only
    rw [completeCommand_command]
  refine .active ?_ hpart (commandFits_none hcmd)
  unfold Machine.activate; dsimp only
  generalize State.each allLines driveLine s = d at hdl hdg hdp hline ⊢
  have hdb : ∀ g, (d.gen g).bound = none := fun g => by
    rw [show d.gen g = s.gen g from congrArg (fun v => v[g]) hdg]; exact hbound g
  have hdn : ∀ n, (d.lane n).state ≠ .waitLine := fun n => by
    rw [show d.lane n = s.lane n from congrArg (fun v => v[n]) hdl, hoff]; exact nofun
  have hdc : Claims True d [] := .of_empty (fun k => by rw [hline]; split <;> simp [hwaiters]) hdn
    (.of_none (fun k => by rw [hline]; split <;> simp [OutMode.tracked, hfloat]) hdb)
  have hi := inputStep_blocksOf hdb
  have hip : (inputStep d).part = d.part := congrArg Fixed.part (inputStep_fixed d)
  have hic := (TablesKept.of_blocks hi).claims (fun e => hip.trans e) hdc
  have hin : ∀ n, ((inputStep d).lane n).state ≠ .waitLine := fun n => by rw [hi.lane]; exact hdn n
  generalize inputStep d = i at hic hin hip ⊢
  obtain ⟨hlc, _⟩ := each_induct (fun t => Claims True t [] ∧ ∀ n, (t.lane n).state ≠ .waitLine)
    (fun n t ht => startLane_claims ht.1 ht.2 n) allLanes i ⟨hic, hin⟩
  have hlp : (State.each allLanes startLane i).part = i.part := part_of_fixed (each_keeps State.fixed startLane_fixed _ _)
  generalize State.each allLanes startLane i = u at hlc hlp ⊢
  have hup : u.part = .starting := hlp.trans (hip.trans (hdp.trans hp))
  have hb : BlocksKept u (completeCommand .done { startSurvey (startJournal u) with part := .active }) := by
    have h1 := (startJournal_blocks u).trans (startSurvey_blocks _)
    generalize startSurvey (startJournal u) = w at h1 ⊢
    exact (h1.andThen (u := { w with part := .active }) rfl rfl rfl).trans (completeCommand_blocks _ _)
  exact (TablesKept.of_blocks hb).claims (fun e => by rw [hup] at e; cases e) hlc

/-- A lane that has been stopped is OFF and owns no line. -/
def AtEase (s : State) (n : LaneNo) : Prop := (s.lane n).state = .off ∧ ∀ k, (s.line k).owner ≠ some n

theorem stopLane_off (n : LaneNo) (s : State) : ((stopLane n s).lane n).state = .off := by
  rw [stopLane_self, ceaseLane_self]

/-- What the stops of a list of lanes leave of the lines and of the lanes (R190 step 2). -/
structure StoppedAll (tied : Prop) (ns : List LaneNo) (s t : State) : Prop where
  claims : Claims tied t []
  atEase : ∀ n ∈ ns, AtEase t n
  rest : ∀ k, (t.line k).rest = (s.line k).rest
  atRest : ∀ k, (s.line k).AtRestIfFree → (t.line k).AtRestIfFree

theorem AtEase.stopped {s t : State} {n m : LaneNo} (h : AtEase s m) (hs : Stopped tied n s t)
    (hl : t.lane m = s.lane m) : AtEase t m := by
  refine ⟨by rw [hl]; exact h.1, fun k hk => ?_⟩
  rcases (hs.owners k m hk).2 with ho | hw
  · exact h.2 k ho
  · rw [h.1] at hw; cases hw

theorem stopLanes_stoppedAll (ns : List LaneNo) {s : State} (h : Claims tied s []) (hl : s.part ≠ .failed) :
    StoppedAll tied ns s (State.each ns stopLane s)
      ∧ ∀ m, AtEase s m → AtEase (State.each ns stopLane s) m := by
  induction ns generalizing s with
  | nil => exact ⟨⟨h, nofun, fun _ => rfl, fun _ hk => hk⟩, fun _ hm => hm⟩
  | cons n ns ih =>
    have hs := stopLane_stopped h hl n
    have hoff := stopLane_off n s
    have hp : (stopLane n s).part = s.part := part_of_fixed (stopLane_fixed n s)
    have hother : ∀ m, n ≠ m → (s.lane m).state ≠ .waitLine → (stopLane n s).lane m = s.lane m :=
      fun m hm hst => stopLane_other n s hm hst
    show StoppedAll tied (n :: ns) s (State.each ns stopLane (stopLane n s))
      ∧ ∀ m, AtEase s m → AtEase (State.each ns stopLane (stopLane n s)) m
    generalize stopLane n s = u at hs hoff hp hother ⊢
    obtain ⟨ha, hk⟩ := ih hs.claims (by rw [hp]; exact hl)
    have hn : AtEase u n := ⟨hoff, fun k hk => (hs.owners k n hk).1 rfl⟩
    refine ⟨⟨ha.claims, fun m hm => ?_, fun k => (ha.rest k).trans (hs.rest k),
      fun k hk => ha.atRest k (hs.atRest k (Or.inl hk))⟩, fun m hm => ?_⟩
    · rcases List.mem_cons.mp hm with rfl | hm
      · exact hk m hn
      · exact ha.atEase m hm
    · by_cases hnm : n = m
      · exact hk m (hnm ▸ hn)
      · exact hk m (hm.stopped hs (hother m hnm (by rw [hm.1]; exact nofun)))

/-- The lanes and the lines after STOP has been taken in (R190 steps 1 and 2). -/
theorem takeStop_stoppedAll {s : State} (h : Claims tied s []) (hl : s.part ≠ .failed) :
    StoppedAll tied allLanes s (takeStop s) := by
  have hq : BlocksKept s (quietStep (beginCommand (.stop false) { s with part := .stopping })) :=
    (quietStep_blocks _).after rfl rfl rfl
  have hp : (quietStep (beginCommand (.stop false) { s with part := .stopping })).part = .stopping := by
    rw [← State.fixed_part, quietStep_fixed]; rfl
  unfold takeStop; dsimp only
  generalize quietStep _ = u at hq hp ⊢
  have hc := (TablesKept.of_blocks hq).claims (fun e => absurd e hl) h
  obtain ⟨hs, _⟩ := stopLanes_stoppedAll allLanes hc (by rw [hp]; exact nofun)
  have hup : (State.each allLanes stopLane u).part = u.part := part_of_fixed (each_keeps State.fixed stopLane_fixed _ _)
  generalize State.each allLanes stopLane u = v at hs hup ⊢
  have hb := beginDrain_blocks v
  refine ⟨(TablesKept.of_blocks hb).claims (fun e => by rw [hup, hp] at e; cases e) hs.claims, fun n hn => ?_,
    fun k => by rw [hb.line, hs.rest, hq.line], fun k hk => by rw [hb.line]; exact hs.atRest k (by rw [hq.line]; exact hk)⟩
  obtain ⟨ho, hk⟩ := hs.atEase n hn
  exact ⟨by rw [hb.lane]; exact ho, fun k => by rw [hb.line]; exact hk k⟩

theorem Live.takeStop {s : State} (h : Live s) : Live (takeStop s) := by
  have hs := takeStop_stoppedAll h.claims h.live
  have hfixed := takeStop_fixed s
  have hp : (Machine.takeStop s).part = .stopping := by rw [← State.fixed_part, hfixed]
  have hc : (Machine.takeStop s).engine.command = some (.stop false) := by
    rw [← State.fixed_command, hfixed]; rfl
  refine ⟨by rw [hp]; exact nofun, hs.claims, ?_, fun _ n => (hs.atEase n (mem_allLanes n)).1, fun e => ?_⟩
  · unfold commandFits
    rw [hc, hp]
    rfl
  · rw [hp] at e; rcases e with e | e <;> cases e

theorem floatLines_line (s : State) (k : LineNo) :
    (State.each allLines floatLine s).line k = { s.line k with mode := .float, owner := none, waiters := [] } := by
  have h := each_at (get := State.line) (f := floatLine)
    (g := fun _ x => { x with mode := .float, owner := none, waiters := [] }) (fun _ => True) (fun _ _ _ => trivial)
    (fun k t _ => line_setLine_self t k _) (fun k j t hkj => line_setLine_ne t hkj _) allLines nodup_allLines s trivial k
  rw [h, if_pos (mem_allLines k)]

theorem floatGens_gen (s : State) (g : GenNo) : (State.each allGens floatGen s).gen g = (s.gen g).atFloat := by
  have h := each_at (get := State.gen) (f := floatGen) (g := fun _ x => x.atFloat) (fun _ => True) (fun _ _ _ => trivial)
    (fun g t _ => gen_setGen_self t g _) (fun g j t hgj => gen_setGen_ne t hgj _) allGens nodup_allGens s trivial g
  rw [h, if_pos (mem_allGens g)]

/-- STOP's last step: every line floats, free, and no generator is bound (R190 step 5). -/
theorem floatStep_tables (s : State) :
    (∀ k, (floatStep s).line k = { s.line k with mode := .float, owner := none, waiters := [] })
      ∧ ∀ g, ((floatStep s).gen g).bound = none := by
  have hk : ∀ k, (State.each allGens floatGen (State.each allLines floatLine s)).line k =
      { s.line k with mode := .float, owner := none, waiters := [] } := fun k =>
    (each_keeps (fun t => t.line k) (f := floatGen) (fun _ _ => rfl) allGens _).trans (floatLines_line s k)
  have hg := floatGens_gen (State.each allLines floatLine s)
  unfold floatStep; dsimp only
  generalize State.each allGens floatGen _ = u at hk hg ⊢
  have hb := completeCommand_blocks .done { u with part := .config }
  generalize completeCommand .done { u with part := .config } = t at hb ⊢
  refine ⟨fun k => (hb.line k).trans (hk k), fun g => (hb.bound g).trans ?_⟩
  exact (congrArg Generator.bound (hg g)).trans rfl

theorem Live.floatStep {s : State} (h : Live s) (hp : s.part = .stopping) : Live (floatStep s) := by
  have hpart : (Machine.floatStep s).part = .config := by rw [← State.fixed_part, floatStep_fixed]
  have hcmd : (Machine.floatStep s).engine.command = none := by
    unfold Machine.floatStep; dsimp only
    rw [completeCommand_command]
  refine .of_floating (by rw [hpart]; exact nofun) (commandFits_none hcmd) (fun n => ?_)
    (fun k => by rw [(floatStep_tables s).1]; exact ⟨rfl, rfl⟩) (floatStep_tables s).2
  rw [show (Machine.floatStep s).lane n = s.lane n from congrArg (fun v => v[n]) (floatStep_lanes s)]
  exact h.off (by rw [hp]; exact nofun) n

/-- The state after a reset (R193). -/
theorem live_reset (s : State) : Live (resetKeepingAddress s) := by
  refine .of_floating nofun (commandFits_none rfl) (fun n => ?_) (fun k => ?_) fun g => ?_
  · simp [resetKeepingAddress, State.lane, Lane.reset]
  · simp [resetKeepingAddress, State.line, OutLine.reset]
  · simp [resetKeepingAddress, State.gen, Generator.reset]

/-! ## The port -/

theorem SamePhase.posts {α : Type} (k : SlotNo) (d : α → Details) (xs : List α) (s : State) :
    SamePhase s (State.each xs (fun x => post k (d x)) s) :=
  .of_fixed (each_keeps State.fixed (fun x t => post_fixed k (d x) t) xs s)

theorem handOwner_phase (must : StatusItem → Bool) (it : StatusItem) (s : State) : SamePhase s (handOwner must it s) :=
  .of_fixed (handOwner_fixed must it s)

theorem issueStatusRecord_phase (it : StatusItem) (o : Nat) (bs : List Byte) (s : State) :
    SamePhase s (issueStatusRecord it o bs s) := by
  unfold issueStatusRecord; dsimp only; split <;> exact ⟨rfl, rfl⟩

theorem noteDetails_phase (k : SlotNo) (s : State) : SamePhase s (noteDetails k s) := by
  unfold noteDetails
  split
  · exact ⟨rfl, rfl⟩
  · split <;> exact ⟨rfl, rfl⟩

theorem noteCount_phase (k : SlotNo) (s : State) : SamePhase s (noteCount k s) := by
  unfold noteCount
  split
  · exact .of_fixed (followLink_fixed s)
  · split <;> exact ⟨rfl, rfl⟩

end Sys2Proof.Machine
end

