-- ==== Sys2Proof/Proofs/ClaimsAndBindings.lean ====
section
/-!
THEOREM. Every step keeps the claims, the bindings and the session sound: the port's services and answers, every effect
outside FAILED, the entry to FAILED, and what still moves there.
-/

namespace Sys2Proof.Machine

/-! ## Services -/

theorem Live.samePhase {s t : State} (h : Live s) (ht : TablesKept s t) (hp : SamePhase s t) : Live t :=
  h.tables ht hp.part (hp.fits h.fits)

theorem issueLaneStatus_tables (n : LaneNo) (s : State) : TablesKept s (issueLaneStatus n s) := by
  have h := TablesKept.of_blocks
    (issueStatusRecord_blocks (.laneStatus n) (laneStatusOffset n) ((s.lane n).statusBytes s.time.schedule) s)
  unfold issueLaneStatus; dsimp only
  generalize issueStatusRecord _ _ _ s = u at h ⊢
  have hl : TablesKept u (u.setLane n { u.lane n with exceptions := [] }) := .setLane rfl rfl rfl
  exact (h.trans hl).trans (.each (fun e t => .of_blocks (post_blocks _ _ t)) _ _)

theorem issueLaneStatus_phase (n : LaneNo) (s : State) : SamePhase s (issueLaneStatus n s) := by
  have h := issueStatusRecord_phase (.laneStatus n) (laneStatusOffset n) ((s.lane n).statusBytes s.time.schedule) s
  unfold issueLaneStatus; dsimp only
  generalize issueStatusRecord _ _ _ s = u at h ⊢
  have hl : SamePhase u (u.setLane n { u.lane n with exceptions := [] }) := ⟨rfl, rfl⟩
  exact (h.trans hl).trans (.posts _ _ _ _)

theorem issueJournalStatus_phase (s : State) : SamePhase s (issueJournalStatus s) := by
  have h := issueStatusRecord_phase .journalStatus journalStatusOffset (s.journal.statusBytes s.time.schedule) s
  unfold issueJournalStatus; dsimp only
  generalize issueStatusRecord _ _ _ s = u at h ⊢
  have hl : SamePhase u (u.setJournal { u.journal with troubles := [] }) := ⟨rfl, rfl⟩
  refine (h.trans hl).trans ?_
  exact .of_fixed (each_keeps State.fixed (fun c t => post_fixed _ _ t) _ _)

theorem issueGenStatus_phase (g : GenNo) (s : State) : SamePhase s (issueGenStatus g s) := by
  have h := issueStatusRecord_phase (.genStatus g) (genStatusOffset g) ((s.gen g).statusBytes s.time.schedule) s
  unfold issueGenStatus; dsimp only
  generalize issueStatusRecord _ _ _ s = u at h ⊢
  have hl : SamePhase u (u.setGen g { u.gen g with posts := [] }) := ⟨rfl, rfl⟩
  exact (h.trans hl).trans (.posts _ _ _ _)

theorem issueRetireSummary_phase (n : LaneNo) (s : State) : SamePhase s (issueRetireSummary n s) := by
  unfold issueRetireSummary
  split
  · exact ⟨rfl, rfl⟩
  · split
    · exact ⟨rfl, rfl⟩
    · rename_i p _ _ _ _ _
      exact SamePhase.trans (t := issueWrite _ s) ⟨rfl, rfl⟩ (handOwner_phase _ _ _)

theorem issueCloseSummary_phase (s : State) : SamePhase s (issueCloseSummary s) := by
  unfold issueCloseSummary
  split
  · exact ⟨rfl, rfl⟩
  · exact SamePhase.trans (t := issueWrite _ s) ⟨rfl, rfl⟩ (handOwner_phase _ _ _)

theorem issueCloseOwner_phase (s : State) : SamePhase s (issueCloseOwner s) := by
  unfold issueCloseOwner
  split
  · exact ⟨rfl, rfl⟩
  · rename_i c rest _
    exact SamePhase.trans (t := (issueWrite (dataWrite c.addr ownerDoneBytes) s).setJournal _) ⟨rfl, rfl⟩
      (.of_fixed (post_fixed _ _ _))

theorem issueNoticeDetails_phase (k : SlotNo) (s : State) : SamePhase s (issueNoticeDetails k s) := by
  have h : ∀ u, SamePhase u (handOwner StatusItem.isNotice (.noticeCount k) (noteDetails k u)) := fun u =>
    (noteDetails_phase k u).trans (handOwner_phase _ _ _)
  unfold issueNoticeDetails; dsimp only
  exact ⟨(h _).part, (h _).command⟩

theorem issueNoticeCount_phase (k : SlotNo) (s : State) : SamePhase s (issueNoticeCount k s) := by
  have h : ∀ u, SamePhase u (handNotice (noteCount k u)) := fun u =>
    (noteCount_phase k u).trans (.of_fixed (handNotice_fixed _))
  unfold issueNoticeCount
  split
  · exact ⟨rfl, rfl⟩
  · split
    · exact ⟨(h _).part, (h _).command⟩
    · exact ⟨rfl, rfl⟩

theorem issueStatus_phase (it : StatusItem) (s : State) (h : it.aboutNoLane = true) : SamePhase s (issueStatus it s) := by
  cases it with
  | laneStatus n => cases h
  | retireOwner n => cases h
  | journalStatus => exact issueJournalStatus_phase s
  | genStatus g => exact issueGenStatus_phase g s
  | retireSummary n => exact issueRetireSummary_phase n s
  | closeSummary => exact issueCloseSummary_phase s
  | closeOwner => exact issueCloseOwner_phase s
  | noticeDetails k => exact issueNoticeDetails_phase k s
  | noticeCount k => exact issueNoticeCount_phase k s

/-- The owner write of a page, behind which a waiting header read may be presented (R49, R35). -/
theorem Live.issueRetireOwner {s : State} (h : Live s) (n : LaneNo) : Live (issueRetireOwner n s) := by
  unfold Machine.issueRetireOwner
  split
  · exact h
  · rename_i p rest _
    dsimp only
    have hw : Live (issueWrite (dataWrite p.addr ownerDoneBytes) s) := h.blocksKept (.of_gens rfl rfl rfl) ⟨rfl, rfl⟩
    generalize issueWrite (dataWrite p.addr ownerDoneBytes) s = u at hw ⊢
    have hr : Live (u.setLane n ((u.lane n).pageRetired p)) := hw.samePhase (.setLane rfl rfl rfl) ⟨rfl, rfl⟩
    generalize u.setLane n ((u.lane n).pageRetired p) = v at hr ⊢
    have hn : Live (if p.notifyRetire = true then postProgress n v else v) := by
      split
      · exact hr.blocksKept (post_blocks _ _ v) (.of_fixed (postProgress_fixed n v))
      · exact hr
    generalize (if p.notifyRetire = true then postProgress n v else v) = w at hn ⊢
    exact hn.fetched (presentWaitingHeader_fetched n w) (.of_fixed (presentWaitingHeader_fixed n w))

theorem Live.issueStatus {s : State} (h : Live s) (it : StatusItem) : Live (issueStatus it s) := by
  by_cases hn : it.aboutNoLane = true
  · exact h.blocksKept (issueStatus_blocks it s hn) (issueStatus_phase it s hn)
  · cases it with
    | laneStatus n => exact h.samePhase (issueLaneStatus_tables n s) (issueLaneStatus_phase n s)
    | retireOwner n => exact h.issueRetireOwner n
    | _ => exact absurd rfl hn

theorem issueRecord_fixedPhase (s : State) : SamePhase s (issueRecord s) := by
  unfold issueRecord
  split
  · rename_i a i r rest _ _
    split
    · exact SamePhase.trans (t := issueWrite (dataWrite (recordAddr a i) r.bytes) s) ⟨rfl, rfl⟩
        (.of_fixed (afterRecord_fixed _ _ _))
    · exact .of_fixed (journalFault_fixed _ _ s)
  · exact ⟨rfl, rfl⟩

/-- A write of the engine: after the part status record of START the notice table is written (R157). -/
theorem Live.issueEngineWrite {s : State} (h : Live s) (w : EngineWrite) : Live (issueEngineWrite w s) := by
  have hu : Live (engineWriteTaken (issueWrite (engineWriteOf s w) s)) := h.blocksKept (.of_gens rfl rfl rfl) ⟨rfl, rfl⟩
  have hc : (engineWriteTaken (issueWrite (engineWriteOf s w) s)).engine.command = s.engine.command := rfl
  rw [issueEngineWrite_eq]
  generalize engineWriteTaken (issueWrite (engineWriteOf s w) s) = u at hu hc ⊢
  split
  · rename_i hcmd
    have hp := hu.part_of_start (hc.trans hcmd)
    have hpart : (noticeStep u).part = u.part := by rw [← State.fixed_part, noticeStep_fixed]; rfl
    refine hu.blocks (noticeStep_blocks u) hpart ?_
    unfold commandFits
    rw [← State.fixed_command, noticeStep_fixed]
    simp [hpart, hp]
  · exact hu

theorem Live.serve {s : State} (h : Live s) : Live (serve s) := by
  rcases serve_cases s with he | ⟨r, a, _, _, he⟩
  · rw [he]; exact h
  · rw [he]
    have hu : Live (setServed r s) := h.blocksKept (.of_gens rfl rfl rfl) ⟨rfl, rfl⟩
    generalize setServed r s = u at hu ⊢
    cases a with
    | fetch n k => exact hu.fetched (issueFetch_fetched n k u) ⟨rfl, rfl⟩
    | journalRead k => exact hu.blocksKept (.of_gens rfl rfl rfl) ⟨rfl, rfl⟩
    | record => exact hu.blocksKept (issueRecord_blocks u) (issueRecord_fixedPhase u)
    | status it =>
      have ht : Live { u with handed := u.handed.tail } := hu.blocksKept (.of_gens rfl rfl rfl) ⟨rfl, rfl⟩
      exact ht.issueStatus it
    | engineRead k => exact hu.blocksKept (.of_gens rfl rfl rfl) ⟨rfl, rfl⟩
    | engineWrite w => exact hu.issueEngineWrite w

/-! ## Answers to writes -/

theorem advanceFlights_tables (s : State) : TablesKept s (advanceFlights s) := by
  have h : TablesKept s (State.each allLanes
      (fun n t => t.setLane n { t.lane n with flight := (t.lane n).flight.map Flight.advance }) s) :=
    .each (f := fun n t => State.setLane t n { t.lane n with flight := (t.lane n).flight.map Flight.advance })
      (fun n t => .setLane rfl rfl rfl) _ _
  unfold advanceFlights; dsimp only
  generalize State.each allLanes _ s = u at h ⊢
  exact h.trans (.of_blocks (.of_gens rfl rfl rfl))

theorem completeWrite_tables (s : State) : TablesKept s (completeWrite s) := by
  unfold completeWrite
  split
  · exact .of_blocks (.of_gens rfl rfl rfl)
  · split
    · exact .of_blocks (.refl s)
    · rename_i w rest _
      have h : ∀ u, TablesKept u (afterWrite w (advanceFlights u)) := fun u =>
        (advanceFlights_tables u).trans (.of_blocks (afterWrite_blocks w _))
      exact TablesKept.trans (t := performWrite w { s with port := { s.port with path := rest } })
        (.of_blocks (.of_gens rfl rfl rfl)) (h _)

/-- The claims and the bindings at the entry to FAILED: states, queues and waiter lists are kept (R29, R177). -/
theorem enterFailed_claims {s : State} (h : Claims True s []) : Claims True (enterFailed s) [] := by
  have hline := faultAll_line s
  have hb : Bindings (State.each allLines takeFaultAction s) :=
    each_induct Bindings (fun k _ ht => takeFaultAction_bindings ht k) _ s (h.bindings trivial)
  have hl : (State.each allLines takeFaultAction s).lanes = s.lanes :=
    each_keeps State.lanes (fun k t => takeFaultAction_lanes t k) _ _
  unfold enterFailed; dsimp only
  generalize State.each allLines takeFaultAction s = u at hline hb hl ⊢
  have hlane : ∀ n, (State.each allLanes (fun n t => t.setLane n (t.lane n).failed) u).lane n = (s.lane n).failed := fun n => by
    have hat := each_at (get := State.lane) (f := fun n t => State.setLane t n (t.lane n).failed) (g := fun _ x => x.failed)
      (fun _ => True) (fun _ _ _ => trivial) (fun n t _ => lane_setLane_self t n _)
      (fun n m t hnm => lane_setLane_ne t hnm _) allLanes nodup_allLanes u trivial n
    rw [if_pos (mem_allLanes n)] at hat
    exact hat.trans (congrArg (fun v => Lane.failed v[n]) hl)
  have hlines : (State.each allLanes (fun n t => t.setLane n (t.lane n).failed) u).lines = u.lines :=
    each_keeps State.lines (f := fun n t => State.setLane t n (t.lane n).failed) (fun _ _ => rfl) _ _
  have hgens : (State.each allLanes (fun n t => t.setLane n (t.lane n).failed) u).gens = u.gens :=
    each_keeps State.gens (f := fun n t => State.setLane t n (t.lane n).failed) (fun _ _ => rfl) _ _
  generalize State.each allLanes _ u = v at hlane hlines hgens ⊢
  have hvl : ∀ k, v.line k = { s.line k with mode := faultMode (s.line k).faultAction (s.line k).mode } := fun k =>
    (congrArg (fun x => x[k]) hlines).trans (hline k)
  have hlists : ∀ k n, (v.line k).lists n = (s.line k).lists n := fun k n =>
    OutLine.lists_congr (by rw [hvl]) n
  have hbv : Bindings v := hb.of_blocks hlines fun g => congrArg (fun x => Generator.bound x[g]) hgens
  refine ⟨fun k => ?_, nofun, fun n hn => ⟨fun hst k => ?_, fun hst => ?_⟩, fun _ => hbv⟩
  · have hk : (v.line k).Sound := (h.lines k).congr (by rw [hvl]) (by rw [hvl])
    exact hk
  · have hst' : (s.lane n).state ≠ .waitLine := fun e => hst ((congrArg Lane.state (hlane n)).trans e)
    exact (hlists k n).trans ((h.resting n hn).rests hst' k)
  · have hst' : (s.lane n).state = .waitLine := (congrArg Lane.state (hlane n)).symm.trans hst
    obtain ⟨k, hk⟩ := (h.resting n hn).waits hst'
    exact ⟨k, fun j => by
      show (v.line j).lists n = true ↔ _
      rw [hlists]; exact hk.lists j, Or.inl rfl⟩

theorem enterFailed_flights (s : State) (n : LaneNo) : ((enterFailed s).lane n).flight = none := by
  have hat : ∀ u, ((State.each allLanes (fun n t => t.setLane n (t.lane n).failed) u).lane n).flight = none := fun u => by
    have hat := each_at (get := State.lane) (f := fun n t => State.setLane t n (t.lane n).failed) (g := fun _ x => x.failed)
      (fun _ => True) (fun _ _ _ => trivial) (fun n t _ => lane_setLane_self t n _)
      (fun n m t hnm => lane_setLane_ne t hnm _) allLanes nodup_allLanes u trivial n
    rw [hat, if_pos (mem_allLanes n)]; rfl
  unfold enterFailed; dsimp only
  have h := hat (State.each allLines takeFaultAction s)
  generalize State.each allLanes _ _ = v at h ⊢
  exact h

/-! ## In FAILED -/

/-- The part is in FAILED, where every block has ceased (R177). -/
structure Failed (s : State) : Prop where
  part : s.part = .failed
  claims : Claims True s []
  command : s.engine.command = none
  inputs : s.inputsLive = false
  sync : s.sync.live = false
  port : s.port.live = false
  survey : s.survey.expiry = none
  engine : s.engine.flight = none
  journal : s.journal.flight = none
  lanes : ∀ n, (s.lane n).flight = none

theorem enterFailed_failed {s : State} (h : Claims True s []) : Failed (enterFailed s) where
  part := rfl
  claims := enterFailed_claims h
  command := rfl
  inputs := rfl
  sync := rfl
  port := rfl
  survey := rfl
  engine := rfl
  journal := by rw [enterFailed_journal]; rfl
  lanes := enterFailed_flights s

/-- What the states that steps reach satisfy. -/
def Sound (s : State) : Prop := Live s ∨ Failed s

/-- A write that failed has changed memory or not, and the counter of free values (log 7). -/
theorem failWrite_eq (w : Write) (s : State) : ∃ m, failWrite w s = { s with memory := m, choices := s.choices + 1 } := by
  unfold failWrite; dsimp only
  split
  · exact ⟨_, rfl⟩
  · exact ⟨s.memory, rfl⟩

theorem Failed.of_claims {s t : State} (h : Failed s) (hb : BlocksKept s t) (hp : t.part = .failed)
    (ht : t = { s with port := { t.port with live := s.port.live }, memory := t.memory, choices := t.choices }) :
    Failed t := by
  have hc := (TablesKept.of_blocks hb).claims (fun _ => hp) h.claims
  rw [ht] at hc ⊢
  exact ⟨h.part, hc, h.command, h.inputs, h.sync, h.port, h.survey, h.engine, h.journal, h.lanes⟩

theorem errorWrite_sound {s : State} (h : Sound s) : Sound (errorWrite s) := by
  unfold errorWrite
  split
  · rename_i w rest hw
    have hk : BlocksKept s (failWrite w { s with port := { s.port with leftWrites := rest } }) :=
      (failWrite_blocks w _).after rfl rfl rfl
    obtain ⟨m, hm⟩ := failWrite_eq w { s with port := { s.port with leftWrites := rest } }
    rw [hm] at hk ⊢
    exact h.imp (fun h => h.blocksKept hk ⟨rfl, rfl⟩) fun h => h.of_claims hk h.part rfl
  · split
    · exact h
    · rename_i w rest _
      obtain ⟨m, hm⟩ := failWrite_eq w s
      have hb : BlocksKept s (failWrite w s) := failWrite_blocks w s
      have hp : s.part = .failed → (failWrite w s).part = .failed := fun e => by rw [hm]; exact e
      exact Or.inr (enterFailed_failed ((TablesKept.of_blocks hb).claims hp (h.elim Live.claims Failed.claims)))

/-! ## Every effect -/

theorem Live.setMode {s : State} (h : Live s) {k : LineNo} {m : OutMode} (hm : m.tracked = none)
    (hk : (s.line k).mode.tracked = none) (hf : (s.line k).mode ≠ .float) : Live (setMode k m s) := by
  have hline : ∀ j, ((Machine.setMode k m s).line j).owner = (s.line j).owner
      ∧ ((Machine.setMode k m s).line j).waiters = (s.line j).waiters
      ∧ ((Machine.setMode k m s).line j).mode.tracked = (s.line j).mode.tracked
      ∧ ((s.line j).mode = .float → ((Machine.setMode k m s).line j).mode = .float) := fun j => by
    by_cases hj : k = j
    · subst hj
      rw [setMode_self]
      exact ⟨rfl, rfl, hm.trans hk.symm, fun e => absurd e hf⟩
    · rw [setMode_other _ _ _ hj]; exact ⟨rfl, rfl, rfl, id⟩
  exact h.keep rfl h.fits (h.claims.of_tables id (fun j => (hline j).1) (fun j => (hline j).2.1) (fun _ _ => .refl _)
    (fun ht => (h.claims.bindings ht).congr (fun j => (hline j).2.2.1) fun _ => rfl)) (fun _ hn => hn) (fun j => (hline j).2.2.2)

theorem Live.endPulse {s : State} (h : Live s) (k : LineNo) : Live (endPulse k s) := by
  unfold Machine.endPulse
  split
  · rename_i hm; exact h.setMode rfl (by rw [hm]; rfl) (by rw [hm]; exact nofun)
  all_goals exact h

theorem waveAfterPhase_tracked (rest first : Level) (d1 d2 : BitVec 24) (p c : Half) (ph : WavePhase) (e : Ticks) :
    (waveAfterPhase rest first d1 d2 p c ph e).tracked = none := by
  cases ph with
  | first => rfl
  | second => unfold waveAfterPhase; dsimp only; split <;> rfl

theorem Live.endWavePhase {s : State} (h : Live s) (k : LineNo) : Live (endWavePhase k s) := by
  unfold Machine.endWavePhase
  split
  · rename_i hm; exact h.setMode (waveAfterPhase_tracked _ _ _ _ _ _ _ _) (by rw [hm]; rfl) (by rw [hm]; exact nofun)
  all_goals exact h

/-- A command that goes on in ACTIVE. -/
theorem Live.begun {s t : State} (h : Live s) (hb : BlocksKept s t) (hp : t.part = .active) (hs : s.part = .active)
    {c : Command} (hc : t.engine.command = some c) (hcs : ∀ p, c ≠ .start p) (hct : ∀ b, c ≠ .stop b) : Live t := by
  refine h.blocks hb (hp.trans hs.symm) ?_
  unfold commandFits
  rw [hc]
  cases c with
  | start p => exact absurd rfl (hcs p)
  | stop b => exact absurd rfl (hct b)
  | _ => simpa using hp

theorem Live.completed {s : State} (h : Live s) (o : CmdOutcome) : Live (completeCommand o s) := by
  have hp : (completeCommand o s).part = s.part := by
    unfold completeCommand
    split
    · rfl
    · exact part_of_fixed (post_fixed _ _ _) |>.trans rfl
  exact h.blocks (completeCommand_blocks o s) hp (commandFits_none (completeCommand_command o s))

theorem Live.clearEngineFlight {s : State} (h : Live s) : Live (clearEngineFlight s) :=
  h.blocksKept (.of_gens rfl rfl rfl) ⟨rfl, rfl⟩

theorem Live.clearJournalFlight {s : State} (h : Live s) : Live (clearJournalFlight s) :=
  h.blocksKept (.of_gens rfl rfl rfl) ⟨rfl, rfl⟩

theorem Live.clearFetch {s : State} (h : Live s) (n : LaneNo) : Live (clearFetch n s) :=
  h.fetched (clearFetch_fetched n s) (.of_fixed (clearFetch_fixed n s))

theorem Live.setLast {s : State} (h : Live s) (c o : Byte) (r : CmdOutcome) : Live (setLast c o r s) :=
  h.blocksKept (.of_gens rfl rfl rfl) ⟨rfl, rfl⟩

theorem LaneState.closed_ne_waitLine {st : LaneState} (h : st.closed = true) : st ≠ .waitLine := by
  rintro rfl; cases h

theorem restartLane_phase (n : LaneNo) (c : LaneConfig) (s : State) : SamePhase s (restartLane n c s) := by
  have hr : (releaseAndGrant (ownedLines s n) s).1.fixed = s.fixed := by simp
  unfold restartLane; dsimp only
  generalize (releaseAndGrant (ownedLines s n) s).1 = r at hr ⊢
  have hu : SamePhase s (awaitStatus (r.setLane n { (r.lane n).started r.time.schedule with config := c })) :=
    (SamePhase.of_fixed hr).trans ⟨rfl, rfl⟩
  generalize awaitStatus _ = u at hu ⊢
  exact hu.trans (.of_fixed (by simp))

theorem restartJournal_phase (a : Addr) (s : State) : SamePhase s (restartJournal a s) := by
  have hu : SamePhase s (awaitStatus (s.setJournal (s.journal.restarted a))) := ⟨rfl, rfl⟩
  unfold restartJournal; dsimp only
  generalize awaitStatus _ = u at hu ⊢
  exact hu.trans (.of_fixed (by rw [judgeJournalHead_fixed, markJournal_fixed, setJournalState_fixed]))

theorem completeWrite_phase (s : State) : SamePhase s (completeWrite s) := by
  obtain ⟨p, e, m, h, _, _, _, hc, _⟩ := completeWrite_fixed s
  refine ⟨by rw [← State.fixed_part, h]; rfl, by rw [← State.fixed_command, h]; exact hc⟩

theorem statusStep_phase (s : State) :
    (statusStep s).part = s.part ∧ (statusStep s).engine.command = some (.stop true) := by
  refine ⟨?_, rfl⟩
  rw [← State.fixed_part, statusStep_engineOnly s]; rfl

theorem writePlain_phase (r : PlainReg) (v : Word) (s : State) : SamePhase s (writePlain r v s) := by
  cases r with
  | exbLo => unfold writePlain; dsimp only; split <;> exact ⟨rfl, rfl⟩
  | exbHi => unfold writePlain; dsimp only; split <;> exact ⟨rfl, rfl⟩
  | ident => exact ⟨rfl, rfl⟩
  | cmdStatus => exact ⟨rfl, rfl⟩
  | partState => exact ⟨rfl, rfl⟩

theorem acknowledge_phase (k : SlotNo) (v : Count24) (s : State) : SamePhase s (acknowledge k v s) := by
  unfold acknowledge settleGather; dsimp only
  split
  · exact ⟨rfl, rfl⟩
  · split <;> exact ⟨rfl, rfl⟩

/-- START is taken in (R185). -/
theorem Live.takeStart {s : State} (h : Live s) (hp : s.part = .config) : Live (takeStart s) where
  live := nofun
  claims := (TablesKept.of_blocks (s := s) (t := Machine.takeStart s) (.of_gens rfl rfl rfl)).claims
    (fun e => absurd e h.live) h.claims
  fits := rfl
  off := fun _ n => h.off (by rw [hp]; exact nofun) n
  float := fun _ k => h.float (Or.inl hp) k

theorem Live.restartLane {s : State} (h : Live s) {n : LaneNo} (hc : s.engine.command = some (.laneRestart n))
    (hst : (s.lane n).state.closed = true) (c : LaneConfig) : Live (restartLane n c s) :=
  h.run (h.part_of_laneRestart hc) (restartLane_phase n c s)
    (restartLane_stopped h.claims h.live (LaneState.closed_ne_waitLine hst) c).claims

theorem Live.effect {c : Instr} {s t : State} (hs : Live s) (h : Effect c s t) : Sound t := by
  cases h with
  | resetLow => exact .inl ((live_reset { s with resetPin := .low }).blocksKept (.of_gens rfl rfl rfl) ⟨rfl, rfl⟩)
  | resetHigh => exact .inl (hs.blocksKept (.of_gens rfl rfl rfl) ⟨rfl, rfl⟩)
  | softReset => exact .inl (live_reset s)
  | controlReset => exact .inl (live_reset s)
  | control => exact .inl (hs.blocksKept (.of_gens rfl rfl rfl) ⟨rfl, rfl⟩)
  | plainWrite r v =>
    exact .inl (hs.blocksKept (writePlain_blocks r v s) (writePlain_phase r v s))
  | ack v =>
    exact .inl (hs.blocksKept (acknowledge_blocks _ _ s) (acknowledge_phase _ _ s))
  | refused => exact .inl (hs.setLast _ _ _)
  | start b _ _ hp => exact .inl (hs.takeStart hp)
  | stop => exact .inl hs.takeStop
  | laneStop b _ n _ hp =>
    have hb : Live (awaitStatus (beginCommand (.laneStop n) s)) :=
      hs.begun (.of_gens rfl rfl rfl) hp hp rfl nofun nofun
    have hst := stopLane_stopped hb.claims hb.live n
    exact .inl (hb.run hp (.of_fixed (stopLane_fixed n _)) hst.claims)
  | laneRestart b _ n _ hp => exact .inl (hs.begun (.of_gens rfl rfl rfl) hp hp rfl nofun nofun)
  | journalRestart b _ _ hp => exact .inl (hs.begun (.of_gens rfl rfl rfl) hp hp rfl nofun nofun)
  | armAlign b _ _ hp => exact .inl (hs.begun (.of_gens rfl rfl rfl) hp hp rfl nofun nofun)
  | alignNow b _ _ hp => exact .inl (hs.begun (.of_gens rfl rfl rfl) hp hp rfl nofun nofun)
  | resurvey => exact .inl (hs.surveyAll.setLast _ _ _)
  | laneHold b _ n _ hp => exact .inl ((hs.holdLane hp n).setLast _ _ _)
  | laneResume b _ n _ hp => exact .inl ((hs.resumeLane hp n).setLast _ _ _)
  | journalFlush => exact .inl ((hs.blocksKept (flushJournal_blocks s) (.of_fixed (flushJournal_fixed s))).setLast _ _ _)
  | disarm => exact .inl (hs.blocksKept (.of_gens rfl rfl rfl) ⟨rfl, rfl⟩)
  | leftRead => exact .inl (hs.blocksKept (.of_gens rfl rfl rfl) ⟨rfl, rfl⟩)
  | discardFetch _ _ n => exact .inl (hs.clearFetch n)
  | discardJournal => exact .inl hs.clearJournalFlight
  | discardEngine => exact .inl hs.clearEngineFlight
  | startBadExchange o bs _ _ hc => exact .inl (hs.clearEngineFlight.endStart hc _)
  | startRead o bs _ im p _ hc => exact .inl (hs.clearEngineFlight.afterConfigurationRead hc im)
  | startReadError _ p _ hc => exact .inl (hs.clearEngineFlight.endStart hc _)
  | activate _ _ hw =>
    simp only [startWritten, Bool.and_eq_true, decide_eq_true_eq] at hw
    exact .inl (hs.activate hw.1.1)
  | statusStep _ _ hd =>
    simp only [stopDrained, Bool.and_eq_true, decide_eq_true_eq] at hd
    have hp := hs.part_of_stop hd.1.1
    obtain ⟨hpart, hcmd⟩ := statusStep_phase s
    refine .inl (hs.blocks (statusStep_blocks s) hpart ?_)
    unfold commandFits
    rw [hcmd, hpart, hp]; rfl
  | floatStep _ _ hw =>
    simp only [stopWritten, Bool.and_eq_true, decide_eq_true_eq] at hw
    exact .inl (hs.floatStep (hs.part_of_stop hw.1.1.1))
  | complete => exact .inl (hs.completed _)
  | laneRestartRead data _ n _ hc hst => exact .inl (hs.clearEngineFlight.restartLane hc hst _)
  | readError => exact .inl (hs.clearEngineFlight.completed _)
  | journalRestartRead data =>
    exact .inl (hs.clearEngineFlight.blocksKept (restartJournal_blocks _ _) (restartJournal_phase _ _))
  | journalRestartReadError =>
    exact .inl ((hs.clearEngineFlight.blocksKept (resumeJournal_blocks _) (.of_fixed (resumeJournal_fixed _))).completed _)
  | armAlignRead data =>
    have ha : Live (armAt (timeOf data) (Machine.clearEngineFlight s)) :=
      hs.clearEngineFlight.blocksKept (.of_gens rfl rfl rfl) ⟨rfl, rfl⟩
    exact .inl (ha.completed _)
  | alignNowRead data =>
    have ha : Live (awaitAlignment (Machine.clearEngineFlight s)) :=
      hs.clearEngineFlight.blocksKept (.of_gens rfl rfl rfl) ⟨rfl, rfl⟩
    exact .inl (ha.stepSchedule _)
  | dueReached n _ _ hd => exact .inl (hs.takeDue hd)
  | waitExpired n => exact .inl (hs.expireWait n)
  | claimExpired k n _ _ hx => exact .inl (hs.expireClaim hx)
  | input k l => exact .inl (hs.sampleInput k l)
  | deadTime => exact .inl (hs.blocksKept (.of_gens rfl rfl rfl) ⟨rfl, rfl⟩)
  | sync l => exact .inl (hs.sampleSync l)
  | pulse k => exact .inl (hs.endPulse k)
  | wave k => exact .inl (hs.endWavePhase k)
  | derived g => exact .inl (hs.toggled (emitDerivedEdge_toggled g s) (.of_fixed (by simp)))
  | ofVirtual g => exact .inl (hs.toggled (virtualEdge_toggled g s) (.of_fixed (by simp)))
  | survey =>
    have hr : Live (restartSurvey s) := hs.blocksKept (.of_gens rfl rfl rfl) ⟨rfl, rfl⟩
    exact .inl hr.surveyAll
  | gather => exact .inl (hs.blocksKept (.of_gens rfl rfl rfl) ⟨rfl, rfl⟩)
  | flushTimer => exact .inl (hs.blocksKept (closePage_blocks _ s) (.of_fixed (closePage_fixed _ s)))
  | headField n d => exact .inl ((hs.clearFetch n).fetched (headFieldRead_fetched n d _) (.of_fixed (headFieldRead_fixed n d _)))
  | header n d => exact .inl ((hs.clearFetch n).fetched (judgeHeader_fetched n d _) (.of_fixed (by simp)))
  | burst n cs =>
    have hq := (hs.clearFetch n).fetched (queueBurst_fetched n cs _) (.of_fixed (by simp))
    exact .inl ((hq.fetched (fetchOn_fetched n _) (.of_fixed (by simp))).wakeLane n)
  | link n d => exact .inl ((hs.clearFetch n).fetched (judgeLink_fetched n d _) (.of_fixed (by simp)))
  | fetchError n r => exact .inl ((hs.clearFetch n).fetched (fetchErrored_fetched n r _) (.of_fixed (fetchErrored_fixed n r _)))
  | journalHead d =>
    have hj : Live ((Machine.clearJournalFlight s).setJournal { (Machine.clearJournalFlight s).journal with head := d }) :=
      hs.clearJournalFlight.blocksKept (.of_gens rfl rfl rfl) ⟨rfl, rfl⟩
    exact .inl (hj.blocksKept (judgeJournalHead_blocks _ _) (.of_fixed (judgeJournalHead_fixed _ _)))
  | journalHeader d => exact .inl (hs.clearJournalFlight.blocksKept (judgeJournalHeader_blocks _ _) (.of_fixed (by simp)))
  | journalLink d => exact .inl (hs.clearJournalFlight.blocksKept (judgeJournalLink_blocks _ _) (.of_fixed (by simp)))
  | journalError r => exact .inl (hs.clearJournalFlight.blocksKept (journalFault_blocks _ _ _) (.of_fixed (journalFault_fixed _ _ _)))
  | serve => exact .inl hs.serve
  | writeComplete =>
    exact .inl (hs.samePhase (completeWrite_tables s) (completeWrite_phase s))
  | writeError => exact errorWrite_sound (.inl hs)

/-! ## What still moves in FAILED -/

theorem Failed.claims_blocks {s t : State} (h : Failed s) (hb : BlocksKept s t) (hp : t.part = .failed) : Claims True t [] :=
  (TablesKept.of_blocks hb).claims (fun _ => hp) h.claims

/-- A change of nothing that has ceased. -/
theorem Failed.keep {s t : State} (h : Failed s) (hc : Claims True t []) (hp : t.part = s.part)
    (he : t.engine.command = s.engine.command ∧ t.engine.flight = s.engine.flight) (hi : t.inputsLive = s.inputsLive)
    (hs : t.sync.live = s.sync.live) (hl : t.port.live = s.port.live) (hv : t.survey.expiry = s.survey.expiry)
    (hj : t.journal.flight = s.journal.flight) (hn : ∀ n, (t.lane n).flight = (s.lane n).flight) : Failed t where
  part := hp.trans h.part
  claims := hc
  command := he.1.trans h.command
  inputs := hi.trans h.inputs
  sync := hs.trans h.sync
  port := hl.trans h.port
  survey := hv.trans h.survey
  engine := he.2.trans h.engine
  journal := hj.trans h.journal
  lanes := fun n => (hn n).trans (h.lanes n)

/-- A change of a block that has not ceased: a register, a level, a note. -/
theorem Failed.note {s t : State} (h : Failed s) (hb : BlocksKept s t) (hp : t.part = s.part)
    (he : t.engine.command = s.engine.command ∧ t.engine.flight = s.engine.flight) (hi : t.inputsLive = s.inputsLive)
    (hs : t.sync.live = s.sync.live) (hl : t.port.live = s.port.live) (hv : t.survey.expiry = s.survey.expiry)
    (hj : t.journal.flight = s.journal.flight) : Failed t :=
  h.keep (h.claims_blocks hb (hp.trans h.part)) hp he hi hs hl hv hj fun n => by rw [hb.lane]

theorem Failed.not_takes {s : State} (h : Failed s) : ¬ Takes s := fun ht => ht.notFailed h.part

theorem Failed.not_fetchAnswered {s : State} (h : Failed s) {n : LaneNo} {r : FetchRead} : ¬ FetchAnswered s n r := by
  rintro ⟨f, hf, _⟩; rw [h.lanes] at hf; cases hf

theorem Failed.not_journalAnswered {s : State} (h : Failed s) {r : JournalRead} : ¬ JournalAnswered s r := by
  rintro ⟨f, hf, _⟩; rw [h.journal] at hf; cases hf

theorem Failed.not_engineAnswered {s : State} (h : Failed s) {r : EngineRead} : ¬ EngineAnswered s r := by
  rintro ⟨f, hf, _⟩; rw [h.engine] at hf; cases hf

theorem Failed.setMode {s : State} (h : Failed s) {k : LineNo} {m : OutMode} (hm : m.tracked = none)
    (hk : (s.line k).mode.tracked = none) : Failed (setMode k m s) := by
  have hline : ∀ j, ((Machine.setMode k m s).line j).owner = (s.line j).owner
      ∧ ((Machine.setMode k m s).line j).waiters = (s.line j).waiters
      ∧ ((Machine.setMode k m s).line j).mode.tracked = (s.line j).mode.tracked := fun j => by
    by_cases hj : k = j
    · subst hj
      rw [setMode_self]
      exact ⟨rfl, rfl, hm.trans hk.symm⟩
    · rw [setMode_other _ _ _ hj]; exact ⟨rfl, rfl, rfl⟩
  exact h.keep (h.claims.of_tables id (fun j => (hline j).1) (fun j => (hline j).2.1) (fun _ _ => .refl _)
    (fun ht => (h.claims.bindings ht).congr (fun j => (hline j).2.2) fun _ => rfl)) rfl ⟨rfl, rfl⟩ rfl rfl rfl rfl rfl fun _ => rfl

theorem Failed.endPulse {s : State} (h : Failed s) (k : LineNo) : Failed (endPulse k s) := by
  unfold Machine.endPulse
  split
  · rename_i hm; exact h.setMode rfl (by rw [hm]; rfl)
  all_goals exact h

theorem Failed.endWavePhase {s : State} (h : Failed s) (k : LineNo) : Failed (endWavePhase k s) := by
  unfold Machine.endWavePhase
  split
  · rename_i hm; exact h.setMode (waveAfterPhase_tracked _ _ _ _ _ _ _ _) (by rw [hm]; rfl)
  all_goals exact h

/-- In FAILED a transition changes its input's level alone (R107). -/
theorem Failed.sampleInput {s : State} (h : Failed s) (k : LineNo) (l : Level) : Failed (sampleInput k l s) := by
  unfold Machine.sampleInput
  split
  · exact h
  · rw [h.inputs, if_neg (by simp)]
    exact h.note (.of_gens rfl rfl rfl) rfl ⟨rfl, rfl⟩ rfl rfl rfl rfl rfl

theorem Failed.sampleSync {s : State} (h : Failed s) (l : Level) : Failed (sampleSync l s) := by
  unfold Machine.sampleSync
  split
  · exact h
  · have hnone : syncSelected s l = false := by simp [syncSelected, h.sync]
    rw [hnone, if_neg (by simp)]
    exact h.note (.of_gens rfl rfl rfl) rfl ⟨rfl, rfl⟩ rfl rfl rfl rfl rfl

theorem advanceFlights_none {s : State} (n : LaneNo) (h : (s.lane n).flight = none) :
    ((advanceFlights s).lane n).flight = none := by
  have hat := each_at (get := State.lane)
    (f := fun n t => State.setLane t n { t.lane n with flight := (t.lane n).flight.map Flight.advance })
    (g := fun _ x => { x with flight := x.flight.map Flight.advance })
    (fun _ => True) (fun _ _ _ => trivial) (fun n t _ => lane_setLane_self t n _)
    (fun n m t hnm => lane_setLane_ne t hnm _) allLanes nodup_allLanes s trivial n
  rw [if_pos (mem_allLanes n), h] at hat
  unfold advanceFlights; dsimp only
  generalize State.each allLanes _ s = u at hat ⊢
  exact (congrArg Lane.flight hat).trans rfl

theorem advanceFlights_journal (s : State) : (advanceFlights s).journal.flight = s.journal.flight.map Flight.advance := by
  have h : (State.each allLanes
      (fun n t => t.setLane n { t.lane n with flight := (t.lane n).flight.map Flight.advance }) s).journal = s.journal :=
    each_keeps State.journal
      (f := fun n t => State.setLane t n { t.lane n with flight := (t.lane n).flight.map Flight.advance })
      (fun n t => setLane_journal t n _) _ _
  unfold advanceFlights; dsimp only
  generalize State.each allLanes _ s = u at h ⊢
  exact (congrArg (fun j => Option.map Flight.advance (Journal.flight j)) h)

theorem Failed.completeWrite {s : State} (h : Failed s) : Failed (completeWrite s) := by
  have hc := (completeWrite_tables s).claims (fun e => by
    obtain ⟨p, e', m, hx, _⟩ := completeWrite_fixed s
    rw [← State.fixed_part, hx]; exact e) h.claims
  obtain ⟨p, e, m, hx, _, hl, _, hcmd, hfl⟩ := completeWrite_fixed s
  have hflights : (∀ n, ((Machine.completeWrite s).lane n).flight = none) ∧ (Machine.completeWrite s).journal.flight = none := by
    unfold Machine.completeWrite
    split
    · exact ⟨h.lanes, h.journal⟩
    · split
      · exact ⟨h.lanes, h.journal⟩
      · rename_i w rest _
        refine ⟨fun n => ?_, ?_⟩
        · rw [(afterWrite_blocks w _).lane]
          exact advanceFlights_none n (h.lanes n)
        · rw [afterWrite_journal, advanceFlights_journal]
          exact congrArg (Option.map Flight.advance) h.journal
  generalize Machine.completeWrite s = t at hc hx hflights ⊢
  have hpart : t.fixed.part = s.part := by rw [hx]; rfl
  have hcommand : t.fixed.engine.command = none := by rw [hx]; exact hcmd.trans h.command
  have hflight : t.fixed.engine.flight = none := by rw [hx]; exact hfl h.engine
  have hinputs : t.fixed.inputsLive = false := by rw [hx]; exact h.inputs
  have hsync : t.fixed.sync.live = false := by rw [hx]; exact h.sync
  have hport : t.fixed.port.live = false := by rw [hx]; exact hl.trans h.port
  have hsurvey : t.fixed.survey.expiry = none := by rw [hx]; exact h.survey
  exact ⟨hpart.trans h.part, hc, hcommand, hinputs, hsync, hport, hsurvey, hflight, hflights.2, hflights.1⟩

/-- In FAILED a reset leaves it, and else only what has not ceased moves (R177, Table 10-3). -/
theorem Failed.effect {c : Instr} {s t : State} (hs : Failed s) (h : Effect c s t) : Sound t := by
  cases h with
  | resetLow => exact .inl ((live_reset { s with resetPin := .low }).blocksKept (.of_gens rfl rfl rfl) ⟨rfl, rfl⟩)
  | resetHigh => exact .inr (hs.note (.of_gens rfl rfl rfl) rfl ⟨rfl, rfl⟩ rfl rfl rfl rfl rfl)
  | softReset => exact .inl (live_reset s)
  | controlReset => exact .inl (live_reset s)
  | control => exact .inr (hs.note (.of_gens rfl rfl rfl) rfl ⟨rfl, rfl⟩ rfl rfl rfl rfl rfl)
  | plainWrite r v =>
    have hf : writePlain r v s = s := by
      have hp : s.part ≠ .config := by rw [hs.part]; exact nofun
      cases r <;> simp [writePlain, hp]
    rw [hf]; exact .inr hs
  | ack v =>
    have hf : acknowledge (ackSlot v) (ackCount v) s
        = s.setSlot (ackSlot v) { s.slot (ackSlot v) with acknowledged := ackCount v } := by
      simp [acknowledge, hs.part]
    rw [hf]
    exact .inr (hs.note (.of_gens rfl rfl rfl) rfl ⟨rfl, rfl⟩ rfl rfl rfl rfl rfl)
  | refused => exact .inr (hs.note (.of_gens rfl rfl rfl) rfl ⟨rfl, rfl⟩ rfl rfl rfl rfl rfl)
  | start _ _ ht => exact absurd ht hs.not_takes
  | stop _ _ ht => exact absurd ht hs.not_takes
  | laneStop _ _ _ ht => exact absurd ht hs.not_takes
  | laneRestart _ _ _ ht => exact absurd ht hs.not_takes
  | journalRestart _ _ ht => exact absurd ht hs.not_takes
  | armAlign _ _ ht => exact absurd ht hs.not_takes
  | alignNow _ _ ht => exact absurd ht hs.not_takes
  | resurvey _ _ ht => exact absurd ht hs.not_takes
  | laneHold _ _ _ ht => exact absurd ht hs.not_takes
  | laneResume _ _ _ ht => exact absurd ht hs.not_takes
  | journalFlush _ _ ht => exact absurd ht hs.not_takes
  | disarm _ _ ht => exact absurd ht hs.not_takes
  | leftRead => exact .inr (hs.note (.of_gens rfl rfl rfl) rfl ⟨rfl, rfl⟩ rfl rfl rfl rfl rfl)
  | discardFetch _ _ n f _ hf => rw [hs.lanes] at hf; cases hf
  | discardJournal _ _ f _ hf => rw [hs.journal] at hf; cases hf
  | discardEngine _ _ f _ hf => rw [hs.engine] at hf; cases hf
  | startBadExchange _ _ _ ha => exact absurd ha hs.not_engineAnswered
  | startRead _ _ _ _ _ ha => exact absurd ha hs.not_engineAnswered
  | startReadError _ _ ha => exact absurd ha hs.not_engineAnswered
  | activate _ _ hw => simp [startWritten, hs.part] at hw
  | statusStep _ _ hd => simp [stopDrained, hs.command] at hd
  | floatStep _ _ hw => simp [stopWritten, hs.command] at hw
  | complete _ _ d _ _ hc => rw [hs.command] at hc; cases hc
  | laneRestartRead _ _ _ ha => exact absurd ha hs.not_engineAnswered
  | readError _ _ _ _ ha => exact absurd ha hs.not_engineAnswered
  | journalRestartRead _ _ ha => exact absurd ha hs.not_engineAnswered
  | journalRestartReadError _ ha => exact absurd ha hs.not_engineAnswered
  | armAlignRead _ _ ha => exact absurd ha hs.not_engineAnswered
  | alignNowRead _ _ ha => exact absurd ha hs.not_engineAnswered
  | dueReached _ _ _ hd => simp [dueReady, hs.part] at hd
  | waitExpired _ _ _ hx => simp [Machine.waitExpired, hs.part] at hx
  | claimExpired _ _ _ _ hx => simp [Machine.claimExpired, hs.part] at hx
  | input k l => exact .inr (hs.sampleInput k l)
  | deadTime => exact .inr (hs.note (.of_gens rfl rfl rfl) rfl ⟨rfl, rfl⟩ rfl rfl rfl rfl rfl)
  | sync l => exact .inr (hs.sampleSync l)
  | pulse k => exact .inr (hs.endPulse k)
  | wave k => exact .inr (hs.endWavePhase k)
  | derived _ _ _ hd => simp [derivedEdgeDue, hs.part] at hd
  | ofVirtual _ _ _ hd => simp [virtualEdgeDue, hs.part] at hd
  | survey _ _ hd => simp [surveyDue, hs.survey] at hd
  | gather _ _ hd => simp [gatherDue, hs.part] at hd
  | flushTimer _ _ hd => simp [flushTimerDue, hs.part] at hd
  | headField _ _ _ ha => exact absurd ha hs.not_fetchAnswered
  | header _ _ _ ha => exact absurd ha hs.not_fetchAnswered
  | burst _ _ _ ha => exact absurd ha hs.not_fetchAnswered
  | link _ _ _ ha => exact absurd ha hs.not_fetchAnswered
  | fetchError _ _ _ ha => exact absurd ha hs.not_fetchAnswered
  | journalHead _ _ ha => exact absurd ha hs.not_journalAnswered
  | journalHeader _ _ ha => exact absurd ha hs.not_journalAnswered
  | journalLink _ _ ha => exact absurd ha hs.not_journalAnswered
  | journalError _ _ ha => exact absurd ha hs.not_journalAnswered
  | serve _ _ hl => rw [hs.port] at hl; cases hl
  | writeComplete => exact .inr hs.completeWrite
  | writeError => exact errorWrite_sound (.inr hs)

/-! ## The obligation -/

theorem sessionSound_of_live {s : State} (h : Live s) : sessionSound s = true := by
  have hp := h.live
  have h1 : lanesRest s = true := by
    unfold lanesRest
    by_cases ha : s.part = .active
    · simp [ha]
    · simp [h.off ha]
  have h2 : linesRest s = true := by
    unfold linesRest
    by_cases hc : s.part = .config ∨ s.part = .starting
    · simp [h.float hc]
    · simp only [not_or] at hc; simp [hc.1, hc.2]
  have h3 : failedQuiet s = true := by simp [failedQuiet, hp]
  simp [sessionSound, h.fits, h1, h2, h3]

theorem sessionSound_of_failed {s : State} (h : Failed s) : sessionSound s = true := by
  simp [sessionSound, commandFits, lanesRest, linesRest, failedQuiet, h.part, h.command, h.inputs, h.sync, h.port, h.survey,
    h.engine, h.journal, h.lanes]

theorem sound_of_sessionSound {s : State} (hc : Claims True s []) (h : sessionSound s = true) : Sound s := by
  simp only [sessionSound, Bool.and_eq_true] at h
  obtain ⟨⟨⟨hf, hl⟩, hk⟩, hq⟩ := h
  by_cases hp : s.part = .failed
  · refine .inr ?_
    have hcmd : s.engine.command = none := by
      unfold commandFits at hf
      rw [hp] at hf
      cases he : s.engine.command with
      | none => rfl
      | some c => rw [he] at hf; cases c <;> cases hf
    simp only [failedQuiet, hp, ne_eq, not_true_eq_false, decide_false, Bool.false_or, Bool.and_eq_true,
      Bool.not_eq_true', Option.isNone_iff_eq_none, List.all_eq_true] at hq
    obtain ⟨⟨⟨⟨⟨⟨hi, hs⟩, hport⟩, hv⟩, he⟩, hj⟩, hn⟩ := hq
    exact ⟨hp, hc, hcmd, hi, hs, hport, hv, he, hj, fun n => hn n (mem_allLanes n)⟩
  · refine .inl ⟨hp, hc, hf, fun ha n => ?_, fun hcs k => ?_⟩
    · simp only [lanesRest, ha, hp, decide_false, Bool.false_or, List.all_eq_true, decide_eq_true_eq] at hl
      exact hl n (mem_allLanes n)
    · have hcs' : (s.part = .config || s.part = .starting) = true := by simpa using hcs
      simp only [linesRest, hcs', Bool.not_true, Bool.false_or, List.all_eq_true, decide_eq_true_eq] at hk
      exact hk k (mem_allLines k)

theorem sound_iff (s : State) :
    Sound s ↔ claimsSound s = true ∧ bindingsSound s = true ∧ sessionSound s = true := by
  rw [← and_assoc, ← claims_iff]
  exact ⟨fun h => ⟨h.elim Live.claims Failed.claims, h.elim sessionSound_of_live sessionSound_of_failed⟩,
    fun ⟨hc, hs⟩ => sound_of_sessionSound hc hs⟩

theorem tick_sound {s : State} (h : Sound s) : Sound (tick s) := by
  obtain ⟨hg, _, ht⟩ := tick_spec s
  have hb : BlocksKept s (tick s) := ⟨by rw [ht], by rw [ht], fun g => by rw [hg]⟩
  rcases h with h | h
  · exact .inl (h.blocksKept hb ⟨by rw [ht], by rw [ht]⟩)
  · exact .inr (h.note hb (by rw [ht]) ⟨by rw [ht], by rw [ht]⟩ (by rw [ht]) (by rw [ht]) (by rw [ht]) (by rw [ht]) (by rw [ht]))

/-- Settles O60: outside FAILED each effect keeps the claims, the bindings and the session, the runs by their invariant and
their fuel; in FAILED only what has not ceased moves. -/
theorem stepKeepsClaimsAndBindings : Obligations.StepKeepsClaimsAndBindings := by
  intro s t hs h
  rw [← sound_iff] at hs ⊢
  refine step_keeps (P := Sound) (fun s p k hs => ?_) (fun s hs => tick_sound hs)
    (fun c s t hs he => hs.elim (fun hl => hl.effect he) fun hf => hf.effect he) hs h
  exact hs.imp (fun hl => hl.blocksKept (.of_gens rfl rfl rfl) ⟨rfl, rfl⟩)
    fun hf => hf.note (.of_gens rfl rfl rfl) rfl ⟨rfl, rfl⟩ rfl rfl rfl rfl rfl

end Sys2Proof.Machine
end

