-- ==== Sys2Proof/Proofs/CommandPort.lean ====
section
/-!
THEOREM. A write to COMMAND: which command a word carries, how it is refused or taken (R183), what CMD_STATUS shows of it
(R184), and the reads that the reading commands present.
-/

namespace Sys2Proof.Machine

/-! ## The word written to COMMAND (R179) -/

theorem toNat_append_eq {n m : Nat} (x : BitVec n) (y : BitVec m) : (x ++ y).toNat = x.toNat * 2 ^ m + y.toNat := by
  rw [BitVec.toNat_append, ← Nat.shiftLeft_add_eq_or_of_lt y.isLt, Nat.shiftLeft_eq]

theorem code_of_append (high : Half) (b code : Byte) : (high ++ b ++ code).extractLsb' 0 8 = code := by
  apply BitVec.eq_of_toNat_eq
  have := code.isLt
  simp only [BitVec.extractLsb'_toNat, toNat_append_eq, Nat.shiftRight_eq_div_pow]
  omega

theorem operand_of_append (high : Half) (b code : Byte) : (high ++ b ++ code).extractLsb' 8 8 = b := by
  apply BitVec.eq_of_toNat_eq
  have := code.isLt
  have := b.isLt
  simp only [BitVec.extractLsb'_toNat, toNat_append_eq, Nat.shiftRight_eq_div_pow]
  omega

/-- A word whose code names no command carries UNDEFINED_COMMAND. -/
theorem commandOfWord_undefined (high : Half) (b code : Byte) (h : code = 0#8 ∨ 13 ≤ code.toNat) :
    commandOfWord (high ++ b ++ code) = .undefinedCommand code b := by
  have hcode : ∀ m : Nat, code.toNat = m → 1 ≤ m → m ≤ 12 → False := by
    intro m hm h1 h12
    rcases h with rfl | h13
    · simp at hm; omega
    · omega
  unfold commandOfWord
  simp only [code_of_append, operand_of_append]
  split
  case h_13 => rfl
  all_goals rename_i hm; exact (hcode _ hm (by omega) (by omega)).elim

/-! ## Refused or taken (R183) -/

theorem unlessHeld_of_held {s : State} (hs : s.resetPin = .low) (t : State) : unlessHeld s t = .next s := by
  rw [unlessHeld, if_pos hs]

/-- The time-taking command in progress, or the part state, keeps every other command out (R183). -/
theorem engineBusy_iff (s : State) :
    engineBusy s = true ↔ s.engine.command ≠ none ∨ s.part = .starting ∨ s.part = .stopping := by
  simp [engineBusy, Option.isSome_iff_ne_none, or_assoc]

/-- The five cases of R183, each with the cases before it excluded. -/
theorem refusal_of_failed {s : State} (h : s.part = .failed) (known ready : Bool) :
    refusal s known ready = some .refusedState := by simp [refusal, h]

theorem refusal_of_busy {s : State} (hf : s.part ≠ .failed) (hb : engineBusy s = true) (known ready : Bool) :
    refusal s known ready = some .refusedBusy := by simp [refusal, hf, hb]

theorem refusal_of_unknown {s : State} (hf : s.part ≠ .failed) (hb : engineBusy s ≠ true) (ready : Bool) :
    refusal s false ready = some .badOperand := by simp [refusal, hf, hb]

theorem refusal_of_notReady {s : State} (hf : s.part ≠ .failed) (hb : engineBusy s ≠ true) :
    refusal s true false = some .refusedState := by simp [refusal, hf, hb]

theorem refusal_of_takes {s : State} (h : Takes s) : refusal s true true = none := by
  have hb : engineBusy s ≠ true := by simp [engineBusy_iff, h.idle, h.notStarting, h.notStopping]
  simp [refusal, h.notFailed, hb]

theorem takes_of_config {s : State} (hs : s.awake) (hp : s.part = .config) (he : s.engine.command = none) : Takes s :=
  ⟨hs, by simp [hp], by simp [hp], by simp [hp], he⟩

theorem takes_of_active {s : State} (hs : s.awake) (hp : s.part = .active) (he : s.engine.command = none) : Takes s :=
  ⟨hs, by simp [hp], by simp [hp], by simp [hp], he⟩

theorem writeCommand_refused {s : State} (hs : s.awake) {known ready : Bool} {o : CmdOutcome}
    (h : refusal s known ready = some o) (code shown : Byte) (t : State) :
    writeCommand code shown known ready t s = .next (withLast s code shown o) := by
  rw [writeCommand, h, unlessHeld_of_awake hs]; rfl

theorem writeCommand_taken {s : State} (h : Takes s) (code shown : Byte) (t : State) :
    writeCommand code shown true true t s = .next t := by
  rw [writeCommand, refusal_of_takes h, unlessHeld_of_awake h.awake]

/-- The lane that an operand of at most 3 names. -/
theorem laneByte_of_lt {b : Byte} (h : b.toNat < 4) : laneByte ⟨b.toNat, h⟩ = b := laneByte_eq rfl

theorem laneByte_toNat (n : LaneNo) : (laneByte n).toNat = n.val := by
  have := n.isLt
  simp [laneByte]; omega

theorem laneByte_lt (n : LaneNo) : (laneByte n).toNat < 4 := by rw [laneByte_toNat]; exact n.isLt

theorem lane_of_laneByte (n : LaneNo) : (⟨(laneByte n).toNat, laneByte_lt n⟩ : LaneNo) = n :=
  Fin.ext (laneByte_toNat n)

theorem ofLane_of_lt (s : State) {b : Byte} (h : b.toNat < 4) (p : Lane → Bool) :
    ofLane s b p = p (s.lane ⟨b.toNat, h⟩) := by rw [ofLane, dif_pos h]

theorem writeLaneCommand_of_lt {b : Byte} (h : b.toNat < 4) (code : Byte) (taken : LaneNo → Out) (s : State) :
    writeLaneCommand code b taken s = taken ⟨b.toNat, h⟩ := by rw [writeLaneCommand, dif_pos h]

/-- A command on lane `n` as its operand names it. -/
theorem writeLaneCommand_laneByte (n : LaneNo) (code : Byte) (taken : LaneNo → Out) (s : State) :
    writeLaneCommand code (BitVec.ofNat 8 n.val) taken s = taken n :=
  (writeLaneCommand_of_lt (laneByte_lt n) code taken s).trans (by rw [lane_of_laneByte])

theorem writeLaneCommand_of_not_lt {b : Byte} (h : ¬ b.toNat < 4) (code : Byte) (taken : LaneNo → Out) (s : State) :
    writeLaneCommand code b taken s = writeCommand code b false false s s := by rw [writeLaneCommand, dif_neg h]

theorem LaneState.closed_eq (st : LaneState) :
    st.closed = (decide (st = .off) || decide (st = .faulted) || decide (st = .ended)) := by
  cases st <;> rfl

/-! ## What CMD_STATUS shows of a taken command (R184) -/

/-- A time-taking command has been taken: it is the command in progress and the last fields stay. -/
def Began (code : Byte) (e f : Engine) : Prop :=
  (∃ d, f.command = some d ∧ d.code = code) ∧ f.lastCode = e.lastCode ∧ f.lastOperand = e.lastOperand
    ∧ f.lastOutcome = e.lastOutcome

/-- An immediate command has been taken: none is in progress and the last fields show it. -/
def Acted (code shown : Byte) (f : Engine) : Prop :=
  f.command = none ∧ f.lastCode = code ∧ f.lastOperand = shown ∧ f.lastOutcome = .done

/-- What a taken command leaves: no write to COMMAND changes a clock, a register or memory. -/
structure TakenFrame (s t : State) : Prop where
  regs : t.regs = s.regs
  memory : t.memory = s.memory
  elapsed : t.time.elapsed = s.time.elapsed
  schedule : t.time.schedule = s.time.schedule

theorem EngineOnly.takenFrame {s t : State} (h : EngineOnly s t) : TakenFrame s t where
  regs := congrArg Fixed.regs h
  memory := congrArg Fixed.memory h
  elapsed := congrArg (fun f : Fixed => f.time.elapsed) h
  schedule := congrArg (fun f : Fixed => f.time.schedule) h

theorem takeLaneStop_engine (n : LaneNo) (s : State) :
    (takeLaneStop n s).engine = { s.engine with command := some (.laneStop n), await := .toIssue, alignPost := .idle } := by
  unfold takeLaneStop
  rw [engine_of_fixed (stopLane_fixed n _)]; rfl

theorem takeStop_engine (s : State) : (takeStop s).engine = (beginCommand (.stop false) s).engine := by
  have h := takeStop_fixed s
  generalize takeStop s = t at h ⊢
  exact congrArg Fixed.engine h

theorem takeStop_takenFrame (s : State) : TakenFrame s (takeStop s) := by
  have h := takeStop_fixed s
  generalize takeStop s = t at h ⊢
  exact ⟨congrArg Fixed.regs h, congrArg Fixed.memory h, congrArg (fun f : Fixed => f.time.elapsed) h,
    congrArg (fun f : Fixed => f.time.schedule) h⟩

theorem setLast_acted {s t : State} (h : t.fixed = s.fixed) (he : s.engine.command = none) (code shown : Byte) :
    Acted code shown (setLast code shown .done t).engine :=
  ⟨(congrArg (fun f : Fixed => f.engine.command) h).trans he, rfl, rfl, rfl⟩

/-- A command has been taken: its frame, and what the engine shows of it by its code. -/
structure Taken (code shown : Byte) (s t : State) : Prop where
  frame : TakenFrame s t
  began : code.toNat ≤ 7 → Began code s.engine t.engine
  acted : s.engine.command = none → 8 ≤ code.toNat → Acted code shown t.engine

theorem Taken.timeTaking {code shown : Byte} {s t : State} (hc : code.toNat ≤ 7) (hf : TakenFrame s t)
    (hb : Began code s.engine t.engine) : Taken code shown s t :=
  ⟨hf, fun _ => hb, fun _ h8 => absurd h8 (by omega)⟩

theorem Taken.immediate {code shown : Byte} {s t : State} (hc : 8 ≤ code.toNat) (h : t.fixed = s.fixed) :
    Taken code shown s (setLast code shown .done t) :=
  ⟨(setLast_after _ _ _ h).takenFrame, fun h7 => absurd h7 (by omega), fun he _ => setLast_acted h he _ _⟩

theorem Taken.disarm (s : State) : Taken codeDisarmAlign 0 s (setLast codeDisarmAlign 0 .done (setArmed false s)) :=
  ⟨⟨rfl, rfl, rfl, rfl⟩, fun h7 => absurd h7 (by decide), fun he _ => ⟨he, rfl, rfl, rfl⟩⟩

theorem Taken.laneStop (n : LaneNo) (b : Byte) (s : State) : Taken codeLaneStop b s (takeLaneStop n s) :=
  .timeTaking (by decide) (takeLaneStop_engineOnly n s).takenFrame
    (by rw [takeLaneStop_engine]; exact ⟨⟨_, rfl, rfl⟩, rfl, rfl, rfl⟩)

theorem Taken.stop (s : State) : Taken codeStop 0 s (takeStop s) :=
  .timeTaking (by decide) (takeStop_takenFrame s) (by rw [takeStop_engine]; exact ⟨⟨_, rfl, rfl⟩, rfl, rfl, rfl⟩)

/-! ## Every command written to COMMAND (R183) -/

/-- A command on a lane is judged by the operand first and then by what Table 11-3 asks of the lane. -/
theorem written_laneCommand {code b : Byte} {s : State} {ready : LaneNo → Bool} {t : LaneNo → State} {known takenIn : Bool}
    (hknown : known = decide (b.toNat < 4)) (hready : ∀ h : b.toNat < 4, ready ⟨b.toNat, h⟩ = takenIn)
    (htaken : ∀ n, Taken code (laneByte n) s (t n)) :
    ∃ t' r, (known = true → r = takenIn ∧ Taken code b s t') ∧
      writeLaneCommand code b (fun n => writeCommand code (laneByte n) true (ready n) (t n) s) s
        = writeCommand code b known r t' s := by
  by_cases h : b.toNat < 4
  · refine ⟨t ⟨b.toNat, h⟩, takenIn, fun _ => ⟨rfl, by simpa only [laneByte_of_lt h] using htaken ⟨b.toNat, h⟩⟩, ?_⟩
    rw [writeLaneCommand_of_lt h, hknown, decide_eq_true h, hready h, laneByte_of_lt h]
  · refine ⟨s, false, fun hk => ?_, ?_⟩
    · rw [hknown, decide_eq_false h] at hk; cases hk
    · rw [writeLaneCommand_of_not_lt h, hknown, decide_eq_false h]

/-- Every command written to COMMAND is judged by R183, with the columns of Table 11-3. -/
theorem exec_written {c : Instr} {code shown : Byte} (hc : commandShown c = some (code, shown)) (s : State) :
    ∃ t r, (commandKnown c = true → r = commandTakenIn s c ∧ Taken code shown s t) ∧
      exec c s = writeCommand code shown (commandKnown c) r t s := by
  unfold commandShown at hc
  split at hc
  case h_13 code' b =>
    split at hc
    · cases hc
    · rename_i hne
      cases hc
      refine ⟨s, false, nofun, ?_⟩
      show execUndefinedCommand code b s = _
      rw [execUndefinedCommand, if_neg hne]; rfl
  case h_14 => cases hc
  all_goals cases hc
  case h_1 b =>
    exact ⟨takeStart s, _, fun _ => ⟨rfl, .timeTaking (by decide) ⟨rfl, rfl, rfl, rfl⟩ ⟨⟨_, rfl, rfl⟩, rfl, rfl, rfl⟩⟩, rfl⟩
  case h_2 b => exact ⟨_, _, fun _ => ⟨rfl, .stop s⟩, rfl⟩
  case h_3 b =>
    exact written_laneCommand (ready := fun _ => s.part = .active) (t := fun n => takeLaneStop n s) rfl (fun _ => rfl)
      fun n => .laneStop n _ s
  case h_4 b =>
    refine written_laneCommand (ready := fun n => s.part = .active && (s.lane n).state.closed)
      (t := fun n => takeLaneRestart n s) rfl (fun h => ?_) fun n =>
        .timeTaking (by decide) ⟨rfl, rfl, rfl, rfl⟩ ⟨⟨_, rfl, rfl⟩, rfl, rfl, rfl⟩
    simp only [commandTakenIn, ofLane_of_lt s h, LaneState.closed_eq]
  case h_5 b =>
    exact ⟨takeJournalRestart s, _, fun _ => ⟨rfl, .timeTaking (by decide) ⟨rfl, rfl, rfl, rfl⟩ ⟨⟨_, rfl, rfl⟩, rfl, rfl, rfl⟩⟩, rfl⟩
  case h_6 b =>
    exact ⟨takeArmAlign s, _, fun _ => ⟨rfl, .timeTaking (by decide) ⟨rfl, rfl, rfl, rfl⟩ ⟨⟨_, rfl, rfl⟩, rfl, rfl, rfl⟩⟩, rfl⟩
  case h_7 b =>
    exact ⟨takeAlignNow s, _, fun _ => ⟨rfl, .timeTaking (by decide) ⟨rfl, rfl, rfl, rfl⟩ ⟨⟨_, rfl, rfl⟩, rfl, rfl, rfl⟩⟩, rfl⟩
  case h_8 b => exact ⟨_, _, fun _ => ⟨rfl, .immediate (by decide) (surveyAll_fixed s)⟩, rfl⟩
  case h_9 b =>
    refine written_laneCommand (ready := fun n => s.part = .active && !(s.lane n).state.closed)
      (t := fun n => setLast codeLaneHold (laneByte n) .done (holdLane n s)) rfl (fun h => ?_) fun n =>
        .immediate (by decide) (holdLane_fixed n s)
    simp only [commandTakenIn, ofLane_of_lt s h, LaneState.closed_eq]
  case h_10 b =>
    refine written_laneCommand (ready := fun n => s.part = .active && resumable s n)
      (t := fun n => setLast codeLaneResume (laneByte n) .done (resumeLane n s)) rfl (fun h => ?_) fun n =>
        .immediate (by decide) (resumeLane_fixed n s)
    simp only [commandTakenIn, ofLane_of_lt s h, resumable]
  case h_11 b => exact ⟨_, _, fun _ => ⟨rfl, .immediate (by decide) (flushJournal_fixed s)⟩, rfl⟩
  case h_12 b => exact ⟨_, _, fun _ => ⟨rfl, .disarm s⟩, rfl⟩

/-- Settles O14: the fields of the word, and the cases of R183 in their order. -/
theorem commandsAreRefusedByTheFirstCase : Obligations.CommandsAreRefusedByTheFirstCase := by
  refine ⟨fun high b => ?word, fun c s hs _ => ⟨fun operand => rfl, fun code shown hc => ?refused⟩⟩
  case word =>
    refine ⟨?_, ?_, ?_, ?_, ?_, ?_, ?_, ?_, ?_, ?_, ?_, ?_, fun code h => commandOfWord_undefined high b code h⟩
    all_goals unfold commandOfWord; simp only [code_of_append, operand_of_append]; rfl
  case refused =>
    obtain ⟨t, r, hr, ht⟩ := exec_written hc s
    dsimp only
    rw [← engineBusy_iff, ht]
    refine ⟨fun hf => ?_, fun hf hb => ?_, fun hf hb hk => ?_, fun hf hb hk hn => ?_⟩
    · exact writeCommand_refused hs (refusal_of_failed hf _ _) code shown t
    · exact writeCommand_refused hs (refusal_of_busy hf hb _ _) code shown t
    · rw [hk]; exact writeCommand_refused hs (refusal_of_unknown hf hb r) code shown t
    · obtain ⟨hready, _⟩ := hr hk
      rw [hready, hk, hn]; exact writeCommand_refused hs (refusal_of_notReady hf hb) code shown t

/-- While RESET_N is LOW no command written to COMMAND has any effect (R179, R193). -/
theorem exec_written_held {c : Instr} (hc : (commandShown c).isSome = true) {s : State} (hs : s.resetPin = .low) :
    exec c s = .next s := by
  obtain ⟨⟨code, shown⟩, hc⟩ := Option.isSome_iff_exists.mp hc
  obtain ⟨t, r, _, ht⟩ := exec_written hc s
  rw [ht, writeCommand, unlessHeld_of_held hs]

/-- Table 11-3 takes every command in CONFIG or in ACTIVE. -/
theorem takenIn_part {c : Instr} {s : State} (h : commandTakenIn s c = true) : s.part = .config ∨ s.part = .active := by
  unfold commandTakenIn at h
  split at h
  case h_1 => exact .inl (of_decide_eq_true h)
  case h_13 => cases h
  all_goals
    simp only [Bool.and_eq_true, decide_eq_true_eq] at h
    tauto

/-- Settles O15: each command by its effect, which is taken as none of R183's cases holds. -/
theorem takenCommandsShowInCmdStatus : Obligations.TakenCommandsShowInCmdStatus := by
  intro c s hs he hk hi code shown hc
  obtain ⟨t, r, hr, ht⟩ := exec_written hc s
  obtain ⟨hready, hframe, hbegan, hacted⟩ := hr hk
  have htakes : Takes s := by
    refine (takenIn_part hi).elim (takes_of_config hs · he) (takes_of_active hs · he)
  obtain ⟨hregs, hmemory, helapsed, hschedule⟩ := hframe
  refine ⟨t, ?_, hregs, hmemory, helapsed, hschedule, hbegan, hacted he⟩
  rw [ht, hready, hk, hi, writeCommand_taken htakes]

/-! ## The reads that commands present -/

/-- Settles O16: each taken command's state, as the model writes it. -/
theorem readingCommandsPresentTheirRead : Obligations.ReadingCommandsPresentTheirRead := by
  intro b s hs he
  dsimp only
  refine ⟨fun hp => ?start, fun hp => ⟨fun n hn => ?laneRestart, ?armAlign, ?alignNow, fun hj => ?journalRestart⟩⟩
  case start =>
    show writeCommand codeStart 0 true (decide (s.part = .config)) (takeStart s) s = _
    rw [decide_eq_true hp, writeCommand_taken (takes_of_config hs hp he)]; rfl
  all_goals have htakes := takes_of_active hs hp he
  case laneRestart =>
    have hclosed : (s.lane n).state.closed = true := by
      rcases hn with h | h | h <;> rw [h] <;> rfl
    show execLaneRestart (BitVec.ofNat 8 n.val) s = _
    rw [execLaneRestart, writeLaneCommand_laneByte]
    rw [hclosed, decide_eq_true hp, Bool.and_true, writeCommand_taken htakes]; rfl
  case armAlign =>
    show writeCommand codeArmAlign 0 true (decide (s.part = .active)) (takeArmAlign s) s = _
    rw [decide_eq_true hp, writeCommand_taken htakes]; rfl
  case alignNow =>
    show writeCommand codeAlignNow 0 true (decide (s.part = .active)) (takeAlignNow s) s = _
    rw [decide_eq_true hp, writeCommand_taken htakes]; rfl
  case journalRestart =>
    have hready : (decide (s.part = .active) && journalRestartable s) = true := by
      simp only [hp, journalRestartable, decide_true, Bool.true_and, Bool.or_eq_true, decide_eq_true_iff]; exact hj
    refine ⟨takeJournalRestart s, ?_, rfl, rfl, fun f hf => ?_, rfl⟩
    · show writeCommand codeJournalRestart 0 true _ (takeJournalRestart s) s = _
      rw [hready, writeCommand_taken htakes]
    · obtain ⟨f', _, rfl⟩ := Option.map_eq_some_iff.mp hf
      rfl

end Sys2Proof.Machine
end

