-- ==== Sys2Proof/Proofs/StepAndResets.lean ====
section
/-!
THEOREM. The step of an idle part and its tick (R54, R73), the values of both resets (R193, R194), what a reset leaves to the
memory system (R168), and the writes to the registers (R179 to R181).
-/

namespace Sys2Proof.Machine

/-! ## The step -/

/-- Settles O1, by the definition of a step. -/
theorem stepRunsFrontCommand : Obligations.StepRunsFrontCommand := fun _ _ _ => rfl

theorem step_of_empty {s : State} (h : s.pending = []) : step s = idle s := by rw [step, h]

theorem idle_of_held {s : State} (h : s.resetPin = .low) : idle s = .next s := by rw [idle, if_pos h]

theorem awake_not_low {s : State} (h : s.awake) : s.resetPin ≠ .low := by
  rw [show s.resetPin = .high from h]; exact nofun

theorem idle_of_due {s : State} (hs : s.awake) (h : dueEvents s ≠ []) :
    ∃ i ∈ dueEvents s, ∃ c, idle s = exec i { s with choices := c } := by
  obtain ⟨i, hi, c, hc⟩ := chooseEvent_mem h s
  exact ⟨i, hi, c, by rw [idle, if_neg (awake_not_low hs), nextEvent, hc]⟩

theorem idle_of_none {s : State} (hs : s.awake) (h : dueEvents s = []) : idle s = .next (tick s) := by
  rw [idle, if_neg (awake_not_low hs), nextEvent, h]; rfl

/-- Settles O3: an idle part held by RESET_N, with an event due, and with none, which is one tick. -/
theorem tickAdvancesBothClocks : Obligations.TickAdvancesBothClocks := by
  intro s hpend
  rw [step_of_empty hpend]
  refine ⟨idle_of_held, idle_of_due, fun hs hd => ⟨tick s, idle_of_none hs hd, ?_⟩⟩
  obtain ⟨hgen, hinput, htick⟩ := tick_spec s
  have htime : (tick s).time = { s.time with elapsed := s.time.elapsed + 1, schedule := s.time.schedule + 1 } := by rw [htick]
  have hsync : (tick s).sync = { s.sync with moved := false } := by rw [htick]
  have hpins : (tick s).pins = drivenPins s := by rw [htick]
  have hpin : ∀ k : LineNo, (tick s).pins[k] = (s.line k).mode.level := fun k => by
    rw [hpins]; exact getElem_drivenPins s k
  refine ⟨htime, hgen, hinput, hsync, hpin, fun k => ?level, ?frame⟩
  case level =>
    rw [hpin]
    cases (s.line k).mode with
    | float => rfl
    | static level => rfl
    | pulse active ret e => rfl
    | track level g => rfl
    | wave first d1 d2 periods completed phase e => cases phase <;> cases first <;> rfl
  case frame => rw [htime, hsync, hpins]; exact htick

/-! ## The values after reset (R193) -/

theorem lane_reset (n : LaneNo) : State.reset.lane n = Lane.reset := by simp [State.lane, State.reset]

theorem line_reset (k : LineNo) : State.reset.line k = OutLine.reset := by simp [State.line, State.reset]

theorem input_reset (k : LineNo) : State.reset.input k = InLine.reset .low := by simp [State.input, State.reset]

theorem gen_reset (g : GenNo) : State.reset.gen g = Generator.reset := by simp [State.gen, State.reset]

theorem slot_reset (k : SlotNo) : State.reset.slot k = Slot.reset := by
  simp [State.slot, State.reset, NoticeUnit.reset]

theorem outPin_reset (k : LineNo) : outPin State.reset k = none := getElem_pinsReleased k

/-- Settles O6: each block's record after reset is the one its chapter gives. -/
theorem resetStateReadsAsStated : Obligations.ResetStateReadsAsStated := by
  refine ⟨rfl, rfl, rfl, rfl, rfl, rfl, rfl, rfl, rfl, outPin_reset, fun n => ?lane, fun n => ?executor, fun n => ?fetcher,
    line_reset, fun k => ?input, rfl, rfl, rfl, rfl, rfl, fun g => ?gen, rfl, rfl, ?journal, slot_reset, rfl, rfl, rfl, rfl,
    rfl, rfl, rfl, rfl, ?windows, rfl, rfl, rfl, rfl, rfl, rfl, rfl, rfl, rfl, rfl, rfl, rfl, rfl⟩
  case lane => rw [lane_reset]; exact ⟨rfl, rfl, rfl⟩
  case executor =>
    rw [lane_reset]; exact ⟨rfl, rfl, rfl, rfl, rfl, rfl, rfl, rfl, rfl, rfl, rfl, rfl, rfl, rfl⟩
  case fetcher => rw [lane_reset]; exact ⟨rfl, rfl, rfl, rfl, rfl, rfl, rfl, rfl, rfl⟩
  case input => rw [input_reset]; exact ⟨rfl, rfl, rfl, rfl, rfl⟩
  case gen => rw [gen_reset]; exact ⟨rfl, rfl, rfl, rfl, rfl, rfl, rfl, rfl, rfl, rfl, rfl, rfl, rfl, rfl⟩
  case journal => exact ⟨rfl, rfl, rfl, rfl, rfl, rfl, rfl, rfl, rfl, rfl, rfl, rfl, rfl, rfl, rfl, rfl⟩
  case windows =>
    intro w hw
    simpa [State.reset, Port.reset] using hw

/-! ## RESET_N -/

/-- The fields that a reset gives, of any state. -/
theorem lane_resetKeepingAddress (s : State) (n : LaneNo) : (resetKeepingAddress s).lane n = Lane.reset := by
  simp [State.lane, resetKeepingAddress]

theorem line_resetKeepingAddress (s : State) (k : LineNo) : (resetKeepingAddress s).line k = OutLine.reset := by
  simp [State.line, resetKeepingAddress]

theorem input_resetKeepingAddress (s : State) (k : LineNo) :
    (resetKeepingAddress s).input k = { InLine.reset .low with level := (s.input k).level } := by
  simp [State.input, resetKeepingAddress, InLine.reset]

theorem gen_resetKeepingAddress (s : State) (g : GenNo) : (resetKeepingAddress s).gen g = Generator.reset := by
  simp [State.gen, resetKeepingAddress]

theorem slot_resetKeepingAddress (s : State) (k : SlotNo) : (resetKeepingAddress s).slot k = Slot.reset := by
  simp [State.slot, resetKeepingAddress, NoticeUnit.reset]

theorem outPin_resetKeepingAddress (s : State) (k : LineNo) : outPin (resetKeepingAddress s) k = none :=
  getElem_pinsReleased k

/-- Settles O7: the reset state block by block, and the rising edge. -/
theorem resetNBringsResetValues : Obligations.ResetNBringsResetValues := by
  intro s
  let low : State := { s with resetPin := .low }
  exact ⟨resetAll low, rfl, rfl, rfl, lane_resetKeepingAddress low, line_resetKeepingAddress low,
    outPin_resetKeepingAddress low, input_resetKeepingAddress low, rfl, rfl, rfl, gen_resetKeepingAddress low, rfl,
    slot_resetKeepingAddress low, rfl, rfl, rfl, rfl, rfl, rfl, rfl, rfl, rfl, rfl, rfl, rfl, rfl, rfl, rfl, rfl⟩

/-! ## SOFT_RESET (R194) -/

theorem exec_softReset {s : State} (hs : s.awake) : exec .softReset s = .next (resetKeepingAddress s) :=
  unlessHeld_of_awake hs _

/-- An answer that no read awaits is one left from before, or none (R168, log 8). -/
theorem answered_ignored (r : Requester) (fits : LeftRead → Bool) (s : State) :
    answered r fits s s = { s with port := { s.port with leftReads := (answered r fits s s).port.leftReads } } := by
  unfold answered
  split
  · split <;> rfl
  · rfl

/-- Only the list of the answers that memory owes differs. -/
def OwesLess (s t : State) : Prop := t = { s with port := { s.port with leftReads := t.port.leftReads } }

theorem fetchAnswer_ignored {s : State} {n : LaneNo} (h : (s.lane n).flight = none) (fits : FetchRead → Bool)
    (act : FetchRead → State → State) : OwesLess s (fetchAnswer n fits act s) := by
  rw [fetchAnswer, h]; exact answered_ignored _ _ s

theorem journalAnswer_ignored {s : State} (h : s.journal.flight = none) (fits : JournalRead → Bool)
    (act : JournalRead → State → State) : OwesLess s (journalAnswer fits act s) := by
  rw [journalAnswer, h]; exact answered_ignored _ _ s

theorem engineAnswer_ignored {s : State} (h : s.engine.flight = none) (kind : EngineRead) (act : State → State) :
    OwesLess s (engineAnswer kind act s) := by
  rw [engineAnswer, h]; exact answered_ignored _ _ s

/-- With no read in flight every answer to a read is ignored. -/
theorem readAnswer_ignored {s : State} (hf : ∀ n, (s.lane n).flight = none) (hj : s.journal.flight = none)
    (he : s.engine.flight = none) {i : Instr} (hi : answersRead i = true) {t : State} (h : exec i s = .next t) :
    OwesLess s t := by
  have hanswer : Answers (exec i s) (OwesLess s) := by
    cases i with
    | startReadDone o bs =>
      show Answers (execStartReadDone o bs s) _
      unfold execStartReadDone
      split
      · exact answers_next (engineAnswer_ignored he _ _)
      · exact answers_next rfl
    | startReadError => exact answers_next (engineAnswer_ignored he _ _)
    | laneRestartReadDone => exact answers_next (engineAnswer_ignored he _ _)
    | laneRestartReadError => exact answers_next (engineAnswer_ignored he _ _)
    | journalRestartReadDone => exact answers_next (engineAnswer_ignored he _ _)
    | journalRestartReadError => exact answers_next (engineAnswer_ignored he _ _)
    | armAlignReadDone => exact answers_next (engineAnswer_ignored he _ _)
    | armAlignReadError => exact answers_next (engineAnswer_ignored he _ _)
    | alignNowReadDone => exact answers_next (engineAnswer_ignored he _ _)
    | alignNowReadError => exact answers_next (engineAnswer_ignored he _ _)
    | headFieldReadDone n => exact answers_next (fetchAnswer_ignored (hf n) _ _)
    | headerReadDone n => exact answers_next (fetchAnswer_ignored (hf n) _ _)
    | cueBurstDone n => exact answers_next (fetchAnswer_ignored (hf n) _ _)
    | linkReadDone n => exact answers_next (fetchAnswer_ignored (hf n) _ _)
    | fetchReadError n => exact answers_next (fetchAnswer_ignored (hf n) _ _)
    | journalHeadFieldReadDone => exact answers_next (journalAnswer_ignored hj _ _)
    | journalHeaderReadDone => exact answers_next (journalAnswer_ignored hj _ _)
    | journalLinkReadDone => exact answers_next (journalAnswer_ignored hj _ _)
    | journalReadError => exact answers_next (journalAnswer_ignored hj _ _)
    | _ => cases hi
  exact hanswer.of_next h

theorem completeWrite_left {s : State} {w : Write} {rest : List Write} (h : s.port.leftWrites = w :: rest) :
    completeWrite s = performWrite w { s with port := { s.port with leftWrites := rest } } := by rw [completeWrite, h]

theorem errorWrite_left {s : State} {w : Write} {rest : List Write} (h : s.port.leftWrites = w :: rest) :
    errorWrite s = failWrite w { s with port := { s.port with leftWrites := rest } } := by rw [errorWrite, h]

theorem writeAnswers_of_none {s : State} (hl : s.port.leftWrites = []) (hp : s.port.path = []) :
    completeWrite s = s ∧ errorWrite s = s := by
  rw [completeWrite, errorWrite, hl, hp]; exact ⟨rfl, rfl⟩

theorem exec_start_config {s : State} (hs : s.awake) (hp : s.part = .config) (he : s.engine.command = none) (b : Byte) :
    exec (.start b) s = .next (takeStart s) := by
  show writeCommand codeStart 0 true (decide (s.part = .config)) (takeStart s) s = _
  rw [decide_eq_true hp, writeCommand_taken (takes_of_config hs hp he)]

/-- A failed write left from before a reset lands its bytes or none (R176, log 7). -/
theorem failWrite_landed (w : Write) (s : State) :
    ∃ m, (m = s.memory ∨ m = (performWrite w s).memory)
      ∧ failWrite w s = { s with memory := m, choices := s.choices + 1 } := by
  unfold failWrite; dsimp only
  split
  · exact ⟨_, .inr rfl, rfl⟩
  · exact ⟨_, .inl rfl, rfl⟩

/-- Settles O8: the two resets differ in the pin and the address registers alone, and nothing is awaited after either. -/
theorem softResetKeepsOnlyTheAddress : Obligations.SoftResetKeepsOnlyTheAddress := by
  intro s hs
  have hpin : s.resetPin = .high := hs
  refine ⟨resetAll { s with resetPin := .low }, resetKeepingAddress s, rfl, exec_softReset hs, ?same, rfl,
    fun b => ⟨_, exec_start_config (s := resetKeepingAddress s) hs rfl rfl b, rfl⟩, fun w rest hleft => ?left,
    fun hleft => ?none, fun i v hv hi => ?answer⟩
  case same => rw [← hpin]; rfl
  case left =>
    dsimp only
    refine ⟨congrArg Host.Outcome.next (completeWrite_left hleft), ?_⟩
    obtain ⟨m, hm, hw⟩ := failWrite_landed w
      { resetKeepingAddress s with port := { (resetKeepingAddress s).port with leftWrites := rest } }
    exact ⟨m, hm, congrArg Host.Outcome.next ((errorWrite_left hleft).trans hw)⟩
  case none =>
    obtain ⟨hc, he⟩ := writeAnswers_of_none hleft (s := resetKeepingAddress s) rfl
    exact ⟨congrArg Host.Outcome.next hc, congrArg Host.Outcome.next he⟩
  case answer =>
    refine readAnswer_ignored (i := i) (fun n => by rw [lane_resetKeepingAddress]; rfl) rfl rfl ?_ hv
    rcases hi with ⟨_, _, rfl⟩ | ⟨_, _, rfl⟩ | ⟨_, _, rfl⟩ | ⟨_, _, rfl⟩ | ⟨_, rfl⟩ | ⟨_, rfl⟩ | ⟨_, rfl⟩ | ⟨_, rfl⟩ | rfl
      | ⟨_, _, rfl⟩ | rfl | ⟨_, rfl⟩ | rfl | ⟨_, rfl⟩ | rfl | ⟨_, rfl⟩ | rfl | ⟨_, rfl⟩ | rfl
    all_goals rfl

/-! ## Register writes (R179 to R181) -/

/-- Settles O9: each of these writes is one that RESET_N holds back. -/
theorem heldPartIgnoresWrites : Obligations.HeldPartIgnoresWrites := by
  intro s hs
  exact ⟨unlessHeld_of_held hs _, fun _ => unlessHeld_of_held hs _, fun _ _ => unlessHeld_of_held hs _,
    fun _ => unlessHeld_of_held hs _, fun c hc => exec_written_held hc hs⟩

theorem exec_registerWrite {s : State} (hs : s.awake) (r : PlainReg) (v : Word) :
    exec (.registerWrite r v) s = .next (writePlain r v s) := unlessHeld_of_awake hs _

/-- A read-only register takes no write, held or not (R179). -/
theorem exec_registerWrite_kept {s : State} {r : PlainReg} {v : Word} (h : writePlain r v s = s) :
    exec (.registerWrite r v) s = .next s := by
  show unlessHeld s (writePlain r v s) = _
  rw [h, unlessHeld, ite_self]

/-- Settles O10: each register by its arm of the write. -/
theorem registerWritesSetTheirFields : Obligations.RegisterWritesSetTheirFields := by
  intro v s hs
  refine ⟨fun hv => exec_controlWrite_fields hs hv, fun hv => ⟨?_, _, exec_controlWrite_softReset hs hv, rfl, rfl⟩,
    fun hp => ⟨?_, ?_⟩, fun hp => ⟨?_, ?_⟩, ?_, ?_, ?_⟩
  · rw [exec_controlWrite_softReset hs hv, exec_softReset hs]
  · rw [exec_registerWrite hs, writePlain, if_pos hp]; rfl
  · rw [exec_registerWrite hs, writePlain, if_pos hp]
  · exact exec_registerWrite_kept (by rw [writePlain, if_neg hp])
  · exact exec_registerWrite_kept (by rw [writePlain, if_neg hp])
  all_goals exact exec_registerWrite_kept rfl

/-! ## NOTICE_ACK (R162, R164) -/

theorem exec_noticeAck {s : State} (hs : s.awake) (v : Word) :
    exec (.noticeAck v) s =
      .next (if ackTaken (s.slot (ackSlot v)) (ackCount v) then acknowledge (ackSlot v) (ackCount v) s else s) :=
  unlessHeld_of_awake hs _

theorem anyPending_iff (s : State) : anyPending s = true ↔ ∃ k, (s.slot k).posted ≠ (s.slot k).acknowledged := by
  simp only [anyPending, allSlots_any_iff, Slot.pending_iff]

/-- A taken acknowledgement: the slot takes the count, and the gather state settles outside FAILED (R162, R167). -/
theorem acknowledge_eq (k : SlotNo) (v : Count24) (s : State) :
    ∃ g, acknowledge k v s = { s.setSlot k { s.slot k with acknowledged := v } with
          notice := { (s.setSlot k { s.slot k with acknowledged := v }).notice with gather := g } }
      ∧ (s.part ≠ .failed → anyPending (s.setSlot k { s.slot k with acknowledged := v }) = false → g = .idle)
      ∧ (s.part = .failed ∨ anyPending (s.setSlot k { s.slot k with acknowledged := v }) = true → g = s.notice.gather) := by
  by_cases hp : s.part = .failed
  · exact ⟨s.notice.gather, by rw [acknowledge, if_pos hp]; rfl, fun h => absurd hp h, fun _ => rfl⟩
  · rw [acknowledge, if_neg hp, settleGather]
    by_cases ha : anyPending (s.setSlot k { s.slot k with acknowledged := v }) = true
    · exact ⟨s.notice.gather, by rw [if_pos ha]; rfl, fun _ h => absurd (ha.symm.trans h) nofun, fun _ => rfl⟩
    · exact ⟨.idle, by rw [if_neg ha], fun _ _ => rfl, fun h => absurd h (by simp [hp, ha])⟩

/-- Settles O13: the count is judged modulo 2^24, and a taken one settles the gather state. -/
theorem noticeAckIsTakenUpToThePostedCount : Obligations.NoticeAckIsTakenUpToThePostedCount := by
  intro v s hs
  dsimp only
  refine ⟨fun htaken => ?taken, fun hpast => ?past⟩
  case past =>
    rw [exec_noticeAck hs, if_neg]
    simpa [ackTaken, ackSlot, ackCount] using hpast
  case taken =>
    have htake : ackTaken (s.slot (ackSlot v)) (ackCount v) = true := decide_eq_true htaken
    have hexec : exec (.noticeAck v) s = .next (acknowledge (ackSlot v) (ackCount v) s) := by
      rw [exec_noticeAck hs, if_pos htake]
    obtain ⟨g, ht, hidle, hkept⟩ := acknowledge_eq (ackSlot v) (ackCount v) s
    generalize acknowledge (ackSlot v) (ackCount v) s = t at hexec ht
    have hslot : ∀ j, t.slot j = (s.setSlot (ackSlot v) { s.slot (ackSlot v) with acknowledged := ackCount v }).slot j :=
      fun j => by rw [ht]; rfl
    have hgather : t.notice.gather = g := by rw [ht]
    have hany : anyPending (s.setSlot (ackSlot v) { s.slot (ackSlot v) with acknowledged := ackCount v }) = true
        ↔ ∃ j, (t.slot j).posted ≠ (t.slot j).acknowledged := by
      rw [anyPending_iff]; simp only [hslot]
    refine ⟨t, hexec, ?_, fun j hj => ?_, fun hp hall => ?_, fun hsome => ?_, fun hp => ?_, ?_, ?_⟩
    · exact (hslot _).trans (slot_setSlot_self _ _ _)
    · exact (hslot _).trans (slot_setSlot_ne _ (Ne.symm hj) _)
    · refine hgather.trans (hidle hp (eq_false_of_ne_true fun h => ?_))
      obtain ⟨j, hj⟩ := hany.mp h
      exact hj (hall j)
    · exact hgather.trans (hkept (.inr (hany.mpr hsome)))
    · exact hgather.trans (hkept (.inl hp))
    · rw [ht]; rfl
    · rw [ht]; rfl

end Sys2Proof.Machine
end

