-- ==== Sys2Proof/Proofs/PartState.lean ====
section
/-!
THEOREM. PART_STATE shows the blocks' states (R182), and in FAILED, where every block has ceased, it stays (R177).
-/

namespace Sys2Proof.Machine

/-! ## The bits of PART_STATE (Table 12-10) -/

theorem PartState.code_lt (p : PartState) : p.code < 8 := by cases p <;> decide

theorem LaneState.code_lt (st : LaneState) : st.code < 8 := by cases st <;> decide

theorem JournalState.code_lt (st : JournalState) : st.code < 4 := by cases st <;> decide

theorem extract_ofNat {total k w c : Nat} (hN : total < 2 ^ 32) (h : total / 2 ^ k % 2 ^ w = c % 2 ^ w) :
    (BitVec.ofNat 32 total).extractLsb' k w = BitVec.ofNat w c := by
  apply BitVec.eq_of_toNat_eq
  rw [BitVec.extractLsb'_toNat, BitVec.toNat_ofNat, Nat.mod_eq_of_lt hN, Nat.shiftRight_eq_div_pow, h, BitVec.toNat_ofNat]

theorem bit_ofNat {total k : Nat} (hk : k < 32) (b : Bool) (h : total / 2 ^ k % 2 = if b then 1 else 0) :
    (BitVec.ofNat 32 total).getLsbD k = b := by
  rw [BitVec.getLsbD_ofNat, decide_eq_true hk, Bool.true_and, Nat.testBit_eq_decide_div_mod_eq, h]
  cases b <;> rfl

/-- Each field of PART_STATE in its bits. -/
theorem partStateValue_fields (s : State) :
    (partStateValue s).extractLsb' 0 3 = BitVec.ofNat 3 s.part.code
      ∧ (partStateValue s).getLsbD 3 = s.time.armed
      ∧ (partStateValue s).extractLsb' 4 2 = BitVec.ofNat 2 s.journal.state.code
      ∧ (partStateValue s).extractLsb' 8 3 = BitVec.ofNat 3 (s.lane 0).state.code
      ∧ (partStateValue s).extractLsb' 11 3 = BitVec.ofNat 3 (s.lane 1).state.code
      ∧ (partStateValue s).extractLsb' 14 3 = BitVec.ofNat 3 (s.lane 2).state.code
      ∧ (partStateValue s).extractLsb' 17 3 = BitVec.ofNat 3 (s.lane 3).state.code := by
  unfold partStateValue
  have hp := s.part.code_lt
  have hj := s.journal.state.code_lt
  have h0 := (s.lane 0).state.code_lt
  have h1 := (s.lane 1).state.code_lt
  have h2 := (s.lane 2).state.code_lt
  have h3 := (s.lane 3).state.code_lt
  generalize s.part.code = p at *
  generalize s.journal.state.code = j at *
  generalize (s.lane 0).state.code = a at *
  generalize (s.lane 1).state.code = b at *
  generalize (s.lane 2).state.code = c at *
  generalize (s.lane 3).state.code = d at *
  have harm : (if s.time.armed then 2 ^ 3 else 0) = 8 * (if s.time.armed then 1 else 0) := by split <;> rfl
  have hbit : (if s.time.armed then 1 else 0) < 2 := by split <;> decide
  rw [harm]
  refine ⟨extract_ofNat ?_ ?_, bit_ofNat (by decide) _ ?_, extract_ofNat ?_ ?_, extract_ofNat ?_ ?_, extract_ofNat ?_ ?_,
    extract_ofNat ?_ ?_, extract_ofNat ?_ ?_⟩
  all_goals
    generalize (if s.time.armed then 1 else 0) = x at *
    omega

/-! ## What PART_STATE shows, kept -/

/-- The fields that PART_STATE shows beside the part state are kept. -/
structure ShownKept (s t : State) : Prop where
  armed : t.time.armed = s.time.armed
  journal : t.journal.state = s.journal.state
  lane : ∀ n, (t.lane n).state = (s.lane n).state

namespace ShownKept

theorem refl (s : State) : ShownKept s s := ⟨rfl, rfl, fun _ => rfl⟩

theorem trans {s t u : State} (h : ShownKept s t) (h' : ShownKept t u) : ShownKept s u :=
  ⟨h'.armed.trans h.armed, h'.journal.trans h.journal, fun n => (h'.lane n).trans (h.lane n)⟩

theorem of_lanes {s t : State} (ht : t.time.armed = s.time.armed) (hj : t.journal.state = s.journal.state)
    (hl : t.lanes = s.lanes) : ShownKept s t :=
  ⟨ht, hj, fun n => congrArg (fun v : Vector Lane 4 => v[n].state) hl⟩

theorem after {s t u : State} (h : ShownKept t u) (ht : t.time.armed = s.time.armed)
    (hj : t.journal.state = s.journal.state) (hl : t.lanes = s.lanes) : ShownKept s u :=
  (of_lanes ht hj hl).trans h

theorem value {s t : State} (h : ShownKept s t) (hp : t.part = s.part) : partStateValue t = partStateValue s := by
  unfold partStateValue
  rw [hp, h.armed, h.journal, h.lane, h.lane, h.lane, h.lane]

end ShownKept

theorem EngineOnly.time {s t : State} (h : EngineOnly s t) : t.time = s.time := congrArg Fixed.time h

theorem failWrite_shown (w : Write) (s : State) : ShownKept s (failWrite w s) := by
  obtain ⟨m, hm⟩ := failWrite_eq w s
  rw [hm]; exact ⟨rfl, rfl, fun _ => rfl⟩

theorem faultAll_lanes (s : State) : (State.each allLines takeFaultAction s).lanes = s.lanes :=
  each_keeps State.lanes (fun k t => takeFaultAction_lanes t k) allLines s

/-- A lane in FAILED (R29, R30, R177). -/
theorem enterFailed_lane (s : State) (n : LaneNo) : (enterFailed s).lane n = (s.lane n).failed := by
  have hat := each_at (get := State.lane) (f := fun n t => State.setLane t n (t.lane n).failed)
    (g := fun _ x => x.failed) (fun _ => True) (fun _ _ _ => trivial) (fun n t _ => lane_setLane_self t n _)
    (fun n m t hnm => lane_setLane_ne t hnm _) allLanes nodup_allLanes (State.each allLines takeFaultAction s) trivial n
  rw [if_pos (mem_allLanes n)] at hat
  have hl : (State.each allLines takeFaultAction s).lane n = s.lane n := congrArg (fun v => v[n]) (faultAll_lanes s)
  rw [hl] at hat
  unfold enterFailed; dsimp only
  generalize State.each allLanes _ _ = u at hat ⊢
  exact hat

/-- The entry to FAILED changes neither a lane's state nor the journal's, nor the arm (R177). -/
theorem enterFailed_shown (s : State) : ShownKept s (enterFailed s) := by
  refine ⟨?_, by rw [enterFailed_journal]; rfl, fun n => by rw [enterFailed_lane]; rfl⟩
  have h := enterFailed_fixed s
  generalize enterFailed s = t at h ⊢
  exact congrArg (fun f : Fixed => f.time.armed) h

theorem errorWrite_shown (s : State) : ShownKept s (errorWrite s) := by
  unfold errorWrite
  split
  · exact (failWrite_shown _ _).after rfl rfl rfl
  · split
    · exact .refl s
    · exact (failWrite_shown _ s).trans (enterFailed_shown _)

theorem advanceFlights_lane (s : State) (n : LaneNo) :
    (advanceFlights s).lane n = { s.lane n with flight := (s.lane n).flight.map Flight.advance } := by
  have hat := each_at (get := State.lane)
    (f := fun n t => State.setLane t n { t.lane n with flight := (t.lane n).flight.map Flight.advance })
    (g := fun _ x => { x with flight := x.flight.map Flight.advance })
    (fun _ => True) (fun _ _ _ => trivial) (fun n t _ => lane_setLane_self t n _)
    (fun n m t hnm => lane_setLane_ne t hnm _) allLanes nodup_allLanes s trivial n
  rw [if_pos (mem_allLanes n)] at hat
  unfold advanceFlights; dsimp only
  generalize State.each allLanes _ s = u at hat ⊢
  exact hat

/-- The journal after one write has completed. -/
theorem advanceFlights_wholeJournal (s : State) :
    (advanceFlights s).journal = { s.journal with flight := s.journal.flight.map Flight.advance } := by
  have h : (State.each allLanes
      (fun n t => t.setLane n { t.lane n with flight := (t.lane n).flight.map Flight.advance }) s).journal = s.journal :=
    each_keeps State.journal
      (f := fun n t => State.setLane t n { t.lane n with flight := (t.lane n).flight.map Flight.advance })
      (fun n t => setLane_journal t n _) _ _
  unfold advanceFlights; dsimp only
  generalize State.each allLanes _ s = u at h ⊢
  exact congrArg (fun j : Journal => { j with flight := j.flight.map Flight.advance }) h

theorem completeWrite_shown (s : State) : ShownKept s (completeWrite s) := by
  unfold completeWrite
  split
  · exact .of_lanes rfl rfl rfl
  · split
    · exact .refl s
    · rename_i w rest _
      have hflights : ∀ u : State, ShownKept u (advanceFlights u) := fun u =>
        ⟨congrArg (fun f : Fixed => f.time.armed) (advanceFlights_fixed u), by rw [advanceFlights_wholeJournal],
          fun n => by rw [advanceFlights_lane]⟩
      have hafter : ∀ u : State, ShownKept u (afterWrite w u) := fun u => by
        obtain ⟨a, ha⟩ := afterWrite_fixed w u
        exact ⟨congrArg (fun f : Fixed => f.time.armed) ha, by rw [afterWrite_journal],
          fun n => by rw [(afterWrite_blocks w u).lane]⟩
      exact ((hflights _).trans (hafter _)).after rfl rfl rfl

/-! ## PART_STATE in FAILED -/

/-- Every block has ceased, as the entry to FAILED leaves them (R177, Table 10-3). -/
structure Ceased (s : State) : Prop where
  part : s.part = .failed
  inputs : s.inputsLive = false
  sync : s.sync.live = false
  port : s.port.live = false
  survey : s.survey.expiry = none
  engine : s.engine.flight = none
  journal : s.journal.flight = none
  lanes : ∀ n, (s.lane n).flight = none

theorem ceased_of_quiet {s : State} (hp : s.part = .failed) (hq : failedQuiet s = true) : Ceased s := by
  simp only [failedQuiet, hp, ne_eq, not_true_eq_false, decide_false, Bool.false_or, Bool.and_eq_true,
    Bool.not_eq_true', Option.isNone_iff_eq_none, List.all_eq_true] at hq
  obtain ⟨⟨⟨⟨⟨⟨hi, hs⟩, hport⟩, hv⟩, he⟩, hj⟩, hn⟩ := hq
  exact ⟨hp, hi, hs, hport, hv, he, hj, fun n => hn n (mem_allLanes n)⟩

namespace Ceased

theorem not_takes {s : State} (h : Ceased s) : ¬ Takes s := fun ht => ht.notFailed h.part

theorem not_fetchAnswered {s : State} (h : Ceased s) {n : LaneNo} {r : FetchRead} : ¬ FetchAnswered s n r := by
  rintro ⟨f, hf, _⟩; rw [h.lanes] at hf; cases hf

theorem not_journalAnswered {s : State} (h : Ceased s) {r : JournalRead} : ¬ JournalAnswered s r := by
  rintro ⟨f, hf, _⟩; rw [h.journal] at hf; cases hf

theorem not_engineAnswered {s : State} (h : Ceased s) {r : EngineRead} : ¬ EngineAnswered s r := by
  rintro ⟨f, hf, _⟩; rw [h.engine] at hf; cases hf

theorem sampleInput_shown {s : State} (h : Ceased s) (k : LineNo) (l : Level) : ShownKept s (sampleInput k l s) := by
  unfold sampleInput
  split
  · exact .refl s
  · rw [h.inputs, if_neg (by simp)]
    exact .of_lanes rfl rfl rfl

theorem sampleSync_shown {s : State} (h : Ceased s) (l : Level) : ShownKept s (sampleSync l s) := by
  unfold sampleSync
  split
  · exact .refl s
  · have hnone : syncSelected s l = false := by simp [syncSelected, h.sync]
    rw [hnone, if_neg (by simp)]
    exact .of_lanes rfl rfl rfl

end Ceased

/-- An operation of the engine that keeps lanes and journal. -/
theorem EngineOnly.shown {s t : State} (h : EngineOnly s t) (hj : t.journal.state = s.journal.state)
    (hl : t.lanes = s.lanes) : ShownKept s t :=
  .of_lanes (congrArg Timekeeping.armed h.time) hj hl

theorem floatStep_part (s : State) : (floatStep s).part = .config := by
  have h := floatStep_fixed s
  generalize floatStep s = t at h ⊢
  exact congrArg Fixed.part h

theorem completeCommand_shown (o : CmdOutcome) (s : State) : ShownKept s (completeCommand o s) :=
  (completeCommand_engineOnly o s).shown (by rw [completeCommand_journal]) (completeCommand_lanes o s)

theorem endPulse_shown (k : LineNo) (s : State) : ShownKept s (endPulse k s) :=
  .of_lanes (by rw [time_of_fixed (endPulse_fixed k s)]) (by simp) (by simp)

theorem endWavePhase_shown (k : LineNo) (s : State) : ShownKept s (endWavePhase k s) :=
  .of_lanes (by rw [time_of_fixed (endWavePhase_fixed k s)]) (by simp) (by simp)

theorem statusStep_shown (s : State) : ShownKept s (statusStep s) :=
  (statusStep_engineOnly s).shown (by rw [statusStep_journal]) (statusStep_blocks s).lanes

theorem acknowledge_shown (k : SlotNo) (v : Count24) (s : State) : ShownKept s (acknowledge k v s) :=
  .of_lanes (by rw [time_of_fixed (ackFixed k v s)]) (by rw [acknowledge_journal]) (acknowledge_blocks k v s).lanes

theorem writePlain_shown (r : PlainReg) (v : Word) (s : State) : ShownKept s (writePlain r v s) := by
  refine .of_lanes ?_ (by rw [writePlain_journal]) (writePlain_blocks r v s).lanes
  unfold writePlain
  split
  · split <;> rfl
  · split <;> rfl
  all_goals rfl

/-- What still moves in FAILED is not shown by PART_STATE, unless the part leaves FAILED. -/
theorem Ceased.effect_shown {c : Instr} {s t : State} (hs : Ceased s) (h : Effect c s t) (hfailed : t.part = .failed) :
    ShownKept s t := by
  cases h with
  | resetLow => cases hfailed
  | resetHigh => exact .of_lanes rfl rfl rfl
  | softReset => cases hfailed
  | controlReset => cases hfailed
  | control => exact .of_lanes rfl rfl rfl
  | plainWrite r v => exact writePlain_shown r v s
  | ack v => exact acknowledge_shown _ _ s
  | refused => exact .of_lanes rfl rfl rfl
  | start _ _ ht => exact absurd ht hs.not_takes
  | stop _ _ ht => exact absurd ht hs.not_takes
  | laneStop _ _ _ ht => exact absurd ht hs.not_takes
  | laneRestart _ _ _ ht => exact absurd ht hs.not_takes
  | journalRestart _ _ ht => exact absurd ht hs.not_takes
  | armAlign _ _ ht => exact absurd ht hs.not_takes
  | alignNow _ _ ht => exact absurd ht hs.not_takes
  | resurvey _ _ ht => exact absurd ht hs.not_takes
  | laneHold _ _ _ ht => exact absurd ht hs.not_takes
  | laneResume _ _ _ ht => exact absurd ht hs.not_takes
  | journalFlush _ _ ht => exact absurd ht hs.not_takes
  | disarm _ _ ht => exact absurd ht hs.not_takes
  | leftRead => exact .of_lanes rfl rfl rfl
  | discardFetch _ _ n f _ hf => rw [hs.lanes] at hf; cases hf
  | discardJournal _ _ f _ hf => rw [hs.journal] at hf; cases hf
  | discardEngine _ _ f _ hf => rw [hs.engine] at hf; cases hf
  | startBadExchange _ _ _ ha => exact absurd ha hs.not_engineAnswered
  | startRead _ _ _ _ _ ha => exact absurd ha hs.not_engineAnswered
  | startReadError _ _ ha => exact absurd ha hs.not_engineAnswered
  | activate _ _ hw => simp [startWritten, hs.part] at hw
  | statusStep => exact statusStep_shown s
  | floatStep => rw [floatStep_part] at hfailed; cases hfailed
  | complete => exact completeCommand_shown _ s
  | laneRestartRead _ _ _ ha => exact absurd ha hs.not_engineAnswered
  | readError _ _ _ _ ha => exact absurd ha hs.not_engineAnswered
  | journalRestartRead _ _ ha => exact absurd ha hs.not_engineAnswered
  | journalRestartReadError _ ha => exact absurd ha hs.not_engineAnswered
  | armAlignRead _ _ ha => exact absurd ha hs.not_engineAnswered
  | alignNowRead _ _ ha => exact absurd ha hs.not_engineAnswered
  | dueReached _ _ _ hd => simp [dueReady, hs.part] at hd
  | waitExpired _ _ _ hx => simp [Machine.waitExpired, hs.part] at hx
  | claimExpired _ _ _ _ hx => simp [Machine.claimExpired, hs.part] at hx
  | input k l => exact hs.sampleInput_shown k l
  | deadTime => exact .of_lanes rfl rfl rfl
  | sync l => exact hs.sampleSync_shown l
  | pulse k => exact endPulse_shown k s
  | wave k => exact endWavePhase_shown k s
  | derived _ _ _ hd => simp [derivedEdgeDue, hs.part] at hd
  | ofVirtual _ _ _ hd => simp [virtualEdgeDue, hs.part] at hd
  | survey _ _ hd => simp [surveyDue, hs.survey] at hd
  | gather _ _ hd => simp [gatherDue, hs.part] at hd
  | flushTimer _ _ hd => simp [flushTimerDue, hs.part] at hd
  | headField _ _ _ ha => exact absurd ha hs.not_fetchAnswered
  | header _ _ _ ha => exact absurd ha hs.not_fetchAnswered
  | burst _ _ _ ha => exact absurd ha hs.not_fetchAnswered
  | link _ _ _ ha => exact absurd ha hs.not_fetchAnswered
  | fetchError _ _ _ ha => exact absurd ha hs.not_fetchAnswered
  | journalHead _ _ ha => exact absurd ha hs.not_journalAnswered
  | journalHeader _ _ ha => exact absurd ha hs.not_journalAnswered
  | journalLink _ _ ha => exact absurd ha hs.not_journalAnswered
  | journalError _ _ ha => exact absurd ha hs.not_journalAnswered
  | serve _ _ hl => rw [hs.port] at hl; cases hl
  | writeComplete => exact completeWrite_shown s
  | writeError => exact errorWrite_shown s

theorem tick_shown (s : State) : ShownKept s (tick s) := by
  obtain ⟨_, _, ht⟩ := tick_spec s
  exact .of_lanes (by rw [ht]) (by rw [ht]) (by rw [ht])

/-- A step in FAILED that does not leave it keeps what PART_STATE shows. -/
theorem Ceased.step_shown {s t : State} (hs : Ceased s) (h : step s = .next t) (ht : t.part = .failed) : ShownKept s t := by
  rcases step_cases h with rfl | ⟨_, _, rfl⟩ | ⟨c, p, k, hx⟩
  · exact .refl _
  · exact tick_shown s
  · have hd : Ceased { s with pending := p, choices := k } :=
      ⟨hs.part, hs.inputs, hs.sync, hs.port, hs.survey, hs.engine, hs.journal, hs.lanes⟩
    have hdraw : ShownKept s { s with pending := p, choices := k } := .of_lanes rfl rfl rfl
    rcases effect_of_exec hx with rfl | he
    · exact hdraw
    · exact hdraw.trans (hd.effect_shown he ht)

theorem partStateValue_reset {s : State} (hp : s.part = .config) (ha : s.time.armed = false)
    (hj : s.journal.state = .off) (hn : ∀ n, (s.lane n).state = .off) : partStateValue s = 0 := by
  unfold partStateValue
  rw [hp, ha, hj, hn, hn, hn, hn]; rfl

theorem partStateValue_resetKeepingAddress (s : State) : partStateValue (resetKeepingAddress s) = 0 :=
  partStateValue_reset rfl rfl rfl fun n => by rw [lane_resetKeepingAddress]; rfl

/-- Settles O11: the fields by their place in the sum, FAILED by what still moves there, the resets by their values. -/
theorem partStateShowsTheBlocks : Obligations.PartStateShowsTheBlocks := by
  intro s
  obtain ⟨hpart, harmed, hjournal, h0, h1, h2, h3⟩ := partStateValue_fields s
  refine ⟨hpart, harmed, hjournal, h0, h1, h2, h3, fun v => exec_registerWrite_kept rfl, fun m => rfl, fun t ht => ?error,
    fun t hp hq h ht => ?failed, fun t ht => ?resetN, fun hs t ht => ?softReset⟩
  case error =>
    obtain rfl := Host.Outcome.next.inj ht
    exact ⟨(errorWrite_shown s).journal, (errorWrite_shown s).lane⟩
  case failed => exact ((ceased_of_quiet hp hq).step_shown h ht).value (ht.trans hp.symm)
  case resetN =>
    obtain rfl := Host.Outcome.next.inj ht
    exact partStateValue_resetKeepingAddress { s with resetPin := .low }
  case softReset =>
    obtain rfl := Host.Outcome.next.inj ((exec_softReset hs).symm.trans ht)
    exact partStateValue_resetKeepingAddress s

end Sys2Proof.Machine
end

