-- ==== Sys2Proof/Proofs/LineAndInputEvents.lean ====
section
/-!
THEOREM. What the events of one line, one input and one generator do, and what they leave: releases (R94), wave phase ends
(R79), transitions and dead times (R108 to R110), derived edges (R128), and the records, losses and gather expiries they
bring (R149, R162).
-/

namespace Sys2Proof.Machine

/-! ## Releases (R94) -/

/-- Settles O32: the release with and without a waiter, and what it leaves. -/
theorem releasePassesToTheOldestWaiter : Obligations.ReleasePassesToTheOldestWaiter := fun k s =>
  ⟨releaseLine_free s k, releaseLine_granted s k, fun _ hj => releaseLine_other s k (Ne.symm hj), releaseLine_lanes s k,
    releaseLine_fixed k s⟩

/-! ## Wave phase ends (R79) -/

theorem wavePhaseDue_of_wave {s : State} {k : LineNo} {first : Level} {d1 d2 : BitVec 24} {periods completed : Half}
    {phase : WavePhase} {e : Ticks} (hmode : (s.line k).mode = .wave first d1 d2 periods completed phase e)
    (hreached : reached s.time.elapsed e = true) : wavePhaseDue s k = true := by rw [wavePhaseDue, hmode]; exact hreached

/-- A phase end that is due sets the mode that the table of R79 gives. -/
theorem exec_wavePhaseEnd {s : State} (hs : s.awake) {k : LineNo} {first : Level} {d1 d2 : BitVec 24}
    {periods completed : Half} {phase : WavePhase} {e : Ticks}
    (hmode : (s.line k).mode = .wave first d1 d2 periods completed phase e) (hreached : reached s.time.elapsed e = true) :
    exec (.wavePhaseEnd k) s =
      .next (setMode k (waveAfterPhase (s.line k).rest first d1 d2 periods completed phase e) s) := by
  refine (whenEvent_of_ready hs (wavePhaseDue_of_wave hmode hreached) _).trans ?_
  rw [endWavePhase, hmode]

/-- Settles O35: the three rows of R79's table. -/
theorem wavePhaseEndActsByThePhase : Obligations.WavePhaseEndActsByThePhase := by
  intro k first d1 d2 periods completed e s hs hreached
  refine ⟨fun hmode => ?first, fun hmode hmore => ?again, fun hmode hcounted hlast => ?last⟩
  all_goals rw [exec_wavePhaseEnd hs hmode hreached, waveAfterPhase]
  case first => rfl
  case again =>
    rw [if_neg fun h => hmore.elim h.1 fun hne => hne h.2]; rfl
  case last =>
    rw [if_pos ⟨hcounted, hlast⟩]; rfl

/-! ## Derived edges (R128) -/

theorem phaseRuns_iff (st : GenState) : st.phaseRuns = true ↔ st ≠ .unlocked ∧ st ≠ .firstEdge := by
  cases st <;> decide

/-- Settles O38: the edge is due, and the line that it toggles is in TRACK on the generator. -/
theorem derivedEdgeTogglesTheLine : Obligations.DerivedEdgeTogglesTheLine := by
  intro g k level s hs hp hu hf hbound hmode hnext htaken hreached
  have hdue : derivedEdgeDue s g = true := by
    have hruns := (phaseRuns_iff (s.gen g).state).mpr ⟨hu, hf⟩
    simp only [derivedEdgeDue, hp, hruns, hbound, hnext, htaken, Option.isSome_some, decide_true, Bool.not_false,
      Bool.and_true, Bool.true_and]
    exact hreached
  refine (whenEvent_of_ready hs hdue _).trans ?_
  rw [emitDerivedEdge]
  simp only [hbound, toggleLine, line_setGen, hmode, if_true]
  cases level <;> rfl

/-! ## Records that meet the FIFO (R136, R149) -/

theorem capture_of_room {s : State} (h : s.journal.fifo.length < 64) (r : CaptureRecord) :
    capture r s = { s with journal := { s.journal with fifo := s.journal.fifo ++ [r] } } := by
  rw [capture, if_pos (show s.journal.fifo.length < Config.fifoCapacity from h)]

theorem post_details (k : SlotNo) (d : Details) (s : State) : ((post k d s).slot k).details = d := by
  rw [post_slot, if_pos rfl]; rfl

/-- A record that meets a full FIFO is counted, and the first loss since a close is posted (R149). -/
theorem capture_of_full {s : State} (h : 64 ≤ s.journal.fifo.length) (r : CaptureRecord) :
    (s.journal.lossReported = true → capture r s = { s with journal := s.journal.countLoss })
      ∧ (s.journal.lossReported = false → capture r s
          = post troubleSlot (.journalTrouble s.journal.countLoss.sessionLoss s.journal.fault)
              { s with journal := { s.journal.countLoss with lossReported := true } }) := by
  have hfull : ¬ s.journal.fifo.length < Config.fifoCapacity := Nat.not_lt.mpr h
  refine ⟨fun hr => ?_, fun hr => ?_⟩
  · rw [capture, if_neg hfull]; dsimp only
    rw [if_pos (show s.journal.countLoss.lossReported = true from hr)]
  · rw [capture, if_neg hfull]; dsimp only
    rw [if_neg (show ¬ s.journal.countLoss.lossReported = true from ne_true_of_eq_false hr)]; rfl

/-- Settles O47: a record with room and one without, reported before or not. -/
theorem fullFifoLosesTheRecord : Obligations.FullFifoLosesTheRecord := by
  intro r s
  refine ⟨fun h => capture_of_room h r, fun h => ?full⟩
  obtain ⟨hold, hnew⟩ := capture_of_full h r
  dsimp only
  refine ⟨?journal, fun hr => by rw [hold hr], fun hr => ?posted, capture_lanes s r, capture_fixed r s⟩
  case posted => rw [hnew hr, post_details]; rfl
  case journal =>
    cases hr : s.journal.lossReported with
    | true =>
      rw [hold hr]
      show s.journal.countLoss = _
      rw [← hr]; rfl
    | false => rw [hnew hr, post_journal]; rfl

/-! ## Gather expiries (R162) -/

theorem gatherDue_of_running {s : State} (hp : s.part ≠ .failed) {e : Ticks} (hg : s.notice.gather = .running e)
    (hreached : reached s.time.elapsed e = true) : gatherDue s = true := by
  simp only [gatherDue, hg, hreached, Bool.and_true]
  exact decide_eq_true hp

/-- Settles O52: the gather state at the expiry, by the pending SECONDARY slots. -/
theorem gatherExpiryOpensOrIdles : Obligations.GatherExpiryOpensOrIdles := by
  intro e s hs hp hg hreached
  have hexec : exec .gatherExpiry s = .next (expireGather s) :=
    whenEvent_of_ready hs (gatherDue_of_running hp hg hreached) _
  rw [hexec, expireGather]
  refine ⟨fun hsome => ?some, fun hall => ?none⟩
  case some => rw [if_pos ((secondaryPending_iff s).mpr hsome)]
  case none =>
    rw [if_neg]
    rintro h
    obtain ⟨k, hk, hsec⟩ := (secondaryPending_iff s).mp h
    exact hk (hall k hsec)

/-! ## The edge of a transition (R108 to R111) -/

/-- The state in which a transition has been accepted: the level is sampled and the dead time starts (R108, R109). -/
def acceptTransition (k : LineNo) (level : Level) (s : State) : State :=
  (setInputLevel k level s).setInput k (((setInputLevel k level s).input k).accepted s.time.elapsed)

theorem sampleInput_accepted {s : State} {k : LineNo} {level : Level} (hlive : s.inputsLive = true)
    (hlevel : (s.input k).level ≠ level) (hmoved : (s.input k).moved = false) (hdead : (s.input k).deadRunning = false) :
    sampleInput k level s = deliver (edgeNow s k level) (acceptTransition k level s) := by
  have hmove : ¬ (decide ((s.input k).level = level) || (s.input k).moved) = true := by simp [hlevel, hmoved]
  have hlast : ((setInputLevel k level s).input k).deadRunning = false := by rw [setInputLevel, input_setInput_self]; exact hdead
  rw [sampleInput, if_neg hmove, if_pos hlive, filterTransition]
  rw [hlast, if_neg Bool.false_ne_true]; rfl

theorem acceptTransition_self (k : LineNo) (level : Level) (s : State) :
    (acceptTransition k level s).input k =
      InLine.accepted { s.input k with level := level, moved := decide (s.resetPin = .high) } s.time.elapsed := by
  rw [acceptTransition, input_setInput_self, setInputLevel, input_setInput_self]

theorem acceptTransition_other {k j : LineNo} (hj : j ≠ k) (level : Level) (s : State) :
    (acceptTransition k level s).input j = s.input j := by
  rw [acceptTransition, input_setInput_ne _ (Ne.symm hj), setInputLevel, input_setInput_ne _ (Ne.symm hj)]

/-- The accepted transition of another line or of none changes nothing of a capture enable. -/
theorem accepted_captureEnable (x : InLine) (e : Ticks) : (x.accepted e).captureEnable = x.captureEnable := by
  unfold InLine.accepted; split <;> rfl

theorem accepted_edgeSelect (x : InLine) (e : Ticks) : (x.accepted e).edgeSelect = x.edgeSelect := by
  unfold InLine.accepted; split <;> rfl

/-! ## Its consumers (R111) -/

theorem consumers_none {p : Consumer → Bool} (h : ∀ c, p c = false) : consumers.filter p = [] :=
  List.filter_eq_nil_iff.mpr fun c _ => ne_true_of_eq_false (h c)

theorem consumers_one {p : Consumer → Bool} {c : Consumer} (hc : p c = true) (h : ∀ d, d ≠ c → p d = false) :
    consumers.filter p = [c] := by
  have hp : consumers.filter p = consumers.filter (· = c) := by
    refine List.filter_congr fun d _ => ?_
    by_cases hd : d = c
    · rw [hd, hc]; simp
    · rw [h d hd]; simp [hd]
  rw [hp]
  cases c with
  | journal => rfl
  | generator g => fin_cases g <;> rfl
  | lane n => fin_cases n <;> rfl

theorem deliver_none {s : State} {e : AcceptedEdge} (h : ∀ c, takesEdge s e c = false) : deliver e s = s := by
  rw [deliver, consumers_none h]; rfl

theorem deliver_one {s : State} {e : AcceptedEdge} {c : Consumer} (hc : takesEdge s e c = true)
    (h : ∀ d, d ≠ c → takesEdge s e d = false) : deliver e s = deliverEdge e c s := by
  rw [deliver, consumers_one hc h]; rfl

/-- A lane that awaits another line, or none, does not take the edge (R113). -/
theorem edgeEndsWait_eq_false {s : State} {k : LineNo} {n : LaneNo} (h : ∀ w, (s.lane n).wait = .input w → w.line ≠ k)
    (d : Dir) : edgeEndsWait s k d n = false := by
  unfold edgeEndsWait inputWait
  split
  · rfl
  · rename_i w hw
    split at hw
    · split at hw
      · cases hw
      · rename_i v hv
        cases hw
        simp [h w hv]
      · cases hw
    · cases hw

theorem genTakes_eq_false {s : State} {e : AcceptedEdge} {g : GenNo} (h : (s.gen g).source ≠ e.line) :
    genTakes s e g = false := by simp [genTakes, h]

/-- What a delivery leaves of the inputs: all but the capture enable, which the woken lanes may change (R115). -/
theorem deliver_input (e : AcceptedEdge) (s : State) (j : LineNo) :
    (deliver e s).input j = { s.input j with captureEnable := ((deliver e s).input j).captureEnable } := by
  have hstep : ∀ c (t : State), t.input j = { s.input j with captureEnable := (t.input j).captureEnable } →
      (deliverEdge e c t).input j = { s.input j with captureEnable := ((deliverEdge e c t).input j).captureEnable } := by
    intro c t ht
    cases c with
    | journal => rw [deliverEdge, capture_input]; exact ht
    | generator g => rw [deliverEdge, realEdge_input]; exact ht
    | lane n =>
      rw [deliverEdge]
      split
      · have hw := (endWait_frame n e.time t).input j
        rw [hw, ht]
      · exact ht
  unfold deliver; dsimp only
  obtain ⟨c, hc⟩ := inFreeOrder_state (consumers.filter (takesEdge s e)) s
  rw [hc]
  exact each_induct (fun t => t.input j = { s.input j with captureEnable := (t.input j).captureEnable }) hstep _ _ rfl

theorem takesEdge_journal (k : LineNo) (level : Level) (s : State) :
    takesEdge (acceptTransition k level s) (edgeNow s k level) .journal
      = ((s.input k).captureEnable && (s.input k).edgeSelect.admits (Dir.toLevel level)) := by
  show journalTakes _ _ = _
  rw [journalTakes, show (edgeNow s k level).line = k from rfl, acceptTransition_self, accepted_captureEnable,
    accepted_edgeSelect]; rfl

/-- Settles O36: a sample that is none, one that is filtered, and an accepted one, which its consumers take. -/
theorem transitionsAreFiltered : Obligations.TransitionsAreFiltered := by
  intro k level s
  refine ⟨fun hnone => ?none, fun hlevel hmoved hfiltered => ?filtered, fun hlive hlevel hmoved hdead => ?accepted,
    fun hs hrun hreached => ?expiry⟩
  case none =>
    refine congrArg Host.Outcome.next ?_
    rw [sampleInput, if_pos]
    simpa using hnone
  case filtered =>
    have hmove : ¬ (decide ((s.input k).level = level) || (s.input k).moved) = true := by simp [hlevel, hmoved]
    refine congrArg Host.Outcome.next ?_
    rw [sampleInput, if_neg hmove]
    split
    · rename_i hlive
      have hrun : ((setInputLevel k level s).input k).deadRunning = true := by
        rw [setInputLevel, input_setInput_self]
        exact hfiltered.resolve_left (by simp [hlive])
      rw [filterTransition]; dsimp only
      rw [if_pos hrun]; rfl
    · rfl
  case expiry =>
    have hdue : deadTimeDue s k = true := by rw [deadTimeDue, hrun, hreached]; rfl
    exact whenEvent_of_ready hs hdue _
  case accepted =>
    have hself := (deliver_input (edgeNow s k level) (acceptTransition k level s) k).trans
      (by rw [acceptTransition_self])
    have hother : ∀ j, j ≠ k → _ := fun j hj =>
      (deliver_input (edgeNow s k level) (acceptTransition k level s) j).trans (by rw [acceptTransition_other hj])
    refine ⟨deliver (edgeNow s k level) (acceptTransition k level s),
      congrArg Host.Outcome.next (sampleInput_accepted hlive hlevel hmoved hdead), ?_, ?_, fun h0 => ?_, fun h0 => ?_,
      fun j hj => ?_, fun hlanes hgens hroom => ?_⟩
    · rw [hself]; unfold InLine.accepted; split <;> rfl
    · rw [hself]; unfold InLine.accepted; split <;> rfl
    · rw [hself, InLine.accepted, if_pos h0]; exact ⟨rfl, rfl⟩
    · rw [hself, InLine.accepted, if_neg h0]; exact ⟨rfl, rfl⟩
    · rw [hother j hj]; exact ⟨rfl, rfl, rfl⟩
    · have hrest : ∀ c, c ≠ .journal → takesEdge (acceptTransition k level s) (edgeNow s k level) c = false := by
        intro c hc
        cases c with
        | journal => exact absurd rfl hc
        | generator g => exact genTakes_eq_false (hgens g)
        | lane n => exact edgeEndsWait_eq_false (fun w hw => hlanes n w hw) _
      cases hjournal : takesEdge (acceptTransition k level s) (edgeNow s k level) .journal with
      | true =>
        rw [deliver_one hjournal hrest, deliverEdge, capture_of_room (s := acceptTransition k level s) hroom]
        rw [takesEdge_journal] at hjournal
        exact ⟨rfl, by rw [if_pos hjournal]; rfl⟩
      | false =>
        rw [deliver_none fun c => by by_cases hc : c = .journal; exacts [hc ▸ hjournal, hrest c hc]]
        rw [takesEdge_journal] at hjournal
        exact ⟨rfl, by rw [if_neg (ne_true_of_eq_false hjournal)]; rfl⟩

end Sys2Proof.Machine
end

