-- ==== Sys2Proof/Proofs/GeneratorEdges.lean ====
section
/-!
THEOREM. Real edges and virtual edges by the generator's state (R121 to R126), the phases they start (R127, R128) and the
transitions they report (R132).
-/

namespace Sys2Proof.Machine

/-! ## A phase start (R127, R128) -/

/-- The generator after a phase start: derived edge 0 has fallen, at this tick or with an earlier derived edge of it. -/
def Generator.phased (x : Generator) (t0 : Ticks) : Generator :=
  { x.startPhase t0 with
    nextIndex := if x.bound.isSome then 1 else x.multiplier
    edgeTaken := x.bound.isSome || x.edgeTaken }

theorem startPhase_gen (g : GenNo) (t0 : Ticks) (s : State) : (startPhase g t0 s).gen g = (s.gen g).phased t0 := by
  unfold startPhase; dsimp only
  rw [show ((s.gen g).startPhase t0).bound = (s.gen g).bound from rfl,
    show ((s.gen g).startPhase t0).edgeTaken = (s.gen g).edgeTaken from rfl]
  cases hb : (s.gen g).bound with
  | none =>
    rw [if_pos Option.isNone_none, gen_setGen_self]
    simp [Generator.phased, Generator.startPhase, hb]
  | some k =>
    rw [if_neg (by simp)]
    split
    · rename_i htaken
      rw [gen_setGen_self]
      simp [Generator.phased, Generator.startPhase, hb, htaken]
    · have hs : ((s.setGen g ((s.gen g).startPhase t0)).gen g).bound.isSome = true := by
        rw [gen_setGen_self]; simp [Generator.startPhase, hb]
      rw [emitDerivedEdge_self _ _ hs, gen_setGen_self]
      simp [Generator.phased, Generator.startPhase, hb]

theorem toggleLine_self (k : LineNo) (g : GenNo) (s : State) :
    (∀ l, (s.line k).mode = .track l g → (toggleLine k g s).line k = { s.line k with mode := .track (opposite l) g })
      ∧ ((∀ l, (s.line k).mode ≠ .track l g) → toggleLine k g s = s) := by
  refine ⟨fun l hm => ?_, fun hn => ?_⟩
  · rw [toggleLine, hm]; dsimp only
    rw [if_pos rfl, setMode_self]
  · unfold toggleLine
    split
    · rename_i l g' hm
      rw [if_neg]
      rintro rfl
      exact hn l hm
    all_goals rfl

theorem toggleLine_other (k : LineNo) (g : GenNo) (s : State) {j : LineNo} (hj : j ≠ k) :
    (toggleLine k g s).line j = s.line j := by
  unfold toggleLine
  split
  · split
    · exact setMode_other _ _ _ (Ne.symm hj)
    · rfl
  all_goals rfl

/-- The lines after a phase start: derived edge 0 toggles the bound line, once per tick. -/
theorem startPhase_lines_of_none {s : State} {g : GenNo} (h : (s.gen g).bound = none) (t0 : Ticks) :
    (startPhase g t0 s).lines = s.lines := by
  unfold startPhase; dsimp only
  rw [if_pos]
  · rfl
  · rw [show ((s.gen g).startPhase t0).bound = (s.gen g).bound from rfl, h]; rfl

theorem startPhase_lines_of_taken {s : State} {g : GenNo} (h : (s.gen g).edgeTaken = true) (t0 : Ticks) :
    (startPhase g t0 s).lines = s.lines := by
  unfold startPhase; dsimp only
  split
  · rfl
  · rw [if_pos (show ((s.gen g).startPhase t0).edgeTaken = true from h)]; rfl

theorem startPhase_lines_of_edge {s : State} {g : GenNo} {k : LineNo} (hb : (s.gen g).bound = some k)
    (ht : (s.gen g).edgeTaken = false) (t0 : Ticks) :
    ∃ x, (startPhase g t0 s).lines = (toggleLine k g (s.setGen g x)).lines := by
  have hb' : ((s.gen g).startPhase t0).bound = some k := hb
  have ht' : ((s.gen g).startPhase t0).edgeTaken = false := ht
  have hgen : (s.setGen g ((s.gen g).startPhase t0)).gen g = (s.gen g).startPhase t0 := gen_setGen_self _ _ _
  have htwice : ∀ x y, (s.setGen g x).setGen g y = s.setGen g y := fun x y => by simp [State.setGen]
  have hstart : startPhase g t0 s = toggleLine k g (s.setGen g
      { (s.gen g).startPhase t0 with nextIndex := ((s.gen g).startPhase t0).nextIndex + 1, edgeTaken := true }) := by
    unfold startPhase; dsimp only
    rw [if_neg (by rw [hb']; exact Bool.false_ne_true), if_neg (ne_true_of_eq_false ht'), emitDerivedEdge, hgen]
    rw [hb']
    dsimp only
    rw [htwice]
  exact ⟨_, congrArg State.lines hstart⟩

theorem raised_subInterval (period : Word) (m : Nat) :
    (if period.toNat / m < 16 then (16 : Word) else BitVec.ofNat 32 (period.toNat / m)).toNat = max 16 (period.toNat / m) := by
  have hlt : period.toNat / m < 2 ^ 32 := Nat.lt_of_le_of_lt (Nat.div_le_self _ _) period.isLt
  split
  · rename_i h; rw [Nat.max_eq_left (by omega)]; rfl
  · rename_i h
    rw [BitVec.toNat_ofNat, Nat.mod_eq_of_lt hlt, Nat.max_eq_right (by omega)]

/-- The fields that a phase start compares are those of the state before: the binding, the multiplier, the tick's note. -/
structure PhaseBase (s u : State) (g : GenNo) : Prop where
  bound : (u.gen g).bound = (s.gen g).bound
  multiplier : (u.gen g).multiplier = (s.gen g).multiplier
  edgeTaken : (u.gen g).edgeTaken = (s.gen g).edgeTaken
  lines : u.lines = s.lines

/-- A phase has started between `s` and `t` where an operation in between started it. -/
theorem phaseStarted_of {s u t : State} {g : GenNo} {t0 : Ticks} (hu : PhaseBase s u g)
    {st : GenState} {ho : Bool} {posts : List (GenState × Word)}
    (hg : t.gen g = { (u.gen g).phased t0 with state := st, holdoverSeen := ho, posts := posts })
    (hl : t.lines = (startPhase g t0 u).lines) : phaseStarted s t g := by
  obtain ⟨hbound, hmult, htaken, hlines⟩ := hu
  have hline : ∀ k, u.line k = s.line k := fun k => congrArg (fun v : Vector OutLine 16 => v[k]) hlines
  unfold phaseStarted
  dsimp only
  rw [hg]
  simp only [Generator.phased, Generator.startPhase, hbound, hmult, htaken, rawSubInterval]
  refine ⟨trivial, raised_subInterval _ _, decide_eq_true_iff, fun hb => ?none, fun k hb => ?some⟩
  case none =>
    rw [hb]
    exact ⟨rfl, rfl, by rw [hl, startPhase_lines_of_none (hbound.trans hb), hlines]⟩
  case some =>
    rw [hb]
    refine ⟨rfl, rfl, fun ht => ?_, fun ht => ?_⟩
    · rw [hl, startPhase_lines_of_taken (htaken.trans ht), hlines]
    · obtain ⟨x, hx⟩ := startPhase_lines_of_edge (hbound.trans hb) (htaken.trans ht) t0
      have ht' : ∀ j, t.line j = (toggleLine k g (u.setGen g x)).line j := fun j =>
        congrArg (fun v : Vector OutLine 16 => v[j]) (hl.trans hx)
      have hmode : (u.setGen g x).line k = s.line k := hline k
      obtain ⟨htrack, hother⟩ := toggleLine_self k g (u.setGen g x)
      rw [hmode] at htrack hother
      refine ⟨fun hm => ?_, fun hm => ?_, fun hn => ?_, fun j hj => ?_⟩
      · exact (ht' k).trans (htrack .low hm)
      · exact (ht' k).trans (htrack .high hm)
      · rw [ht' k, hother hn]; exact hmode
      · rw [ht' j, toggleLine_other _ _ _ hj]; exact hline j

/-! ## What a transition reports (R132, R133) -/

/-- What an edge at a schedule time reports: a change of state marks the record stale; a notice-bearing transition is
posted later, marks it stale as well and places a TRACK record. -/
def Reports (g : GenNo) (time : Ticks) (s t : State) : Option (GenState × Word) → Prop
  | none => (t.gen g).posts = (s.gen g).posts ∧ t.journal = s.journal
      ∧ ((t.gen g).state ≠ (s.gen g).state → StatusItem.genStatus g ∈ t.handed)
  | some (st, per) => (t.gen g).posts = (s.gen g).posts ++ [(st, per)] ∧ StatusItem.genStatus g ∈ t.handed
      ∧ (s.journal.fifo.length < 64 → t.journal =
          { s.journal with fifo := s.journal.fifo ++ [.track g st per time] })

theorem mem_markStale (it : StatusItem) (s : State) : it ∈ (markStale it s).handed := by
  unfold markStale
  split
  · assumption
  · simp

theorem setGenState_handed {s : State} {g : GenNo} {st : GenState} (h : (s.gen g).state ≠ st) :
    StatusItem.genStatus g ∈ (setGenState g st s).handed := by
  rw [setGenState, if_neg h]; exact mem_markStale _ _

/-- A change of state without a posting. -/
theorem reports_setGenState {s u : State} {g : GenNo} (time : Ticks) (hp : (u.gen g).posts = (s.gen g).posts)
    (hj : u.journal = s.journal) (hs : (u.gen g).state = (s.gen g).state) (st : GenState) :
    Reports g time s (setGenState g st u) none := by
  refine ⟨by rw [setGenState_self]; exact hp, by simpa using hj, fun hne => setGenState_handed fun he => hne ?_⟩
  rw [setGenState_self, ← hs, he]

/-- A notice-bearing transition (R132). -/
theorem reports_reportTransition {s u : State} {g : GenNo} (time : Ticks) (hp : (u.gen g).posts = (s.gen g).posts)
    (hj : u.journal = s.journal) :
    Reports g time s (reportTransition g time u) (some ((u.gen g).state, (u.gen g).period)) := by
  refine ⟨by rw [reportTransition_self, hp], mem_markStale _ _, fun hroom => ?_⟩
  have hcapture := capture_of_room (s := u) (hj ▸ hroom) (.track g (u.gen g).state (u.gen g).period time)
  have hjournal : (reportTransition g time u).journal
      = (capture (.track g (u.gen g).state (u.gen g).period time) u).journal := by simp [reportTransition]
  rw [hjournal, hcapture, hj]

/-- What follows changes another field of the generator. -/
theorem Reports.setGen {g : GenNo} {time : Ticks} {s t : State} {r : Option (GenState × Word)} (h : Reports g time s t r)
    {x : Generator} (hp : x.posts = (t.gen g).posts) (hs : x.state = (t.gen g).state) :
    Reports g time s (t.setGen g x) r := by
  have hg : (t.setGen g x).gen g = x := gen_setGen_self t g x
  cases r with
  | none =>
    obtain ⟨hposts, hj, hh⟩ := h
    exact ⟨by rw [hg, hp]; exact hposts, hj, by rw [hg, hs]; exact hh⟩
  | some p =>
    obtain ⟨hposts, hh, hj⟩ := h
    exact ⟨by rw [hg, hp]; exact hposts, hh, hj⟩

/-- The three clauses by which a statement says what an edge reports. -/
theorem Reports.clauses {g : GenNo} {time : Ticks} {s t : State} {r : Option (GenState × Word)} (h : Reports g time s t r) :
    ((t.gen g).state ≠ (s.gen g).state → StatusItem.genStatus g ∈ t.handed)
      ∧ ((t.gen g).posts = (s.gen g).posts → t.journal = s.journal)
      ∧ (∀ st per, (t.gen g).posts = (s.gen g).posts ++ [(st, per)] → StatusItem.genStatus g ∈ t.handed
          ∧ (s.journal.fifo.length < 64 → t.journal =
              { s.journal with fifo := s.journal.fifo ++ [.track g st per time] })) := by
  cases r with
  | none =>
    obtain ⟨hposts, hj, hh⟩ := h
    exact ⟨hh, fun _ => hj, fun st per he => by simp [hposts] at he⟩
  | some p =>
    obtain ⟨hposts, hh, hj⟩ := h
    refine ⟨fun _ => hh, fun he => by simp [hposts] at he, fun st per he => ?_⟩
    obtain ⟨rfl, rfl⟩ : p.1 = st ∧ p.2 = per := by simpa [hposts, Prod.ext_iff] using he
    exact ⟨hh, hj⟩

/-! ## Virtual edges (R123 to R125) -/

theorem exec_virtualEdge {s : State} (hs : s.awake) {g : GenNo} (hp : s.part = .active)
    (hruns : (s.gen g).state.phaseRuns = true) (hreached : reached s.time.elapsed (s.gen g).expectedEnd = true) :
    exec (.virtualEdge g) s = .next (virtualEdge g s) := by
  refine whenEvent_of_ready hs ?_ _
  rw [virtualEdgeDue, hp, hruns, hreached]; rfl

/-- A phase that starts in a new state of its generator, from a record `x` that differs in nothing a phase start compares. -/
theorem enterPhase {s : State} {g : GenNo} {x : Generator} (hb : x.bound = (s.gen g).bound)
    (hm : x.multiplier = (s.gen g).multiplier) (ht : x.edgeTaken = (s.gen g).edgeTaken) (st : GenState) (t0 : Ticks) :
    (setGenState g st (startPhase g t0 (s.setGen g x))).gen g = { x.phased t0 with state := st }
      ∧ phaseStarted s (setGenState g st (startPhase g t0 (s.setGen g x))) g := by
  have hg : (setGenState g st (startPhase g t0 (s.setGen g x))).gen g = { x.phased t0 with state := st } := by
    rw [setGenState_self, startPhase_gen, gen_setGen_self]
  refine ⟨hg, phaseStarted_of (u := s.setGen g x) (t0 := t0) ⟨?_, ?_, ?_, rfl⟩ (st := st) (ho := x.holdoverSeen)
    (posts := x.posts) ?_ ?_⟩
  · rw [gen_setGen_self, hb]
  · rw [gen_setGen_self, hm]
  · rw [gen_setGen_self, ht]
  · rw [hg, gen_setGen_self]; rfl
  · rw [setGenState_lines]

/-- Such a phase start reports its change of state, and no posting. -/
theorem reports_enterPhase {s : State} {g : GenNo} {x : Generator} (hp : x.posts = (s.gen g).posts)
    (hs : x.state = (s.gen g).state) (time : Ticks) (st : GenState) (t0 : Ticks) :
    Reports g time s (setGenState g st (startPhase g t0 (s.setGen g x))) none := by
  refine reports_setGenState _ ?_ ?_ ?_ _
  · rw [startPhase_gen, gen_setGen_self]; exact hp
  · rw [startPhase_journal]; rfl
  · rw [startPhase_gen, gen_setGen_self]; exact hs

/-- A transition reported after a phase start. -/
theorem phaseStarted_report {s t : State} {g : GenNo} (h : phaseStarted s t g) (time : Ticks) :
    phaseStarted s (reportTransition g time t) g := by
  have hline : ∀ k, (reportTransition g time t).line k = t.line k := fun k => reportTransition_line _ _ _ _
  unfold phaseStarted at h ⊢
  dsimp only at h ⊢
  simp only [reportTransition_self, reportTransition_lines, hline]
  exact h

/-- A virtual edge from LOCKED or REACQUIRING (R123, R125). -/
theorem virtualEdge_coasts {s : State} {g : GenNo} (h : (s.gen g).state = .locked ∨ (s.gen g).state = .reacquiring) :
    (virtualEdge g s).gen g
        = { ({ s.gen g with virtuals := 1 } : Generator).phased (s.gen g).expectedEnd with state := .coasting }
      ∧ phaseStarted s (virtualEdge g s) g ∧ Reports g s.time.schedule s (virtualEdge g s) none := by
  have he : virtualEdge g s = setGenState g .coasting
      (startPhase g (s.gen g).expectedEnd (s.setGen g { s.gen g with virtuals := 1 })) := by
    unfold virtualEdge; dsimp only
    split <;> simp_all
  rw [he]
  obtain ⟨hg, hphase⟩ := enterPhase (s := s) (g := g) (x := { s.gen g with virtuals := 1 }) rfl rfl rfl .coasting
    (s.gen g).expectedEnd
  exact ⟨hg, hphase, reports_enterPhase (x := { s.gen g with virtuals := 1 }) rfl rfl _ _ _⟩

/-- A virtual edge from COASTING: HOLDOVER, with its notice (R124, R132). -/
theorem virtualEdge_holds {s : State} {g : GenNo} (h : (s.gen g).state = .coasting) :
    (virtualEdge g s).gen g
        = { ({ s.gen g with virtuals := 2, holdoverSeen := true } : Generator).phased (s.gen g).expectedEnd with
            state := .holdover, posts := (s.gen g).posts ++ [(.holdover, (s.gen g).period)] }
      ∧ phaseStarted s (virtualEdge g s) g
      ∧ Reports g s.time.schedule s (virtualEdge g s) (some (.holdover, (s.gen g).period)) := by
  have he : virtualEdge g s = reportTransition g s.time.schedule (setGenState g .holdover
      (startPhase g (s.gen g).expectedEnd (s.setGen g { s.gen g with virtuals := 2, holdoverSeen := true }))) := by
    have htime : ∀ x : Generator, (startPhase g (s.gen g).expectedEnd (s.setGen g x)).time = s.time := fun x =>
      time_of_fixed (startPhase_fixed _ _ _)
    unfold virtualEdge; dsimp only
    rw [htime]
    split <;> simp_all
  obtain ⟨hg, hphase⟩ := enterPhase (s := s) (g := g) (x := { s.gen g with virtuals := 2, holdoverSeen := true }) rfl rfl rfl
    .holdover (s.gen g).expectedEnd
  have hreports := reports_enterPhase (s := s) (g := g) (x := { s.gen g with virtuals := 2, holdoverSeen := true }) rfl rfl
    s.time.schedule .holdover (s.gen g).expectedEnd
  rw [he]
  generalize setGenState g .holdover _ = t at hg hphase hreports ⊢
  have hreport := reports_reportTransition (s := s) (u := t) (g := g) s.time.schedule hreports.1 hreports.2.1
  rw [hg] at hreport
  refine ⟨?_, phaseStarted_report hphase _, hreport⟩
  rw [reportTransition_self, hg]; rfl

/-- A virtual edge in HOLDOVER: one more, saturating (R124). -/
theorem virtualEdge_goesOn {s : State} {g : GenNo} (h : (s.gen g).state = .holdover) :
    (virtualEdge g s).gen g
        = ({ s.gen g with virtuals := satInc (s.gen g).virtuals } : Generator).phased (s.gen g).expectedEnd
      ∧ phaseStarted s (virtualEdge g s) g ∧ Reports g s.time.schedule s (virtualEdge g s) none := by
  have he : virtualEdge g s
      = startPhase g (s.gen g).expectedEnd (s.setGen g { s.gen g with virtuals := satInc (s.gen g).virtuals }) := by
    unfold virtualEdge; dsimp only
    split <;> simp_all
  have hg : (virtualEdge g s).gen g
      = ({ s.gen g with virtuals := satInc (s.gen g).virtuals } : Generator).phased (s.gen g).expectedEnd := by
    rw [he, startPhase_gen, gen_setGen_self]
  refine ⟨hg, ?_, ?_⟩
  · refine phaseStarted_of (u := s.setGen g { s.gen g with virtuals := satInc (s.gen g).virtuals })
      (t0 := (s.gen g).expectedEnd) ⟨?_, ?_, ?_, rfl⟩ (st := (s.gen g).state) (ho := (s.gen g).holdoverSeen)
      (posts := (s.gen g).posts) ?_ (congrArg State.lines he)
    · rw [gen_setGen_self]
    · rw [gen_setGen_self]
    · rw [gen_setGen_self]
    · rw [hg, gen_setGen_self]; rfl
  · refine ⟨by rw [hg]; rfl, by rw [he, startPhase_journal]; rfl, fun hne => absurd ?_ hne⟩
    rw [hg]; rfl

/-- A saturating count of 16 bits (R124). -/
theorem satInc_half (x : Half) : satInc x = if x = 0xFFFF#16 then 0xFFFF#16 else x + 1 := by
  rw [satInc, show BitVec.allOnes 16 = 0xFFFF#16 from rfl]
  split
  · assumption
  · rfl

/-- Settles O39, by the state before the virtual edge. -/
theorem virtualEdgeActsByTheState : Obligations.VirtualEdgeActsByTheState := by
  intro g s hs hp hunlocked hfirst hreached
  have hexec : exec (.virtualEdge g) s = .next (virtualEdge g s) := by
    refine exec_virtualEdge hs hp ?_ hreached
    cases hst : (s.gen g).state
    case unlocked => exact absurd hst hunlocked
    case firstEdge => exact absurd hst hfirst
    all_goals rfl
  refine ⟨virtualEdge g s, hexec, ?_⟩
  have hothers : (∀ h, h ≠ g → (virtualEdge g s).gen h = s.gen h) ∧ (virtualEdge g s).lanes = s.lanes
      ∧ (virtualEdge g s).fixed = s.fixed :=
    ⟨fun h hh => virtualEdge_otherGen s g (Ne.symm hh), virtualEdge_lanes s g, virtualEdge_fixed g s⟩
  cases hst : (s.gen g).state with
  | unlocked => exact absurd hst hunlocked
  | firstEdge => exact absurd hst hfirst
  | locked =>
    obtain ⟨hg, hphase, hreports⟩ := virtualEdge_coasts (.inl hst)
    obtain ⟨hhanded, hjournal, hposts⟩ := hreports.clauses
    rw [hst, hg] at hhanded
    rw [hg] at hjournal hposts
    rw [hg]
    exact ⟨rfl, rfl, rfl,
      rfl, rfl, hphase,
      fun _ => ⟨rfl, rfl, rfl⟩,
      nofun, nofun, hhanded, hjournal, hposts, hothers⟩
  | reacquiring =>
    obtain ⟨hg, hphase, hreports⟩ := virtualEdge_coasts (.inr hst)
    obtain ⟨hhanded, hjournal, hposts⟩ := hreports.clauses
    rw [hst, hg] at hhanded
    rw [hg] at hjournal hposts
    rw [hg]
    exact ⟨rfl, rfl, rfl,
      rfl, rfl, hphase,
      fun _ => ⟨rfl, rfl, rfl⟩,
      nofun, nofun, hhanded, hjournal, hposts, hothers⟩
  | coasting =>
    obtain ⟨hg, hphase, hreports⟩ := virtualEdge_holds hst
    obtain ⟨hhanded, hjournal, hposts⟩ := hreports.clauses
    rw [hst, hg] at hhanded
    rw [hg] at hjournal hposts
    rw [hg]
    exact ⟨rfl, rfl, rfl,
      rfl, rfl, hphase, by simp,
      fun _ => ⟨rfl, rfl, rfl,
        rfl⟩,
      nofun, hhanded, hjournal, hposts, hothers⟩
  | holdover =>
    obtain ⟨hg, hphase, hreports⟩ := virtualEdge_goesOn hst
    obtain ⟨hhanded, hjournal, hposts⟩ := hreports.clauses
    rw [hst, hg] at hhanded
    rw [hg] at hjournal hposts
    rw [hg]
    exact ⟨rfl, rfl, rfl,
      rfl, rfl, hphase, by simp, nofun,
      fun _ => ⟨hst, rfl, satInc_half _⟩,
      hhanded, hjournal, hposts, hothers⟩

/-! ## Real edges (R121 to R126) -/

/-- What a real edge notes whatever the state (R121). -/
def Generator.noted (x : Generator) (c : Ticks) : Generator :=
  { x with lastReal := c, virtuals := 0 }

theorem noteRealEdge_eq (g : GenNo) (c : Ticks) (s : State) : noteRealEdge g c s = s.setGen g ((s.gen g).noted c) := rfl

theorem setGen_setGen (s : State) (g : GenNo) (x y : Generator) : (s.setGen g x).setGen g y = s.setGen g y := by
  simp [State.setGen]

/-- A real edge in UNLOCKED (R122). -/
theorem realEdge_unlocked {s : State} {g : GenNo} (h : (s.gen g).state = .unlocked) (c time : Ticks) :
    (realEdge g c time s).gen g = { (s.gen g).noted c with state := .firstEdge, holdoverSeen := false }
      ∧ (realEdge g c time s).lines = s.lines ∧ Reports g time s (realEdge g c time s) none := by
  have he : realEdge g c time s = setGenState g .firstEdge (s.setGen g { (s.gen g).noted c with holdoverSeen := false }) := by
    rw [realEdge, noteRealEdge_eq, gen_setGen_self, setGen_setGen]; dsimp only
    rw [h]
  rw [he]
  refine ⟨by rw [setGenState_self, gen_setGen_self], setGenState_lines _ _ _,
    reports_setGenState (s := s) (g := g) (u := s.setGen g { (s.gen g).noted c with holdoverSeen := false }) _
      (by rw [gen_setGen_self]; rfl) rfl (by rw [gen_setGen_self]; rfl) _⟩

/-- A real edge in FIRST_EDGE after a long gap: nothing but its note (R122). -/
theorem realEdge_firstGap {s : State} {g : GenNo} (h : (s.gen g).state = .firstEdge) {c : Ticks}
    (hm : measuredPeriod (c - (s.gen g).lastReal).toNat = none) (time : Ticks) :
    (realEdge g c time s).gen g = (s.gen g).noted c
      ∧ (realEdge g c time s).lines = s.lines ∧ Reports g time s (realEdge g c time s) none := by
  have he : realEdge g c time s = s.setGen g ((s.gen g).noted c) := by
    rw [realEdge, noteRealEdge_eq, hm]; dsimp only
    rw [h]
  rw [he]
  refine ⟨gen_setGen_self _ _ _, rfl, ⟨by rw [gen_setGen_self]; rfl, rfl, fun hne => absurd ?_ hne⟩⟩
  rw [gen_setGen_self]; rfl

/-- A real edge after a long gap in LOCKED or REACQUIRING: LOSS (R123, R125). -/
theorem realEdge_loses {s : State} {g : GenNo} (h : (s.gen g).state = .locked ∨ (s.gen g).state = .reacquiring) {c : Ticks}
    (hm : measuredPeriod (c - (s.gen g).lastReal).toNat = none) (time : Ticks) :
    (realEdge g c time s).gen g
        = { (s.gen g).noted c with
            state := .firstEdge, nextIndex := (s.gen g).phaseMultiplier, holdoverSeen := false
            posts := (s.gen g).posts ++ [(.firstEdge, (s.gen g).period)] }
      ∧ (realEdge g c time s).lines = s.lines
      ∧ Reports g time s (realEdge g c time s) (some (.firstEdge, (s.gen g).period)) := by
  have he : realEdge g c time s = loseByGap g time (s.setGen g ((s.gen g).noted c)) := by
    rw [realEdge, noteRealEdge_eq, hm]; dsimp only
    rcases h with h | h <;> rw [h]
  rw [he]
  refine ⟨by rw [loseByGap_self, gen_setGen_self]; rfl, loseByGap_lines _ _ _, ?_⟩
  rw [loseByGap, gen_setGen_self]
  have hgen : ∀ x, (setGenState g .firstEdge (((s.setGen g ((s.gen g).noted c))).setGen g x)).gen g
      = { x with state := .firstEdge } := fun x => by rw [setGenState_self, gen_setGen_self]
  have hreport := reports_reportTransition (s := s) (g := g) time
    (u := setGenState g .firstEdge ((s.setGen g ((s.gen g).noted c)).setGen g
      { (s.gen g).noted c with nextIndex := (s.gen g).phaseMultiplier, holdoverSeen := false }))
    (by rw [hgen]; rfl) (by rw [setGenState_journal]; rfl)
  rw [hgen] at hreport
  exact hreport

/-- A real edge in COASTING or HOLDOVER: a phase of the old period starts (R124). -/
theorem realEdge_reacquires {s : State} {g : GenNo} (h : (s.gen g).state = .coasting ∨ (s.gen g).state = .holdover)
    (c time : Ticks) :
    (realEdge g c time s).gen g = { ((s.gen g).noted c).phased c with state := .reacquiring }
      ∧ phaseStarted s (realEdge g c time s) g ∧ Reports g time s (realEdge g c time s) none := by
  have he : realEdge g c time s = setGenState g .reacquiring (startPhase g c (s.setGen g ((s.gen g).noted c))) := by
    rw [realEdge, noteRealEdge_eq]; dsimp only
    rcases h with h | h <;> rw [h]
  rw [he]
  obtain ⟨hg, hphase⟩ := enterPhase (s := s) (g := g) (x := (s.gen g).noted c) rfl rfl rfl .reacquiring c
  have hreports := reports_enterPhase (s := s) (g := g) (x := (s.gen g).noted c) rfl rfl time .reacquiring c
  exact ⟨hg, hphase, hreports⟩

/-- A measured edge locks: a phase of the new period in LOCKED (R122, R123, R125). -/
theorem lockOn_noted {s : State} {g : GenNo} (p : Word) (c time : Ticks) :
    (lockOn g p c (s.setGen g ((s.gen g).noted c))).gen g
        = { ({ (s.gen g).noted c with period := p } : Generator).phased c with state := .locked }
      ∧ phaseStarted s (lockOn g p c (s.setGen g ((s.gen g).noted c))) g
      ∧ Reports g time s (lockOn g p c (s.setGen g ((s.gen g).noted c))) none := by
  have he : lockOn g p c (s.setGen g ((s.gen g).noted c))
      = setGenState g .locked (startPhase g c (s.setGen g { (s.gen g).noted c with period := p })) := by
    rw [lockOn, gen_setGen_self, setGen_setGen]
  rw [he]
  obtain ⟨hg, hphase⟩ := enterPhase (s := s) (g := g) (x := { (s.gen g).noted c with period := p }) rfl rfl rfl .locked c
  have hreports := reports_enterPhase (s := s) (g := g) (x := { (s.gen g).noted c with period := p }) rfl rfl time .locked c
  exact ⟨hg, hphase, hreports⟩

/-- A phase started does not depend on the hold-over note. -/
theorem phaseStarted_noteHoldover {s t : State} {g : GenNo} (h : phaseStarted s t g) (b : Bool) :
    phaseStarted s (t.setGen g { t.gen g with holdoverSeen := b }) g := by
  unfold phaseStarted at h ⊢
  dsimp only at h ⊢
  rw [gen_setGen_self]
  exact h

/-- A measured edge in LOCKED (R123). -/
theorem realEdge_keepsLock {s : State} {g : GenNo} (h : (s.gen g).state = .locked) {c : Ticks} {p : Word}
    (hm : measuredPeriod (c - (s.gen g).lastReal).toNat = some p) (time : Ticks) :
    (realEdge g c time s).gen g
        = { ({ (s.gen g).noted c with period := p } : Generator).phased c with state := .locked }
      ∧ phaseStarted s (realEdge g c time s) g ∧ Reports g time s (realEdge g c time s) none := by
  have he : realEdge g c time s = lockOn g p c (s.setGen g ((s.gen g).noted c)) := by
    rw [realEdge, noteRealEdge_eq, hm]; dsimp only
    rw [h]
  rw [he]
  exact lockOn_noted p c time

/-- A measured edge in FIRST_EDGE locks and is reported (R122, R132). -/
theorem realEdge_locks {s : State} {g : GenNo} (h : (s.gen g).state = .firstEdge) {c : Ticks} {p : Word}
    (hm : measuredPeriod (c - (s.gen g).lastReal).toNat = some p) (time : Ticks) :
    (realEdge g c time s).gen g
        = { ({ (s.gen g).noted c with period := p } : Generator).phased c with
            state := .locked, holdoverSeen := false, posts := (s.gen g).posts ++ [(.locked, p)] }
      ∧ phaseStarted s (realEdge g c time s) g ∧ Reports g time s (realEdge g c time s) (some (.locked, p)) := by
  have he : realEdge g c time s
      = reportTransition g time ((lockOn g p c (s.setGen g ((s.gen g).noted c))).setGen g
          { (lockOn g p c (s.setGen g ((s.gen g).noted c))).gen g with holdoverSeen := false }) := by
    rw [realEdge, noteRealEdge_eq, hm]; dsimp only
    rw [h]
  rw [he]
  obtain ⟨hg, hphase, hreports⟩ := lockOn_noted (s := s) (g := g) p c time
  generalize lockOn g p c _ = t at hg hphase hreports ⊢
  have hnoted := hreports.setGen (x := { t.gen g with holdoverSeen := false }) rfl rfl
  have hreport := reports_reportTransition (s := s) (g := g) time hnoted.1 hnoted.2.1
  rw [gen_setGen_self, hg] at hreport
  refine ⟨by rw [reportTransition_self, gen_setGen_self, hg]; rfl, ?_, ?_⟩
  · exact phaseStarted_report (phaseStarted_noteHoldover hphase false) time
  · rw [hg]; exact hreport

/-- A measured edge in REACQUIRING locks; it is reported where a hold-over has been seen (R125, R132). -/
theorem realEdge_locksAgain {s : State} {g : GenNo} (h : (s.gen g).state = .reacquiring) {c : Ticks} {p : Word}
    (hm : measuredPeriod (c - (s.gen g).lastReal).toNat = some p) (time : Ticks) :
    (realEdge g c time s).gen g
        = { ({ (s.gen g).noted c with period := p } : Generator).phased c with
            state := .locked, holdoverSeen := false
            posts := if (s.gen g).holdoverSeen then (s.gen g).posts ++ [(.locked, p)] else (s.gen g).posts }
      ∧ phaseStarted s (realEdge g c time s) g
      ∧ Reports g time s (realEdge g c time s) (if (s.gen g).holdoverSeen then some (.locked, p) else none) := by
  have he : ∀ u, u = (if (s.gen g).holdoverSeen then
        reportTransition g time (lockOn g p c (s.setGen g ((s.gen g).noted c)))
        else lockOn g p c (s.setGen g ((s.gen g).noted c))) →
      realEdge g c time s = u.setGen g { u.gen g with holdoverSeen := false } := by
    rintro _ rfl
    rw [realEdge, noteRealEdge_eq, hm]; dsimp only
    rw [h]
  obtain ⟨hg, hphase, hreports⟩ := lockOn_noted (s := s) (g := g) p c time
  generalize lockOn g p c _ = t at hg hphase hreports he
  split at he
  · rename_i hseen
    rw [he _ rfl, if_pos hseen, if_pos hseen]
    have hreport := reports_reportTransition (s := s) (u := t) (g := g) time hreports.1 hreports.2.1
    rw [hg] at hreport
    refine ⟨by rw [gen_setGen_self, reportTransition_self, hg]; rfl, ?_, hreport.setGen rfl rfl⟩
    exact phaseStarted_noteHoldover (phaseStarted_report hphase time) false
  · rename_i hseen
    rw [he _ rfl, if_neg hseen, if_neg hseen]
    refine ⟨by rw [gen_setGen_self, hg]; rfl, phaseStarted_noteHoldover hphase false, hreports.setGen rfl rfl⟩

/-! ## The measured period (R121) -/

theorem measuredPeriod_some {gap : Nat} (h0 : 0 < gap) (h32 : gap < 2 ^ 32) :
    measuredPeriod gap = some (BitVec.ofNat 32 (if gap < 16 then 16 else gap)) := by
  unfold measuredPeriod
  rw [if_neg (by omega)]
  split
  · rfl
  · rfl

theorem measuredPeriod_none {gap : Nat} (h : 2 ^ 32 ≤ gap ∨ gap = 0) : measuredPeriod gap = none := by
  unfold measuredPeriod
  rcases h with h | h
  · rw [if_neg (by omega), if_neg (by omega), if_neg (by omega)]
  · rw [if_pos h]

theorem deliver_realEdge {s : State} {g : GenNo} {k : LineNo} {level : Level} (hcapture : (s.input k).captureEnable = false)
    (hlanes : ∀ n w, (s.lane n).wait = .input w → w.line ≠ k) (hsource : (s.gen g).source = k)
    (hadmits : (s.gen g).select.admits (Dir.toLevel level) = true) (hgens : ∀ h, h ≠ g → (s.gen h).source ≠ k) :
    deliver (edgeNow s k level) (acceptTransition k level s)
      = realEdge g s.time.elapsed s.time.schedule (acceptTransition k level s) := by
  refine deliver_one (c := .generator g) ?_ fun c hc => ?_
  · show genTakes _ _ g = true
    rw [genTakes, Bool.and_eq_true, decide_eq_true_iff]
    exact ⟨hsource, hadmits⟩
  · cases c with
    | journal => rw [takesEdge_journal, hcapture]; rfl
    | generator h => exact genTakes_eq_false (hgens h fun he => hc (congrArg _ he))
    | lane n => exact edgeEndsWait_eq_false (fun w hw => hlanes n w hw) _

/-- Settles O37, by the state before the real edge and by the interval it measures. -/
theorem realEdgeActsByTheState : Obligations.RealEdgeActsByTheState := by
  intro g k level s hlive hlevel hmoved hdead hcapture hlanes hsource hadmits hgens
  dsimp only
  generalize hgap : (s.time.elapsed - (s.gen g).lastReal).toNat = gap
  have hlong : 2 ^ 32 ≤ gap ∨ gap = 0 →
      measuredPeriod (s.time.elapsed - ((acceptTransition k level s).gen g).lastReal).toNat = none := fun h =>
    (congrArg measuredPeriod hgap).trans (measuredPeriod_none h)
  have hshort : 0 < gap ∧ gap < 2 ^ 32 →
      measuredPeriod (s.time.elapsed - ((acceptTransition k level s).gen g).lastReal).toNat
        = some (BitVec.ofNat 32 (if gap < 16 then 16 else gap)) := fun h =>
    (congrArg measuredPeriod hgap).trans (measuredPeriod_some h.1 h.2)
  generalize (BitVec.ofNat 32 (if gap < 16 then 16 else gap) : Word) = p at hshort
  have hexec : exec (.inputTransition k level) s
      = .next (realEdge g s.time.elapsed s.time.schedule (acceptTransition k level s)) :=
    congrArg Host.Outcome.next ((sampleInput_accepted hlive hlevel hmoved hdead).trans
      (deliver_realEdge hcapture hlanes hsource hadmits hgens))
  refine ⟨_, hexec, ?_⟩
  have hothers : (∀ h, h ≠ g →
        (realEdge g s.time.elapsed s.time.schedule (acceptTransition k level s)).gen h = s.gen h)
      ∧ (realEdge g s.time.elapsed s.time.schedule (acceptTransition k level s)).lanes = s.lanes
      ∧ (realEdge g s.time.elapsed s.time.schedule (acceptTransition k level s)).fixed = s.fixed :=
    ⟨fun h hh => realEdge_otherGen _ g _ _ (Ne.symm hh), realEdge_lanes _ g _ _, realEdge_fixed g _ _ _⟩
  have hgapOr : ¬(0 < gap ∧ gap < 2 ^ 32) → 2 ^ 32 ≤ gap ∨ gap = 0 := by omega
  cases hst : (s.gen g).state with
  | unlocked =>
    obtain ⟨hg, hlines, hreports⟩ := realEdge_unlocked (s := acceptTransition k level s) (g := g) hst s.time.elapsed s.time.schedule
    obtain ⟨hhanded, hjournal, hposts⟩ := hreports.clauses
    rw [show ((acceptTransition k level s).gen g).state = .unlocked from hst] at hhanded
    rw [hg] at hhanded hjournal hposts
    rw [hg]
    exact ⟨rfl, rfl, rfl, rfl, fun _ => ⟨rfl, rfl, rfl⟩, nofun, nofun, nofun, by simp, by simp, nofun, by simp, by simp, fun _ => ⟨hlines, rfl⟩,
      hhanded, hjournal, hposts, hothers⟩
  | firstEdge =>
    by_cases hm : 0 < gap ∧ gap < 2 ^ 32
    · obtain ⟨hg, hphase, hreports⟩ := realEdge_locks (s := acceptTransition k level s) (g := g) hst (hshort hm) s.time.schedule
      obtain ⟨hhanded, hjournal, hposts⟩ := hreports.clauses
      rw [show ((acceptTransition k level s).gen g).state = .firstEdge from hst] at hhanded
      rw [hg] at hhanded hjournal hposts
      rw [hg]
      exact ⟨rfl, rfl, rfl, rfl, nofun, fun _ _ => ⟨rfl, rfl, rfl, rfl⟩, fun _ h => absurd h (by omega), nofun, by simp, by simp, nofun, fun _ => hphase, by simp, fun h => absurd h (by simp; omega),
        hhanded, hjournal, hposts, hothers⟩
    · obtain ⟨hg, hlines, hreports⟩ := realEdge_firstGap (s := acceptTransition k level s) (g := g) hst (hlong (hgapOr hm)) s.time.schedule
      obtain ⟨hhanded, hjournal, hposts⟩ := hreports.clauses
      rw [show ((acceptTransition k level s).gen g).state = .firstEdge from hst] at hhanded
      rw [hg] at hhanded hjournal hposts
      rw [hg]
      exact ⟨rfl, rfl, rfl, rfl, nofun, fun _ h => absurd h hm, fun _ _ => ⟨hst, rfl⟩, nofun, by simp, by simp, nofun, fun h => absurd h (by simp; omega), by simp, fun _ => ⟨hlines, rfl⟩,
        hhanded, hjournal, hposts, hothers⟩
  | locked =>
    by_cases hm : 0 < gap ∧ gap < 2 ^ 32
    · obtain ⟨hg, hphase, hreports⟩ := realEdge_keepsLock (s := acceptTransition k level s) (g := g) hst (hshort hm) s.time.schedule
      obtain ⟨hhanded, hjournal, hposts⟩ := hreports.clauses
      rw [show ((acceptTransition k level s).gen g).state = .locked from hst] at hhanded
      rw [hg] at hhanded hjournal hposts
      rw [hg]
      exact ⟨rfl, rfl, rfl, rfl, nofun, nofun, nofun, fun _ _ => ⟨rfl, rfl, rfl, rfl⟩, fun _ h => absurd h (by omega), by simp, nofun, fun _ => hphase, fun _ h => absurd h (by omega), by simp,
        hhanded, hjournal, hposts, hothers⟩
    · obtain ⟨hg, hlines, hreports⟩ := realEdge_loses (s := acceptTransition k level s) (g := g) (.inl hst) (hlong (hgapOr hm)) s.time.schedule
      obtain ⟨hhanded, hjournal, hposts⟩ := hreports.clauses
      rw [show ((acceptTransition k level s).gen g).state = .locked from hst] at hhanded
      rw [hg] at hhanded hjournal hposts
      rw [hg]
      exact ⟨rfl, rfl, rfl, rfl, nofun, nofun, nofun, fun _ h => absurd h hm, fun _ _ => ⟨rfl, rfl, rfl⟩, by simp, nofun, fun h => absurd h (by simp; omega), fun _ _ => ⟨rfl, rfl, hlines⟩, by simp,
        hhanded, hjournal, hposts, hothers⟩
  | coasting =>
    obtain ⟨hg, hphase, hreports⟩ := realEdge_reacquires (s := acceptTransition k level s) (g := g) (.inl hst) s.time.elapsed s.time.schedule
    obtain ⟨hhanded, hjournal, hposts⟩ := hreports.clauses
    rw [show ((acceptTransition k level s).gen g).state = .coasting from hst] at hhanded
    rw [hg] at hhanded hjournal hposts
    rw [hg]
    exact ⟨rfl, rfl, rfl, rfl, nofun, nofun, nofun, nofun, by simp, fun _ => ⟨rfl, rfl, rfl, rfl⟩, nofun, fun _ => hphase, by simp, by simp,
      hhanded, hjournal, hposts, hothers⟩
  | holdover =>
    obtain ⟨hg, hphase, hreports⟩ := realEdge_reacquires (s := acceptTransition k level s) (g := g) (.inr hst) s.time.elapsed s.time.schedule
    obtain ⟨hhanded, hjournal, hposts⟩ := hreports.clauses
    rw [show ((acceptTransition k level s).gen g).state = .holdover from hst] at hhanded
    rw [hg] at hhanded hjournal hposts
    rw [hg]
    exact ⟨rfl, rfl, rfl, rfl, nofun, nofun, nofun, nofun, by simp, fun _ => ⟨rfl, rfl, rfl, rfl⟩, nofun, fun _ => hphase, by simp, by simp,
      hhanded, hjournal, hposts, hothers⟩
  | reacquiring =>
    by_cases hm : 0 < gap ∧ gap < 2 ^ 32
    · obtain ⟨hg, hphase, hreports⟩ := realEdge_locksAgain (s := acceptTransition k level s) (g := g) hst (hshort hm) s.time.schedule
      obtain ⟨hhanded, hjournal, hposts⟩ := hreports.clauses
      rw [show ((acceptTransition k level s).gen g).state = .reacquiring from hst] at hhanded
      rw [hg] at hhanded hjournal hposts
      rw [hg]
      exact ⟨rfl, rfl, rfl, rfl, nofun, nofun, nofun, nofun, fun _ h => absurd h (by omega), by simp, fun _ _ => ⟨rfl, rfl, rfl, rfl, rfl⟩, fun _ => hphase, fun _ h => absurd h (by omega), by simp,
        hhanded, hjournal, hposts, hothers⟩
    · obtain ⟨hg, hlines, hreports⟩ := realEdge_loses (s := acceptTransition k level s) (g := g) (.inr hst) (hlong (hgapOr hm)) s.time.schedule
      obtain ⟨hhanded, hjournal, hposts⟩ := hreports.clauses
      rw [show ((acceptTransition k level s).gen g).state = .reacquiring from hst] at hhanded
      rw [hg] at hhanded hjournal hposts
      rw [hg]
      exact ⟨rfl, rfl, rfl, rfl, nofun, nofun, nofun, nofun, fun _ _ => ⟨rfl, rfl, rfl⟩, by simp, fun _ h => absurd h hm, fun h => absurd h (by simp; omega), fun _ _ => ⟨rfl, rfl, hlines⟩, by simp,
        hhanded, hjournal, hposts, hothers⟩

end Sys2Proof.Machine
end

