-- ==== Sys2Proof/Proofs/CommandAnswers.lean ====
section
/-!
THEOREM. The answers to the reads of the commands and their completion (R24, R25, R61, R63, R151, R185), and the SYNC event
with its step of schedule time (R58, R59, R64).
-/

namespace Sys2Proof.Machine

/-! ## Answers that are awaited (R175) -/

theorem answered_awaited {s : State} {r : Requester} (h : noLeftRead s r) (fits : LeftRead → Bool) (current : State) :
    answered r fits current s = current := by
  have hnone : (s.port.leftReads.find? fun x => x.requester = r) = none :=
    List.find?_eq_none.mpr fun x hx => by simpa using h x hx
  rw [answered, hnone]

theorem engineAnswer_awaited {s : State} {r : EngineRead} (h : awaitsEngine s r) (act : State → State) :
    engineAnswer r act s = act (clearEngineFlight s) := by
  obtain ⟨hflight, hleft⟩ := h
  rw [engineAnswer, answered_awaited hleft, hflight]
  dsimp only
  rw [if_pos (by simp [Flight.answers]), if_neg Bool.false_ne_true]; rfl

theorem fetchAnswer_awaited {s : State} {n : LaneNo} {r : FetchRead} (h : awaitsFetch s n r) {fits : FetchRead → Bool}
    (hfits : fits r = true) (act : FetchRead → State → State) : fetchAnswer n fits act s = act r (clearFetch n s) := by
  obtain ⟨hflight, hleft⟩ := h
  rw [fetchAnswer, answered_awaited hleft, hflight]
  dsimp only
  rw [if_pos (by simp [Flight.answers, hfits]), if_neg Bool.false_ne_true]

theorem journalAnswer_awaited {s : State} {r : JournalRead} (h : awaitsJournal s r) {fits : JournalRead → Bool}
    (hfits : fits r = true) (act : JournalRead → State → State) :
    journalAnswer fits act s = act r (clearJournalFlight s) := by
  obtain ⟨hflight, hleft⟩ := h
  rw [journalAnswer, answered_awaited hleft, hflight]
  dsimp only
  rw [if_pos (by simp [Flight.answers, hfits]), if_neg Bool.false_ne_true]

/-! ## What a posting and a completion leave -/

theorem handNotice_rest (s : State) : handNotice s = { s with handed := (handNotice s).handed } := by
  unfold handNotice
  split
  · rfl
  · split <;> rfl

theorem post_rest (k : SlotNo) (d : Details) (s : State) :
    post k d s = { s with notice := (post k d s).notice, handed := (post k d s).handed } := by
  unfold post; dsimp only
  rw [handNotice_notice]
  exact handNotice_rest _

/-- The engine as the command `c` completes (R184). -/
def Engine.completed (e : Engine) (c : Command) (o : CmdOutcome) : Engine :=
  { e with
    command := none
    await := .none
    alignPost := .idle
    lastCode := c.code
    lastOperand := c.operand
    lastOutcome := o }

/-- A command completes: the last fields, the posting on COMMAND, and nothing else (R184, R185). -/
theorem completeCommand_eq {s : State} {c : Command} (h : s.engine.command = some c) (o : CmdOutcome) :
    completeCommand o s
      = post commandSlot (.command c.code c.operand o) { s with engine := s.engine.completed c o } := by
  rw [completeCommand, h]; rfl

/-- What a completion says. -/
structure Completes (s t : State) (c : Command) (o : CmdOutcome) : Prop where
  engine : t.engine = s.engine.completed c o
  details : (t.slot commandSlot).details = .command c.code c.operand o
  slot : ∀ k, k ≠ commandSlot → t.slot k = s.slot k
  rest : t = { s with engine := t.engine, notice := t.notice, handed := t.handed }

theorem completeCommand_completes {s : State} {c : Command} (h : s.engine.command = some c) (o : CmdOutcome) :
    Completes s (completeCommand o s) c o := by
  rw [completeCommand_eq h]
  have hrest := post_rest commandSlot (.command c.code c.operand o) { s with engine := s.engine.completed c o }
  have hengine : (post commandSlot (.command c.code c.operand o) { s with engine := s.engine.completed c o }).engine
      = s.engine.completed c o := by rw [hrest]
  refine ⟨hengine, post_details _ _ _, fun k hk => ?_, ?_⟩
  · rw [post_slot, if_neg (Ne.symm hk)]; rfl
  · rw [hengine]; exact hrest

/-- Settles O25: whatever the command, its completion is a posting on COMMAND. -/
theorem commandsCompleteWithDone : Obligations.CommandsCompleteWithDone := by
  intro c i s hs hc hcase
  obtain ⟨hengine, hdetails, hslot, hrest⟩ := completeCommand_completes hc .done
  refine ⟨completeCommand .done s, ?_, hengine, hdetails, hslot, hrest⟩
  obtain ⟨rfl, ⟨n, rfl⟩, hdone⟩ | ⟨rfl, ⟨n, rfl⟩, hdone⟩ | ⟨rfl, rfl, hdone⟩ | ⟨rfl, rfl, hdone⟩ := hcase
  · exact whenEvent_of_ready hs (by rw [laneStopWritten, hc]; simp [statusWriteDone, hdone]) _
  · exact whenEvent_of_ready hs (by rw [laneRestartWritten, hc]; simp [statusWriteDone, hdone]) _
  · exact whenEvent_of_ready hs (by simp [journalRestartWritten, statusWriteDone, hc, hdone]) _
  · exact whenEvent_of_ready hs (by simp [alignmentIssued, aligning, hc, hdone]) _

/-- The read that JOURNAL_RESTART stopped is presented again (R151). -/
theorem resumeJournal_eq (s : State) :
    resumeJournal s = s.setJournal
      { s.journal with request := s.journal.resume.or s.journal.request, resume := none } := by
  unfold resumeJournal; dsimp only
  split
  · rename_i h
    have hresume : { s.journal with resume := none } = s.journal := by rw [← h]
    rw [h, Option.none_or]
    exact congrArg s.setJournal hresume.symm
  · rename_i r h
    rw [h, Option.some_or]

/-- Settles O24: the completion with BUS_ERROR, for JOURNAL_RESTART after the stopped read has been presented again. -/
theorem readErrorsEndCommandsWithBusError : Obligations.ReadErrorsEndCommandsWithBusError := by
  intro c i r s hawait hc hcase
  by_cases hi : i = .journalRestartReadError
  · subst hi
    obtain ⟨⟨⟩, _⟩ | ⟨-, rfl, rfl⟩ | ⟨⟨⟩, _⟩ | ⟨⟨⟩, _⟩ := hcase
    have hexec : exec .journalRestartReadError s
        = .next (completeCommand .busError (resumeJournal (clearEngineFlight s))) :=
      congrArg Host.Outcome.next (engineAnswer_awaited hawait _)
    rw [resumeJournal_eq] at hexec
    obtain ⟨hengine, hdetails, -, hrest⟩ := completeCommand_completes (c := .journalRestart) (o := .busError)
      (s := (clearEngineFlight s).setJournal
        { (clearEngineFlight s).journal with
          request := (clearEngineFlight s).journal.resume.or (clearEngineFlight s).journal.request, resume := none }) hc
    have hjournal := congrArg State.journal hrest
    refine ⟨_, hexec, hengine, hdetails, (congrArg State.lanes hrest :), (congrArg State.lines hrest :), (congrArg State.time hrest :),
      (congrArg State.part hrest :), (congrArg State.memory hrest :), fun h => absurd rfl h,
      fun _ => ⟨(congrArg Journal.state hjournal :), (congrArg Journal.stall hjournal :), (congrArg Journal.fault hjournal :),
        (congrArg Journal.fifo hjournal :), fun k hk => ?_, fun hk => ?_⟩⟩
    · exact (congrArg Journal.request hjournal).trans (congrArg (·.or s.journal.request) hk)
    · exact (congrArg Journal.request hjournal).trans (congrArg (·.or s.journal.request) hk)
  · have hexec : exec i s = .next (completeCommand .busError (clearEngineFlight s)) := by
      have haligning : arming (clearEngineFlight s) = decide (c = .armAlign)
          ∧ aligning (clearEngineFlight s) = decide (c = .alignNow) := by
        simp [arming, aligning, clearEngineFlight, hc]
      obtain ⟨rfl, rfl, -⟩ | ⟨rfl, -⟩ | ⟨rfl, rfl, rfl⟩ | ⟨rfl, rfl, rfl⟩ := hcase
      · exact congrArg Host.Outcome.next (engineAnswer_awaited hawait _)
      · exact absurd rfl hi
      · exact congrArg Host.Outcome.next ((engineAnswer_awaited hawait _).trans (if_pos (by simp [haligning])))
      · exact congrArg Host.Outcome.next ((engineAnswer_awaited hawait _).trans (if_pos (by simp [haligning])))
    obtain ⟨hengine, hdetails, -, hrest⟩ := completeCommand_completes (s := clearEngineFlight s) hc .busError
    exact ⟨_, hexec, hengine, hdetails, (congrArg State.lanes hrest :), (congrArg State.lines hrest :), (congrArg State.time hrest :),
      (congrArg State.part hrest :), (congrArg State.memory hrest :), fun _ => (congrArg State.journal hrest :), fun h => absurd h hi⟩

/-- A taken immediate command (R184). -/
theorem writeImmediate_taken {s : State} (hs : s.awake) (hp : s.part = .active) (hc : s.engine.command = none) {ready : Bool}
    (hready : ready = true) (code shown : Byte) (acted : State) :
    writeImmediate code shown ready acted s = .next (setLast code shown .done acted) := by
  subst hready
  exact writeCommand_taken (takes_of_active hs hp hc) _ _ _

/-! ## Alignment (R59 to R64) -/

/-- A step of schedule time posts the old and the new time; the lanes that then run leave the posting (R63, R64). -/
theorem stepSchedule_alignment (v : Ticks) (s : State) :
    ((stepSchedule v s).slot alignmentSlot).details = .alignment s.time.schedule v := by
  rw [stepSchedule, (runDueLanes_frame _).slot alignmentSlot (by decide) (by decide) (by decide)]
  exact post_details _ _ _

/-- Settles O40: the answers to the reads of ARM_ALIGN and ALIGN_NOW, and DISARM_ALIGN. -/
theorem alignmentCommandsAct : Obligations.AlignmentCommandsAct := by
  intro data b s
  refine ⟨fun hawait hc => ?arm, fun hawait hc => ?now, fun hs hp hc => ?disarm⟩
  case arm =>
    have harming : arming (clearEngineFlight s) = true := by simp [arming, clearEngineFlight, hc]
    have hexec : exec (.armAlignReadDone data) s
        = .next (completeCommand .done (armAt (timeOf data) (clearEngineFlight s))) :=
      congrArg Host.Outcome.next ((engineAnswer_awaited hawait _).trans (if_pos harming))
    obtain ⟨hengine, hdetails, -, hrest⟩ :=
      completeCommand_completes (s := armAt (timeOf data) (clearEngineFlight s)) (c := .armAlign) hc .done
    have htime := congrArg State.time hrest
    refine ⟨_, hexec, htime, (congrArg Engine.command hengine :), (congrArg Engine.lastCode hengine :),
      (congrArg Engine.lastOperand hengine :), (congrArg Engine.lastOutcome hengine :), hdetails, ?_⟩
    rw [htime]; exact hrest
  case now =>
    have haligning : aligning (clearEngineFlight s) = true := by simp [aligning, clearEngineFlight, hc]
    have hexec : exec (.alignNowReadDone data) s
        = .next (stepSchedule (timeOf data) (awaitAlignment (clearEngineFlight s))) :=
      congrArg Host.Outcome.next ((engineAnswer_awaited hawait _).trans (if_pos haligning))
    have hfixed := stepSchedule_fixed (timeOf data) (awaitAlignment (clearEngineFlight s))
    have halign := stepSchedule_alignment (timeOf data) (awaitAlignment (clearEngineFlight s))
    refine ⟨_, hexec, ?_⟩
    generalize stepSchedule (timeOf data) _ = t at hfixed halign ⊢
    exact ⟨(congrArg Fixed.time hfixed :), halign, (congrArg Fixed.engine hfixed :), (congrArg Fixed.part hfixed :),
      (congrArg Fixed.port hfixed :), (congrArg Fixed.regs hfixed :), (congrArg Fixed.memory hfixed :)⟩
  case disarm =>
    exact writeImmediate_taken hs hp hc (decide_eq_true hp) _ _ _

/-- The state after the record and the report of a SYNC event (R59 steps 1 to 3). -/
def syncRecorded (s : State) : State :=
  reportTimeMark s.time.schedule
    { s with journal := { s.journal with fifo := s.journal.fifo ++ [.sync s.time.armed s.time.schedule] } }

theorem syncEvent_eq {s : State} (h : s.journal.fifo.length < 64) :
    syncEvent s = if s.time.armed then stepSchedule (syncRecorded s).time.armValue (setArmed false (syncRecorded s))
      else syncRecorded s := by
  unfold syncEvent; dsimp only
  rw [capture_of_room h]; rfl

theorem syncRecorded_slot {s : State} (h : s.sync.report = true) :
    ((syncRecorded s).slot timeMarkSlot).details = .timeMark s.time.schedule :=
  (congrArg (fun t : State => (t.slot timeMarkSlot).details) (if_pos h)).trans (post_details _ _ _)

theorem syncRecorded_rest (s : State) :
    syncRecorded s = { s with
      journal := { s.journal with fifo := s.journal.fifo ++ [.sync s.time.armed s.time.schedule] }
      notice := (syncRecorded s).notice
      handed := (syncRecorded s).handed } := by
  unfold syncRecorded reportTimeMark
  split
  · exact post_rest _ _ _
  · rfl

theorem syncRecorded_notice {s : State} (h : s.sync.report = false) : (syncRecorded s).notice = s.notice := by
  unfold syncRecorded reportTimeMark
  rw [if_neg (ne_true_of_eq_false h)]

/-- Settles O41: the record, the report, and where the arm was armed the step of schedule time. -/
theorem syncEventRecordsAndSteps : Obligations.SyncEventRecordsAndSteps := by
  intro level s
  refine ⟨fun hnone => ?none, fun hlevel hmoved => ⟨fun hplain => ?plain, fun hlive hselect hroom => ?event⟩⟩
  case none =>
    refine congrArg Host.Outcome.next (if_pos ?_)
    simpa using hnone
  case plain =>
    have hmove : ¬ (decide (s.sync.level = level) || s.sync.moved) = true := by simp [hlevel, hmoved]
    have hselected : ¬ syncSelected s level = true := by
      rw [syncSelected, Bool.and_eq_true, decide_eq_true_iff]
      rintro ⟨hlive, hselect⟩
      rcases hplain with h | h
      · exact absurd (h.symm.trans hlive) Bool.false_ne_true
      · exact h hselect
    exact congrArg Host.Outcome.next ((if_neg hmove).trans (if_neg hselected))
  case event =>
    have hmove : ¬ (decide (s.sync.level = level) || s.sync.moved) = true := by simp [hlevel, hmoved]
    have hselected : syncSelected s level = true := by
      rw [syncSelected, hlive, hselect]; simp
    have hexec : exec (.syncEvent level) s = .next (syncEvent (setSyncLevel level s)) :=
      congrArg Host.Outcome.next ((if_neg hmove).trans (if_pos hselected))
    rw [syncEvent_eq (s := setSyncLevel level s) hroom] at hexec
    have hrest := syncRecorded_rest (setSyncLevel level s)
    refine ⟨fun harmed => ?_, fun harmed => ?_⟩
    · rw [if_neg (ne_true_of_eq_false (show (setSyncLevel level s).time.armed = false from harmed))] at hexec
      refine ⟨_, hexec, (congrArg State.time hrest :), (congrArg State.sync hrest :), ?_, fun h => syncRecorded_slot h,
        fun h => syncRecorded_notice h, (congrArg State.lanes hrest :), (congrArg State.lines hrest :), (congrArg State.memory hrest :)⟩
      refine (congrArg State.journal hrest).trans ?_
      rw [show (setSyncLevel level s).time.armed = false from harmed]; rfl
    · rw [if_pos (show (setSyncLevel level s).time.armed = true from harmed)] at hexec
      have hslot : (s.sync.report = true → _) := fun h => syncRecorded_slot (s := setSyncLevel level s) h
      generalize syncRecorded (setSyncLevel level s) = u at hexec hrest hslot
      have hfixed := stepSchedule_fixed u.time.armValue (setArmed false u)
      have hframe := runDueLanes_frame
        (post alignmentSlot (.alignment (setArmed false u).time.schedule u.time.armValue)
          (setSchedule u.time.armValue (setArmed false u)))
      have halign := stepSchedule_alignment u.time.armValue (setArmed false u)
      have htime : u.time = s.time := (congrArg State.time hrest :)
      refine ⟨_, hexec, ?_, ?_, ?_, ?_, fun h => ?_, ?_⟩
      · refine (congrArg Fixed.time hfixed).trans ?_
        show { (setArmed false u).time with schedule := u.time.armValue } = _
        rw [setArmed, htime]
      · exact (congrArg Fixed.sync hfixed).trans (congrArg State.sync hrest)
      · obtain ⟨more, hmore⟩ := hframe.fifo
        refine ⟨more, hmore.trans ?_⟩
        rw [post_journal, show (setSchedule u.time.armValue (setArmed false u)).journal = u.journal from rfl, hrest]
        show (s.journal.fifo ++ [.sync s.time.armed s.time.schedule]) ++ more = _
        rw [harmed, List.append_assoc]; rfl
      · rw [halign, show (setArmed false u).time = { u.time with armed := false } from rfl, htime]
      · rw [stepSchedule, hframe.slot timeMarkSlot (by decide) (by decide) (by decide), post_slot, if_neg (by decide)]
        exact hslot h
      · exact (congrArg Fixed.memory hfixed).trans (congrArg State.memory hrest :)

end Sys2Proof.Machine
end

