-- ==== Sys2Proof/Proofs/JournalReads.lean ====
section
/-!
THEOREM. The journal's answers, its restart, and the two ways a page closes from outside (R138 to R151).
-/

namespace Sys2Proof.Machine

/-! ## What the journal's operations leave -/

/-- Only the journal differs, and the list of the status writer, which has grown. -/
structure JournalWork (s t : State) : Prop where
  rest : t = { s with journal := t.journal, handed := t.handed }
  handed : ∀ it ∈ s.handed, it ∈ t.handed

namespace JournalWork

theorem refl (s : State) : JournalWork s s := ⟨rfl, fun _ => id⟩

theorem trans {s t u : State} (h : JournalWork s t) (h' : JournalWork t u) : JournalWork s u := by
  refine ⟨?_, fun it hit => h'.handed it (h.handed it hit)⟩
  calc u = { t with journal := u.journal, handed := u.handed } := h'.rest
    _ = { s with journal := u.journal, handed := u.handed } := by rw [h.rest]

theorem setJournal (s : State) (j : Journal) : JournalWork s (s.setJournal j) := ⟨rfl, fun _ => id⟩

theorem fixed {s t : State} (h : JournalWork s t) : t.fixed = s.fixed := by rw [h.rest]; rfl

end JournalWork

theorem markStale_handed_mono (it : StatusItem) (s : State) : ∀ x ∈ s.handed, x ∈ (markStale it s).handed := by
  intro x hx
  unfold markStale
  split
  · exact hx
  · exact List.mem_append_left _ hx

theorem markJournal_work (s : State) : JournalWork s (markJournal s) := by
  refine ⟨?_, markStale_handed_mono _ s⟩
  unfold markJournal markStale
  split <;> rfl

theorem setJournalState_work (st : JournalState) (s : State) : JournalWork s (setJournalState st s) := by
  unfold setJournalState
  split
  · exact .refl s
  · exact (JournalWork.setJournal s _).trans (markJournal_work _)

theorem setJournalStall_work (st : Stall) (s : State) : JournalWork s (setJournalStall st s) := by
  unfold setJournalStall
  split
  · exact .refl s
  · exact (JournalWork.setJournal s _).trans (markJournal_work _)

theorem handWrites_work (its : List StatusItem) (s : State) : JournalWork s (handWrites its s) :=
  ⟨rfl, fun _ hit => List.mem_append_left _ hit⟩

theorem closePage_work (code : EndCode) (s : State) : JournalWork s (closePage code s) := by
  unfold closePage
  split
  · exact .refl s
  · exact ((JournalWork.setJournal s _).trans (handWrites_work _ _)).trans (setJournalState_work _ _)

theorem endDrain_work (s : State) : JournalWork s (endDrain s) :=
  ((JournalWork.setJournal s _).trans (setJournalState_work _ _)).trans (setJournalStall_work _ _)

theorem drainCheck_work (s : State) : JournalWork s (drainCheck s) := by
  unfold drainCheck; dsimp only
  split
  · exact .refl s
  · split
    · exact endDrain_work s
    · split
      · exact (closePage_work _ s).trans (endDrain_work _)
      · exact .refl s

theorem journalFault_work (code : FaultCode) (addr : Option Addr) (s : State) : JournalWork s (journalFault code addr s) :=
  ((((JournalWork.setJournal s _).trans (setJournalState_work _ _)).trans (setJournalStall_work _ _)).trans
    (markJournal_work _)).trans (drainCheck_work _)

theorem stallJournal_work (st : Stall) (s : State) : JournalWork s (stallJournal st s) :=
  ((JournalWork.setJournal s _).trans (setJournalStall_work _ _)).trans (drainCheck_work _)

theorem presentJournalHeader_work (s : State) : JournalWork s (presentJournalHeader s) := by
  unfold presentJournalHeader
  split
  · exact .setJournal s _
  · exact journalFault_work _ _ s

theorem presentJournalLink_work (s : State) : JournalWork s (presentJournalLink s) := by
  unfold presentJournalLink
  split
  · exact .setJournal s _
  · exact journalFault_work _ _ s

theorem goToJournalHeader_work (next : Addr) (s : State) : JournalWork s (goToJournalHeader next s) :=
  ((JournalWork.setJournal s _).trans (setJournalStall_work _ _)).trans (presentJournalHeader_work _)

theorem judgeJournalHead_work (head : Addr) (s : State) : JournalWork s (judgeJournalHead head s) := by
  unfold judgeJournalHead
  split
  · exact stallJournal_work _ s
  · split
    · exact journalFault_work _ _ s
    · exact goToJournalHeader_work _ s

/-! ## What they make of the journal -/

theorem setJournalState_journal (st : JournalState) (s : State) :
    (setJournalState st s).journal = { s.journal with state := st } := by
  unfold setJournalState
  split
  · rename_i h; rw [← h]
  · rw [markJournal_journal]; rfl

theorem setJournalStall_journal (st : Stall) (s : State) : (setJournalStall st s).journal = { s.journal with stall := st } := by
  unfold setJournalStall
  split
  · rename_i h; rw [← h]
  · rw [markJournal_journal]; rfl

theorem drainCheck_of_not {s : State} (h : s.journal.draining = false) : drainCheck s = s := by
  unfold drainCheck; dsimp only
  rw [h]; rfl

/-- The journal of a fault (R148). -/
def Journal.faulted (j : Journal) (code : FaultCode) (addr : Option Addr) : Journal :=
  { j with
    state := .faulted
    stall := .none
    fault := code
    faultAddr := addr
    flushRequest := 0
    request := none
    troubles := j.troubles ++ [code] }

theorem journalFault_journal {s : State} (h : s.journal.draining = false) (code : FaultCode) (addr : Option Addr) :
    (journalFault code addr s).journal = s.journal.faulted code addr := by
  unfold journalFault; dsimp only
  rw [drainCheck_of_not]
  · rw [markJournal_journal, setJournalStall_journal, setJournalState_journal]; rfl
  · rw [markJournal_journal, setJournalStall_journal, setJournalState_journal]; exact h

theorem stallJournal_journal {s : State} (h : s.journal.draining = false) (st : Stall) :
    (stallJournal st s).journal = { s.journal with flushRequest := 0, stall := st } := by
  unfold stallJournal
  rw [drainCheck_of_not]
  · rw [setJournalStall_journal]; rfl
  · rw [setJournalStall_journal]; exact h

theorem windowOk_of_fixed {s t : State} (h : t.fixed = s.fixed) (r : Right) (a : Addr) (n : Nat) :
    windowOk t r a n = windowOk s r a n := by
  unfold windowOk; rw [port_of_fixed h]

/-- The journal whose next page is known: its header read is presented (R138, R139). -/
def Journal.readingHeader (j : Journal) (next : Addr) : Journal :=
  { j with nextAddr := next, step := .header, stall := .none, request := some .header }

theorem goToJournalHeader_presents {s : State} {next : Addr} (hw : windowOk s .journal next 32 = true) :
    (goToJournalHeader next s).journal = s.journal.readingHeader next := by
  unfold goToJournalHeader
  have hwork := (JournalWork.setJournal s { s.journal with nextAddr := next, step := .header }).trans
    (setJournalStall_work .none _)
  have hjournal := setJournalStall_journal .none (s.setJournal { s.journal with nextAddr := next, step := .header })
  generalize setJournalStall .none _ = t at hwork hjournal ⊢
  have hnext : t.journal.nextAddr = next := congrArg Journal.nextAddr hjournal
  rw [presentJournalHeader, hnext, windowOk_of_fixed hwork.fixed, if_pos hw, presentJournal, hjournal]; rfl

theorem goToJournalHeader_refused {s : State} {next : Addr} (hd : s.journal.draining = false)
    (hw : windowOk s .journal next 32 = false) :
    (goToJournalHeader next s).journal
      = Journal.faulted { s.journal with nextAddr := next, step := .header } .window (some next) := by
  unfold goToJournalHeader
  have hwork := (JournalWork.setJournal s { s.journal with nextAddr := next, step := .header }).trans
    (setJournalStall_work .none _)
  have hjournal := setJournalStall_journal .none (s.setJournal { s.journal with nextAddr := next, step := .header })
  generalize setJournalStall .none _ = t at hwork hjournal ⊢
  have hnext : t.journal.nextAddr = next := congrArg Journal.nextAddr hjournal
  have hdrain : t.journal.draining = false := (congrArg Journal.draining hjournal).trans hd
  rw [presentJournalHeader, hnext, windowOk_of_fixed hwork.fixed, if_neg (ne_true_of_eq_false hw),
    journalFault_journal hdrain, hjournal]; rfl

theorem pageAligned_iff (a : Addr) : pageAligned a = true ↔ a.toNat % 512 = 0 := by rw [pageAligned, decide_eq_true_iff]

theorem ne_zero_of_unaligned {a : Addr} (h : a.toNat % 512 ≠ 0) : a ≠ 0 := by rintro rfl; exact h rfl

theorem judgeJournalHead_zero (s : State) : judgeJournalHead 0 s = stallJournal .headField s := if_pos rfl

theorem judgeJournalHead_unaligned {v : Addr} (h : v.toNat % 512 ≠ 0) (s : State) :
    judgeJournalHead v s = journalFault .badLink none s := by
  rw [judgeJournalHead, if_neg (ne_zero_of_unaligned h), if_pos (by simpa [pageAligned] using h)]

theorem judgeJournalHead_aligned {v : Addr} (h0 : v ≠ 0) (h : v.toNat % 512 = 0) (s : State) :
    judgeJournalHead v s = goToJournalHeader v s := by
  rw [judgeJournalHead, if_neg h0, if_neg (by simpa [pageAligned] using h)]

theorem judgeJournalLink_zero (s : State) : judgeJournalLink 0 s = stallJournal .link s := if_pos rfl

theorem judgeJournalLink_unaligned {v : Addr} (h : v.toNat % 512 ≠ 0) (s : State) :
    judgeJournalLink v s = journalFault .badLink (some s.journal.linkAddr) s := by
  rw [judgeJournalLink, if_neg (ne_zero_of_unaligned h), if_pos (by simpa [pageAligned] using h)]

theorem judgeJournalLink_aligned {v : Addr} (h0 : v ≠ 0) (h : v.toNat % 512 = 0) (s : State) :
    judgeJournalLink v s = goToJournalHeader v s := by
  rw [judgeJournalLink, if_neg h0, if_neg (by simpa [pageAligned] using h)]

/-- The journal after a head address or a link has been judged (R138, R141): `st` is the stall of address 0, `bad` the
address recorded with BAD_LINK, `ok` the window check of the header. -/
def Journal.judged (j : Journal) (v : Addr) (ok : Bool) (st : Stall) (bad : Option Addr) : Journal :=
  if v = 0 then { j with flushRequest := 0, stall := st }
  else if v.toNat % 512 ≠ 0 then j.faulted .badLink bad
  else if ok then j.readingHeader v
  else Journal.faulted { j with nextAddr := v, step := .header } .window (some v)

section
variable (j : Journal) {v : Addr} (ok : Bool) (st : Stall) (bad : Option Addr)

theorem Journal.judged_zero (h : v = 0) : j.judged v ok st bad = { j with flushRequest := 0, stall := st } := if_pos h

theorem Journal.judged_unaligned (h : v.toNat % 512 ≠ 0) : j.judged v ok st bad = j.faulted .badLink bad := by
  rw [judged, if_neg (ne_zero_of_unaligned h), if_pos h]

theorem Journal.judged_ok (h0 : v ≠ 0) (h : v.toNat % 512 = 0) : j.judged v true st bad = j.readingHeader v := by
  rw [judged, if_neg h0, if_neg (not_not.mpr h), if_pos rfl]

theorem Journal.judged_refused (h0 : v ≠ 0) (h : v.toNat % 512 = 0) :
    j.judged v false st bad = Journal.faulted { j with nextAddr := v, step := .header } .window (some v) := by
  rw [judged, if_neg h0, if_neg (not_not.mpr h), if_neg Bool.false_ne_true]

/-- A judgement changes nothing of the records and of the pages closed. -/
theorem Journal.judged_keeps :
    (j.judged v ok st bad).head = j.head ∧ (j.judged v ok st bad).linkPage = j.linkPage
      ∧ (j.judged v ok st bad).fifo = j.fifo ∧ (j.judged v ok st bad).pendingLoss = j.pendingLoss
      ∧ (j.judged v ok st bad).sessionLoss = j.sessionLoss ∧ (j.judged v ok st bad).lossReported = j.lossReported
      ∧ (j.judged v ok st bad).pagesClosed = j.pagesClosed := by
  cases ok <;> unfold judged <;> repeat' split
  all_goals exact ⟨rfl, rfl, rfl, rfl, rfl, rfl, rfl⟩

end

theorem goToJournalHeader_journal {s : State} {v : Addr} (hd : s.journal.draining = false) (h0 : v ≠ 0)
    (h : v.toNat % 512 = 0) (st : Stall) (bad : Option Addr) :
    (goToJournalHeader v s).journal = s.journal.judged v (windowOk s .journal v 32) st bad := by
  cases hw : windowOk s .journal v 32 with
  | true => rw [goToJournalHeader_presents hw, Journal.judged_ok _ _ _ h0 h]
  | false => rw [goToJournalHeader_refused hd hw, Journal.judged_refused _ _ _ h0 h]

theorem judgeJournalHead_journal {s : State} (hd : s.journal.draining = false) (v : Addr) :
    (judgeJournalHead v s).journal = s.journal.judged v (windowOk s .journal v 32) .headField none := by
  by_cases h0 : v = 0
  · rw [Journal.judged_zero _ _ _ _ h0, h0, judgeJournalHead_zero, stallJournal_journal hd]
  · by_cases h : v.toNat % 512 = 0
    · rw [judgeJournalHead_aligned h0 h, goToJournalHeader_journal hd h0 h]
    · rw [judgeJournalHead_unaligned h, journalFault_journal hd, Journal.judged_unaligned _ _ _ _ h]

theorem judgeJournalLink_journal {s : State} (hd : s.journal.draining = false) (v : Addr) :
    (judgeJournalLink v s).journal
      = s.journal.judged v (windowOk s .journal v 32) .link (some s.journal.linkAddr) := by
  by_cases h0 : v = 0
  · rw [Journal.judged_zero _ _ _ _ h0, h0, judgeJournalLink_zero, stallJournal_journal hd]
  · by_cases h : v.toNat % 512 = 0
    · rw [judgeJournalLink_aligned h0 h, goToJournalHeader_journal hd h0 h]
    · rw [judgeJournalLink_unaligned h, journalFault_journal hd, Journal.judged_unaligned _ _ _ _ h]

/-! ## The settled statements -/

theorem closePage_journal {s : State} {a : Addr} {i : Nat} (h : s.journal.page = some (a, i)) (code : EndCode) :
    (closePage code s).journal
        = { s.journal.pageClosed (s.journal.closingOf a i code s.time.schedule) with state := .starved }
      ∧ StatusItem.closeSummary ∈ (closePage code s).handed := by
  rw [closePage, h]
  refine ⟨?_, (setJournalState_work _ _).handed _ ?_⟩
  · dsimp only
    rw [setJournalState_journal]; rfl
  · exact List.mem_append_right _ (List.mem_singleton_self _)

/-- Settles O48: JOURNAL_FLUSH by the page and the FIFO, and the expiry of the flush timer. -/
theorem flushAndTimerCloseThePage : Obligations.FlushAndTimerCloseThePage := by
  intro b s hs
  refine ⟨fun hp hc => ?flush, fun a i e hp hpage htimer hreached => ?expiry⟩
  case expiry =>
    have hdue : flushTimerDue s = true := by simp [flushTimerDue, htimer, hpage, hreached, hp]
    obtain ⟨hjournal, hhanded⟩ := closePage_journal hpage .timed
    exact ⟨_, whenEvent_of_ready hs hdue _, hjournal, hhanded, (closePage_work .timed s).rest⟩
  case flush =>
    have hexec : exec (.journalFlush b) s = .next (setLast codeJournalFlush 0#8 .done (flushJournal s)) :=
      writeImmediate_taken hs hp hc (decide_eq_true hp) _ _ _
    have hwork : JournalWork s (flushJournal s) := by
      unfold flushJournal; dsimp only
      split
      · exact .refl s
      · split
        · split
          · exact .refl s
          · exact closePage_work _ s
        · exact .setJournal s _
    have hengine : (flushJournal s).engine = s.engine := engine_of_fixed hwork.fixed
    refine ⟨_, hexec, ?_, fun hpage => ?_, fun a i hpage => ⟨fun hfifo hi => ?_, fun hfifo hi => ?_, fun hfifo => ?_⟩, ?_⟩
    · show (flushJournal s).engine.showLast _ _ _ = _
      rw [hengine]; rfl
    · show (flushJournal s).journal = _
      rw [flushJournal, hpage]
    · show (flushJournal s).journal = _
      rw [flushJournal, hpage, hfifo, hi]; rfl
    · have hclose : flushJournal s = closePage .flushed s := by
        rw [flushJournal, hpage, hfifo]; exact if_neg hi
      show (flushJournal s).journal = _ ∧ _ ∈ (flushJournal s).handed
      rw [hclose]
      exact closePage_journal hpage .flushed
    · show (flushJournal s).journal = _
      have hrequest : flushJournal s = s.setJournal { s.journal with flushRequest := s.journal.fifo.length } := by
        have hsome : ¬ s.journal.fifo.isEmpty = true := by rw [List.isEmpty_iff]; exact hfifo
        unfold flushJournal; dsimp only
        split
        · rename_i h; rw [h] at hpage; cases hpage
        · exact if_neg hsome
      rw [hrequest]; rfl
    · have hrest := hwork.rest
      generalize flushJournal s = t at hrest hengine ⊢
      rw [hrest]; rfl

/-- Settles O49: the journal at its new head, by what its head address is. -/
theorem journalRestartStartsAnew : Obligations.JournalRestartStartsAnew := by
  intro v s hawait hc hdrain
  dsimp only
  have hexec : exec (.journalRestartReadDone v) s = .next (restartJournal v (clearEngineFlight s)) :=
    congrArg Host.Outcome.next (engineAnswer_awaited hawait _)
  let a : State := awaitStatus ((clearEngineFlight s).setJournal (s.journal.restarted v))
  let u : State := markJournal (setJournalState .starved a)
  have hwork : JournalWork a u := (setJournalState_work _ a).trans (markJournal_work _)
  have hjournal : u.journal = { s.journal.restarted v with state := .starved } := by
    rw [show u.journal = _ from markJournal_journal _, setJournalState_journal]; rfl
  have hdrained : u.journal.draining = false := (congrArg Journal.draining hjournal).trans hdrain
  have hwindow : windowOk u .journal v 32 = windowOk s .journal v 32 := windowOk_of_fixed (t := u) (s := a) hwork.fixed _ _ _
  have hrest := hwork.trans (judgeJournalHead_work v u)
  have hmarked := (judgeJournalHead_work v u).handed _ (mem_markStale .journalStatus (setJournalState .starved a))
  have hjudged : restartJournal v (clearEngineFlight s) = judgeJournalHead v u := rfl
  refine ⟨_, hexec, ?_⟩
  rw [hjudged]
  have hengine : (judgeJournalHead v u).engine = { s.engine with flight := none, await := .toIssue } :=
    (congrArg State.engine hrest.rest :)
  have hall : judgeJournalHead v u = { s with
      engine := (judgeJournalHead v u).engine
      journal := (judgeJournalHead v u).journal
      handed := (judgeJournalHead v u).handed } := by
    rw [hengine]; exact hrest.rest
  have hJ : (judgeJournalHead v u).journal
      = Journal.judged { s.journal.restarted v with state := .starved } v (windowOk s .journal v 32) .headField none := by
    rw [judgeJournalHead_journal hdrained, hwindow, hjournal]
  generalize judgeJournalHead v u = t at hengine hall hmarked hJ ⊢
  obtain ⟨hhead, hlink, hfifo, hpending, hsession, hreported, hclosed⟩ :=
    Journal.judged_keeps { s.journal.restarted v with state := .starved } (v := v) (windowOk s .journal v 32) .headField none
  rw [← hJ] at hhead hlink hfifo hpending hsession hreported hclosed
  refine ⟨hengine, fun h0 => ?zero, fun h => ?unaligned, fun h0 h hw => ?presented, fun h0 h hw => ?refused,
    hhead, hlink, hfifo, hpending, hsession, hreported, hclosed, hmarked, hall⟩
  case zero => rw [hJ, Journal.judged_zero _ _ _ _ h0]; exact ⟨⟨rfl, rfl, rfl, rfl⟩, rfl⟩
  case unaligned => rw [hJ, Journal.judged_unaligned _ _ _ _ h]; exact ⟨rfl, rfl, rfl, rfl, rfl, rfl⟩
  case presented => rw [hJ, hw, Journal.judged_ok _ _ _ h0 h]; exact ⟨⟨rfl, rfl, rfl, rfl⟩, rfl, rfl, rfl⟩
  case refused => rw [hJ, hw, Journal.judged_refused _ _ _ h0 h]; exact ⟨rfl, rfl, rfl, rfl, rfl, rfl⟩

theorem takeCapturePage_journal {s : State} (h : s.journal.draining = false) :
    (takeCapturePage s).journal
      = { s.journal with page := some (s.journal.nextAddr, 0), step := .page, state := .filling, stall := .none } := by
  unfold takeCapturePage; dsimp only
  rw [drainCheck_of_not]
  · rw [setJournalStall_journal, setJournalState_journal]; rfl
  · rw [setJournalStall_journal, setJournalState_journal]; exact h

/-- Settles O50: the header by its owner field, the link and the head address by `Journal.judged`, and the read error. -/
theorem journalAnswersAreJudged : Obligations.JournalAnswersAreJudged := by
  intro h v s hdrain hstarved
  dsimp only
  refine ⟨fun hawait => ?header, fun hawait => ?link, fun hawait => ?headField, fun r hawait => ?error⟩
  case header =>
    have hexec : exec (.journalHeaderReadDone h) s = .next (judgeJournalHeader h (clearJournalFlight s)) :=
      congrArg Host.Outcome.next (journalAnswer_awaited hawait rfl _)
    have hfixed := judgeJournalHeader_fixed h (clearJournalFlight s)
    refine ⟨_, hexec, fun howner => ?_, fun howner => ?_, fun hpart hhost hdone => ?_⟩
    · have htaken : judgeJournalHeader h (clearJournalFlight s) = takeCapturePage (clearJournalFlight s) := if_pos howner
      rw [htaken] at hfixed ⊢
      rw [takeCapturePage_journal (s := clearJournalFlight s) hdrain]
      exact ⟨rfl, rfl, rfl, hfixed⟩
    · have hnot : ¬ Header.owner h = ownerPart := by
        rcases howner with he | he <;> exact fun hp => absurd (he.symm.trans hp) (by decide)
      have hstalled : judgeJournalHeader h (clearJournalFlight s) = stallJournal .header (clearJournalFlight s) :=
        (if_neg hnot).trans (if_pos howner)
      rw [hstalled] at hfixed ⊢
      rw [stallJournal_journal (s := clearJournalFlight s) hdrain]
      exact ⟨hstarved, rfl, rfl, rfl, hfixed⟩
    · have hbad : judgeJournalHeader h (clearJournalFlight s)
          = journalFault .badPage (some s.journal.nextAddr) (clearJournalFlight s) :=
        (if_neg hpart).trans (if_neg (not_or.mpr ⟨hhost, hdone⟩))
      rw [hbad] at hfixed ⊢
      rw [journalFault_journal (s := clearJournalFlight s) hdrain]
      exact ⟨rfl, rfl, rfl, rfl, rfl, rfl, rfl, hfixed⟩
  case link =>
    have hexec : exec (.journalLinkReadDone v) s = .next (judgeJournalLink v (clearJournalFlight s)) :=
      congrArg Host.Outcome.next (journalAnswer_awaited hawait rfl _)
    have hfixed := judgeJournalLink_fixed v (clearJournalFlight s)
    have hJ : (judgeJournalLink v (clearJournalFlight s)).journal
        = Journal.judged { s.journal with flight := none } v (windowOk s .journal v 32) .link
            (some (s.journal.linkPage.getD 0)) := judgeJournalLink_journal (s := clearJournalFlight s) hdrain v
    refine ⟨_, hexec, ?_⟩
    generalize judgeJournalLink v (clearJournalFlight s) = t at hfixed hJ ⊢
    refine ⟨fun h0 => ?_, fun h => ?_, fun h0 h hw => ?_, fun h0 h hw => ?_⟩
    · rw [hJ, Journal.judged_zero _ _ _ _ h0]; exact ⟨hstarved, rfl, rfl, rfl, hfixed⟩
    · rw [hJ, Journal.judged_unaligned _ _ _ _ h]; exact ⟨rfl, rfl, rfl, rfl, rfl, rfl, rfl, hfixed⟩
    · rw [hJ, hw, Journal.judged_ok _ _ _ h0 h]; exact ⟨rfl, rfl, rfl⟩
    · rw [hJ, hw, Journal.judged_refused _ _ _ h0 h]; exact ⟨rfl, rfl, rfl, rfl, rfl, rfl, rfl, hfixed⟩
  case headField =>
    have hexec : exec (.journalHeadFieldReadDone v) s = .next (journalHeadRead v (clearJournalFlight s)) :=
      congrArg Host.Outcome.next (journalAnswer_awaited hawait rfl _)
    have hfixed := journalHeadRead_fixed v (clearJournalFlight s)
    have hJ : (journalHeadRead v (clearJournalFlight s)).journal
        = Journal.judged { s.journal with flight := none, head := v } v (windowOk s .journal v 32) .headField none :=
      judgeJournalHead_journal (s := (clearJournalFlight s).setJournal { (clearJournalFlight s).journal with head := v })
        hdrain v
    refine ⟨_, hexec, ?_⟩
    generalize journalHeadRead v (clearJournalFlight s) = t at hfixed hJ ⊢
    refine ⟨?_, fun h0 => ?_, fun h => ?_, fun h0 h hw => ?_, fun h0 h hw => ?_⟩
    · rw [hJ]; exact (Journal.judged_keeps _ _ _ _).1
    · rw [hJ, Journal.judged_zero _ _ _ _ h0]; exact ⟨hstarved, rfl, rfl, rfl, hfixed⟩
    · rw [hJ, Journal.judged_unaligned _ _ _ _ h]; exact ⟨rfl, rfl, rfl, rfl, rfl, rfl, rfl, hfixed⟩
    · rw [hJ, hw, Journal.judged_ok _ _ _ h0 h]; exact ⟨rfl, rfl, rfl⟩
    · rw [hJ, hw, Journal.judged_refused _ _ _ h0 h]; exact ⟨rfl, rfl, rfl, rfl, rfl, rfl, rfl, hfixed⟩
  case error =>
    have hexec : exec .journalReadError s = .next (journalErrored r (clearJournalFlight s)) :=
      congrArg Host.Outcome.next (journalAnswer_awaited hawait rfl _)
    refine ⟨_, hexec, ?_⟩
    rw [journalErrored, journalFault_fixed, journalFault_journal (s := clearJournalFlight s) hdrain]
    refine ⟨rfl, rfl, ?_, rfl, rfl, rfl, rfl, rfl⟩
    cases r <;> rfl

end Sys2Proof.Machine
end

