-- ==== Sys2Proof/Proofs/FetcherReads.lean ====
section
/-!
THEOREM. The fetcher's answers and its re-reads: what a lane becomes by them, as a function of the lane alone (R30 to R47).
-/

namespace Sys2Proof.Machine

/-! ## A lane's fault, and a fetch-side fault (R18, R19, R44) -/

/-- A lane after its fault (R19). -/
def Lane.faulted (l : Lane) (code : FaultCode) (a : Addr) (now : Ticks) : Lane :=
  { l with
    wait := .none
    discarded := l.discarded + BitVec.ofNat 32 l.queue.length
    queue := []
    hasCurrent := false
    lateRun := false
    state := .faulted
    holdRequest := false
    running := false
    request := none
    flight := l.flight.map Flight.discarded
    reserved := 0
    pendingFault := none
    stall := .none
    fault := code
    pages := l.pages.map fun p => p.closed (.fault code) now
    exceptions := l.exceptions ++ [{ state := .faulted, code := code, serial := l.serial, page := a }] }

theorem laneFault_lane (n : LaneNo) (code : FaultCode) (a : Addr) (s : State) :
    (laneFault n code a s).lane n = (s.lane n).faulted code a s.time.schedule := laneFault_self s n code a

/-- A lane after a fetch-side fault: at once FAULTED where it is STARVED, else the fault is pending (R18, R44). -/
def Lane.refused (l : Lane) (code : FaultCode) (a : Addr) (now : Ticks) : Lane :=
  if l.state = .starved then l.faulted code a now
  else { l with pendingFault := some (code, a), request := none, stall := .fetchFault }

theorem Lane.refused_starved {l : Lane} (h : l.state = .starved) (code : FaultCode) (a : Addr) (now : Ticks) :
    l.refused code a now = l.faulted code a now := if_pos h

theorem Lane.refused_other {l : Lane} (h : l.state ≠ .starved) (code : FaultCode) (a : Addr) (now : Ticks) :
    l.refused code a now = { l with pendingFault := some (code, a), request := none, stall := .fetchFault } := if_neg h

theorem fetchFault_lane (n : LaneNo) (code : FaultCode) (a : Addr) (s : State) :
    (fetchFault n code a s).lane n = (s.lane n).refused code a s.time.schedule := by
  by_cases h : (s.lane n).state = .starved
  · have htime : (setStall n .fetchFault
        (s.setLane n { s.lane n with pendingFault := some (code, a), request := none })).time = s.time :=
      time_of_fixed (setStall_fixed _ _ _)
    rw [fetchFault_starved s n code a h, laneFault_lane, htime, setStall_self, lane_setLane_self, Lane.refused_starved h]
    rfl
  · rw [fetchFault_self s n code a h, Lane.refused_other h]

theorem Lane.refused_says {l : Lane} {st : LaneState} (hst : l.state = st) (code : FaultCode) (a : Addr) (now : Ticks) :
    (st ≠ .starved → (l.refused code a now).stall = .fetchFault ∧ (l.refused code a now).pendingFault = some (code, a)
        ∧ (l.refused code a now).state = st)
      ∧ (st = .starved → (l.refused code a now).state = .faulted ∧ (l.refused code a now).fault = code) := by
  subst hst
  refine ⟨fun h => ?_, fun h => ?_⟩
  · rw [refused_other h]; exact ⟨rfl, rfl, rfl⟩
  · rw [refused_starved h]; exact ⟨rfl, rfl⟩

theorem fetchFault_lines_of_running {s : State} {n : LaneNo} (h : (s.lane n).state ≠ .starved) (code : FaultCode) (a : Addr) :
    (fetchFault n code a s).lines = s.lines := by
  unfold fetchFault; dsimp only
  rw [if_neg]
  · rw [setStall_lines]; rfl
  · rw [setStall_self, lane_setLane_self]; exact h

/-! ## Reads presented (R33, R35, R36, R41) -/

/-- A lane whose fetcher presents a read. -/
def Lane.requesting (l : Lane) (r : FetchRead) : Lane := { l with request := some r }

/-- A lane whose fetcher presents a read that the window check passes, or is refused it. -/
def Lane.asked (l : Lane) (r : FetchRead) (ok : Bool) (a : Addr) (now : Ticks) : Lane :=
  if ok then l.requesting r else l.refused .window a now

theorem Lane.asked_ok (l : Lane) (r : FetchRead) {ok : Bool} (h : ok = true) (a : Addr) (now : Ticks) :
    l.asked r ok a now = l.requesting r := if_pos h

theorem Lane.asked_refused (l : Lane) (r : FetchRead) {ok : Bool} (h : ok = false) (a : Addr) (now : Ticks) :
    l.asked r ok a now = l.refused .window a now := if_neg (ne_true_of_eq_false h)

theorem present_lane (n : LaneNo) (r : FetchRead) (ok : Bool) (a : Addr) (s : State) :
    (if ok then presentFetch n r s else fetchFault n .window a s).lane n = (s.lane n).asked r ok a s.time.schedule := by
  cases ok with
  | true => exact presentFetch_self s n r
  | false => exact fetchFault_lane n .window a s

theorem presentHeader_lane {s : State} {n : LaneNo} (h : (s.lane n).pages.length < 17) :
    (presentHeader n s).lane n
      = (s.lane n).asked .header (windowOk s .cueRead (s.lane n).nextAddr 32) (s.lane n).nextAddr s.time.schedule := by
  unfold presentHeader; dsimp only
  rw [if_pos (show (s.lane n).pages.length < Config.pageListCapacity from h)]
  exact present_lane _ _ _ _ _

theorem presentHeader_full {s : State} {n : LaneNo} (h : ¬ (s.lane n).pages.length < 17) : presentHeader n s = s := if_neg h

theorem presentLink_lane (n : LaneNo) (s : State) :
    (presentLink n s).lane n
      = (s.lane n).asked .link (windowOk s .cueRead (pageOffset (s.lane n).fetchAddr 8) 8) (s.lane n).fetchAddr
          s.time.schedule := present_lane _ _ _ _ _

theorem presentBurst_lane (n : LaneNo) (s : State) :
    (presentBurst n s).lane n
      = if (s.lane n).walking && (s.lane n).step = .cues && 0 < (s.lane n).burstSize then
          (s.lane n).asked .burst
            (windowOk s .cueRead (cueAddr (s.lane n).fetchAddr (s.lane n).fetchedSoFar) (32 * (s.lane n).burstSize))
            (s.lane n).fetchAddr s.time.schedule
        else s.lane n := by
  unfold presentBurst; dsimp only
  split
  · exact present_lane _ _ _ _ _
  · rfl

/-! ## Head addresses and links (R31, R41, R42) -/

/-- A lane whose next page is known. -/
def Lane.atHeader (l : Lane) (v : Addr) : Lane :=
  { l with nextAddr := v, step := .header, stall := .none }

/-- A lane after its head address or a link has been judged: `st` is the stall of address 0, `bad` the address recorded with
BAD_LINK, `ok` the window check of the header. -/
def Lane.judged (l : Lane) (v : Addr) (ok : Bool) (now : Ticks) (st : Stall) (bad : Addr) : Lane :=
  if v = 0 then { l with stall := st }
  else if v.toNat % 512 ≠ 0 then l.refused .badLink bad now
  else if l.pages.length < 17 then (l.atHeader v).asked .header ok v now
  else l.atHeader v

section
variable (l : Lane) {v : Addr} (ok : Bool) (now : Ticks) (st : Stall) (bad : Addr)

theorem Lane.judged_zero (h : v = 0) : l.judged v ok now st bad = { l with stall := st } := if_pos h

theorem Lane.judged_unaligned (h : v.toNat % 512 ≠ 0) : l.judged v ok now st bad = l.refused .badLink bad now := by
  rw [judged, if_neg (ne_zero_of_unaligned h), if_pos h]

theorem Lane.judged_ok (h0 : v ≠ 0) (h : v.toNat % 512 = 0) (hroom : l.pages.length < 17) :
    l.judged v true now st bad = { l.atHeader v with request := some .header } := by
  rw [judged, if_neg h0, if_neg (not_not.mpr h), if_pos hroom]; rfl

theorem Lane.judged_refused (h0 : v ≠ 0) (h : v.toNat % 512 = 0) (hroom : l.pages.length < 17) :
    l.judged v false now st bad = (l.atHeader v).refused .window v now := by
  rw [judged, if_neg h0, if_neg (not_not.mpr h), if_pos hroom]; rfl

theorem Lane.refused_config (code : FaultCode) (a : Addr) : (l.refused code a now).config = l.config := by
  unfold refused; split <;> rfl

theorem Lane.asked_config (r : FetchRead) (a : Addr) : (l.asked r ok a now).config = l.config := by
  unfold asked; split
  · rfl
  · exact refused_config _ _ _ _

theorem Lane.judged_config : (l.judged v ok now st bad).config = l.config := by
  unfold judged
  split
  · rfl
  · split
    · exact refused_config _ _ _ _
    · split
      · exact asked_config _ _ _ _ _
      · rfl

end

theorem goToHeader_lane {s : State} {n : LaneNo} {v : Addr} (h0 : v ≠ 0) (h : v.toNat % 512 = 0) (st : Stall) (bad : Addr) :
    (goToHeader n v s).lane n
      = (s.lane n).judged v (windowOk s .cueRead v 32) s.time.schedule st bad := by
  have hfixed : (setStall n .none (s.setLane n { s.lane n with nextAddr := v, step := .header })).fixed = s.fixed :=
    setStall_fixed _ _ _
  have hlane : (setStall n .none (s.setLane n { s.lane n with nextAddr := v, step := .header })).lane n
      = (s.lane n).atHeader v := by rw [setStall_self, lane_setLane_self]; rfl
  rw [Lane.judged, if_neg h0, if_neg (not_not.mpr h), goToHeader]
  dsimp only
  generalize setStall n .none _ = t at hfixed hlane ⊢
  split
  · rename_i hroom
    rw [presentHeader_lane (by rw [hlane]; exact hroom), hlane, windowOk_of_fixed hfixed, time_of_fixed hfixed]; rfl
  · rename_i hroom
    rw [presentHeader_full (by rw [hlane]; exact hroom), hlane]

theorem judgeHead_lane (n : LaneNo) (v : Addr) (s : State) :
    (judgeHead n v s).lane n
      = (s.lane n).judged v (windowOk s .cueRead v 32) s.time.schedule .headField v := by
  by_cases h0 : v = 0
  · rw [Lane.judged_zero _ _ _ _ _ h0, judgeHead, if_pos h0, setStall_self]
  · by_cases h : v.toNat % 512 = 0
    · rw [judgeHead, if_neg h0, if_neg (by simpa [pageAligned] using h), goToHeader_lane h0 h]
    · rw [judgeHead, if_neg h0, if_pos (by simpa [pageAligned] using h), fetchFault_lane, Lane.judged_unaligned _ _ _ _ _ h]

theorem judgeLink_lane (n : LaneNo) (v : Addr) (s : State) :
    (judgeLink n v s).lane n
      = (s.lane n).judged v (windowOk s .cueRead v 32) s.time.schedule .link (s.lane n).fetchAddr := by
  by_cases h0 : v = 0
  · rw [Lane.judged_zero _ _ _ _ _ h0, judgeLink, if_pos h0, setStall_self]
  · by_cases h : v.toNat % 512 = 0
    · rw [judgeLink, if_neg h0, if_neg (by simpa [pageAligned] using h), goToHeader_lane h0 h]
    · rw [judgeLink, if_neg h0, if_pos (by simpa [pageAligned] using h), fetchFault_lane, Lane.judged_unaligned _ _ _ _ _ h]

theorem clearFetch_self (n : LaneNo) (s : State) : (clearFetch n s).lane n = { s.lane n with flight := none } :=
  lane_setLane_self _ _ _

theorem clearFetch_other {n m : LaneNo} (h : m ≠ n) (s : State) : (clearFetch n s).lane m = s.lane m :=
  lane_setLane_ne _ (Ne.symm h) _

/-- Settles O43: a head address and a link by `Lane.judged`. -/
theorem headFieldAndLinkAreJudged : Obligations.HeadFieldAndLinkAreJudged := by
  intro n v s
  dsimp only
  refine ⟨fun hawait => ?headField, fun hawait => ?link⟩
  case headField =>
    have hexec : exec (.headFieldReadDone n v) s = .next (headFieldRead n v (clearFetch n s)) :=
      congrArg Host.Outcome.next (fetchAnswer_awaited hawait rfl _)
    obtain ⟨l, hJ, hstate, hpages, hconfig⟩ : ∃ l : Lane, (headFieldRead n v (clearFetch n s)).lane n
          = l.judged v (windowOk s .cueRead v 32) s.time.schedule .headField v
        ∧ l.state = (s.lane n).state ∧ l.pages = (s.lane n).pages
        ∧ l.config = { (s.lane n).config with head := v } := by
      refine ⟨{ s.lane n with flight := none, config := { (s.lane n).config with head := v } }, ?_, rfl, rfl, rfl⟩
      rw [headFieldRead, judgeHead_lane, lane_setLane_self, clearFetch_self]; rfl
    have hothers : ∀ m, m ≠ n → (headFieldRead n v (clearFetch n s)).lane m = s.lane m := fun m hm => by
      rw [headFieldRead, judgeHead_other (hm := Ne.symm hm), lane_setLane_ne _ (Ne.symm hm), clearFetch_other hm]
    have hrest : (headFieldRead n v (clearFetch n s)).inputs = s.inputs
        ∧ (headFieldRead n v (clearFetch n s)).journal = s.journal
        ∧ (headFieldRead n v (clearFetch n s)).fixed = s.fixed :=
      ⟨judgeHead_inputs _ _ _, judgeHead_journal _ _ _, headFieldRead_fixed _ _ _⟩
    refine ⟨_, hexec, ?_⟩
    generalize headFieldRead n v (clearFetch n s) = t at hJ hothers hrest ⊢
    refine ⟨?_, fun h0 => ?_, fun h h0 hw hroom => ?_, fun h h0 hw hroom => ?_, fun h => ?_, hothers, hrest⟩
    · rw [hJ, Lane.judged_config, hconfig]
    · rw [hJ, Lane.judged_zero _ _ _ _ _ h0]; exact ⟨rfl, hstate⟩
    · rw [hJ, hw, Lane.judged_ok _ _ _ _ h0 h (hpages ▸ hroom)]; exact ⟨rfl, rfl, rfl, rfl⟩
    · rw [hJ, hw, Lane.judged_refused _ _ _ _ h0 h (hpages ▸ hroom)]; exact Lane.refused_says (l := l.atHeader v) hstate _ _ _
    · rw [hJ, Lane.judged_unaligned _ _ _ _ _ h]; exact Lane.refused_says hstate _ _ _
  case link =>
    have hexec : exec (.linkReadDone n v) s = .next (judgeLink n v (clearFetch n s)) :=
      congrArg Host.Outcome.next (fetchAnswer_awaited hawait rfl _)
    obtain ⟨l, hJ, hstate, hpages, hconfig⟩ : ∃ l : Lane, (judgeLink n v (clearFetch n s)).lane n
          = l.judged v (windowOk s .cueRead v 32) s.time.schedule .link ((s.lane n).fetchPage.getD 0)
        ∧ l.state = (s.lane n).state ∧ l.pages = (s.lane n).pages ∧ l.config = (s.lane n).config := by
      refine ⟨{ s.lane n with flight := none }, ?_, rfl, rfl, rfl⟩
      rw [judgeLink_lane, clearFetch_self]; rfl
    have hothers : ∀ m, m ≠ n → (judgeLink n v (clearFetch n s)).lane m = s.lane m := fun m hm => by
      rw [judgeLink_other (hm := Ne.symm hm), clearFetch_other hm]
    have hrest : (judgeLink n v (clearFetch n s)).inputs = s.inputs
        ∧ (judgeLink n v (clearFetch n s)).journal = s.journal ∧ (judgeLink n v (clearFetch n s)).fixed = s.fixed :=
      ⟨judgeLink_inputs _ _ _, judgeLink_journal _ _ _, judgeLink_fixed _ _ _⟩
    refine ⟨_, hexec, ?_⟩
    generalize judgeLink n v (clearFetch n s) = t at hJ hothers hrest ⊢
    refine ⟨?_, fun h0 => ?_, fun h h0 hw hroom => ?_, fun h h0 hw hroom => ?_, fun h => ?_, hothers, hrest⟩
    · rw [hJ, Lane.judged_config, hconfig]
    · rw [hJ, Lane.judged_zero _ _ _ _ _ h0]; exact ⟨rfl, hstate⟩
    · rw [hJ, hw, Lane.judged_ok _ _ _ _ h0 h (hpages ▸ hroom)]; exact ⟨rfl, rfl, rfl, rfl⟩
    · rw [hJ, hw, Lane.judged_refused _ _ _ _ h0 h (hpages ▸ hroom)]; exact Lane.refused_says (l := l.atHeader v) hstate _ _ _
    · rw [hJ, Lane.judged_unaligned _ _ _ _ _ h]; exact Lane.refused_says hstate _ _ _

/-- Settles O46: the code BUS_ERROR is pending with the address of the read, or the STARVED lane faults. -/
theorem fetchErrorIsPendingBusError : Obligations.FetchErrorIsPendingBusError := by
  intro n r s hawait
  refine ⟨by cases r <;> rfl, ?_⟩
  have hexec : exec (.fetchReadError n) s = .next (fetchErrored n r (clearFetch n s)) :=
    congrArg Host.Outcome.next (fetchAnswer_awaited hawait rfl _)
  have haddr : readErrorAddr (clearFetch n s) n r = readErrorAddr s n r := by
    cases r <;> simp only [readErrorAddr, clearFetch_self] <;> rfl
  have hJ : (fetchErrored n r (clearFetch n s)).lane n
      = Lane.refused { s.lane n with flight := none, reserved := 0 } .busError (readErrorAddr s n r) s.time.schedule := by
    rw [fetchErrored, fetchFault_lane, lane_setLane_self, clearFetch_self, haddr]; rfl
  refine ⟨_, hexec, ?_, fun hrunning => ?_, fun hstarved => ?_, fetchErrored_fixed _ _ _⟩
  · rw [hJ]; unfold Lane.refused; split <;> rfl
  · rw [hJ, Lane.refused_other (l := { s.lane n with flight := none, reserved := 0 }) hrunning]
    refine ⟨rfl, rfl, rfl, rfl, rfl, fun m hm => ?_, ?_⟩
    · rw [fetchErrored, fetchFault_other (hm := Ne.symm hm), lane_setLane_ne _ (Ne.symm hm), clearFetch_other hm]
    · rw [fetchErrored, fetchFault_lines_of_running]
      · rfl
      · rw [lane_setLane_self, clearFetch_self]; exact hrunning
  · rw [hJ, Lane.refused_starved (l := { s.lane n with flight := none, reserved := 0 }) hstarved]
    exact ⟨rfl, rfl, rfl, rfl⟩

end Sys2Proof.Machine
end

