-- ==== Sys2Proof/Proofs/PagesAndSurveys.lean ====
section
/-!
THEOREM. A page header is judged (R34, R35), and the surveys of the stalled places (R46, R47, R142).
-/

namespace Sys2Proof.Machine

/-! ## A lane fault as a whole (R19) -/

/-- A state that differs from another in nothing a fault of lane `n` looks at, but in the lane's own current values. -/
structure FaultBase (s u : State) (n : LaneNo) : Prop where
  lines : u.lines = s.lines
  inputs : u.inputs = s.inputs
  journal : u.journal = s.journal
  notice : u.notice = s.notice
  time : u.time = s.time
  other : ∀ m, m ≠ n → u.lane m = s.lane m
  wait : (u.lane n).wait = .none
  pages : (u.lane n).pages = (s.lane n).pages
  exceptions : (u.lane n).exceptions = (s.lane n).exceptions

theorem laneFault_faulted {s u : State} {n : LaneNo} (h : FaultBase s u n) (code : FaultCode) (a : Addr) :
    laneFaulted s (laneFault n code a u) n code (u.lane n).serial a := by
  have hline : ∀ k, u.line k = s.line k := fun k => congrArg (fun v : Vector OutLine 16 => v[k]) h.lines
  have hfaulted := laneFault_line u n code a
  have hwithdraw : ∀ k, (withdrawWait n u).line k = s.line k := fun k => by
    rw [withdrawWait_line, if_neg (by rw [h.wait]; nofun), hline]
  refine ⟨?_, ?_, ?_, ?_, ?_, ?_, ?_, ?_, ?_, ?_, fun k hk => ?_, fun k hk => ?_, fun m hm => ?_, ?_, ?_, ?_⟩
  iterate 8 (rw [laneFault_lane]; rfl)
  · rw [laneFault_lane, ← h.exceptions]; rfl
  · rw [laneFault_lane, ← h.pages, ← h.time]; rfl
  · rw [hfaulted, hwithdraw, hline, if_pos hk]
  · rw [hfaulted, hwithdraw, hline, if_neg hk]
  · rw [laneFault_other (hm := Ne.symm hm), h.other m hm]
  · rw [laneFault_inputs, h.inputs]
  · rw [laneFault_journal, h.journal]
  · rw [laneFault_notice, h.notice]

theorem fetchFault_faulted {s u : State} {n : LaneNo} (h : FaultBase s u n) (hstarved : (u.lane n).state = .starved)
    (code : FaultCode) (a : Addr) : laneFaulted s (fetchFault n code a u) n code (u.lane n).serial a := by
  have hlane := setStall_self (u.setLane n { u.lane n with pendingFault := some (code, a), request := none }) n .fetchFault
  rw [lane_setLane_self] at hlane
  have hfixed := setStall_fixed n .fetchFault (u.setLane n { u.lane n with pendingFault := some (code, a), request := none })
  rw [fetchFault_starved u n code a hstarved]
  have hbase : FaultBase s (setStall n .fetchFault
      (u.setLane n { u.lane n with pendingFault := some (code, a), request := none })) n := by
    refine ⟨?_, ?_, ?_, ?_, ?_, fun m hm => ?_, ?_, ?_, ?_⟩
    · rw [setStall_lines]; exact h.lines
    · rw [setStall_inputs]; exact h.inputs
    · rw [setStall_journal]; exact h.journal
    · rw [setStall_notice]; exact h.notice
    · rw [time_of_fixed hfixed]; exact h.time
    · rw [setStall_other (hm := Ne.symm hm), lane_setLane_ne _ (Ne.symm hm)]; exact h.other m hm
    · rw [hlane]; exact h.wait
    · rw [hlane]; exact h.pages
    · rw [hlane]; exact h.exceptions
  have hfaulted := laneFault_faulted hbase code a
  rw [hlane] at hfaulted
  exact hfaulted

/-! ## Page headers (R34, R35) -/

/-- A lane that has taken a page. -/
def Lane.pageTaken (l : Lane) (h : BitVec 256) : Lane :=
  { l with
    pages := l.pages ++ [takenEntry l.nextAddr h]
    fetchPage := some l.nextAddr
    step := .cues
    stall := .none }

theorem Lane.pageTaken_entry (l : Lane) (h : BitVec 256) : (l.pageTaken h).fetchEntry = some (takenEntry l.nextAddr h) :=
  List.getLast?_concat

theorem Lane.pageTaken_burstSize (l : Lane) (h : BitVec 256) :
    (l.pageTaken h).burstSize = min 4 (min (Header.cueCount h) (16 - l.queue.length - l.reserved)) := by
  rw [burstSize, unfetched, pageTaken_entry]; rfl

theorem Lane.pageTaken_burstAddr (l : Lane) (h : BitVec 256) :
    cueAddr (l.pageTaken h).fetchAddr (l.pageTaken h).fetchedSoFar = l.nextAddr + 32#64 := by
  rw [fetchedSoFar, pageTaken_entry]; rfl

theorem takePage_lane (n : LaneNo) (h : BitVec 256) (s : State) :
    (takePage n h s).lane n
      = if ((s.lane n).pageTaken h).walking && 0 < ((s.lane n).pageTaken h).burstSize then
          ((s.lane n).pageTaken h).asked .burst
            (windowOk s .cueRead ((s.lane n).nextAddr + 32#64) (32 * ((s.lane n).pageTaken h).burstSize))
            (s.lane n).nextAddr s.time.schedule
        else (s.lane n).pageTaken h := by
  unfold takePage; dsimp only
  have hfixed : (setStall n .none (s.setLane n { s.lane n with
      pages := (s.lane n).pages ++ [takenEntry (s.lane n).nextAddr h], fetchPage := some (s.lane n).nextAddr
      step := .cues })).fixed = s.fixed := setStall_fixed _ _ _
  have hlane : (setStall n .none (s.setLane n { s.lane n with
      pages := (s.lane n).pages ++ [takenEntry (s.lane n).nextAddr h], fetchPage := some (s.lane n).nextAddr
      step := .cues })).lane n = (s.lane n).pageTaken h := by rw [setStall_self, lane_setLane_self]; rfl
  generalize setStall n .none _ = t at hfixed hlane ⊢
  rw [presentBurst_lane, hlane, time_of_fixed hfixed, windowOk_of_fixed hfixed, Lane.pageTaken_burstAddr]
  simp only [show ((s.lane n).pageTaken h).step = .cues from rfl, decide_true, Bool.and_true]
  rfl

theorem Lane.refused_pages {l : Lane} (h : l.state ≠ .starved) (code : FaultCode) (a : Addr) (now : Ticks) :
    (l.refused code a now).pages = l.pages := by rw [refused_other h]

/-- Settles O44: the page is taken, the fetcher stalls, or a fetch-side fault with BAD_PAGE. -/
theorem pageHeaderIsJudged : Obligations.PageHeaderIsJudged := by
  intro n h s hawait
  dsimp only
  have hexec : exec (.headerReadDone n h) s = .next (judgeHeader n h (clearFetch n s)) :=
    congrArg Host.Outcome.next (fetchAnswer_awaited hawait rfl _)
  have hfixed : (judgeHeader n h (clearFetch n s)).fixed = s.fixed := judgeHeader_fixed _ _ _
  obtain ⟨l, hl⟩ : ∃ l : Lane, l = { s.lane n with flight := none } := ⟨_, rfl⟩
  have hlane : (clearFetch n s).lane n = l := by rw [clearFetch_self, hl]
  refine ⟨_, hexec, fun howner hlow hhigh => ?taken, fun howner => ?stalled, fun hbad => ?bad, hfixed⟩
  case taken =>
    have htaken : judgeHeader n h (clearFetch n s) = takePage n h (clearFetch n s) := if_pos ⟨howner, hlow, hhigh⟩
    have hJ := takePage_lane n h (clearFetch n s)
    have hwindow : ∀ a len, windowOk (clearFetch n s) .cueRead a len = windowOk s .cueRead a len := fun _ _ => rfl
    rw [← htaken, hlane, Lane.pageTaken_burstSize, hwindow] at hJ
    have hkept : (l.pageTaken h).pages = (s.lane n).pages ++ [takenEntry (s.lane n).nextAddr h]
        ∧ (l.pageTaken h).fetchPage = some (s.lane n).nextAddr ∧ (l.pageTaken h).step = .cues
        ∧ (l.pageTaken h).state = (s.lane n).state := by rw [hl]; exact ⟨rfl, rfl, rfl, rfl⟩
    have hsize : min 4 (min (Header.cueCount h) (16 - l.queue.length - l.reserved))
        = min 4 (min (Header.cueCount h) (16 - (s.lane n).queue.length - (s.lane n).reserved)) := by rw [hl]
    have hnext : l.nextAddr = (s.lane n).nextAddr := by rw [hl]
    rw [hsize, hnext] at hJ
    rw [hJ]
    show (_ ∨ windowOk s .cueRead _ (32 * min 4 (min (Header.cueCount h) _)) = true → _)
      ∧ (windowOk s .cueRead _ (32 * min 4 (min (Header.cueCount h) _)) = true → _ → _
          → 0 < min 4 (min (Header.cueCount h) _) → _)
    refine ⟨fun hok => ?_, fun hok hrunning hrequest hsome => ?_⟩
    · split
      · unfold Lane.asked
        split
        · exact hkept
        · rename_i hno
          rw [Lane.refused_other]
          · exact hkept
          · rw [hkept.2.2.2]; exact hok.resolve_right hno
      · exact hkept
    · have hwalking : (l.pageTaken h).walking = true := by
        rw [hl]; simp [Lane.walking, Lane.pageTaken, Lane.noRead, hrunning, hrequest]
      rw [if_pos (by rw [hwalking, decide_eq_true hsome]; rfl), Lane.asked, if_pos hok]
      exact ⟨rfl, rfl⟩
  case stalled =>
    have hnot : ¬ (Header.owner h = ownerPart ∧ 1 ≤ Header.cueCount h ∧ Header.cueCount h ≤ 15) := by
      rintro ⟨hp, -⟩
      rcases howner with he | he <;> exact absurd (he.symm.trans hp) (by decide)
    have hstall : judgeHeader n h (clearFetch n s) = setStall n .header (clearFetch n s) :=
      (if_neg hnot).trans (if_pos howner)
    rw [hstall, setStall_self, hlane, hl]
    exact ⟨rfl, rfl, rfl⟩
  case bad =>
    have hnot : ¬ (Header.owner h = ownerPart ∧ 1 ≤ Header.cueCount h ∧ Header.cueCount h ≤ 15) := by
      rintro ⟨hp, hlow, hhigh⟩
      rcases hbad with ⟨-, hcount⟩ | ⟨hne, -⟩
      · change (Header.cueCount h = 0 ∨ 16 ≤ Header.cueCount h) at hcount
        omega
      · exact hne hp
    have hnot' : ¬ (Header.owner h = ownerHost ∨ Header.owner h = ownerDone) := by
      rintro he
      rcases hbad with ⟨hp, -⟩ | ⟨-, hhost, hdone⟩
      · rcases he with he | he <;> exact absurd (he.symm.trans hp) (by decide)
      · exact he.elim hhost hdone
    have hfault : judgeHeader n h (clearFetch n s) = fetchFault n .badPage (s.lane n).nextAddr (clearFetch n s) := by
      refine (if_neg hnot).trans ((if_neg hnot').trans ?_)
      rw [clearFetch_self]
    rw [hfault]
    refine ⟨fun hrunning => ?_, fun hstarved hwait => ?_⟩
    · rw [fetchFault_lane, hlane, Lane.refused_other (l := l) (by rw [hl]; exact hrunning), hl]
      exact ⟨rfl, rfl, rfl, rfl⟩
    · have hbase : FaultBase s (clearFetch n s) n :=
        ⟨rfl, rfl, rfl, rfl, rfl, fun m hm => clearFetch_other hm s, by rw [hlane, hl]; exact hwait, by rw [hlane, hl],
          by rw [hlane, hl]⟩
      have hfaulted := fetchFault_faulted hbase (by rw [hlane, hl]; exact hstarved) .badPage (s.lane n).nextAddr
      rw [hlane, hl] at hfaulted
      exact hfaulted

end Sys2Proof.Machine
end

