-- ==== Sys2Proof/Proofs/Surveys.lean ====
section
/-!
THEOREM. The surveys of the places where the fetchers and the journal are stalled (R45 to R47, R142).
-/

namespace Sys2Proof.Machine

/-! ## One fetcher (R46) -/

/-- A lane after a survey: `ok` says which reads pass the window check. -/
def Lane.surveyed (l : Lane) (ok : Addr → Nat → Bool) (now : Ticks) : Lane :=
  if l.running && l.noRead then
    match l.stall with
    | .headField => l.requesting .headField
    | .link => l.asked .link (ok (pageOffset l.fetchAddr 8) 8) l.fetchAddr now
    | .header => if l.pages.length < 17 then l.asked .header (ok l.nextAddr 32) l.nextAddr now else l
    | .none => l
    | .fetchFault => l
  else l

theorem surveyFetcher_lane (n : LaneNo) (s : State) :
    (surveyFetcher n s).lane n = (s.lane n).surveyed (windowOk s .cueRead) s.time.schedule := by
  unfold surveyFetcher Lane.surveyed; dsimp only
  split
  · cases (s.lane n).stall with
    | headField => exact presentFetch_self s n .headField
    | link => exact presentLink_lane n s
    | header =>
      dsimp only
      split
      · rename_i hroom; exact presentHeader_lane hroom
      · rename_i hroom; rw [presentHeader_full hroom]
    | none => rfl
    | fetchFault => rfl
  · rfl

section
variable {l : Lane} (hready : (l.running && l.noRead) = true) (ok : Addr → Nat → Bool) (now : Ticks)
include hready

theorem Lane.surveyed_headField (h : l.stall = .headField) : l.surveyed ok now = l.requesting .headField := by
  rw [surveyed, if_pos hready, h]

theorem Lane.surveyed_link (h : l.stall = .link) :
    l.surveyed ok now = l.asked .link (ok (pageOffset l.fetchAddr 8) 8) l.fetchAddr now := by
  rw [surveyed, if_pos hready, h]

theorem Lane.surveyed_header (h : l.stall = .header) (hroom : l.pages.length < 17) :
    l.surveyed ok now = l.asked .header (ok l.nextAddr 32) l.nextAddr now := by
  rw [surveyed, if_pos hready, h]; exact if_pos hroom

theorem Lane.surveyed_none (h : l.stall = .none ∨ l.stall = .fetchFault) : l.surveyed ok now = l := by
  rw [surveyed, if_pos hready]
  rcases h with h | h <;> rw [h]

end

theorem surveyAll_lane (s : State) (n : LaneNo) :
    (surveyAll s).lane n = (s.lane n).surveyed (windowOk s .cueRead) s.time.schedule := by
  have heach := each_at (get := State.lane) (f := surveyFetcher)
    (g := fun _ l => l.surveyed (windowOk s .cueRead) s.time.schedule) (fun t => t.fixed = s.fixed)
    (fun x t ht => (surveyFetcher_fixed x t).trans ht)
    (fun x t ht => by
      have hwindow : windowOk t .cueRead = windowOk s .cueRead := by funext a len; exact windowOk_of_fixed ht _ _ _
      rw [surveyFetcher_lane, hwindow, time_of_fixed ht])
    (fun x y t hxy => surveyFetcher_other t x hxy) allLanes nodup_allLanes s rfl n
  rw [surveyAll, surveyJournal_lane, heach, if_pos (mem_allLanes n)]

/-- What the statement says of a fetch-side refusal. -/
theorem Lane.refused_window (l : Lane) (a : Addr) (now : Ticks) :
    (l.state ≠ .starved → (l.refused .window a now).stall = .fetchFault
        ∧ (l.refused .window a now).pendingFault = some (.window, a)
        ∧ (l.refused .window a now).state = l.state ∧ (l.refused .window a now).request = none)
      ∧ (l.state = .starved → (l.refused .window a now).state = .faulted ∧ (l.refused .window a now).fault = .window
        ∧ (l.refused .window a now).running = false
        ∧ (l.refused .window a now).exceptions =
            l.exceptions ++ [{ state := .faulted, code := .window, serial := l.serial, page := a }]) := by
  refine ⟨fun h => ?_, fun h => ?_⟩
  · rw [refused_other h]; exact ⟨rfl, rfl, rfl, rfl⟩
  · rw [refused_starved h]; exact ⟨rfl, rfl, rfl, rfl⟩

/-! ## The journal (R142) -/

theorem each_surveyFetcher_fixed (s : State) : (State.each allLanes surveyFetcher s).fixed = s.fixed :=
  each_induct (f := surveyFetcher) (fun t => t.fixed = s.fixed) (fun n t h => (surveyFetcher_fixed n t).trans h) _ _ rfl

theorem each_surveyFetcher_journal (s : State) : (State.each allLanes surveyFetcher s).journal = s.journal :=
  each_induct (f := surveyFetcher) (fun t => t.journal = s.journal) (fun n t h => (surveyFetcher_journal t n).trans h) _ _ rfl

theorem each_surveyFetcher_inputs (s : State) : (State.each allLanes surveyFetcher s).inputs = s.inputs :=
  each_induct (f := surveyFetcher) (fun t => t.inputs = s.inputs) (fun n t h => (surveyFetcher_inputs t n).trans h) _ _ rfl

theorem each_surveyFetcher_notice (s : State) : (State.each allLanes surveyFetcher s).notice = s.notice :=
  each_induct (f := surveyFetcher) (fun t => t.notice = s.notice) (fun n t h => (surveyFetcher_notice t n).trans h) _ _ rfl

/-- The journal presents a read that the window check passes. -/
def Journal.asked (j : Journal) (r : JournalRead) : Journal := { j with request := some r }

/-- A journal that does not ask. -/
theorem surveyJournal_idle {s : State} (h : s.journal.state ≠ .starved ∨ s.engine.command = some .journalRestart) :
    surveyJournal s = s := by
  unfold surveyJournal; dsimp only
  rw [if_neg]
  rcases h with h | h <;> simp [h]

theorem surveyJournal_asks {s : State} (hstarved : s.journal.state = .starved) (hrequest : s.journal.request = none)
    (hflight : s.journal.flight = none) (hcommand : s.engine.command ≠ some .journalRestart) :
    (s.journal.stall = .headField → (surveyJournal s).journal = s.journal.asked .headField)
      ∧ (s.journal.stall = .link → windowOk s .journal (pageOffset s.journal.linkAddr 8) 8 = true →
          (surveyJournal s).journal = s.journal.asked .link)
      ∧ (s.journal.stall = .header → windowOk s .journal s.journal.nextAddr 32 = true →
          (surveyJournal s).journal = s.journal.asked .header)
      ∧ (s.journal.stall = .link → s.journal.draining = false →
          windowOk s .journal (pageOffset s.journal.linkAddr 8) 8 = false →
          (surveyJournal s).journal = s.journal.faulted .window (some s.journal.linkAddr))
      ∧ (s.journal.stall = .header → s.journal.draining = false → windowOk s .journal s.journal.nextAddr 32 = false →
          (surveyJournal s).journal = s.journal.faulted .window (some s.journal.nextAddr))
      ∧ (s.journal.stall = .none → (surveyJournal s).journal = s.journal) := by
  have hready : (s.journal.state = .starved && s.journal.noRead && decide (s.engine.command ≠ some .journalRestart)) = true := by
    simp [Journal.noRead, hstarved, hrequest, hflight, hcommand]
  unfold surveyJournal; dsimp only
  rw [if_pos hready]
  refine ⟨fun h => ?_, fun h hw => ?_, fun h hw => ?_, fun h hd hw => ?_, fun h hd hw => ?_, fun h => ?_⟩
  · rw [h]; rfl
  · rw [h]; dsimp only; rw [presentJournalLink, if_pos hw]; rfl
  · rw [h]; dsimp only; rw [presentJournalHeader, if_pos hw]; rfl
  · rw [h]; dsimp only; rw [presentJournalLink, if_neg (ne_true_of_eq_false hw), journalFault_journal hd]
  · rw [h]; dsimp only; rw [presentJournalHeader, if_neg (ne_true_of_eq_false hw), journalFault_journal hd]
  · rw [h]

/-- What a survey leaves. -/
theorem surveyAll_rest (s : State) :
    (surveyAll s).inputs = s.inputs ∧ (surveyAll s).notice = s.notice ∧ (surveyAll s).port = s.port
      ∧ (surveyAll s).time = s.time ∧ (surveyAll s).memory = s.memory := by
  have hfixed := surveyAll_fixed s
  refine ⟨?_, ?_, congrArg Fixed.port hfixed, congrArg Fixed.time hfixed, congrArg Fixed.memory hfixed⟩
  · rw [surveyAll, surveyJournal_inputs, each_surveyFetcher_inputs]
  · rw [surveyAll, surveyJournal_notice, each_surveyFetcher_notice]

/-- Settles O42: each fetcher by `Lane.surveyed`, then the journal; RESURVEY and the expiry of the survey timer alike. -/
theorem surveysReadTheStalledPlaces : Obligations.SurveysReadTheStalledPlaces := by
  intro b s hs laneAsks journalAsks asks
  have hlane : ∀ t : State, (∀ n, t.lane n = (s.lane n).surveyed (windowOk s .cueRead) s.time.schedule) →
      ∀ n, laneAsks t n := by
    intro t ht n
    show _ → _ → _ → _
    intro hrunning hrequest hflight
    have hready : ((s.lane n).running && (s.lane n).noRead) = true := by simp [Lane.noRead, hrunning, hrequest, hflight]
    dsimp only
    rw [ht n]
    refine ⟨fun h => ?_, fun h hw => ?_, fun h hroom hw => ?_, fun h hw => ?_, fun h hroom hw => ?_, fun h => ?_⟩
    · exact Lane.surveyed_headField hready _ _ h
    · exact (Lane.surveyed_link hready _ _ h).trans (Lane.asked_ok _ _ hw _ _)
    · exact (Lane.surveyed_header hready _ _ h hroom).trans (Lane.asked_ok _ _ hw _ _)
    · rw [(Lane.surveyed_link hready _ _ h).trans (Lane.asked_refused _ _ hw _ _)]
      exact Lane.refused_window _ _ _
    · rw [(Lane.surveyed_header hready _ _ h hroom).trans (Lane.asked_refused _ _ hw _ _)]
      exact Lane.refused_window _ _ _
    · exact Lane.surveyed_none hready _ _ h
  have hjournal : ∀ u t : State, u.journal = s.journal → u.port = s.port → u.engine.command = s.engine.command →
      t.journal = (surveyJournal u).journal → journalAsks t
        ∧ (s.journal.state ≠ .starved ∨ s.engine.command = some .journalRestart → t.journal = s.journal) := by
    intro u t hj hp hc ht
    have hwindow : windowOk u .journal = windowOk s .journal := by funext a len; unfold windowOk; rw [hp]
    refine ⟨?_, fun h => ?_⟩
    · show _ → _ → _ → _ → _
      intro hstarved hrequest hflight hcommand
      have hasks := surveyJournal_asks (s := u) (hj ▸ hstarved) (hj ▸ hrequest) (hj ▸ hflight) (hc ▸ hcommand)
      rw [hwindow, hj, ← ht] at hasks
      obtain ⟨hhead, hlink, hheader, hlinkRefused, hheaderRefused, hnone⟩ := hasks
      refine ⟨hhead, hlink, hheader, fun h hd hw => ?_, fun h hd hw => ?_, hnone⟩
      · rw [show t.journal = _ from hlinkRefused h hd hw]; exact ⟨rfl, rfl, rfl, rfl, rfl, rfl, rfl⟩
      · rw [show t.journal = _ from hheaderRefused h hd hw]; exact ⟨rfl, rfl, rfl, rfl, rfl, rfl, rfl⟩
    · rw [ht, surveyJournal_idle (by rw [hj, hc]; exact h), hj]
  have hasks : ∀ u : State, (∀ n, u.lane n = s.lane n) → u.journal = s.journal → u.inputs = s.inputs →
      u.notice = s.notice → u.port = s.port → u.time = s.time → u.memory = s.memory →
      u.engine.command = s.engine.command → asks (surveyAll u) := by
    intro u hl hj hi hn hp ht hm hc
    obtain ⟨hinputs, hnotice, hport, htime, hmemory⟩ := surveyAll_rest u
    have hwindow : windowOk u .cueRead = windowOk s .cueRead := by funext a len; unfold windowOk; rw [hp]
    have hfixed := each_surveyFetcher_fixed u
    obtain ⟨hask, hidle⟩ := hjournal (State.each allLanes surveyFetcher u) (surveyAll u)
      ((each_surveyFetcher_journal u).trans hj) ((port_of_fixed hfixed).trans hp)
      ((congrArg Engine.command (engine_of_fixed hfixed)).trans hc) rfl
    refine ⟨hlane _ fun n => ?_, hask, hidle, hinputs.trans hi, hnotice.trans hn, hport.trans hp, htime.trans ht,
      hmemory.trans hm⟩
    rw [surveyAll_lane, hl, hwindow, ht]
  refine ⟨fun hp hc => ?resurvey, fun e hexpiry hreached => ?expiry⟩
  case resurvey =>
    have hexec : exec (.resurvey b) s = .next (setLast codeResurvey 0#8 .done (surveyAll s)) :=
      writeImmediate_taken hs hp hc (decide_eq_true hp) _ _ _
    have hfixed := surveyAll_fixed s
    have hlike := hasks s (fun _ => rfl) rfl rfl rfl rfl rfl rfl rfl
    generalize surveyAll s = v at hexec hfixed hlike
    refine ⟨_, hexec, hlike, congrArg Fixed.survey hfixed, ?_⟩
    show v.engine.showLast _ _ _ = _
    rw [engine_of_fixed hfixed]; rfl
  case expiry =>
    have hdue : surveyDue s = true := by rw [surveyDue, hexpiry]; exact hreached
    have hfixed := surveyAll_fixed (restartSurvey s)
    refine ⟨_, whenEvent_of_ready hs hdue _,
      hasks (restartSurvey s) (fun _ => rfl) rfl rfl rfl rfl rfl rfl rfl, ?_, congrArg Fixed.engine hfixed⟩
    refine (congrArg Fixed.survey hfixed).trans ?_
    show (restartSurvey s).survey = _
    rw [restartSurvey, hexpiry]; rfl

end Sys2Proof.Machine
end

