-- ==== Sys2Proof/Proofs/LoneRuns.lean ====
section
/-!
THEOREM. A lane whose last cue finishes: it counts the cue, takes none and starves (R3, R8, R10); and the lane faults of a
cue, the ends of the waits and the expiries (R7, R9, R13 to R15, R17, R93).
-/

namespace Sys2Proof.Machine

/-! ## A run that rests at once (R8) -/

theorem runAll_nil (s : State) : runAll [] s = s := by
  rw [runAll]
  cases runFuel [] s <;> rfl

theorem runAfter_rest (n : LaneNo) (s : State) : runAfter n (Ran.rest s) = s := runAll_nil s

/-- A lane that takes no further cue. -/
theorem runAll_one {n : LaneNo} {s t : State} (h : takeNext n s = Ran.rest t) : runAll [n] s = t := by
  have hfuel : runFuel [n] s = 2 * queuedCues s + 1 := rfl
  rw [runAll, hfuel, runLanes, h]
  cases 2 * queuedCues s <;> rfl

theorem runAfter_done {n : LaneNo} {f : Finish} {s t : State} (h : takeNext n (finishCue n f s) = Ran.rest t) :
    runAfter n (Ran.done n f s) = t := runAll_one h

/-! ## The last cue of a queue finishes (R10) -/

theorem onFirstOpen_map {β : Type} {g : PageEntry → β} {f : PageEntry → PageEntry} (h : ∀ p, g (f p) = g p) :
    ∀ ps : List PageEntry, (onFirstOpen f ps).map g = ps.map g
  | [] => rfl
  | p :: ps => by
    rw [onFirstOpen]
    split
    · rw [List.map_cons, List.map_cons, h]
    · rw [List.map_cons, List.map_cons, onFirstOpen_map h ps]

theorem Lane.unfetched_eq (l : Lane) : l.unfetched = ((l.pages.map fun p => p.count - p.fetched).getLast?).getD 0 := by
  rw [unfetched, fetchEntry, List.getLast?_map]
  cases l.pages.getLast? <;> rfl

theorem PageEntry.counted_unfetched (p : PageEntry) (f : Finish) (late : Bool) :
    (p.counted f late).count - (p.counted f late).fetched = p.count - p.fetched := by
  cases f <;> rfl

theorem presentBurst_of_fetched {s : State} {n : LaneNo} (h : (s.lane n).unfetched = 0) : presentBurst n s = s := by
  have hsize : (s.lane n).burstSize = 0 := by rw [Lane.burstSize, h]; simp
  unfold presentBurst; dsimp only
  rw [if_neg (by rw [hsize]; simp)]

theorem retireFinished_self (n : LaneNo) (s : State) :
    ∃ ps, (retireFinished n s).lane n = { s.lane n with pages := ps }
      ∧ (ps.map fun p => p.count - p.fetched) = (s.lane n).pages.map fun p => p.count - p.fetched := by
  unfold retireFinished; dsimp only
  split
  · exact ⟨_, rfl, rfl⟩
  · split
    · exact ⟨_, lane_setLane_self _ _ _, onFirstOpen_map (g := fun p => p.count - p.fetched)
        (f := fun p => { p with retiring := some (.complete, s.time.schedule) }) (fun _ => rfl) _⟩
    · exact ⟨_, rfl, rfl⟩

/-- The lane after its current cue has finished, with no cue of its page left to be fetched. -/
theorem finishCue_self {s : State} {n : LaneNo} (f : Finish) (h : (s.lane n).unfetched = 0) :
    ∃ ps x, (finishCue n f s).lane n = { (s.lane n).finished f with pages := ps, lastNotified := x }
      ∧ finishCue n f s = retireFinished n (countCue n f s) := by
  obtain ⟨x, hcount⟩ := countCue_self s n f
  obtain ⟨ps, hretire, hmap⟩ := retireFinished_self n (countCue n f s)
  have hpages : ((countCue n f s).lane n).pages.map (fun p => p.count - p.fetched)
      = (s.lane n).pages.map fun p => p.count - p.fetched := by
    rw [hcount]
    exact onFirstOpen_map (fun p => p.counted_unfetched f (s.lane n).lateRun) _
  have hfetched : ((retireFinished n (countCue n f s)).lane n).unfetched = 0 := by
    rw [Lane.unfetched_eq, hretire]
    exact (congrArg (fun xs => (xs.getLast?).getD 0) (hmap.trans hpages)).trans ((Lane.unfetched_eq _).symm.trans h)
  refine ⟨ps, x, ?_, ?_⟩
  · rw [finishCue, presentBurst_of_fetched hfetched, hretire, hcount]
  · rw [finishCue, presentBurst_of_fetched hfetched]

theorem starve_lane (n : LaneNo) (s : State) : (starve n s).lane n = { s.lane n with state := .starved } := by
  unfold starve; dsimp only
  split
  · rw [post_lane, setLaneState_self]
  · rw [setLaneState_self]

theorem takeNext_starves {s : State} {n : LaneNo} (hhold : (s.lane n).holdRequest = false) (hqueue : (s.lane n).queue = [])
    (hfault : (s.lane n).pendingFault = none) : takeNext n s = Ran.rest (starve n s) := by
  rw [takeNext, hhold, hqueue, hfault]; rfl

/-- The lane's current cue is the only one of its queue, and nothing is to be done when it has finished. -/
structure LastCue (s : State) (n : LaneNo) : Prop where
  queue : ∃ q, (s.lane n).queue = [q]
  hold : (s.lane n).holdRequest = false
  fault : (s.lane n).pendingFault = none
  fetched : (s.lane n).unfetched = 0

/-- A lane's last cue has finished and the lane has starved; nothing else has changed. -/
structure Starves (s t : State) (n : LaneNo) (f : Finish) : Prop where
  lane : ∃ ps x, t.lane n = { (s.lane n).finished f with pages := ps, lastNotified := x, state := .starved }
  other : ∀ m, m ≠ n → t.lane m = s.lane m
  lines : t.lines = s.lines
  inputs : t.inputs = s.inputs
  gens : t.gens = s.gens
  journal : t.journal = s.journal
  fixed : t.fixed = s.fixed

/-- The current cue has finished. -/
theorem finishCue_takes {s : State} {n : LaneNo} (h : LastCue s n) (f : Finish) :
    takeNext n (finishCue n f s) = Ran.rest (starve n (finishCue n f s)) := by
  obtain ⟨⟨q, hq⟩, hhold, hfault, hfetched⟩ := h
  obtain ⟨ps, x, hlane, -⟩ := finishCue_self f hfetched
  refine takeNext_starves ?_ ?_ ?_
  · rw [hlane]; exact hhold
  · rw [hlane]; show (s.lane n).queue.tail = []; rw [hq]; rfl
  · rw [hlane]; exact hfault

theorem starve_finished {s : State} {n : LaneNo} (h : (s.lane n).unfetched = 0) (f : Finish) :
    Starves s (starve n (finishCue n f s)) n f := by
  obtain ⟨ps, x, hlane, heq⟩ := finishCue_self f h
  refine ⟨⟨ps, x, ?_⟩, fun m hm => ?_, ?_, ?_, ?_, ?_, ?_⟩
  · rw [starve_lane, hlane]
  · rw [starve_other (hm := Ne.symm hm), finishCue_other (hm := Ne.symm hm)]
  · rw [starve_lines, heq, retireFinished_lines, countCue_lines]
  · rw [starve_inputs, finishCue_inputs]
  · rw [starve_gens, heq, retireFinished_gens, countCue_gens]
  · rw [starve_journal, finishCue_journal]
  · rw [starve_fixed, finishCue_fixed]

theorem runAfter_starves {s : State} {n : LaneNo} (h : LastCue s n) (f : Finish) :
    Starves s (runAfter n (Ran.done n f s)) n f := by
  rw [runAfter_done (finishCue_takes h f)]
  exact starve_finished h.fetched f

/-! ## The ends of the waits (R13, R14, R93) -/

theorem endWait_starves {s : State} {n : LaneNo} (h : LastCue s n) (anchor : Ticks) :
    Starves (s.setLane n { s.lane n with anchor := anchor }) (endWait n anchor s) n .executed := by
  refine runAfter_starves ?_ _
  have hlane : (s.setLane n { s.lane n with anchor := anchor }).lane n = { s.lane n with anchor := anchor } :=
    lane_setLane_self _ _ _
  obtain ⟨hqueue, hhold, hfault, hfetched⟩ := h
  exact ⟨by rw [hlane]; exact hqueue, by rw [hlane]; exact hhold, by rw [hlane]; exact hfault, by rw [hlane]; exact hfetched⟩

/-- What the end of a wait makes of its lane. -/
theorem endWait_lane {s : State} {n : LaneNo} (h : LastCue s n) (anchor : Ticks) :
    ((endWait n anchor s).lane n).state = .starved ∧ ((endWait n anchor s).lane n).wait = .none
      ∧ ((endWait n anchor s).lane n).queue = [] ∧ ((endWait n anchor s).lane n).anchor = anchor
      ∧ ((endWait n anchor s).lane n).executed = (s.lane n).executed + 1 := by
  obtain ⟨ps, x, hlane⟩ := (endWait_starves h anchor).lane
  obtain ⟨q, hq⟩ := h.queue
  rw [lane_setLane_self] at hlane
  rw [hlane]
  refine ⟨rfl, rfl, ?_, rfl, rfl⟩
  show (s.lane n).queue.tail = []
  rw [hq]; rfl

theorem inputWait_eq {s : State} {n : LaneNo} {w : InputWait} (hstate : (s.lane n).state = .waitInput)
    (hwait : (s.lane n).wait = .input w) : inputWait s n = some w := by
  rw [inputWait, if_pos hstate, hwait]

/-- Settles O31: the edge is delivered to the lane alone, whose wait ends with the anchor at the edge's time. -/
theorem edgeEndsTheInputWait : Obligations.EdgeEndsTheInputWait := by
  intro n k level w c page s hlive hlevel hmoved hdead hstate hwait hline hadmits hlanes hgens hcapture hqueue hhold hfault
    hfetched
  have hends : edgeEndsWait (acceptTransition k level s) k (Dir.toLevel level) n = true := by
    rw [edgeEndsWait, inputWait_eq (s := acceptTransition k level s) hstate hwait]
    dsimp only
    rw [decide_eq_true hline, hadmits]; rfl
  have hdeliver : deliver (edgeNow s k level) (acceptTransition k level s)
      = endWait n s.time.schedule (acceptTransition k level s) := by
    refine (deliver_one (s := acceptTransition k level s) (e := edgeNow s k level) (c := .lane n) hends
      fun d hd => ?_).trans (if_pos hends)
    cases d with
    | journal => rw [takesEdge_journal, hcapture]; rfl
    | generator g => exact genTakes_eq_false (hgens g)
    | lane m => exact edgeEndsWait_eq_false (fun v hv => hlanes m v (fun he => hd (congrArg _ he)) hv) _
  have hexec : exec (.inputTransition k level) s = .next (endWait n s.time.schedule (acceptTransition k level s)) :=
    congrArg Host.Outcome.next ((sampleInput_accepted hlive hlevel hmoved hdead).trans hdeliver)
  have hlast : LastCue (acceptTransition k level s) n := ⟨⟨_, hqueue⟩, hhold, hfault, hfetched⟩
  obtain ⟨hst, hw, hq, ha, he⟩ := endWait_lane hlast s.time.schedule
  obtain ⟨-, hother, hlines, -, hgens', hjournal, hfixed⟩ := endWait_starves hlast s.time.schedule
  refine ⟨_, hexec, hst, hw, hq, ha, he, fun m hm => ?_, hlines, hgens', hjournal, hfixed⟩
  rw [hother m hm, lane_setLane_ne _ (Ne.symm hm)]; rfl

/-- Settles O30: an input wait that faults or continues, and a claim that times out. -/
theorem waitsExpire : Obligations.WaitsExpire := by
  intro n s hs
  refine ⟨fun w c page hp hstate hwait htimeout hreached => ⟨fun hcontinues => ?fault, fun hcontinues hqueue hhold hfault
    hfetched => ?goesOn⟩, fun k hp hstate hwait hmem => ?claim⟩
  case fault =>
    have hready : waitExpired s n = true := by
      rw [waitExpired, inputWait_eq hstate hwait]; simp [hp, hreached]; exact htimeout
    have hexpire : expireWait n s = laneFault n .waitTimeout (s.lane n).cuePage s := by
      rw [expireWait, inputWait_eq hstate hwait]; dsimp only
      rw [if_neg (ne_true_of_eq_false hcontinues)]; rfl
    refine ⟨_, whenEvent_of_ready hs hready _, ?_⟩
    rw [hexpire, laneFault_lane]
    exact ⟨rfl, rfl, rfl, rfl, rfl, rfl, fun m hm => laneFault_other (hm := Ne.symm hm) .., laneFault_inputs .., laneFault_journal ..,
      laneFault_fixed ..⟩
  case goesOn =>
    have hready : waitExpired s n = true := by
      rw [waitExpired, inputWait_eq hstate hwait]; simp [hp, hreached]; exact htimeout
    have hexpire : expireWait n s = endWait n ((s.lane n).due + BitVec.ofNat 48 w.timeout.toNat) s := by
      rw [expireWait, inputWait_eq hstate hwait]; dsimp only
      rw [if_pos hcontinues]; rfl
    have hlast : LastCue s n := ⟨⟨_, hqueue⟩, hhold, hfault, hfetched⟩
    obtain ⟨hst, hw, hq, ha, he⟩ := endWait_lane hlast ((s.lane n).due + BitVec.ofNat 48 w.timeout.toNat)
    obtain ⟨-, hother, hlines, hinputs, -, hjournal, hfixed⟩ :=
      endWait_starves hlast ((s.lane n).due + BitVec.ofNat 48 w.timeout.toNat)
    refine ⟨_, whenEvent_of_ready hs hready _, ?_⟩
    rw [hexpire]
    refine ⟨hst, hw, hq, ha, he, fun m hm => ?_, hlines, hinputs, hjournal, hfixed⟩
    rw [hother m hm, lane_setLane_ne _ (Ne.symm hm)]
  case claim =>
    have hready : claimExpired s k n = true := by
      rw [claimExpired, Bool.and_eq_true]
      refine ⟨decide_eq_true hp, List.any_eq_true.mpr ?_⟩
      obtain ⟨w, hw, hlane, hreached⟩ := hmem
      exact ⟨w, hw, by simp [hlane, hreached]⟩
    have hexpire : expireClaim k n s = laneFault n .claimTimeout (s.lane n).cuePage (leaveWaiters k n s) := by
      have hstate' : ((leaveWaiters k n s).lane n).state = .waitLine := hstate
      exact if_pos hstate'
    have hleft : (leaveWaiters k n s).line k
        = { s.line k with waiters := (s.line k).waiters.filter fun w => w.lane ≠ n } := line_setLine_self _ _ _
    have hwithdrawn : (withdrawWait n (leaveWaiters k n s)).line k = (leaveWaiters k n s).line k := by
      have hwait' : ((leaveWaiters k n s).lane n).wait = .claim k := hwait
      rw [withdrawWait_line, if_pos hwait', hleft, List.filter_filter]
      simp only [Bool.and_self]
    have hline : (laneFault n .claimTimeout (s.lane n).cuePage (leaveWaiters k n s)).line k
        = if (s.line k).owner = some n then
            { s.line k with
              waiters := (s.line k).waiters.filter fun w => w.lane ≠ n
              mode := faultMode (s.line k).faultAction (s.line k).mode }
          else { s.line k with waiters := (s.line k).waiters.filter fun w => w.lane ≠ n } := by
      rw [laneFault_line, hwithdrawn, hleft]
    refine ⟨_, whenEvent_of_ready hs hready _, ?_⟩
    rw [hexpire, laneFault_lane]
    refine ⟨rfl, rfl, rfl, rfl, ?_, ?_, fun m hm => laneFault_other (hm := Ne.symm hm) .., laneFault_inputs ..,
      laneFault_journal .., laneFault_fixed ..⟩
    · rw [hline]; split <;> rfl
    · rw [hline]; split <;> rfl

end Sys2Proof.Machine
end

