-- ==== Sys2Proof/Proofs/DueCues.lean ====
section
/-!
THEOREM. A current cue whose due is reached: judged late or on time, it faults its lane, is skipped or is carried out (R6 to
R17, R75 to R95, R115, R129).
-/

namespace Sys2Proof.Machine

/-! ## Judging a due that is reached (R7) -/

theorem exec_dueReached {s : State} (hs : s.awake) {n : LaneNo} {c : Cue} (hp : s.part = .active)
    (hst : (s.lane n).state = .pending) (hc : (s.lane n).current = some c)
    (hreached : reached s.time.schedule (s.lane n).due = true) :
    exec (.dueReached n) s = .next (runAfter n (judgeCue n c s)) := by
  have hready : dueReady s n = true := by rw [dueReady, hp, hst, hc, hreached]; rfl
  have htake : takeDue n s = runAfter n (judgeCue n c s) := by rw [takeDue, hc]
  exact (whenEvent_of_ready hs hready _).trans (congrArg Host.Outcome.next htake)

/-- The current cue of lane `n` is late against the lane's tolerance (R7). -/
def late (s : State) (n : LaneNo) : Prop :=
  (s.lane n).config.tolerance.toNat < lateness s.time.schedule (s.lane n).due

theorem judgeCue_carries {s : State} {n : LaneNo} {c : Cue} (h : late s n → c.policy = .run) :
    ∃ b : Bool, (late s n → b = true) ∧ (¬ late s n → b = false) ∧ judgeCue n c s = carryOut n c.action (setLateRun n b s) := by
  by_cases hlate : late s n
  · refine ⟨true, fun _ => rfl, fun hn => absurd hlate hn, ?_⟩
    rw [judgeCue, if_neg (Nat.not_le.mpr hlate), h hlate]
  · exact ⟨false, fun hl => absurd hl hlate, fun _ => rfl, if_pos (Nat.le_of_not_lt hlate)⟩

theorem judgeCue_skips {s : State} {n : LaneNo} {c : Cue} (h : late s n) (hc : c.policy = .skip) :
    judgeCue n c s = Ran.done n .skipped s := by
  rw [judgeCue, if_neg (Nat.not_le.mpr h), hc]

theorem judgeCue_faults {s : State} {n : LaneNo} {c : Cue} (h : late s n) (hc : c.policy = .fault) :
    judgeCue n c s = cueFault n .late s := by
  rw [judgeCue, if_neg (Nat.not_le.mpr h), hc]

theorem setLateRun_lane (n : LaneNo) (b : Bool) (s : State) :
    (setLateRun n b s).lane n = { s.lane n with lateRun := b } := lane_setLane_self _ _ _

theorem setLateRun_other {n m : LaneNo} (h : m ≠ n) (b : Bool) (s : State) : (setLateRun n b s).lane m = s.lane m :=
  lane_setLane_ne _ (Ne.symm h) _

/-! ## Ownership of a mask (R9) -/

theorem ownsAll_iff (s : State) (n : LaneNo) (mask : Half) :
    ownsAll s n mask = true ↔ ∀ k : LineNo, mask.getLsbD k.val = true → (s.line k).owner = some n := by
  rw [ownsAll, List.all_eq_true]
  refine forall_congr' fun k => ?_
  rw [mem_maskLines, decide_eq_true_iff]

theorem ownsAll_eq_false {s : State} {n : LaneNo} {mask : Half} {k : LineNo} (hk : mask.getLsbD k.val = true)
    (h : (s.line k).owner ≠ some n) : ¬ ownsAll s n mask = true := fun ho => h ((ownsAll_iff s n mask).mp ho k hk)

theorem owns_eq_false {s : State} {n : LaneNo} {k : LineNo} (h : (s.line k).owner ≠ some n) : ¬ owns s n k = true := by
  rw [owns, decide_eq_true_iff]; exact h

theorem owns_eq_true {s : State} {n : LaneNo} {k : LineNo} (h : (s.line k).owner = some n) : owns s n k = true :=
  decide_eq_true h

/-! ## Faults of the current cue (R7, R9, R15, R17, R129) -/

theorem cueFault_faulted {s u : State} {n : LaneNo} (h : FaultBase s u n) (hserial : (u.lane n).serial = (s.lane n).serial)
    (hpage : (u.lane n).cuePage = (s.lane n).cuePage) (hfixed : u.fixed = s.fixed) (code : FaultCode) :
    laneFaulted s (runAfter n (cueFault n code u)) n code (s.lane n).serial (s.lane n).cuePage
      ∧ (runAfter n (cueFault n code u)).fixed = s.fixed := by
  rw [cueFault, runAfter_rest, laneFault_fixed, hpage, ← hserial]
  exact ⟨laneFault_faulted h code _, hfixed⟩

theorem setLateRun_base {s : State} {n : LaneNo} (h : (s.lane n).wait = .none) (b : Bool) :
    FaultBase s (setLateRun n b s) n :=
  ⟨rfl, rfl, rfl, rfl, rfl, fun _ hm => setLateRun_other hm b s, by rw [setLateRun_lane]; exact h,
    by rw [setLateRun_lane], by rw [setLateRun_lane]⟩

/-- The mode a fault action gives (R85, R86, Table 4-3). -/
theorem faultMode_float (action : FaultAction) : faultMode action .float = .float := rfl

/-- Settles O29: each check that fails is a fault of the lane, late or on time. -/
theorem lateCueUnderFaultFaultsTheLane : Obligations.LateCueUnderFaultFaultsTheLane := by
  intro n c s hs hp hst hwait hcurrent hreached isLate owned faults
  have hexec := exec_dueReached hs hp hst hcurrent hreached
  refine ⟨fun hlate hpolicy => ?late, fun hrun => ?carried, faultMode_float, fun m hm => ?modes⟩
  case late =>
    rw [judgeCue_faults hlate hpolicy] at hexec
    exact ⟨_, hexec, cueFault_faulted ⟨rfl, rfl, rfl, rfl, rfl, fun _ _ => rfl, hwait, rfl, rfl⟩ rfl rfl rfl _⟩
  case carried =>
    obtain ⟨b, -, -, hjudge⟩ := judgeCue_carries hrun
    rw [hjudge] at hexec
    have hfaults : ∀ code, carryOut n c.action (setLateRun n b s) = cueFault n code (setLateRun n b s) → faults code := by
      intro code hcarry
      rw [hcarry] at hexec
      refine ⟨_, hexec, cueFault_faulted (setLateRun_base hwait b) ?_ ?_ rfl code⟩
      · rw [setLateRun_lane]
      · rw [setLateRun_lane]; rfl
    refine ⟨fun mask levels k ha hk hown => hfaults _ ?_, fun k active width ha hown => hfaults _ ?_,
      fun k first d1 d2 periods ha hown => hfaults _ ?_, fun k g m ha hown => hfaults _ ?_,
      fun k g m j ha hown hbound hj => hfaults _ ?_, fun mask k ha hk hown => hfaults _ ?_,
      fun k timeout ha hdrive => hfaults _ ?_, fun k m ha hdrive hm hown => hfaults _ ?_⟩
    · rw [ha]; exact if_neg (ownsAll_eq_false (s := setLateRun n b s) hk hown)
    · rw [ha]; exact if_neg (owns_eq_false (s := setLateRun n b s) hown)
    · rw [ha]; exact if_neg (owns_eq_false (s := setLateRun n b s) hown)
    · rw [ha]; exact if_pos (by rw [Bool.not_eq_true']; exact eq_false_of_ne_true (owns_eq_false (s := setLateRun n b s) hown))
    · have helsewhere : boundElsewhere (setLateRun n b s) g k = true := by
        rw [boundElsewhere, show ((setLateRun n b s).gen g).bound = some j from hbound]
        exact decide_eq_true hj
      rw [ha]
      refine (if_neg ?_).trans (if_pos helsewhere)
      rw [owns_eq_true (s := setLateRun n b s) hown]; exact Bool.false_ne_true
    · rw [ha]; exact if_neg (ownsAll_eq_false (s := setLateRun n b s) hk hown)
    · have hanswer : claimAnswer (setLateRun n b s) n k timeout = .disabled := by
        refine if_pos ?_
        show (!(s.line k).driveEnable) = true
        rw [hdrive]; rfl
      rw [ha, carryOut, carryClaim, hanswer]
    · have hanswer : claimAnswer (setLateRun n b s) n k 0 = .timedOut := by
        show (if !(s.line k).driveEnable then ClaimAnswer.disabled else if (s.line k).owner = some n then _ else
          if (s.line k).owner = none then _ else if (0 : Half) = 0 then _ else _) = _
        rw [hdrive, hown, if_neg (by simp), if_neg (fun he => hm (Option.some.inj he)), if_neg nofun, if_pos rfl]
      rw [ha, carryOut, carryClaim, hanswer]
  case modes =>
    cases m with
    | float => exact absurd rfl hm
    | static level => exact ⟨rfl, rfl, rfl, rfl⟩
    | pulse active ret e => exact ⟨rfl, rfl, rfl, rfl⟩
    | wave first d1 d2 periods done phase e => cases phase <;> cases first <;> exact ⟨rfl, rfl, rfl, rfl⟩
    | track level g => exact ⟨rfl, rfl, rfl, rfl⟩

end Sys2Proof.Machine
end

