-- ==== Sys2Proof/Proofs/CarriedCues.lean ====
section
/-!
THEOREM. The cues that are carried out, kind by kind (R9 to R16, R75 to R95, R115, R129).
-/

namespace Sys2Proof.Machine

theorem line_of_lines {s t : State} (h : t.lines = s.lines) (k : LineNo) : t.line k = s.line k :=
  congrArg (fun v : Vector OutLine 16 => v[k]) h

theorem lane_of_lanes {s t : State} (h : t.lanes = s.lanes) (n : LaneNo) : t.lane n = s.lane n :=
  congrArg (fun v : Vector Lane 4 => v[n]) h

theorem gen_of_gens {s t : State} (h : t.gens = s.gens) (g : GenNo) : t.gen g = s.gen g :=
  congrArg (fun v : Vector Generator 2 => v[g]) h

theorem input_of_inputs {s t : State} (h : t.inputs = s.inputs) (k : LineNo) : t.input k = s.input k :=
  congrArg (fun v : Vector InLine 16 => v[k]) h

/-! ## Releases without waiters (R84, R94) -/

/-- A line released with nobody waiting for it. -/
def OutLine.freed (x : OutLine) : OutLine := { x with mode := .static x.rest, owner := none }

theorem releaseLines_free {ks : List LineNo} (hks : ks.Nodup) {s : State} (h : ∀ k ∈ ks, (s.line k).waiters = []) :
    (releaseLines ks s).2 = []
      ∧ ∀ k, (releaseLines ks s).1.line k = if k ∈ ks then (s.line k).freed else s.line k := by
  induction ks generalizing s with
  | nil => exact ⟨rfl, fun k => rfl⟩
  | cons j js ih =>
    obtain ⟨hj, hjs⟩ := List.nodup_cons.mp hks
    obtain ⟨hnone, hline⟩ := releaseLine_free s j (h j (List.mem_cons_self ..))
    have hother : ∀ k, k ≠ j → (releaseLine j s).1.line k = s.line k := fun k hk => releaseLine_other s j (Ne.symm hk)
    obtain ⟨hempty, hlines⟩ := ih hjs (s := (releaseLine j s).1) fun k hk => by
      rw [hother k fun he => hj (he ▸ hk)]; exact h k (List.mem_cons_of_mem _ hk)
    refine ⟨?_, fun k => ?_⟩
    · rw [releaseLines]; dsimp only
      rw [hnone, hempty]; rfl
    · rw [releaseLines]; dsimp only
      rw [hlines]
      by_cases hk : k = j
      · subst hk; rw [if_neg hj, if_pos (List.mem_cons_self ..), hline]; rfl
      · rw [hother k hk]; simp [hk]

theorem releaseAndGrant_of_none {ks : List LineNo} {s : State} (h : (releaseLines ks s).2 = []) :
    releaseAndGrant ks s = ((releaseLines ks s).1, []) := by
  unfold releaseAndGrant; dsimp only
  rw [h]; rfl

/-- The releases of lines that nobody waits for: no lane goes on by them. -/
structure FreesLines (ks : List LineNo) (s t : State) : Prop where
  line : ∀ k, t.line k = if k ∈ ks then (s.line k).freed else s.line k
  lanes : t.lanes = s.lanes
  inputs : t.inputs = s.inputs
  journal : t.journal = s.journal
  fixed : t.fixed = s.fixed

theorem releaseAndGrant_free {ks : List LineNo} (hks : ks.Nodup) {s : State} (h : ∀ k ∈ ks, (s.line k).waiters = []) :
    (releaseAndGrant ks s).2 = [] ∧ FreesLines ks s (releaseAndGrant ks s).1 := by
  obtain ⟨hnone, hline⟩ := releaseLines_free hks h
  rw [releaseAndGrant_of_none hnone]
  exact ⟨rfl, hline, releaseLines_lanes s ks, releaseLines_inputs s ks, releaseLines_journal s ks, releaseLines_fixed ks s⟩

theorem nodup_maskLines (mask : Half) : (maskLines mask).Nodup := nodup_allLines.filter _

theorem nodup_ownedLines (s : State) (n : LaneNo) : (ownedLines s n).Nodup := nodup_allLines.filter _

/-! ## What the kinds do to the lines, the generators and the inputs -/

theorem startPulse_line (k : LineNo) (active base : Level) (width : BitVec 24) {s : State}
    (h : (s.line k).baseLevel = some base) :
    (startPulse k active width s).line k
        = { s.line k with mode := .pulse active base (s.time.elapsed + BitVec.ofNat 48 width.toNat) }
      ∧ ∀ j, j ≠ k → (startPulse k active width s).line j = s.line j := by
  refine ⟨?_, fun j hj => ?_⟩
  · rw [startPulse, setMode_self, endActivity_line, h]; rfl
  · rw [startPulse, setMode_other _ _ _ (Ne.symm hj), endActivity_line]

theorem startWave_line (k : LineNo) (first : Level) (d1 d2 : BitVec 24) (periods : Half) (s : State) :
    (startWave k first d1 d2 periods s).line k
        = { s.line k with
            mode := .wave first d1 d2 periods 0 .first (s.time.elapsed + BitVec.ofNat 48 d1.toNat) }
      ∧ ∀ j, j ≠ k → (startWave k first d1 d2 periods s).line j = s.line j := by
  refine ⟨?_, fun j hj => ?_⟩
  · rw [startWave, setMode_self, endActivity_line]; rfl
  · rw [startWave, setMode_other _ _ _ (Ne.symm hj), endActivity_line]

/-- A line in TRACK keeps its base level (R80). -/
theorem startTrack_base (k : LineNo) (g : GenNo) {base : Level} {s : State} (h : (s.line k).baseLevel = some base) :
    (startTrack k g s).line k = { s.line k with mode := .track base g } := by
  unfold startTrack
  unfold OutLine.baseLevel at h
  cases hm : (s.line k).mode with
  | float => rw [hm] at h; cases h
  | static l => rw [hm] at h; cases h; exact setMode_self _ _ _
  | pulse a ret e => rw [hm] at h; cases h; exact setMode_self _ _ _
  | wave f d1 d2 p c ph e => rw [hm] at h; cases h; exact setMode_self _ _ _
  | track l g' =>
    rw [hm] at h; cases h
    dsimp only
    split
    · rename_i hg; rw [← hg, ← hm]
    · rw [setMode_self, endActivity_line]

theorem unbindGen_otherGen {g h : GenNo} (hg : h ≠ g) (s : State) : (unbindGen g s).gen h = s.gen h := by
  unfold unbindGen; dsimp only
  split
  · rw [markStale_gen, gen_setGen_ne _ (Ne.symm hg)]
  · exact gen_setGen_ne _ (Ne.symm hg) _

theorem startTrack_gen (k : LineNo) (g : GenNo) (s : State) : (startTrack k g s).gen g = s.gen g := by
  unfold startTrack
  split
  · rename_i l g' hm
    split
    · rfl
    · rename_i hne
      show (endActivity k s).gen g = s.gen g
      rw [endActivity, hm]; dsimp only
      split
      · exact unbindGen_otherGen (Ne.symm hne) s
      · rfl
  all_goals rfl

theorem bindGen_gen (g : GenNo) (k : LineNo) (m : Nat) (s : State) :
    (bindGen g k m s).gen g = { s.gen g with bound := some k, multiplier := m } := by
  unfold bindGen; dsimp only
  split
  · exact gen_setGen_self _ _ _
  · rw [markStale_gen]; exact gen_setGen_self _ _ _

theorem trackLine_acts (k : LineNo) (g : GenNo) (m : Nat) {base : Level} {s : State} (h : (s.line k).baseLevel = some base) :
    (trackLine k g m s).line k = { s.line k with mode := .track base g }
      ∧ (trackLine k g m s).gen g = { s.gen g with bound := some k, multiplier := m }
      ∧ ∀ j, j ≠ k → (trackLine k g m s).line j = s.line j := by
  refine ⟨?_, ?_, fun j hj => trackLine_other k g m s (Ne.symm hj)⟩
  · rw [trackLine, bindGen_line, startTrack_base k g h]
  · rw [trackLine, bindGen_gen, startTrack_gen]

theorem setCaptures_input (mask : Half) (b : Bool) (s : State) (k : LineNo) :
    (State.each (maskLines mask) (setCapture b) s).input k
      = if mask.getLsbD k.val then { s.input k with captureEnable := b } else s.input k := by
  have h := each_at (get := State.input) (f := setCapture b) (g := fun _ x => { x with captureEnable := b }) (fun _ => True)
    (fun _ _ _ => trivial) (fun x s _ => input_setInput_self _ _ _) (fun x y s hxy => input_setInput_ne _ hxy _)
    (maskLines mask) (nodup_maskLines mask) s trivial k
  rw [h]
  simp only [mem_maskLines]

/-! ## Waits that begin (R12, R15, R91) -/

/-- A lane enters a waiting state with its waiting record. -/
theorem enterWait_enters (n : LaneNo) (st : LaneState) (w : Wait) (s : State) :
    (enterWait n st w s).lane n = { s.lane n with state := st, wait := w }
      ∧ StatusItem.laneStatus n ∈ (enterWait n st w s).handed := by
  refine ⟨?_, mem_markStale _ _⟩
  rw [enterWait, markLane, markStale_lane]; exact lane_setLane_self _ _ _

end Sys2Proof.Machine
end

