-- ==== Sys2Proof/Proofs/OnTimeCues.lean ====
section
/-!
THEOREM. A lane's only cue is carried out: what each kind leaves of the lines, the inputs, the generators, the journal and the
other lanes (R7 to R16).
-/

namespace Sys2Proof.Machine

/-! ## Two lanes that starve (R8, R94) -/

/-- A lane with nothing left to take. -/
structure Idle (s : State) (n : LaneNo) : Prop where
  hold : (s.lane n).holdRequest = false
  queue : (s.lane n).queue = []
  fault : (s.lane n).pendingFault = none

theorem Idle.takeNext {s : State} {n : LaneNo} (h : Idle s n) : takeNext n s = Ran.rest (starve n s) :=
  takeNext_starves h.hold h.queue h.fault

theorem Idle.of_lane {s t : State} {n : LaneNo} (h : Idle s n) (hl : t.lane n = s.lane n) : Idle t n :=
  ⟨hl ▸ h.hold, hl ▸ h.queue, hl ▸ h.fault⟩

theorem finishCue_idle {s : State} {n : LaneNo} (h : LastCue s n) (f : Finish) : Idle (finishCue n f s) n := by
  obtain ⟨⟨q, hq⟩, hhold, hfault, hfetched⟩ := h
  obtain ⟨ps, x, hlane, -⟩ := finishCue_self f hfetched
  refine ⟨by rw [hlane]; exact hhold, ?_, by rw [hlane]; exact hfault⟩
  rw [hlane]; show (s.lane n).queue.tail = []; rw [hq]; rfl

/-- Two lanes have starved, and nothing else has changed. -/
structure StarveBoth (s t : State) (a b : LaneNo) : Prop where
  lane : ∀ m, m = a ∨ m = b → t.lane m = { s.lane m with state := .starved }
  other : ∀ m, m ≠ a → m ≠ b → t.lane m = s.lane m
  lines : t.lines = s.lines
  inputs : t.inputs = s.inputs
  journal : t.journal = s.journal
  fixed : t.fixed = s.fixed

theorem StarveBoth.symm {s t : State} {a b : LaneNo} (h : StarveBoth s t a b) : StarveBoth s t b a :=
  ⟨fun m hm => h.lane m hm.symm, fun m hb ha => h.other m ha hb, h.lines, h.inputs, h.journal, h.fixed⟩

theorem runAll_two {s : State} {a b : LaneNo} (hab : a ≠ b) (ha : Idle s a) (hb : Idle s b) :
    StarveBoth s (runAll [a, b] s) a b := by
  have hfuel : runFuel [a, b] s = 2 * queuedCues s + 2 := rfl
  have hb' : takeNext b (starve a s) = Ran.rest (starve b (starve a s)) :=
    (hb.of_lane (starve_other s a hab)).takeNext
  have hrun : runAll [a, b] s = starve b (starve a s) := by
    rw [runAll, hfuel, runLanes, ha.takeNext]
    show runLanes (2 * queuedCues s + 1) [b] (starve a s) = _
    rw [runLanes, hb']
    cases 2 * queuedCues s <;> rfl
  rw [hrun]
  refine ⟨fun m hm => ?_, fun m hma hmb => ?_, by rw [starve_lines, starve_lines], by rw [starve_inputs, starve_inputs],
    by rw [starve_journal, starve_journal], by rw [starve_fixed, starve_fixed]⟩
  · rcases hm with rfl | rfl
    · rw [starve_other _ _ (Ne.symm hab), starve_lane]
    · rw [starve_lane, starve_other _ _ hab]
  · rw [starve_other _ _ (Ne.symm hmb), starve_other _ _ (Ne.symm hma)]

/-- A lane that goes on, with one lane granted a line: both starve, in either order. -/
theorem runAfter_granted {n g : LaneNo} (hg : g ≠ n) {s : State} (hn : Idle s n) (hgi : Idle s g) :
    StarveBoth s (runAfter n { state := s, again := true, granted := [g] }) n g := by
  have hstep : ∀ work, work = [g, n] ∨ work = [n, g] →
      StarveBoth s (runAll work { s with choices := s.choices + 1 }) n g := by
    rintro work (rfl | rfl)
    · obtain ⟨hlane, hother, hlines, hinputs, hjournal, hfixed⟩ :=
        (runAll_two (s := { s with choices := s.choices + 1 }) hg ⟨hgi.hold, hgi.queue, hgi.fault⟩
          ⟨hn.hold, hn.queue, hn.fault⟩).symm
      exact ⟨hlane, hother, hlines, hinputs, hjournal, hfixed⟩
    · obtain ⟨hlane, hother, hlines, hinputs, hjournal, hfixed⟩ :=
        runAll_two (s := { s with choices := s.choices + 1 }) (Ne.symm hg) ⟨hn.hold, hn.queue, hn.fault⟩
          ⟨hgi.hold, hgi.queue, hgi.fault⟩
      exact ⟨hlane, hother, hlines, hinputs, hjournal, hfixed⟩
  have hrun : runAfter n { state := s, again := true, granted := [g] }
      = runAll (if Config.choice s.choices % 2 = 0 then [g, n] else [n, g]) { s with choices := s.choices + 1 } := rfl
  rw [hrun]
  refine hstep _ ?_
  split
  · exact .inl rfl
  · exact .inr rfl

/-! ## A release that grants a line (R94, R95) -/

theorem maskLines_one {mask : Half} {k : LineNo} (h : ∀ j : LineNo, mask.getLsbD j.val = true ↔ j = k) :
    maskLines mask = [k] := by
  have hfilter : maskLines mask = allLines.filter (· = k) := by
    refine List.filter_congr fun j _ => ?_
    rw [Bool.eq_iff_iff, h j, decide_eq_true_iff]
  rw [hfilter]
  fin_cases k <;> rfl

/-- A line released to the head of its waiter list, whose CLAIM cue finishes. -/
theorem releaseAndGrant_one {s : State} {k : LineNo} {w : Waiter} {rest : List Waiter}
    (hw : (s.line k).waiters = w :: rest) (hstate : (s.lane w.lane).state = .waitLine)
    (hqueue : (s.lane w.lane).queue ≠ []) :
    releaseAndGrant [k] s = (finishCue w.lane .executed (releaseLine k s).1, [w.lane]) := by
  obtain ⟨hgranted, -⟩ := releaseLine_granted s k w rest hw
  have hlines : releaseLines [k] s = ((releaseLine k s).1, [w.lane]) := by
    rw [releaseLines]; dsimp only
    rw [hgranted]; rfl
  have hawaits : awaitsGrant (releaseLine k s).1 w.lane = true := by
    rw [awaitsGrant, releaseLine_lane, hstate, Bool.and_eq_true]
    exact ⟨decide_eq_true rfl, by rw [Bool.not_eq_true', List.isEmpty_eq_false_iff]; exact hqueue⟩
  unfold releaseAndGrant; dsimp only
  rw [hlines, List.filter_cons_of_pos hawaits]; rfl

theorem finishCue_lines {s : State} {n : LaneNo} (h : (s.lane n).unfetched = 0) (f : Finish) :
    (finishCue n f s).lines = s.lines := by
  obtain ⟨ps, x, -, heq⟩ := finishCue_self f h
  rw [heq, retireFinished_lines, countCue_lines]

/-! ## END (R16) -/

/-- A lane ended by the END cue of page `page`, its lines released (R16). -/
def endedBy (n : LaneNo) (page : Addr) (s : State) : State :=
  let s := retirePages n .ended (ceaseLane n .ended s)
  oweException n { state := .ended, code := .none, serial := (s.lane n).serial, page := page } s

/-- What an END cue leaves, with nobody waiting for a line of the lane. -/
theorem carryEnd_ends {s : State} {n : LaneNo} (h : ∀ k, (s.line k).owner = some n → (s.line k).waiters = []) :
    ∃ (u : State) (l : Lane), carryEnd n s = Ran.rest u
      ∧ u.lane n = { l with
          discarded := l.discarded + BitVec.ofNat 32 l.queue.length
          queue := [], hasCurrent := false, lateRun := false, state := .ended, holdRequest := false, running := false
          request := none, flight := l.flight.map Flight.discarded, reserved := 0, pendingFault := none, stall := .none
          wait := .none
          pages := l.pages.map fun p => p.closed .ended s.time.schedule
          exceptions := l.exceptions ++
            [{ state := .ended, code := .none, serial := l.serial, page := (s.lane n).cuePage }] }
      ∧ (∃ x, l = { (s.lane n).finished .executed with lastNotified := x })
      ∧ (∀ m, m ≠ n → u.lane m = s.lane m)
      ∧ StatusItem.laneStatus n ∈ u.handed
      ∧ (∀ k, u.line k = if (s.line k).owner = some n then (s.line k).freed else s.line k)
      ∧ u.inputs = s.inputs ∧ u.journal = s.journal ∧ u.fixed = s.fixed := by
  obtain ⟨x, hcount⟩ := countCue_self s n .executed
  have hlineCount : ∀ k, (countCue n .executed s).line k = s.line k := fun k => countCue_line s n .executed k
  have hfreeable : ∀ k ∈ ownedLines (countCue n .executed s) n, ((countCue n .executed s).line k).waiters = [] := by
    intro k hk
    rw [mem_ownedLines, hlineCount] at hk
    rw [hlineCount]; exact h k hk
  obtain ⟨hnone, hline, hlanes, hinputs, hjournal, hfixed⟩ := releaseAndGrant_free (nodup_ownedLines _ n) hfreeable
  have hmem : ∀ k, k ∈ ownedLines (countCue n .executed s) n ↔ (s.line k).owner = some n := fun k => by
    rw [mem_ownedLines, hlineCount]
  have hlane : ∀ m, (releaseAndGrant (ownedLines (countCue n .executed s) n) (countCue n .executed s)).1.lane m
      = (countCue n .executed s).lane m := lane_of_lanes hlanes
  have hcarry : carryEnd n s = Ran.rest (endedBy n (s.lane n).cuePage
      (releaseAndGrant (ownedLines (countCue n .executed s) n) (countCue n .executed s)).1) := by
    unfold carryEnd; dsimp only
    rw [hnone]; rfl
  generalize (releaseAndGrant (ownedLines (countCue n .executed s) n) (countCue n .executed s)).1 = v at *
  have htime : (ceaseLane n .ended v).time = s.time := by
    rw [ceaseLane_time, time_of_fixed hfixed, time_of_fixed (countCue_fixed n .executed s)]
  refine ⟨_, (countCue n .executed s).lane n, hcarry, ?_, ⟨x, hcount⟩, fun m hm => ?_, ?_, fun k => ?_, ?_, ?_, ?_⟩
  · rw [endedBy, oweException_self, retirePages_self, ceaseLane_self, hlane, htime]
  · rw [endedBy, oweException_other (hm := Ne.symm hm), retirePages_other (hm := Ne.symm hm), ceaseLane_other (hm := Ne.symm hm),
      hlane, countCue_other (hm := Ne.symm hm)]
  · exact List.mem_append_right _ (List.mem_singleton_self _)
  · have hwait : (v.lane n).wait = .none := by rw [hlane, hcount]; rfl
    rw [endedBy, oweException_line, retirePages_line, ceaseLane_line, withdrawWait_line, if_neg (by rw [hwait]; nofun), hline, hlineCount]
    simp only [hmem]
  · rw [endedBy, oweException_inputs, retirePages_inputs, ceaseLane_inputs, hinputs, countCue_inputs]
  · rw [endedBy, oweException_journal, retirePages_journal, ceaseLane_journal, hjournal, countCue_journal]
  · rw [endedBy, oweException_fixed, retirePages_fixed, ceaseLane_fixed, hfixed, countCue_fixed]

end Sys2Proof.Machine
end

