-- ==== Sys2Proof/Proofs/CuesCarriedOut.lean ====
section
/-!
THEOREM. A lane's only cue, its due reached and judged to be carried out, kind by kind (R7 to R16, R75 to R95, R115, R129).
-/

namespace Sys2Proof.Machine

/-- The only cue of lane `n` is pending, and its due is reached. -/
structure DueNow (s : State) (n : LaneNo) (c : Cue) (page : Addr) : Prop where
  awake : s.awake
  part : s.part = .active
  state : (s.lane n).state = .pending
  sole : soleCue s n c page
  reached : reached s.time.schedule (s.lane n).due = true

/-- A cue of lane `n` has been counted as executed between two states, late or on time (R10). -/
def countedOnce (s : State) (n : LaneNo) (t : State) : Prop :=
  (t.lane n).executed = (s.lane n).executed + 1
    ∧ (late s n → (t.lane n).lateRuns = (s.lane n).lateRuns + 1)
    ∧ (¬late s n → (t.lane n).lateRuns = (s.lane n).lateRuns)
    ∧ (t.lane n).skipped = (s.lane n).skipped ∧ (t.lane n).anchor = (s.lane n).anchor
    ∧ (t.lane n).fault = (s.lane n).fault ∧ t.fixed = s.fixed

/-- The lane has finished its only cue and starves. -/
def finishedOnly (s : State) (n : LaneNo) (t : State) : Prop :=
  (t.lane n).state = .starved ∧ (t.lane n).queue = [] ∧ countedOnce s n t

/-- The lane waits on its only cue: nothing but its own record, its line and the stale set has changed. -/
def waitsOnly (s : State) (n : LaneNo) (t : State) : Prop :=
  (t.lane n).queue = (s.lane n).queue ∧ (t.lane n).executed = (s.lane n).executed
    ∧ (t.lane n).anchor = (s.lane n).anchor ∧ StatusItem.laneStatus n ∈ t.handed ∧ (∀ m, m ≠ n → t.lane m = s.lane m)
    ∧ t.inputs = s.inputs ∧ t.gens = s.gens ∧ t.journal = s.journal ∧ t.notice = s.notice ∧ t.fixed = s.fixed

theorem soleCue.last {s u : State} {n : LaneNo} {c : Cue} {page : Addr} (h : soleCue s n c page)
    (hqueue : (u.lane n).queue = (s.lane n).queue) (hhold : (u.lane n).holdRequest = (s.lane n).holdRequest)
    (hfault : (u.lane n).pendingFault = (s.lane n).pendingFault) (hpages : (u.lane n).pages = (s.lane n).pages) :
    LastCue u n := by
  obtain ⟨hq, -, hh, hf, hu⟩ := h
  refine ⟨⟨_, hqueue.trans hq⟩, hhold.trans hh, hfault.trans hf, ?_⟩
  rw [Lane.unfetched_eq, hpages, ← Lane.unfetched_eq]; exact hu

theorem soleCue.last_of_lane {s u : State} {n : LaneNo} {c : Cue} {page : Addr} (h : soleCue s n c page)
    (hlane : u.lane n = s.lane n) : LastCue u n := by
  refine h.last ?_ ?_ ?_ ?_ <;> rw [hlane]

theorem soleCue.last_judged {s u : State} {n : LaneNo} {c : Cue} {page : Addr} {b : Bool} (h : soleCue s n c page)
    (hlane : u.lane n = (setLateRun n b s).lane n) : LastCue u n := by
  refine h.last ?_ ?_ ?_ ?_ <;> rw [hlane, setLateRun_lane]

theorem soleCue.current {s : State} {n : LaneNo} {c : Cue} {page : Addr} (h : soleCue s n c page) :
    (s.lane n).current = some c := by
  obtain ⟨hq, hcurrent, -⟩ := h
  rw [Lane.current, hq, hcurrent]; rfl

section Carried

variable {s : State} {n : LaneNo} {c : Cue} {page : Addr}

theorem DueNow.judged (h : DueNow s n c page) : exec (.dueReached n) s = .next (runAfter n (judgeCue n c s)) :=
  exec_dueReached h.awake h.part h.state h.sole.current h.reached

/-- The counts of a lane whose current cue finishes as executed with the flag of R10. -/
theorem countedOnce_of_finished {b : Bool} (hlate : late s n → b = true) (hearly : ¬late s n → b = false) {t : State}
    {l : Lane} (hl : l = { s.lane n with lateRun := b }) (hexecuted : (t.lane n).executed = (l.finished .executed).executed)
    (hruns : (t.lane n).lateRuns = (l.finished .executed).lateRuns) (hskipped : (t.lane n).skipped = l.skipped)
    (hanchor : (t.lane n).anchor = l.anchor) (hfault : (t.lane n).fault = l.fault) (hfixed : t.fixed = s.fixed) :
    countedOnce s n t := by
  subst hl
  refine ⟨hexecuted, fun h => hruns.trans ?_, fun h => hruns.trans ?_, hskipped, hanchor, hfault, hfixed⟩
  · rw [hlate h]; rfl
  · rw [hearly h]; rfl

/-- A kind that finishes at once, having done its work `v` on the judged state. -/
theorem DueNow.done (h : DueNow s n c page) (hrun : late s n → c.policy = .run) {v : State → State}
    (hcarry : ∀ u, u.lines = s.lines → u.gens = s.gens → carryOut n c.action u = Ran.done n .executed (v u))
    (hlanes : ∀ u, (v u).lanes = u.lanes) (hfixed : ∀ u, (v u).fixed = u.fixed) :
    ∃ (b : Bool) (t : State), exec (.dueReached n) s = .next t ∧ finishedOnly s n t ∧ (∀ m, m ≠ n → t.lane m = s.lane m)
      ∧ t.lines = (v (setLateRun n b s)).lines ∧ t.inputs = (v (setLateRun n b s)).inputs
      ∧ t.gens = (v (setLateRun n b s)).gens ∧ t.journal = (v (setLateRun n b s)).journal := by
  obtain ⟨b, hlate, hearly, hjudge⟩ := judgeCue_carries hrun
  have hexec := h.judged
  rw [hjudge, hcarry (setLateRun n b s) rfl rfl] at hexec
  have hlane := lane_of_lanes (hlanes (setLateRun n b s)) n
  have hlast : LastCue (v (setLateRun n b s)) n := h.sole.last_judged hlane
  obtain ⟨⟨ps, x, hself⟩, hother, hlines, hinputs, hgens, hjournal, hkept⟩ := runAfter_starves hlast .executed
  obtain ⟨q, hq⟩ := hlast.queue
  refine ⟨b, _, hexec, ⟨?_, ?_, ?_⟩, fun m hm => ?_, hlines, hinputs, hgens, hjournal⟩
  · rw [hself]
  · rw [hself]
    show ((v (setLateRun n b s)).lane n).queue.tail = []
    rw [hq]; rfl
  · refine countedOnce_of_finished hlate hearly (hlane.trans (setLateRun_lane n b s)) ?_ ?_ ?_ ?_ ?_ ?_
    · rw [hself]
    · rw [hself]
    · rw [hself]; rfl
    · rw [hself]; rfl
    · rw [hself]; rfl
    · exact hkept.trans (hfixed _)
  · rw [hother m hm, lane_of_lanes (hlanes (setLateRun n b s)) m, setLateRun_other hm]

theorem DueNow.nop (h : DueNow s n c page) (hrun : late s n → c.policy = .run) (ha : c.action = .nop) :
    ∃ t, exec (.dueReached n) s = .next t ∧ finishedOnly s n t ∧ (∀ m, m ≠ n → t.lane m = s.lane m)
      ∧ t.lines = s.lines ∧ t.inputs = s.inputs ∧ t.gens = s.gens ∧ t.journal = s.journal := by
  obtain ⟨b, t, hdone⟩ := h.done hrun (v := id) (fun u _ _ => by rw [ha]; rfl) (fun _ => rfl) (fun _ => rfl)
  exact ⟨t, hdone⟩

theorem ownsAll_of_lines {s u : State} {n : LaneNo} {mask : Half} (hlines : u.lines = s.lines)
    (h : ∀ k : LineNo, mask.getLsbD k.val = true → (s.line k).owner = some n) : ownsAll u n mask = true :=
  (ownsAll_iff u n mask).mpr fun k hk => by rw [line_of_lines hlines]; exact h k hk

theorem owns_of_lines {s u : State} {n : LaneNo} {k : LineNo} (hlines : u.lines = s.lines)
    (h : (s.line k).owner = some n) : owns u n k = true :=
  owns_eq_true (by rw [line_of_lines hlines]; exact h)

theorem levelOfBit_eq (b : Bool) : levelOfBit b = if b then .high else .low := by
  cases b <;> rfl

theorem DueNow.setLines (h : DueNow s n c page) (hrun : late s n → c.policy = .run) {mask levels : Half}
    (ha : c.action = .setLines mask levels) (hown : ∀ k : LineNo, mask.getLsbD k.val = true → (s.line k).owner = some n) :
    ∃ t, exec (.dueReached n) s = .next t ∧ finishedOnly s n t ∧ (∀ m, m ≠ n → t.lane m = s.lane m)
      ∧ (∀ k : LineNo, mask.getLsbD k.val = true →
          t.line k = { s.line k with mode := .static (if levels.getLsbD k.val then .high else .low) })
      ∧ (∀ k : LineNo, mask.getLsbD k.val = false → t.line k = s.line k)
      ∧ t.inputs = s.inputs ∧ t.journal = s.journal := by
  obtain ⟨b, t, hexec, hfinished, hothers, hlines, hinputs, -, hjournal⟩ := h.done hrun
    (v := State.each (maskLines mask) (setLineLevel levels))
    (fun u hl _ => by rw [ha]; exact if_pos (ownsAll_of_lines hl hown))
    (fun u => setLineLevels_lanes u _ _) (fun u => setLineLevels_fixed _ _ u)
  refine ⟨t, hexec, hfinished, hothers, fun k hk => ?_, fun k hk => ?_, hinputs.trans (setLineLevels_inputs _ _ _),
    hjournal.trans (setLineLevels_journal _ _ _)⟩
  · rw [line_of_lines hlines, setLineLevels_line, if_pos hk, levelOfBit_eq]; rfl
  · rw [line_of_lines hlines, setLineLevels_line, if_neg (ne_true_of_eq_false hk)]; rfl

theorem DueNow.pulse (h : DueNow s n c page) (hrun : late s n → c.policy = .run) {k : LineNo} {active base : Level}
    {width : BitVec 24} (ha : c.action = .pulse k active width) (hown : (s.line k).owner = some n)
    (hbase : (s.line k).baseLevel = some base) :
    ∃ t, exec (.dueReached n) s = .next t ∧ finishedOnly s n t ∧ (∀ m, m ≠ n → t.lane m = s.lane m)
      ∧ t.line k = { s.line k with mode := .pulse active base (s.time.elapsed + BitVec.ofNat 48 width.toNat) }
      ∧ (∀ j, j ≠ k → t.line j = s.line j) ∧ t.inputs = s.inputs ∧ t.journal = s.journal := by
  obtain ⟨b, t, hexec, hfinished, hothers, hlines, hinputs, -, hjournal⟩ := h.done hrun (v := startPulse k active width)
    (fun u hl _ => by rw [ha]; exact if_pos (owns_of_lines hl hown))
    (fun u => startPulse_lanes u _ _ _) (fun u => startPulse_fixed _ _ _ u)
  obtain ⟨hline, hother⟩ := startPulse_line k active base width (s := setLateRun n b s) hbase
  exact ⟨t, hexec, hfinished, hothers, (line_of_lines hlines k).trans hline, fun j hj => (line_of_lines hlines j).trans (hother j hj),
    hinputs.trans (startPulse_inputs _ _ _ _), hjournal.trans (startPulse_journal _ _ _ _)⟩

theorem DueNow.wave (h : DueNow s n c page) (hrun : late s n → c.policy = .run) {k : LineNo} {first : Level}
    {d1 d2 : BitVec 24} {periods : Half} (ha : c.action = .wave k first d1 d2 periods) (hown : (s.line k).owner = some n) :
    ∃ t, exec (.dueReached n) s = .next t ∧ finishedOnly s n t ∧ (∀ m, m ≠ n → t.lane m = s.lane m)
      ∧ t.line k = { s.line k with
          mode := .wave first d1 d2 periods 0 .first (s.time.elapsed + BitVec.ofNat 48 d1.toNat) }
      ∧ (∀ j, j ≠ k → t.line j = s.line j) ∧ t.inputs = s.inputs ∧ t.journal = s.journal := by
  obtain ⟨b, t, hexec, hfinished, hothers, hlines, hinputs, -, hjournal⟩ := h.done hrun (v := startWave k first d1 d2 periods)
    (fun u hl _ => by rw [ha]; exact if_pos (owns_of_lines hl hown))
    (fun u => startWave_lanes u _ _ _ _ _) (fun u => startWave_fixed _ _ _ _ _ u)
  obtain ⟨hline, hother⟩ := startWave_line k first d1 d2 periods (setLateRun n b s)
  exact ⟨t, hexec, hfinished, hothers, (line_of_lines hlines k).trans hline, fun j hj => (line_of_lines hlines j).trans (hother j hj),
    hinputs.trans (startWave_inputs _ _ _ _ _ _), hjournal.trans (startWave_journal _ _ _ _ _ _)⟩

theorem boundElsewhere_eq_false {s u : State} {g : GenNo} {k : LineNo} (hgens : u.gens = s.gens)
    (h : (s.gen g).bound = none ∨ (s.gen g).bound = some k) : boundElsewhere u g k = false := by
  rw [boundElsewhere, gen_of_gens hgens]
  rcases h with h | h
  · rw [h]
  · rw [h]; exact decide_eq_false fun hne => hne rfl

theorem DueNow.track (h : DueNow s n c page) (hrun : late s n → c.policy = .run) {k : LineNo} {g : GenNo} {m : Nat}
    {base : Level} (ha : c.action = .track k g m) (hown : (s.line k).owner = some n)
    (hbase : (s.line k).baseLevel = some base) (hbound : (s.gen g).bound = none ∨ (s.gen g).bound = some k) :
    ∃ t, exec (.dueReached n) s = .next t ∧ finishedOnly s n t ∧ (∀ m, m ≠ n → t.lane m = s.lane m)
      ∧ t.line k = { s.line k with mode := .track base g }
      ∧ t.gen g = { s.gen g with bound := some k, multiplier := m }
      ∧ (∀ j, j ≠ k → t.line j = s.line j) ∧ t.inputs = s.inputs ∧ t.journal = s.journal := by
  have hcarry : ∀ u : State, u.lines = s.lines → u.gens = s.gens →
      carryOut n (.track k g m) u = Ran.done n .executed (trackLine k g m u) := fun u hl hg =>
    (if_neg (by rw [owns_of_lines hl hown]; exact Bool.false_ne_true)).trans
      (if_neg (ne_true_of_eq_false (boundElsewhere_eq_false hg hbound)))
  obtain ⟨b, t, hexec, hfinished, hothers, hlines, hinputs, hgens, hjournal⟩ := h.done hrun (v := trackLine k g m)
    (by rw [ha]; exact hcarry) (fun u => trackLine_lanes u _ _ _) (fun u => trackLine_fixed _ _ _ u)
  obtain ⟨hline, hgen, hother⟩ := trackLine_acts k g m (s := setLateRun n b s) hbase
  exact ⟨t, hexec, hfinished, hothers, (line_of_lines hlines k).trans hline, (gen_of_gens hgens g).trans hgen,
    fun j hj => (line_of_lines hlines j).trans (hother j hj), hinputs.trans (trackLine_inputs _ _ _ _),
    hjournal.trans (trackLine_journal _ _ _ _)⟩

theorem carryOut_captures (n : LaneNo) (on : Bool) (mask : Half) (u : State) :
    carryOut n (if on then .captureOn mask else .captureOff mask) u
      = Ran.done n .executed (State.each (maskLines mask) (setCapture on) u) := by
  cases on <;> rfl

theorem DueNow.captures (h : DueNow s n c page) (hrun : late s n → c.policy = .run) {on : Bool} {mask : Half}
    (ha : c.action = (if on then .captureOn mask else .captureOff mask)) :
    ∃ t, exec (.dueReached n) s = .next t ∧ finishedOnly s n t ∧ (∀ m, m ≠ n → t.lane m = s.lane m)
      ∧ (∀ k : LineNo, mask.getLsbD k.val = true → t.input k = { s.input k with captureEnable := on })
      ∧ (∀ k : LineNo, mask.getLsbD k.val = false → t.input k = s.input k)
      ∧ t.lines = s.lines ∧ t.gens = s.gens ∧ t.journal = s.journal := by
  obtain ⟨b, t, hexec, hfinished, hothers, hlines, hinputs, hgens, hjournal⟩ := h.done hrun
    (v := State.each (maskLines mask) (setCapture on)) (fun u _ _ => by rw [ha]; exact carryOut_captures n on mask u)
    (fun u => setCaptures_lanes u _ _) (fun u => setCaptures_fixed _ _ u)
  refine ⟨t, hexec, hfinished, hothers, fun k hk => ?_, fun k hk => ?_, hlines.trans (setCaptures_lines _ _ _),
    hgens.trans (setCaptures_gens _ _ _), hjournal.trans (setCaptures_journal _ _ _)⟩
  · rw [input_of_inputs hinputs, setCaptures_input, if_pos hk]; rfl
  · rw [input_of_inputs hinputs, setCaptures_input, if_neg (ne_true_of_eq_false hk)]; rfl

theorem DueNow.mark (h : DueNow s n c page) (hrun : late s n → c.policy = .run) {v : Word} (ha : c.action = .mark v)
    (hroom : s.journal.fifo.length < 64) :
    ∃ t, exec (.dueReached n) s = .next t ∧ finishedOnly s n t ∧ (∀ m, m ≠ n → t.lane m = s.lane m)
      ∧ t.journal = { s.journal with fifo := s.journal.fifo ++ [.mark n v s.time.schedule] }
      ∧ t.lines = s.lines ∧ t.inputs = s.inputs ∧ t.gens = s.gens := by
  obtain ⟨b, t, hexec, hfinished, hothers, hlines, hinputs, hgens, hjournal⟩ := h.done hrun
    (v := fun u => capture (.mark n v u.time.schedule) u) (fun u _ _ => by rw [ha]; rfl)
    (fun u => capture_lanes u _) (fun u => capture_fixed _ u)
  exact ⟨t, hexec, hfinished, hothers,
    hjournal.trans (congrArg State.journal (capture_of_room (s := setLateRun n b s) hroom _)),
    hlines.trans (capture_lines _ _), hinputs.trans (capture_inputs _ _), hgens.trans (capture_gens _ _)⟩

/-! ## Waits (R12, R15) -/

/-- A kind that makes the lane wait. -/
theorem DueNow.waits (h : DueNow s n c page) (hrun : late s n → c.policy = .run) {st : LaneState} {w : Wait}
    {v : State → State} (hcarry : ∀ u, u.lines = s.lines → u.time = s.time →
      carryOut n c.action u = Ran.rest (enterWait n st w (v u)))
    (hlanes : ∀ u, (v u).lanes = u.lanes) (hinputs : ∀ u, (v u).inputs = u.inputs) (hgens : ∀ u, (v u).gens = u.gens)
    (hjournal : ∀ u, (v u).journal = u.journal) (hnotice : ∀ u, (v u).notice = u.notice)
    (hfixed : ∀ u, (v u).fixed = u.fixed) :
    ∃ (b : Bool) (t : State), exec (.dueReached n) s = .next t ∧ waitsOnly s n t ∧ (t.lane n).state = st
      ∧ (t.lane n).wait = w ∧ t.lines = (v (setLateRun n b s)).lines := by
  obtain ⟨b, -, -, hjudge⟩ := judgeCue_carries hrun
  have hexec := h.judged
  rw [hjudge, hcarry (setLateRun n b s) rfl rfl, runAfter_rest] at hexec
  have hlane := (lane_of_lanes (hlanes (setLateRun n b s)) n).trans (setLateRun_lane n b s)
  obtain ⟨hself, hmem⟩ := enterWait_enters n st w (v (setLateRun n b s))
  rw [hlane] at hself
  refine ⟨b, _, hexec, ⟨?_, ?_, ?_, hmem, fun m hm => ?_, ?_, ?_, ?_, ?_, ?_⟩, ?_, ?_, enterWait_lines _ _ _ _⟩
  · rw [hself]
  · rw [hself]
  · rw [hself]
  · rw [enterWait_other _ _ _ _ (Ne.symm hm), lane_of_lanes (hlanes _), setLateRun_other hm]
  · rw [enterWait_inputs, hinputs]; rfl
  · rw [enterWait_gens, hgens]; rfl
  · rw [enterWait_journal, hjournal]; rfl
  · rw [enterWait_notice, hnotice]; rfl
  · rw [enterWait_fixed, hfixed]; rfl
  · rw [hself]
  · rw [hself]

theorem DueNow.waitInput (h : DueNow s n c page) (hrun : late s n → c.policy = .run) {k : LineNo} {e : EdgeSelect}
    {timeout : Word} {goesOn : Bool} (ha : c.action = .waitInput k e timeout goesOn) :
    ∃ t, exec (.dueReached n) s = .next t ∧ waitsOnly s n t ∧ (t.lane n).state = .waitInput
      ∧ (t.lane n).wait = .input
          { line := k, edge := e, timeout := timeout,
            expiry := s.time.elapsed + BitVec.ofNat 48 timeout.toNat, continues := goesOn }
      ∧ t.lines = s.lines := by
  obtain ⟨b, t, hexec, hwaits, hstate, hwait, hlines⟩ := h.waits hrun (v := id) (st := .waitInput)
    (w := .input
          { line := k, edge := e, timeout := timeout,
            expiry := s.time.elapsed + BitVec.ofNat 48 timeout.toNat, continues := goesOn })
    (fun u _ htime => by rw [ha, ← htime]; rfl) (fun _ => rfl) (fun _ => rfl) (fun _ => rfl) (fun _ => rfl) (fun _ => rfl)
    (fun _ => rfl)
  exact ⟨t, hexec, hwaits, hstate, hwait, hlines⟩

/-! ## CLAIM (R15, R91) -/

theorem claimAnswer_eq {s : State} {n : LaneNo} {k : LineNo} (hdrive : (s.line k).driveEnable = true) (timeout : Half) :
    claimAnswer s n k timeout
      = if (s.line k).owner = some n then .alreadyOwned
        else if (s.line k).owner = none then .granted
        else if timeout = 0 then .timedOut
        else .wait := by
  unfold claimAnswer; dsimp only
  rw [hdrive]; rfl

theorem DueNow.claimNow (h : DueNow s n c page) (hrun : late s n → c.policy = .run) {k : LineNo} {timeout : Half}
    (ha : c.action = .claim k timeout) (hdrive : (s.line k).driveEnable = true)
    (hown : (s.line k).owner = some n ∨ (s.line k).owner = none) :
    ∃ t, exec (.dueReached n) s = .next t ∧ finishedOnly s n t ∧ (∀ m, m ≠ n → t.lane m = s.lane m)
      ∧ t.line k = { s.line k with owner := some n }
      ∧ (∀ j, j ≠ k → t.line j = s.line j) ∧ t.inputs = s.inputs ∧ t.gens = s.gens ∧ t.journal = s.journal := by
  have hanswer : ∀ u : State, u.lines = s.lines → claimAnswer u n k timeout
      = if (s.line k).owner = some n then .alreadyOwned else .granted := fun u hl => by
    rw [claimAnswer_eq (by rw [line_of_lines hl]; exact hdrive), line_of_lines hl]
    rcases hown with ho | ho
    · rw [if_pos ho, if_pos ho]
    · rw [ho]; rfl
  rcases hown with ho | ho
  · obtain ⟨b, t, hexec, hfinished, hothers, hlines, hrest⟩ := h.done hrun (v := id)
      (fun u hl _ => by rw [ha, carryOut, carryClaim, hanswer u hl, if_pos ho]; rfl) (fun _ => rfl) (fun _ => rfl)
    refine ⟨t, hexec, hfinished, hothers, ?_, fun j _ => line_of_lines hlines j, hrest⟩
    rw [line_of_lines hlines k, ← ho]; rfl
  · obtain ⟨b, t, hexec, hfinished, hothers, hlines, hrest⟩ := h.done hrun (v := grantLine k n)
      (fun u hl _ => by rw [ha, carryOut, carryClaim, hanswer u hl, if_neg (by rw [ho]; nofun)])
      (fun _ => rfl) (fun _ => rfl)
    exact ⟨t, hexec, hfinished, hothers, (line_of_lines hlines k).trans (line_setLine_self _ _ _),
      fun j hj => (line_of_lines hlines j).trans (line_setLine_ne _ (Ne.symm hj) _), hrest⟩

theorem DueNow.claimLater (h : DueNow s n c page) (hrun : late s n → c.policy = .run) {k : LineNo} {timeout : Half}
    (ha : c.action = .claim k timeout) (hdrive : (s.line k).driveEnable = true) {m : LaneNo} (hm : m ≠ n)
    (hown : (s.line k).owner = some m) (htimeout : timeout ≠ 0) :
    ∃ t, exec (.dueReached n) s = .next t ∧ waitsOnly s n t
      ∧ (t.lane n).state = .waitLine ∧ (t.lane n).wait = .claim k
      ∧ t.line k = { s.line k with
          waiters := (s.line k).waiters ++
            [{ lane := n, expiry := s.time.elapsed + BitVec.ofNat 48 (125 * timeout.toNat) }] }
      ∧ (∀ j, j ≠ k → t.line j = s.line j) := by
  have hanswer : ∀ u : State, u.lines = s.lines → claimAnswer u n k timeout = .wait := fun u hl => by
    rw [claimAnswer_eq (by rw [line_of_lines hl]; exact hdrive), line_of_lines hl, hown,
      if_neg fun he => hm (Option.some.inj he), if_neg nofun, if_neg htimeout]
  obtain ⟨b, t, hexec, hwaits, hstate, hwait, hlines⟩ := h.waits hrun (v := joinWaiters k n timeout) (st := .waitLine)
    (w := .claim k) (fun u hl _ => by rw [ha, carryOut, carryClaim, hanswer u hl]; rfl)
    (fun _ => rfl) (fun _ => rfl) (fun _ => rfl) (fun _ => rfl) (fun _ => rfl) (fun _ => rfl)
  exact ⟨t, hexec, hwaits, hstate, hwait, (line_of_lines hlines k).trans (line_setLine_self _ _ _),
    fun j hj => (line_of_lines hlines j).trans (line_setLine_ne _ (Ne.symm hj) _)⟩

/-! ## RELEASE (R94, R95) -/

theorem DueNow.releaseFree (h : DueNow s n c page) (hrun : late s n → c.policy = .run) {mask : Half}
    (ha : c.action = .release mask) (hown : ∀ k : LineNo, mask.getLsbD k.val = true → (s.line k).owner = some n)
    (hfree : ∀ k : LineNo, mask.getLsbD k.val = true → (s.line k).waiters = []) :
    ∃ t, exec (.dueReached n) s = .next t ∧ finishedOnly s n t ∧ (∀ m, m ≠ n → t.lane m = s.lane m)
      ∧ (∀ k : LineNo, mask.getLsbD k.val = true →
          t.line k = { s.line k with mode := .static (s.line k).rest, owner := none })
      ∧ (∀ k : LineNo, mask.getLsbD k.val = false → t.line k = s.line k)
      ∧ t.inputs = s.inputs ∧ t.journal = s.journal := by
  have hcarry : ∀ u : State, u.lines = s.lines → carryOut n (.release mask) u
      = Ran.done n .executed (releaseLines (maskLines mask) u).1 := fun u hl => by
    have hnone := (releaseLines_free (nodup_maskLines mask) (s := u) fun k hk => by
      rw [line_of_lines hl]; exact hfree k ((mem_maskLines mask k).mp hk)).1
    rw [carryOut, if_pos (ownsAll_of_lines hl hown), carryRelease, releaseAndGrant_of_none hnone]; rfl
  obtain ⟨b, t, hexec, hfinished, hothers, hlines, hinputs, -, hjournal⟩ := h.done hrun
    (v := fun u => (releaseLines (maskLines mask) u).1) (fun u hl _ => by rw [ha]; exact hcarry u hl)
    (fun u => releaseLines_lanes u _) (fun u => releaseLines_fixed _ u)
  have hline := (releaseLines_free (nodup_maskLines mask) (s := setLateRun n b s)
    fun k hk => hfree k ((mem_maskLines mask k).mp hk)).2
  refine ⟨t, hexec, hfinished, hothers, fun k hk => ?_, fun k hk => ?_, hinputs.trans (releaseLines_inputs _ _),
    hjournal.trans (releaseLines_journal _ _)⟩
  · rw [line_of_lines hlines, hline, if_pos ((mem_maskLines mask k).mpr hk)]; rfl
  · rw [line_of_lines hlines, hline, if_neg fun hm => ne_true_of_eq_false hk ((mem_maskLines mask k).mp hm)]; rfl

theorem DueNow.releaseGranted (h : DueNow s n c page) (hrun : late s n → c.policy = .run) {mask : Half}
    (ha : c.action = .release mask) (hown : ∀ k : LineNo, mask.getLsbD k.val = true → (s.line k).owner = some n)
    {k : LineNo} {w : Waiter} {rest : List Waiter} {d : Cue} {page' : Addr}
    (hone : ∀ j : LineNo, mask.getLsbD j.val = true ↔ j = k) (hwaiters : (s.line k).waiters = w :: rest) (hw : w.lane ≠ n)
    (hstate : (s.lane w.lane).state = .waitLine) (hsole : soleCue s w.lane d page') :
    ∃ t, exec (.dueReached n) s = .next t ∧ finishedOnly s n t
      ∧ t.line k = { s.line k with mode := .static (s.line k).rest, owner := some w.lane, waiters := rest }
      ∧ (t.lane w.lane).state = .starved ∧ (t.lane w.lane).wait = .none ∧ (t.lane w.lane).queue = []
      ∧ (t.lane w.lane).executed = (s.lane w.lane).executed + 1
      ∧ (∀ j, j ≠ k → t.line j = s.line j)
      ∧ (∀ m, m ≠ n → m ≠ w.lane → t.lane m = s.lane m) ∧ t.inputs = s.inputs ∧ t.journal = s.journal := by
  obtain ⟨b, hlate, hearly, hjudge⟩ := judgeCue_carries hrun
  have hexec := h.judged
  have hlaneW : (setLateRun n b s).lane w.lane = s.lane w.lane := setLateRun_other hw b s
  have hgrant := releaseAndGrant_one (s := setLateRun n b s) hwaiters (by rw [hlaneW]; exact hstate)
    (by rw [hlaneW, hsole.1]; exact List.cons_ne_nil _ _)
  have hcarry : carryOut n (.release mask) (setLateRun n b s)
      = { state := finishCue n .executed (finishCue w.lane .executed (releaseLine k (setLateRun n b s)).1), again := true,
          granted := [w.lane] } := by
    rw [carryOut, if_pos (ownsAll_of_lines (s := s) (u := setLateRun n b s) rfl hown), carryRelease, maskLines_one hone, hgrant]
  rw [hjudge, ha, hcarry] at hexec
  have hlaneR : ∀ m, (releaseLine k (setLateRun n b s)).1.lane m = (setLateRun n b s).lane m := releaseLine_lane _ k
  have hlineR := (releaseLine_granted (setLateRun n b s) k w rest hwaiters).2
  have hotherR : ∀ j, j ≠ k → (releaseLine k (setLateRun n b s)).1.line j = s.line j := fun j hj =>
    releaseLine_other (setLateRun n b s) k (Ne.symm hj)
  have hinputsR : (releaseLine k (setLateRun n b s)).1.inputs = s.inputs := releaseLine_inputs _ _
  have hjournalR : (releaseLine k (setLateRun n b s)).1.journal = s.journal := releaseLine_journal _ _
  have hfixedR : (releaseLine k (setLateRun n b s)).1.fixed = s.fixed := releaseLine_fixed k _
  generalize (releaseLine k (setLateRun n b s)).1 = v at *
  have hlastW : LastCue v w.lane := hsole.last_of_lane ((hlaneR _).trans hlaneW)
  have hlaneN : (finishCue w.lane .executed v).lane n = { s.lane n with lateRun := b } := by
    rw [finishCue_other (hm := hw), hlaneR, setLateRun_lane]
  have hlastN : LastCue (finishCue w.lane .executed v) n :=
    h.sole.last_judged (b := b) (hlaneN.trans (setLateRun_lane n b s).symm)
  have hidleW : Idle (finishCue n .executed (finishCue w.lane .executed v)) w.lane :=
    (finishCue_idle hlastW .executed).of_lane (finishCue_other (hm := Ne.symm hw) ..)
  obtain ⟨hstarved, hothers, hlines, hinputs, hjournal, hfixed⟩ :=
    runAfter_granted hw (finishCue_idle hlastN .executed) hidleW
  obtain ⟨ps, x, hselfW, -⟩ := finishCue_self .executed hlastW.fetched
  obtain ⟨qs, y, hselfN, -⟩ := finishCue_self .executed hlastN.fetched
  have hlineT := line_of_lines ((hlines.trans (finishCue_lines hlastN.fetched .executed)).trans
    (finishCue_lines hlastW.fetched .executed))
  have hn := (hstarved n (.inl rfl))
  have hg := (hstarved w.lane (.inr rfl))
  rw [hselfN] at hn
  rw [finishCue_other (hm := Ne.symm hw), hselfW] at hg
  refine ⟨_, hexec, ⟨?_, ?_, ?_⟩, (hlineT k).trans hlineR, ?_, ?_, ?_, ?_, fun j hj => (hlineT j).trans (hotherR j hj),
    fun m hmn hmw => ?_, ?_, ?_⟩
  · rw [hn]
  · rw [hn]
    show ((finishCue w.lane .executed v).lane n).queue.tail = []
    rw [hlaneN]
    show (s.lane n).queue.tail = []
    rw [h.sole.1]; rfl
  · refine countedOnce_of_finished hlate hearly hlaneN ?_ ?_ ?_ ?_ ?_ ?_
    · rw [hn]
    · rw [hn]
    · rw [hn]; rfl
    · rw [hn]; rfl
    · rw [hn]; rfl
    · rw [hfixed, finishCue_fixed, finishCue_fixed, hfixedR]
  · rw [hg]
  · rw [hg]; rfl
  · rw [hg]
    show (v.lane w.lane).queue.tail = []
    rw [hlaneR, hlaneW, hsole.1]; rfl
  · rw [hg]
    show (v.lane w.lane).executed + 1 = _
    rw [hlaneR, hlaneW]
  · rw [hothers m hmn hmw, finishCue_other (hm := Ne.symm hmn), finishCue_other (hm := Ne.symm hmw), hlaneR,
      setLateRun_other hmn]
  · rw [hinputs, finishCue_inputs, finishCue_inputs, hinputsR]
  · rw [hjournal, finishCue_journal, finishCue_journal, hjournalR]

/-! ## END (R16) and SKIP (R7) -/

theorem PageEntry.closed_isSome (p : PageEntry) (code : EndCode) (now : Ticks) :
    (p.closed code now).retiring.isSome = true := by
  unfold closed
  split
  · rename_i r hr; rw [hr]; rfl
  · rfl

theorem DueNow.endLane (h : DueNow s n c page) (hrun : late s n → c.policy = .run) (ha : c.action = .endLane)
    (hfree : ∀ k, (s.line k).owner = some n → (s.line k).waiters = []) :
    ∃ t, exec (.dueReached n) s = .next t ∧ countedOnce s n t ∧ (∀ m, m ≠ n → t.lane m = s.lane m)
      ∧ (t.lane n).state = .ended ∧ (t.lane n).queue = [] ∧ (t.lane n).running = false
      ∧ (t.lane n).wait = .none ∧ (t.lane n).stall = .none
      ∧ (∀ p ∈ (t.lane n).pages, p.retiring.isSome = true)
      ∧ (t.lane n).exceptions = (s.lane n).exceptions ++
          [{ state := .ended, code := .none, serial := (s.lane n).serial, page := page }]
      ∧ StatusItem.laneStatus n ∈ t.handed
      ∧ (∀ k, (s.line k).owner = some n → t.line k = { s.line k with mode := .static (s.line k).rest, owner := none })
      ∧ (∀ k, ¬(s.line k).owner = some n → (s.lane n).wait = .none → t.line k = s.line k)
      ∧ t.inputs = s.inputs ∧ t.journal = s.journal := by
  obtain ⟨b, hlate, hearly, hjudge⟩ := judgeCue_carries hrun
  have hexec := h.judged
  obtain ⟨u, l, hcarry, hself, ⟨x, hl⟩, hother, hmem, hline, hinputs, hjournal, hfixed⟩ :=
    carryEnd_ends (s := setLateRun n b s) (n := n) hfree
  have hcuePage : ((setLateRun n b s).lane n).cuePage = page := by
    rw [Lane.cuePage, setLateRun_lane]; dsimp only
    rw [h.sole.1]
  rw [hcuePage] at hself
  rw [hjudge, ha, carryOut, hcarry, runAfter_rest] at hexec
  have hlane := setLateRun_lane n b s
  refine ⟨u, hexec, ?_, fun m hm => ?_, ?_, ?_, ?_, ?_, ?_, fun p hp => ?_, ?_, hmem, fun k hk => ?_, fun k hk _ => ?_,
    hinputs, hjournal⟩
  · refine countedOnce_of_finished hlate hearly hlane ?_ ?_ ?_ ?_ ?_ hfixed
    · rw [hself, hl]
    · rw [hself, hl]
    · rw [hself, hl]; rfl
    · rw [hself, hl]; rfl
    · rw [hself, hl]; rfl
  · rw [hother m hm, setLateRun_other hm]
  · rw [hself]
  · rw [hself]
  · rw [hself]
  · rw [hself]
  · rw [hself]
  · rw [hself] at hp
    obtain ⟨p', -, rfl⟩ := List.mem_map.mp hp
    exact p'.closed_isSome _ _
  · rw [hself, hl, hlane]; rfl
  · exact (hline k).trans (if_pos hk)
  · exact (hline k).trans (if_neg hk)

theorem DueNow.skips (h : DueNow s n c page) (hlate : late s n) (hskip : c.policy = .skip) :
    ∃ t, exec (.dueReached n) s = .next t
      ∧ (t.lane n).state = .starved ∧ (t.lane n).queue = []
      ∧ (t.lane n).skipped = (s.lane n).skipped + 1 ∧ (t.lane n).executed = (s.lane n).executed
      ∧ (t.lane n).lateRuns = (s.lane n).lateRuns ∧ (t.lane n).anchor = (s.lane n).anchor
      ∧ (∀ m, m ≠ n → t.lane m = s.lane m) ∧ t.lines = s.lines ∧ t.inputs = s.inputs ∧ t.gens = s.gens
      ∧ t.journal = s.journal ∧ t.fixed = s.fixed := by
  have hexec := h.judged
  rw [judgeCue_skips hlate hskip] at hexec
  obtain ⟨⟨ps, x, hself⟩, hother, hlines, hinputs, hgens, hjournal, hfixed⟩ :=
    runAfter_starves (h.sole.last_of_lane rfl) .skipped
  refine ⟨_, hexec, ?_, ?_, ?_, ?_, ?_, ?_, hother, hlines, hinputs, hgens, hjournal, hfixed⟩
  · rw [hself]
  · rw [hself]
    show (s.lane n).queue.tail = []
    rw [h.sole.1]; rfl
  · rw [hself]; rfl
  · rw [hself]; rfl
  · rw [hself]; rfl
  · rw [hself]; rfl

end Carried

/-- Settles O28, kind by kind. -/
theorem onTimeSetLinesIsCarriedOut : Obligations.OnTimeSetLinesIsCarriedOut := by
  intro n c page s hs hp hst hsole hreached isLate owned others counted finished waits
  have h : DueNow s n c page := ⟨hs, hp, hst, hsole, hreached⟩
  refine ⟨fun hrun => ⟨h.nop hrun, fun mask levels => h.setLines hrun, fun k active width base => h.pulse hrun,
    fun k first d1 d2 periods => h.wave hrun, fun k g m base => h.track hrun, fun on mask => h.captures hrun,
    fun v => h.mark hrun, fun k e timeout goesOn => h.waitInput hrun, fun k timeout ha hdrive =>
      ⟨h.claimNow hrun ha hdrive, fun m => h.claimLater hrun ha hdrive⟩,
    fun mask ha hown => ⟨h.releaseFree hrun ha hown, fun k w rest d page' => h.releaseGranted hrun ha hown⟩,
    h.endLane hrun⟩, h.skips, fun x => ?level⟩
  case level => unfold OutLine.baseLevel; cases x.mode <;> rfl

end Sys2Proof.Machine
end

