-- ==== Sys2Proof/Proofs/HoldAndResume.lean ====
section
/-!
THEOREM. LANE_HOLD and LANE_RESUME by the state of the lane (R3 to R6, R21, R22).
-/

namespace Sys2Proof.Machine

/-! ## Changes of one lane's record -/

/-- Only lane `n`'s record and the stale set have changed. -/
structure LaneOnly (s u : State) (n : LaneNo) (l : Lane) : Prop where
  rest : u = { s with lanes := u.lanes, handed := u.handed }
  lane : u.lane n = l
  other : ∀ m, m ≠ n → u.lane m = s.lane m

theorem setLane_laneOnly (s : State) (n : LaneNo) (l : Lane) : LaneOnly s (s.setLane n l) n l :=
  ⟨rfl, lane_setLane_self _ _ _, fun _ hm => lane_setLane_ne _ (Ne.symm hm) _⟩

theorem LaneOnly.trans {s u v : State} {n : LaneNo} {l l' : Lane} (h : LaneOnly s u n l) (h' : LaneOnly u v n l') :
    LaneOnly s v n l' := by
  obtain ⟨hrest, -, hother⟩ := h
  obtain ⟨hrest', hlane', hother'⟩ := h'
  exact ⟨hrest'.trans (by rw [hrest]), hlane', fun m hm => (hother' m hm).trans (hother m hm)⟩

theorem markLane_laneOnly (n : LaneNo) (s : State) : LaneOnly s (markLane n s) n (s.lane n) := by
  unfold markLane markStale; split <;> exact ⟨rfl, rfl, fun _ _ => rfl⟩

theorem setLaneState_laneOnly (s : State) (n : LaneNo) (st : LaneState) :
    LaneOnly s (setLaneState n st s) n { s.lane n with state := st } := by
  refine ⟨?_, setLaneState_self s n st, fun m hm => setLaneState_other (hm := Ne.symm hm) ..⟩
  unfold setLaneState; split
  · rfl
  · exact ((setLane_laneOnly s n _).trans (markLane_laneOnly n _)).rest

theorem setHold_laneOnly (s : State) (n : LaneNo) (b : Bool) :
    LaneOnly s (setHold n b s) n { s.lane n with holdRequest := b } := by
  refine ⟨?_, setHold_self s n b, fun m hm => setHold_other (hm := Ne.symm hm) ..⟩
  unfold setHold; split
  · rfl
  · exact ((setLane_laneOnly s n _).trans (markLane_laneOnly n _)).rest

theorem setLaneState_marks {s : State} {n : LaneNo} {st : LaneState} (h : (s.lane n).state ≠ st) :
    StatusItem.laneStatus n ∈ (setLaneState n st s).handed := by
  rw [setLaneState, if_neg h]; exact mem_markStale _ _

/-- The outcome of an immediate command on a lane that has changed the lane's record alone. -/
theorem LaneOnly.setLast {s u : State} {n : LaneNo} {l : Lane} (h : LaneOnly s u n l) (code shown : Byte) :
    setLast code shown .done u
        = { s with
            engine := { s.engine with lastCode := code, lastOperand := shown, lastOutcome := .done },
            lanes := (Machine.setLast code shown .done u).lanes, handed := (Machine.setLast code shown .done u).handed }
      ∧ (Machine.setLast code shown .done u).lane n = l
      ∧ ∀ m, m ≠ n → (Machine.setLast code shown .done u).lane m = s.lane m := by
  obtain ⟨hrest, hlane, hother⟩ := h
  refine ⟨?_, hlane, hother⟩
  rw [hrest]; rfl

theorem setLast_fixed {s u : State} (h : u.fixed = s.fixed) (code shown : Byte) :
    (setLast code shown .done u).fixed
      = { s.fixed with engine := { s.engine with lastCode := code, lastOperand := shown, lastOutcome := .done } } := by
  have hengine : u.engine = s.engine := engine_of_fixed h
  rw [← h, ← hengine]; rfl

theorem laneFaulted.setLast {s u : State} {n : LaneNo} {code : FaultCode} {serial : Word} {page : Addr}
    (h : laneFaulted s u n code serial page) (cmd shown : Byte) :
    laneFaulted s (Machine.setLast cmd shown .done u) n code serial page := h

/-! ## LANE_HOLD (R21) -/

section Commands

variable {s : State} (hs : s.awake) (hp : s.part = .active) (hc : s.engine.command = none) (n : LaneNo)
include hs hp hc

theorem laneHold_taken (hopen : (s.lane n).state.closed = false) :
    exec (.laneHold (BitVec.ofNat 8 n.val)) s = .next (setLast codeLaneHold (BitVec.ofNat 8 n.val) .done (holdLane n s)) := by
  show execLaneHold (BitVec.ofNat 8 n.val) s = _
  rw [execLaneHold, writeLaneCommand_laneByte]
  exact writeImmediate_taken hs hp hc (by rw [decide_eq_true hp, hopen]; rfl) _ _ _

theorem laneResume_taken (hready : resumable s n = true) :
    exec (.laneResume (BitVec.ofNat 8 n.val)) s
      = .next (setLast codeLaneResume (BitVec.ofNat 8 n.val) .done (resumeLane n s)) := by
  show execLaneResume (BitVec.ofNat 8 n.val) s = _
  rw [execLaneResume, writeLaneCommand_laneByte]
  exact writeImmediate_taken hs hp hc (by rw [decide_eq_true hp, hready]; rfl) _ _ _

/-- A HELD lane resumes. -/
theorem laneResume_held (h : (s.lane n).state = .held) :
    exec (.laneResume (BitVec.ofNat 8 n.val)) s
      = .next (setLast codeLaneResume (BitVec.ofNat 8 n.val) .done (resumeHeld n s)) := by
  rw [laneResume_taken hs hp hc n (by rw [resumable, decide_eq_true h]; rfl), resumeLane, if_pos h]

end Commands

theorem holdLane_of_ready {s : State} {n : LaneNo} (h : (s.lane n).state = .starved ∨ (s.lane n).state = .pending) :
    holdLane n s = setLaneState n .held s := by
  rcases h with h | h <;> rw [holdLane, h]

theorem holdLane_of_waiting {s : State} {n : LaneNo} (h : (s.lane n).state = .waitInput ∨ (s.lane n).state = .waitLine) :
    holdLane n s = setHold n true s := by
  rcases h with h | h <;> rw [holdLane, h]

/-! ## LANE_RESUME (R22) -/

theorem resumeHeld_waits {s : State} {n : LaneNo} {c : Cue} (hc : (s.lane n).current = some c)
    (h : ¬ reached s.time.schedule (s.lane n).due = true) : resumeHeld n s = setLaneState n .pending s := by
  unfold resumeHeld; dsimp only
  rw [hc]; exact if_neg h

theorem Lane.current_none {l : Lane} (h : l.hasCurrent = false) : l.current = none := by
  rw [Lane.current, h]
  cases l.queue <;> rfl

theorem resumeHeld_takes {s : State} {n : LaneNo} (h : (s.lane n).hasCurrent = false) :
    resumeHeld n s = runAfter n (takeNext n s) := by
  unfold resumeHeld; dsimp only
  rw [Lane.current_none h]

/-- The lane with its head entry made current (R3 case 2, R4). -/
def Lane.cueTaken (l : Lane) : Lane :=
  { l with serial := l.serial + 1, hasCurrent := true }

theorem takeNext_head {s : State} {n : LaneNo} {q : QueuedCue} {qs : List QueuedCue} (hhold : (s.lane n).holdRequest = false)
    (hqueue : (s.lane n).queue = q :: qs) : takeNext n s = startCue n q s := by
  unfold takeNext; dsimp only
  rw [hhold, hqueue]; rfl

theorem startCue_bad (n : LaneNo) (a : Addr) (s : State) :
    startCue n { cue := none, page := a } s = cueFault n .badCue (s.setLane n (s.lane n).cueTaken) := rfl

theorem startCue_good (n : LaneNo) (c : Cue) (a : Addr) (s : State) :
    startCue n { cue := some c, page := a } s = resolveCue n c (s.setLane n (s.lane n).cueTaken) := rfl

theorem started_base {s : State} {n : LaneNo} (h : (s.lane n).wait = .none) :
    FaultBase s (s.setLane n (s.lane n).cueTaken) n :=
  ⟨rfl, rfl, rfl, rfl, rfl, fun _ hm => lane_setLane_ne _ (Ne.symm hm) _, by rw [lane_setLane_self]; exact h,
    by rw [lane_setLane_self]; rfl, by rw [lane_setLane_self]; rfl⟩

/-- A fault of the cue that a HELD lane takes. -/
theorem startedFault_faulted {s : State} {n : LaneNo} {q : QueuedCue} {qs : List QueuedCue} (hwait : (s.lane n).wait = .none)
    (hqueue : (s.lane n).queue = q :: qs) (code : FaultCode) :
    laneFaulted s (runAfter n (cueFault n code (s.setLane n (s.lane n).cueTaken))) n code ((s.lane n).serial + 1) q.page
      ∧ (runAfter n (cueFault n code (s.setLane n (s.lane n).cueTaken))).fixed = s.fixed := by
  have hpage : ((s.setLane n (s.lane n).cueTaken).lane n).cuePage = q.page := by
    rw [lane_setLane_self, Lane.cuePage]
    show (match (s.lane n).queue with | [] => 0 | q :: _ => q.page) = _
    rw [hqueue]
  have hserial : ((s.setLane n (s.lane n).cueTaken).lane n).serial = (s.lane n).serial + 1 := by
    rw [lane_setLane_self]; rfl
  have hfaulted := laneFault_faulted (started_base hwait) code q.page
  rw [hserial] at hfaulted
  rw [cueFault, runAfter_rest, laneFault_fixed, hpage]
  exact ⟨hfaulted, rfl⟩

theorem ordersBack_before (anchor : Ticks) (c : Cue) :
    ordersBack anchor c = true ↔ c.rel = false ∧ c.due ≠ anchor ∧ (anchor - c.due).toNat < 2 ^ 47 := by
  rw [ordersBack_iff, reached, decide_eq_true_iff]

/-- The lane with its current cue resolved (R5). -/
def Lane.resolved (l : Lane) (due : Ticks) : Lane :=
  { l with due := due, anchor := due }

theorem resolveCue_waits {s : State} {n : LaneNo} {c : Cue} (horder : ¬ ordersBack (s.lane n).anchor c = true)
    (h : ¬ reached s.time.schedule (resolvedDue (s.lane n).anchor c) = true) :
    resolveCue n c s
      = Ran.rest (setLaneState n .pending (s.setLane n ((s.lane n).resolved (resolvedDue (s.lane n).anchor c)))) :=
  (if_neg horder).trans (if_neg h)

/-- Settles O26, clause by clause. -/
theorem holdAndResumeActByTheLaneState : Obligations.HoldAndResumeActByTheLaneState := by
  intro n s hs hp hc shown became x
  have hlast : ∀ (code : Byte) (l : Lane) (u : State), LaneOnly s u n l →
      became (setLast code (BitVec.ofNat 8 n.val) .done u) code l := fun code l u h => h.setLast code _
  refine ⟨fun hst => ?holds, fun hst => ?requests, fun hst => ?held, fun ⟨hst, hhold⟩ => ?withdraws, fun hst hcue hdue =>
    ?waits, fun hst hcurrent hhold hwait => ?takes⟩
  case holds =>
    have hopen : (s.lane n).state.closed = false := by rcases hst with h | h <;> rw [h] <;> rfl
    refine ⟨_, laneHold_taken hs hp hc n hopen, ?_⟩
    rw [holdLane_of_ready hst]
    refine ⟨hlast _ _ _ (setLaneState_laneOnly s n .held), setLaneState_marks ?_⟩
    rcases hst with h | h <;> rw [h] <;> nofun
  case requests =>
    have hopen : (s.lane n).state.closed = false := by rcases hst with h | h <;> rw [h] <;> rfl
    refine ⟨_, laneHold_taken hs hp hc n hopen, ?_⟩
    rw [holdLane_of_waiting hst]
    exact hlast _ _ _ (setHold_laneOnly s n true)
  case held =>
    rw [laneHold_taken hs hp hc n (by rw [hst]; rfl), holdLane, hst]; rfl
  case withdraws =>
    have hne : (s.lane n).state ≠ .held := by rcases hst with h | h <;> rw [h] <;> nofun
    refine ⟨_, laneResume_taken hs hp hc n (by rw [resumable, hhold, Bool.or_true]), ?_⟩
    rw [resumeLane, if_neg hne]
    exact hlast _ _ _ (setHold_laneOnly s n false)
  case waits =>
    obtain ⟨c, hcue⟩ := hcue
    refine ⟨_, laneResume_held hs hp hc n hst, ?_⟩
    rw [resumeHeld_waits hcue (by rw [reached, decide_eq_true_iff]; exact hdue)]
    exact ⟨hlast _ _ _ (setLaneState_laneOnly s n .pending), setLaneState_marks (by rw [hst]; nofun)⟩
  case takes =>
    intro faults
    have hexec := laneResume_held hs hp hc n hst
    rw [resumeHeld_takes hcurrent] at hexec
    have hfaults : ∀ (code : FaultCode) (q : QueuedCue) (qs : List QueuedCue), x.queue = q :: qs →
        takeNext n s = cueFault n code (s.setLane n (s.lane n).cueTaken) → faults code (x.serial + 1) q.page := by
      intro code q qs hqueue htake
      obtain ⟨hfaulted, hfixed⟩ := startedFault_faulted hwait hqueue code
      rw [htake] at hexec
      exact ⟨_, hexec, hfaulted.setLast _ _, setLast_fixed hfixed _ _⟩
    refine ⟨fun page rest hqueue => ?bad, fun c page rest hqueue => ?good, fun hqueue code addr hfault => ?pending,
      fun hqueue hfault => ?starves⟩
    case bad => exact hfaults _ _ _ hqueue (takeNext_head hhold hqueue)
    case good =>
      have htake := takeNext_head hhold hqueue
      rw [startCue_good] at htake
      have hanchor : ((s.setLane n (s.lane n).cueTaken).lane n).anchor = x.anchor := by rw [lane_setLane_self]; rfl
      refine ⟨fun hrel hne hback => hfaults .order _ _ hqueue ?_, fun horder hdue => ?_⟩
      · rw [htake]
        exact if_pos (by rw [hanchor]; exact (ordersBack_before _ _).mpr ⟨hrel, hne, hback⟩)
      · have hnot : ¬ ordersBack ((s.setLane n (s.lane n).cueTaken).lane n).anchor c = true := by
          rw [hanchor, ordersBack_before]
          rintro ⟨hrel, hne, hback⟩
          rcases horder with h | h | h
          · rw [hrel] at h; cases h
          · exact hne h
          · exact h hback
        rw [htake, resolveCue_waits hnot (by rw [hanchor, reached, decide_eq_true_iff]; exact hdue), runAfter_rest] at hexec
        refine ⟨_, hexec, ?_⟩
        rw [hanchor]
        have hlane : (s.setLane n (s.lane n).cueTaken).lane n = (s.lane n).cueTaken := lane_setLane_self _ _ _
        have honly := ((setLane_laneOnly s n (s.lane n).cueTaken).trans (setLane_laneOnly _ n
          (((s.setLane n (s.lane n).cueTaken).lane n).resolved (resolvedDue x.anchor c)))).trans
            (setLaneState_laneOnly _ n .pending)
        rw [lane_setLane_self, lane_setLane_self] at honly
        rw [hlane]
        exact hlast _ _ _ honly
    case pending =>
      have htake : takeNext n s = Ran.rest (laneFault n code addr s) := by
        unfold takeNext; dsimp only
        rw [hhold, hqueue, hfault]; rfl
      rw [htake, runAfter_rest] at hexec
      exact ⟨_, hexec, (laneFault_faulted ⟨rfl, rfl, rfl, rfl, rfl, fun _ _ => rfl, hwait, rfl, rfl⟩ code addr).setLast _ _,
        setLast_fixed (laneFault_fixed ..) _ _⟩
    case starves =>
      rw [takeNext_starves hhold hqueue hfault, runAfter_rest] at hexec
      exact ⟨_, hexec, starve_lane n s, fun m hm => starve_other (hm := Ne.symm hm) .., starve_lines .., starve_inputs ..,
        starve_gens .., starve_journal .., setLast_fixed (starve_fixed ..) _ _⟩

end Sys2Proof.Machine
end

