-- ==== Sys2Proof/Proofs/WriteErrors.lean ====
section
/-!
THEOREM. A write error: the part enters FAILED (R29, R86, R145, R154, R176, R177).
-/

namespace Sys2Proof.Machine

/-! ## Bindings that end with their lines' activities (R131) -/

/-- A generator without its binding. -/
def Generator.unbound (x : Generator) : Generator :=
  { x with bound := none, nextIndex := x.phaseMultiplier }

/-- A generator keeps everything, or loses its binding. -/
def LosesBinding (x y : Generator) : Prop :=
  y = x ∨ x.bound.isSome = true ∧ y = x.unbound

namespace LosesBinding

theorem trans {x y z : Generator} (h : LosesBinding x y) (h' : LosesBinding y z) : LosesBinding x z := by
  rcases h with rfl | ⟨hx, rfl⟩
  · exact h'
  · rcases h' with rfl | ⟨hy, -⟩
    · exact .inr ⟨hx, rfl⟩
    · cases hy

theorem of_none {x y : Generator} (h : LosesBinding x y) (hx : x.bound = none) : y = x := by
  rcases h with h | ⟨hs, -⟩
  · exact h
  · rw [hx] at hs; cases hs

theorem shape {x y : Generator} (h : LosesBinding x y) : y = { x with bound := y.bound, nextIndex := y.nextIndex } := by
  rcases h with rfl | ⟨-, rfl⟩ <;> rfl

end LosesBinding

theorem unbindGen_self (g : GenNo) (s : State) : (unbindGen g s).gen g = (s.gen g).unbound := by
  unfold unbindGen; dsimp only
  split
  · rw [markStale_gen]; exact gen_setGen_self _ _ _
  · exact gen_setGen_self _ _ _

theorem endActivity_of_track {s : State} {k : LineNo} {g : GenNo} {l : Level} (hmode : (s.line k).mode = .track l g)
    (hbound : (s.gen g).bound = some k) : endActivity k s = unbindGen g s := by
  rw [endActivity, hmode]; exact if_pos hbound

theorem endActivity_losesBinding (k : LineNo) (s : State) (g : GenNo) :
    LosesBinding (s.gen g) ((endActivity k s).gen g) := by
  unfold endActivity
  split
  · rename_i l h hmode
    split
    · rename_i hbound
      by_cases hg : g = h
      · subst hg
        exact .inr ⟨by rw [hbound]; rfl, unbindGen_self g s⟩
      · exact .inl (unbindGen_otherGen hg s)
    · exact .inl rfl
  all_goals exact .inl rfl

theorem takeFaultAction_losesBinding (k : LineNo) (s : State) (g : GenNo) :
    LosesBinding (s.gen g) ((takeFaultAction k s).gen g) :=
  endActivity_losesBinding k s g

theorem takeFaultActions_losesBinding (ks : List LineNo) (s : State) :
    ∀ g, LosesBinding (s.gen g) ((State.each ks takeFaultAction s).gen g) :=
  each_induct (fun t => ∀ g, LosesBinding (s.gen g) (t.gen g))
    (fun k t h g => (h g).trans (takeFaultAction_losesBinding k t g)) ks s fun _ => .inl rfl

/-- The line that a generator's binding names takes its fault action among others. -/
theorem takeFaultActions_unbinds {ks : List LineNo} {k : LineNo} (hk : k ∈ ks) {s : State} {g : GenNo} {l : Level}
    (hmode : (s.line k).mode = .track l g) (hbound : (s.gen g).bound = some k) :
    ((State.each ks takeFaultAction s).gen g).bound = none := by
  have hrest : ∀ (js : List LineNo) (t : State), (t.gen g).bound = none →
      ((State.each js takeFaultAction t).gen g).bound = none := fun js t ht => by
    rw [(takeFaultActions_losesBinding js t g).of_none ht]; exact ht
  have hself : ((takeFaultAction k s).gen g).bound = none := by
    show ((endActivity k s).gen g).bound = none
    rw [endActivity_of_track hmode hbound, unbindGen_self]; rfl
  induction ks generalizing s with
  | nil => cases hk
  | cons j js ih =>
    show ((State.each js takeFaultAction (takeFaultAction j s)).gen g).bound = none
    by_cases hj : j = k
    · subst hj; exact hrest js _ hself
    · have hmem : k ∈ js := (List.mem_cons.mp hk).resolve_left (Ne.symm hj)
      rcases takeFaultAction_losesBinding j s g with hkeep | ⟨-, hlose⟩
      · have hline := takeFaultAction_other s j hj
        have hmode' : ((takeFaultAction j s).line k).mode = .track l g := by rw [hline]; exact hmode
        have hbound' : ((takeFaultAction j s).gen g).bound = some k := by rw [hkeep]; exact hbound
        refine ih hmem hmode' hbound' ?_
        show ((endActivity k (takeFaultAction j s)).gen g).bound = none
        rw [endActivity_of_track hmode' hbound', unbindGen_self]; rfl
      · exact hrest js _ (by rw [hlose]; rfl)

/-! ## The entry to FAILED (R29, R86, R177) -/

theorem enterFailed_blocks (s : State) : (enterFailed s).lines = (State.each allLines takeFaultAction s).lines
    ∧ (enterFailed s).gens = (State.each allLines takeFaultAction s).gens ∧ (enterFailed s).notice = s.notice := by
  have hnotice : (State.each allLines takeFaultAction s).notice = s.notice :=
    each_keeps State.notice (fun k t => takeFaultAction_notice t k) _ _
  unfold enterFailed; dsimp only
  generalize State.each allLines takeFaultAction s = u at hnotice ⊢
  have hlines := each_keeps State.lines (f := fun n t => State.setLane t n (t.lane n).failed) (fun _ _ => rfl) allLanes u
  have hgens := each_keeps State.gens (f := fun n t => State.setLane t n (t.lane n).failed) (fun _ _ => rfl) allLanes u
  have hkept := each_keeps State.notice (f := fun n t => State.setLane t n (t.lane n).failed) (fun _ _ => rfl) allLanes u
  generalize State.each allLanes _ u = v at hlines hgens hkept ⊢
  exact ⟨hlines, hgens, hkept.trans hnotice⟩

theorem enterFailed_line (s : State) (k : LineNo) :
    (enterFailed s).line k = { s.line k with mode := faultMode (s.line k).faultAction (s.line k).mode } := by
  obtain ⟨hlines, -, -⟩ := enterFailed_blocks s
  exact (line_of_lines hlines k).trans (faultAll_line s k)

theorem enterFailed_gen (s : State) (g : GenNo) :
    (enterFailed s).gen g = (State.each allLines takeFaultAction s).gen g := by
  obtain ⟨-, hgens, -⟩ := enterFailed_blocks s
  exact gen_of_gens hgens g

/-- The state that a write error of the part's own leaves. -/
theorem writeError_fails {s : State} {w : Write} {rest : List Write} (hleft : s.port.leftWrites = [])
    (hpath : s.port.path = w :: rest) :
    ∃ u : State, exec .writeError s = .next (enterFailed u) ∧ ∃ m, u = { s with memory := m, choices := s.choices + 1 } := by
  refine ⟨failWrite w s, ?_, failWrite_eq w s⟩
  refine congrArg Host.Outcome.next ?_
  unfold errorWrite
  rw [hleft, hpath]

/-- Settles O56, block by block. -/
theorem writeErrorFailsThePart : Obligations.WriteErrorFailsThePart := by
  intro w rest s hleft hpath
  obtain ⟨u, hexec, m, hu⟩ := writeError_fails hleft hpath
  have hlines : u.lines = s.lines := by rw [hu]
  have hlanes : u.lanes = s.lanes := by rw [hu]
  have hgens : u.gens = s.gens := by rw [hu]
  have hjournal : u.journal = s.journal := by rw [hu]
  have hnotice : u.notice = s.notice := by rw [hu]
  have hfixed : u.fixed = { s.fixed with memory := m } := by rw [hu]; rfl
  clear hu
  have hline : ∀ k, (enterFailed u).line k = { s.line k with mode := faultMode (s.line k).faultAction (s.line k).mode } :=
    fun k => by rw [enterFailed_line, line_of_lines hlines]
  have hlane : ∀ n, (enterFailed u).lane n = (s.lane n).failed := fun n => by
    rw [enterFailed_lane, lane_of_lanes hlanes]
  have hgen : ∀ g, LosesBinding (s.gen g) ((enterFailed u).gen g) := fun g => by
    rw [enterFailed_gen, ← gen_of_gens hgens]; exact takeFaultActions_losesBinding allLines u g
  have hunbinds : ∀ g k l, (s.gen g).bound = some k → (s.line k).mode = .track l g →
      ((enterFailed u).gen g).bound = none := fun g k l hbound hmode => by
    rw [enterFailed_gen]
    exact takeFaultActions_unbinds (mem_allLines k) (by rw [line_of_lines hlines]; exact hmode)
      (by rw [gen_of_gens hgens]; exact hbound)
  have hjournal' : (enterFailed u).journal = s.journal.failed := by rw [enterFailed_journal, hjournal]
  have hnotice' : (enterFailed u).notice = s.notice := by rw [(enterFailed_blocks u).2.2, hnotice]
  have hfailed := enterFailed_fixed u
  rw [hfixed] at hfailed
  generalize readsLeft u = left at hfailed
  generalize enterFailed u = t at *
  have hpart : t.part = .failed := congrArg Fixed.part hfailed
  have hport : t.port = s.port.failed left := congrArg Fixed.port hfailed
  have hengine : t.engine = s.engine.failed := congrArg Fixed.engine hfailed
  have hidle : t.part ≠ .active := by rw [hpart]; nofun
  refine ⟨t, hexec, hpart, by rw [hport]; rfl, by rw [hport]; rfl, by rw [hport]; rfl, by rw [hengine]; rfl, by rw [hengine]; rfl,
    by rw [hengine]; rfl, by rw [hengine]; rfl, hline, fun n => ?lane, hlane, fun g => (hgen g).shape, hunbinds,
    fun g hnone => (hgen g).of_none hnone, fun n => ?due, fun g => ?derived, fun g => ?virtualEdge, hjournal',
    by rw [hjournal']; rfl, by rw [hjournal']; rfl, by rw [hjournal']; rfl, by rw [hjournal']; rfl, hnotice',
    congrArg Fixed.inputsLive hfailed, congrArg (fun f : Fixed => f.sync.live) hfailed,
    congrArg (fun f : Fixed => f.survey.expiry) hfailed, congrArg Fixed.time hfailed, congrArg Fixed.regs hfailed, ?attention⟩
  case lane =>
    rw [hlane]; exact ⟨rfl, rfl, rfl, rfl, rfl, rfl⟩
  case due => exact whenEvent_of_not_ready t (by simp [dueReady, hidle]) _
  case derived => exact whenEvent_of_not_ready t (by simp [derivedEdgeDue, hidle]) _
  case virtualEdge => exact whenEvent_of_not_ready t (by simp [virtualEdgeDue, hidle]) _
  case attention => rw [attentionRequest, decide_eq_true hpart]; rfl

end Sys2Proof.Machine
end

