-- ==== Sys2Proof/Proofs/WriteCompletions.lean ====
section
/-!
THEOREM. A write that memory completes: its bytes, the counts it brings and the reads it lets go (R158, R159, R162, R171,
R172).
-/

namespace Sys2Proof.Machine

/-- A completed write advances the held reads and changes nothing else. -/
theorem advanceFlights_eq (s : State) : ∃ ls, advanceFlights s = { s with
    lanes := ls
    journal := { s.journal with flight := s.journal.flight.map Flight.advance }
    engine := { s.engine with flight := s.engine.flight.map Flight.advance } } := by
  have h : ∃ ls, State.each allLanes
      (fun n t => t.setLane n { t.lane n with flight := (t.lane n).flight.map Flight.advance }) s = { s with lanes := ls } :=
    each_induct (fun t => ∃ ls, t = { s with lanes := ls })
      (f := fun n t => State.setLane t n { t.lane n with flight := (t.lane n).flight.map Flight.advance })
      (fun n t ⟨ls, ht⟩ => by rw [ht]; exact ⟨_, rfl⟩) allLanes s ⟨s.lanes, rfl⟩
  obtain ⟨ls, hls⟩ := h
  refine ⟨ls, ?_⟩
  unfold advanceFlights; dsimp only
  rw [hls]; rfl

/-- What a completed write brings to the engine: the completion that its command waits for. -/
def markAwaited (w : Write) (s : State) : State :=
  if w.awaited then { s with engine := { s.engine with await := .completed } } else s

theorem markAwaited_eq (w : Write) (s : State) :
    ∃ a, markAwaited w s = { s with engine := { s.engine with await := a } } := by
  unfold markAwaited; split
  · exact ⟨_, rfl⟩
  · exact ⟨s.engine.await, rfl⟩

theorem afterWrite_count {w : Write} {k : SlotNo} {c : Count24} (h : w.tag = .noticeCount k c) (s : State) :
    afterWrite w s = countCompleted k c (markAwaited w s) := by
  unfold afterWrite; dsimp only
  rw [h]; rfl

theorem afterWrite_plain {w : Write} (h : ∀ k c, w.tag ≠ .noticeCount k c) (s : State) :
    afterWrite w s = markAwaited w s := by
  unfold afterWrite; dsimp only
  split
  · rfl
  · rfl
  · rename_i k c htag; exact absurd htag (h k c)

/-- The notice unit after the completion of a count write (R159, R162). -/
def NoticeUnit.countLanded (u : NoticeUnit) (k : SlotNo) (c : Count24) (elapsed : Ticks) : NoticeUnit :=
  { u with
    slots := u.slots.set k { u.slots[k] with posted := c }
    gather := gatherAfterCount u.slots[k].secondary u.gatherInterval elapsed u.gather }

theorem countCompleted_eq (k : SlotNo) (c : Count24) (s : State) :
    countCompleted k c s = { s with notice := s.notice.countLanded k c s.time.elapsed } := rfl

theorem countLanded_slot (u : NoticeUnit) (k : SlotNo) (c : Count24) (e : Ticks) :
    (u.countLanded k c e).slots[k] = { u.slots[k] with posted := c } := by simp [NoticeUnit.countLanded]

theorem countLanded_other (u : NoticeUnit) {k j : SlotNo} (h : k ≠ j) (c : Count24) (e : Ticks) :
    (u.countLanded k c e).slots[j] = u.slots[j] := by
  simp [NoticeUnit.countLanded, Fin.val_inj, h]

/-- The four cases of the gather state (R162). -/
theorem gatherAfterCount_cases (secondary : Bool) (interval : Half) (elapsed : Ticks) (g : Gather) :
    (secondary = false → gatherAfterCount secondary interval elapsed g = .opened)
      ∧ (secondary = true → g = .idle → interval = 0 → gatherAfterCount secondary interval elapsed g = .opened)
      ∧ (secondary = true → g = .idle → interval ≠ 0 → gatherAfterCount secondary interval elapsed g
          = .running (elapsed + BitVec.ofNat 48 (125 * interval.toNat)))
      ∧ (secondary = true → g ≠ .idle → gatherAfterCount secondary interval elapsed g = g) := by
  refine ⟨fun hs => ?_, fun hs hg hi => ?_, fun hs hg hi => ?_, fun hs hg => ?_⟩
  · rw [hs]; rfl
  · rw [hs, hg]
    show (if interval = 0 then _ else _) = _
    exact if_pos hi
  · rw [hs, hg]
    show (if interval = 0 then _ else _) = _
    exact if_neg hi
  · rw [hs]
    cases g with
    | idle => exact absurd rfl hg
    | running e => rfl
    | opened => rfl

/-- The notice unit after the completion of write `w`. -/
def NoticeUnit.landed (u : NoticeUnit) (w : Write) (elapsed : Ticks) : NoticeUnit :=
  match w.tag with
  | .data => u
  | .notice => u
  | .noticeCount k c => u.countLanded k c elapsed

theorem NoticeUnit.landed_count (u : NoticeUnit) {w : Write} {k : SlotNo} {c : Count24} (h : w.tag = .noticeCount k c)
    (e : Ticks) : u.landed w e = u.countLanded k c e := by
  rw [landed, h]

theorem NoticeUnit.landed_plain (u : NoticeUnit) {w : Write} (h : ∀ k c, w.tag ≠ .noticeCount k c) (e : Ticks) :
    u.landed w e = u := by
  unfold landed
  split
  · rfl
  · rfl
  · rename_i k c htag; exact absurd htag (h k c)

theorem afterWrite_eq (w : Write) (s : State) : ∃ a, afterWrite w s
    = { s with engine := { s.engine with await := a }, notice := s.notice.landed w s.time.elapsed } := by
  obtain ⟨a, ha⟩ := markAwaited_eq w s
  refine ⟨a, ?_⟩
  by_cases h : ∃ k c, w.tag = .noticeCount k c
  · obtain ⟨k, c, h⟩ := h
    rw [afterWrite_count h, ha, NoticeUnit.landed_count _ h]; rfl
  · have hplain : ∀ k c, w.tag ≠ .noticeCount k c := fun k c he => h ⟨k, c, he⟩
    rw [afterWrite_plain hplain, ha, NoticeUnit.landed_plain _ hplain]

/-- The oldest write of the ordered path completes (R171). -/
theorem completeWrite_oldest {s : State} {w : Write} {rest : List Write} (hleft : s.port.leftWrites = [])
    (hpath : s.port.path = w :: rest) :
    ∃ ls a, completeWrite s = { s with
      lanes := ls
      journal := { s.journal with flight := s.journal.flight.map Flight.advance }
      engine := { s.engine with flight := s.engine.flight.map Flight.advance, await := a }
      notice := s.notice.landed w s.time.elapsed
      port := { s.port with path := rest }
      memory := Memory.write s.memory w.addr w.bytes } := by
  obtain ⟨ls, hls⟩ := advanceFlights_eq (performWrite w { s with port := { s.port with path := rest } })
  obtain ⟨a, ha⟩ := afterWrite_eq w (advanceFlights (performWrite w { s with port := { s.port with path := rest } }))
  refine ⟨ls, a, ?_⟩
  unfold completeWrite
  rw [hleft, hpath]
  show afterWrite w (advanceFlights (performWrite w { s with port := { s.port with path := rest } })) = _
  rw [ha, hls]; rfl

theorem completeWrite_lane {s : State} {w : Write} {rest : List Write} (hleft : s.port.leftWrites = [])
    (hpath : s.port.path = w :: rest) (n : LaneNo) :
    (completeWrite s).lane n = { s.lane n with flight := (s.lane n).flight.map Flight.advance } := by
  obtain ⟨a, ha⟩ := afterWrite_eq w (advanceFlights (performWrite w { s with port := { s.port with path := rest } }))
  have hlanes : (completeWrite s).lanes
      = (advanceFlights (performWrite w { s with port := { s.port with path := rest } })).lanes := by
    unfold completeWrite
    rw [hleft, hpath]
    exact (congrArg State.lanes ha :)
  rw [lane_of_lanes hlanes, advanceFlights_lane]; rfl

/-- Settles O55. -/
theorem writeCompletionLandsTheBytes : Obligations.WriteCompletionLandsTheBytes := by
  intro w rest s hleft hpath hfits
  obtain ⟨ls, a, heq⟩ := completeWrite_oldest hleft hpath
  have hlane := completeWrite_lane hleft hpath
  have hexec : exec .writeComplete s = .next (completeWrite s) := rfl
  generalize completeWrite s = t at *
  have hnotice : t.notice = s.notice.landed w s.time.elapsed := by rw [heq]
  have hmemory : t.memory = Memory.write s.memory w.addr w.bytes := by rw [heq]
  have hplain : (∀ k c, w.tag ≠ .noticeCount k c) → t.notice = s.notice := fun h => by
    rw [hnotice, NoticeUnit.landed_plain _ h]
  have hcount : ∀ k c, w.tag = .noticeCount k c → t.notice = s.notice.countLanded k c s.time.elapsed := fun k c h => by
    rw [hnotice, NoticeUnit.landed_count _ h]
  have hkept : t.notice.issueQueue = s.notice.issueQueue ∧ t.notice.gatherInterval = s.notice.gatherInterval := by
    by_cases h : ∃ k c, w.tag = .noticeCount k c
    · obtain ⟨k, c, h⟩ := h
      rw [hcount k c h]; exact ⟨rfl, rfl⟩
    · rw [hplain fun k c he => h ⟨k, c, he⟩]; exact ⟨rfl, rfl⟩
  refine ⟨t, hexec, by rw [heq], fun i b hi => ?inside, fun x hx => ?outside, fun k c h => ?slot, fun k h => ?otherSlot,
    fun h => by rw [hplain h], fun k c h => ?gather, hkept.1, hkept.2, hlane, by rw [heq]; rfl, by rw [heq]; rfl, by rw [heq],
    by rw [heq], by rw [heq], by rw [heq], by rw [heq]⟩
  case inside => rw [hmemory]; exact Memory.get_write_self _ _ _ _ _ hfits hi
  case outside => rw [hmemory]; exact Memory.get_write_other _ _ _ _ hfits hx
  case slot => rw [State.slot, hcount k c h]; exact countLanded_slot _ _ _ _
  case otherSlot =>
    by_cases hsome : ∃ j c, w.tag = .noticeCount j c
    · obtain ⟨j, c, hj⟩ := hsome
      have hne : j ≠ k := fun he => h c (he ▸ hj)
      rw [State.slot, hcount j c hj]; exact countLanded_other _ hne _ _
    · rw [State.slot, hplain fun j c he => hsome ⟨j, c, he⟩]; rfl
  case gather =>
    rw [hcount k c h]
    exact gatherAfterCount_cases (s.slot k).secondary s.notice.gatherInterval s.time.elapsed s.notice.gather

end Sys2Proof.Machine
end

