-- ==== Sys2Proof/Proofs/Arbiter.lean ====
section
/-!
THEOREM. The arbiter: what waits, what can be taken, who is served next and what the issue of a read leaves (R32, R139, R169 to
R172, R175).
-/

namespace Sys2Proof.Machine

/-! ## The next requester served (R170) -/

theorem findSome_first {α β : Type} {f : α → Option β} {before : List α} {x : α} {after : List α} {y : β}
    (hbefore : ∀ q ∈ before, f q = none) (hx : f x = some y) : (before ++ x :: after).findSome? f = some y := by
  rw [List.findSome?_append, List.findSome?_eq_none_iff.mpr hbefore, List.findSome?_cons, hx]; rfl

theorem serve_first {s : State} {before after : List Requester} {r : Requester} {a : Access}
    (hring : ringAfter s.port.last = before ++ r :: after) (hbefore : ∀ q ∈ before, takeable s q = none)
    (hr : takeable s r = some a) : serve s = issueAccess a { s with port := { s.port with last := r } } := by
  have hnext : nextServed s = some (r, a) := by
    rw [nextServed, hring]
    exact findSome_first (fun q hq => by rw [hbefore q hq]; rfl) (by rw [hr]; rfl)
  rw [serve, hnext]

theorem serve_nobody {s : State} (h : ∀ q, takeable s q = none) : serve s = s := by
  have hnext : nextServed s = none := List.findSome?_eq_none_iff.mpr fun q _ => by rw [h q]; rfl
  rw [serve, hnext]

/-! ## What can be taken (R170) -/

theorem takeable_of_waiting {s : State} {q : Requester} {a : Access} (h : waiting s q = some a) :
    takeable s q = if canBeTaken s a then some a else none := by
  rw [takeable, h]; rfl

theorem canBeTaken_read {s : State} {a : Access}
    (h : (∃ n r, a = .fetch n r) ∨ (∃ r, a = .journalRead r) ∨ ∃ r, a = .engineRead r) : canBeTaken s a = true := by
  rcases h with ⟨n, r, rfl⟩ | ⟨r, rfl⟩ | ⟨r, rfl⟩ <;> rfl

theorem canBeTaken_write {s : State} {a : Access} (h : a = .record ∨ (∃ it, a = .status it) ∨ ∃ w, a = .engineWrite w) :
    canBeTaken s a = decide (s.port.path.length < 8) := by
  rcases h with rfl | ⟨it, rfl⟩ | ⟨w, rfl⟩ <;> rfl

/-! ## What waits (R169) -/

theorem fetcher_waits (s : State) (n : LaneNo) :
    ((s.lane n).flight ≠ none → waiting s (.fetcher n) = none)
      ∧ ((s.lane n).flight = none → waiting s (.fetcher n) = (s.lane n).request.map (Access.fetch n)) :=
  ⟨fun h => if_pos (Option.isSome_iff_ne_none.mpr h), fun h => if_neg (by rw [h]; exact Bool.false_ne_true)⟩

theorem journalRead_waits {s : State} {r : JournalRead} (hr : s.journal.request = some r) :
    waiting s .journal = if s.journal.flight.isSome then none else some (.journalRead r) := by
  show journalWaiting s = _
  unfold journalWaiting; dsimp only
  rw [hr]

theorem record_waits {s : State} (hr : s.journal.request = none) :
    waiting s .journal
      = if s.journal.state = .filling && s.journal.page.isSome && !s.journal.fifo.isEmpty then some .record else none := by
  show journalWaiting s = _
  unfold journalWaiting; dsimp only
  rw [hr]

theorem retiringHanded_iff (s : State) (n : LaneNo) :
    retiringHanded s n = true ↔ StatusItem.retireSummary n ∈ s.handed ∨ StatusItem.retireOwner n ∈ s.handed := by
  rw [retiringHanded, List.any_eq_true]
  constructor
  · rintro ⟨it, hit, he⟩
    rcases (Bool.or_eq_true _ _).mp he with he | he
    · exact .inl (of_decide_eq_true he ▸ hit)
    · exact .inr (of_decide_eq_true he ▸ hit)
  · rintro (h | h)
    · exact ⟨_, h, by simp⟩
    · exact ⟨_, h, by simp⟩

theorem countHanded_iff (s : State) : countHanded s = true ↔ ∃ j, StatusItem.noticeCount j ∈ s.handed := by
  rw [countHanded, List.any_eq_true]
  constructor
  · rintro ⟨it, hit, he⟩
    cases it with
    | noticeCount j => exact ⟨j, hit⟩
    | _ => cases he
  · rintro ⟨j, hj⟩
    exact ⟨_, hj, rfl⟩

/-- LANE_RESTART's read waits for the retirement writes of its lane (R25). -/
theorem engineReadReady_eq_false (s : State) : engineReadReady s = false ↔ ∃ n, s.engine.command = some (.laneRestart n)
    ∧ (StatusItem.retireSummary n ∈ s.handed ∨ StatusItem.retireOwner n ∈ s.handed) := by
  unfold engineReadReady
  split
  · rename_i n hn
    rw [Bool.not_eq_false', retiringHanded_iff]
    constructor
    · exact fun h => ⟨n, hn, h⟩
    · rintro ⟨m, hm, h⟩
      obtain rfl : n = m := Command.laneRestart.inj (Option.some.inj (hn.symm.trans hm))
      exact h
  · rename_i hother
    exact ⟨nofun, fun ⟨n, hn, _⟩ => absurd hn (hother n)⟩

theorem engineRead_waits {s : State} {r : EngineRead} (hr : s.engine.request = some r) :
    waiting s .engine = if s.engine.flight.isSome || !engineReadReady s then none else some (.engineRead r) := by
  show engineWaiting s = _
  unfold engineWaiting; dsimp only
  rw [hr]

theorem engineWrite_waits {s : State} {w : EngineWrite} {rest : List EngineWrite} (hr : s.engine.request = none)
    (hw : s.engine.writes = w :: rest) :
    waiting s .engine = if engineWriteReady s w then some (.engineWrite w) else none := by
  show engineWaiting s = _
  unfold engineWaiting; dsimp only
  rw [hr, hw]

theorem engine_rests {s : State} (hr : s.engine.request = none) (hw : s.engine.writes = []) :
    waiting s .engine = none := by
  show engineWaiting s = _
  unfold engineWaiting; dsimp only
  rw [hr, hw]

/-! ## Reads that are issued (R172) -/

theorem overlaps_iff (a : Addr) (n : Nat) (b : Addr) (m : Nat) :
    overlaps a n b m = true ↔ a.toNat < b.toNat + m ∧ b.toNat < a.toNat + n := by simp [overlaps]

/-- The writes ahead of a read end with the last one it overlaps. -/
theorem writesAhead_last (a : Addr) (n : Nat) (ws : List Write) :
    (∀ i w, ws[i]? = some w → overlaps a n w.addr w.bytes.length = true → i < writesAhead a n ws)
      ∧ (writesAhead a n ws = 0
          ∨ ∃ w, ws[writesAhead a n ws - 1]? = some w ∧ overlaps a n w.addr w.bytes.length = true) := by
  induction ws with
  | nil => exact ⟨fun i w hi => by simp at hi, .inl rfl⟩
  | cons v vs ih =>
    obtain ⟨hbelow, hlast⟩ := ih
    have hdef : writesAhead a n (v :: vs) = if 0 < writesAhead a n vs then writesAhead a n vs + 1
        else if overlaps a n v.addr v.bytes.length then 1 else 0 := rfl
    by_cases hpos : 0 < writesAhead a n vs
    · rw [hdef, if_pos hpos]
      refine ⟨fun i w hi hover => ?_, .inr ?_⟩
      · cases i with
        | zero => omega
        | succ i => have := hbelow i w hi hover; omega
      · obtain ⟨w, hw, hover⟩ := hlast.resolve_left (by omega)
        obtain ⟨k, hk⟩ : ∃ k, writesAhead a n vs = k + 1 := ⟨_, (Nat.succ_pred_eq_of_pos hpos).symm⟩
        rw [hk] at hw ⊢
        exact ⟨w, hw, hover⟩
    · have hnone : ∀ (i : Nat) (w : Write), vs[i]? = some w → overlaps a n w.addr w.bytes.length = true → False := fun i w hi hover => by
        have := hbelow i w hi hover; omega
      rw [hdef, if_neg hpos]
      by_cases hhead : overlaps a n v.addr v.bytes.length = true
      · rw [if_pos hhead]
        refine ⟨fun i w hi hover => ?_, .inr ⟨v, rfl, hhead⟩⟩
        cases i with
        | zero => omega
        | succ i => exact (hnone i w hi hover).elim
      · rw [if_neg hhead]
        refine ⟨fun i w hi hover => ?_, .inl rfl⟩
        cases i with
        | zero => cases hi; exact absurd hover hhead
        | succ i => exact (hnone i w hi hover).elim

theorem heldBehind_writesAhead (s : State) (a : Addr) (n : Nat) : heldBehind s a n (writesAhead a n s.port.path) := by
  obtain ⟨hbelow, hlast⟩ := writesAhead_last a n s.port.path
  refine ⟨fun i w hi hover => hbelow i w hi ((overlaps_iff ..).mpr hover), ?_⟩
  rcases hlast with h | ⟨w, hw, hover⟩
  · exact .inl h
  · exact .inr ⟨w, hw, (overlaps_iff ..).mp hover⟩

theorem fetchRange_eq (s : State) (n : LaneNo) (r : FetchRead) :
    fetchRange s n r = match r with
      | .headField => (exbAddr s + BitVec.ofNat 64 (0x040 + 16 * n.val), 8)
      | .header => ((s.lane n).nextAddr, 32)
      | .burst => ((s.lane n).fetchAddr + BitVec.ofNat 64 (32 + 32 * (s.lane n).fetchedSoFar), 32 * (s.lane n).burstSize)
      | .link => ((s.lane n).fetchAddr + 8#64, 8) := by
  cases r <;> rfl

theorem Lane.unfetched_getD (l : Lane) : l.unfetched = (l.pages.getLast?.map fun p => p.count - p.fetched).getD 0 := by
  rw [unfetched, fetchEntry]
  cases l.pages.getLast? <;> rfl

theorem Lane.fetchedSoFar_getD (l : Lane) : l.fetchedSoFar = (l.pages.getLast?.map fun p => p.fetched).getD 0 := by
  rw [fetchedSoFar, fetchEntry]
  cases l.pages.getLast? <;> rfl

theorem journalRange_eq (s : State) (r : JournalRead) :
    journalRange s r = match r with
      | .headField => (exbAddr s + 0x080#64, 8)
      | .header => (s.journal.nextAddr, 32)
      | .link => (s.journal.linkPage.getD 0 + 8#64, 8) := by
  cases r <;> rfl

theorem restartedLane_eq {s : State} {n : LaneNo} (h : s.engine.command = some (.laneRestart n)) : restartedLane s = n := by
  rw [restartedLane, h]

theorem engineRange_eq {s : State} {r : EngineRead} {n : LaneNo}
    (h : r = .laneRecord → s.engine.command = some (.laneRestart n)) :
    engineRange s r = match (generalizing := false) r with
      | .configuration => (exbAddr s, 0x300)
      | .laneRecord => (exbAddr s + BitVec.ofNat 64 (0x040 + 16 * n.val), 16)
      | .journalHead => (exbAddr s + 0x080#64, 8)
      | .alignValue => (exbAddr s + 0x098#64, 8) := by
  cases r with
  | configuration => rfl
  | laneRecord => rw [engineRange, restartedLane_eq (h rfl)]; rfl
  | journalHead => rfl
  | alignValue => rfl

/-! ## Answers before the read is sent (R172, R175) -/

theorem Flight.answers_unsent {κ : Type} {f : Flight κ} (h : 0 < f.behind) (fits : κ → Bool) : ¬ f.answers fits = true := by
  rw [answers, Bool.and_eq_true, decide_eq_true_iff]
  rintro ⟨-, h0⟩
  exact absurd h (by rw [h0]; exact Nat.lt_irrefl 0)

theorem fetchAnswer_unsent {s : State} {n : LaneNo} {f : Flight FetchRead} (hf : (s.lane n).flight = some f)
    (h : 0 < f.behind) (hleft : noLeftRead s (.fetcher n)) (fits : FetchRead → Bool) (act : FetchRead → State → State) :
    fetchAnswer n fits act s = s := by
  rw [fetchAnswer, answered_awaited hleft, hf]
  exact if_neg (Flight.answers_unsent h fits)

theorem journalAnswer_unsent {s : State} {f : Flight JournalRead} (hf : s.journal.flight = some f) (h : 0 < f.behind)
    (hleft : noLeftRead s .journal) (fits : JournalRead → Bool) (act : JournalRead → State → State) :
    journalAnswer fits act s = s := by
  rw [journalAnswer, answered_awaited hleft, hf]
  exact if_neg (Flight.answers_unsent h fits)

/-- Settles O53, part by part. -/
theorem arbiterServesTheRing : Obligations.ArbiterServesTheRing := by
  refine ⟨fun s hs => ⟨fun hlive => ?served, fun hdead => ?dead⟩, rfl, rfl, rfl, rfl, rfl, rfl, rfl, fun s q =>
    ⟨fun h => ?nothing, fun a ha => ?taken⟩, fun s => ⟨fetcher_waits s, fun r hr => ?journalRead, fun hr => ?record, rfl,
      fun r hr => ?engineRead, fun hr => ?engineWrite⟩, fun n r s => ?issueFetch, fun r s => ?issueJournal,
    fun r n s hlane => ?issueEngine, fun n f s hf hbehind hleft => ?unsent, fun f s hf hbehind hleft => ?unsentJournal⟩
  case served =>
    have hexec : exec .memoryService s = .next (serve s) := whenEvent_of_ready hs hlive _
    exact ⟨fun before r a after hring hbefore hr => hexec.trans (congrArg Host.Outcome.next (serve_first hring hbefore hr)),
      fun h => hexec.trans (congrArg Host.Outcome.next (serve_nobody h))⟩
  case dead => exact whenEvent_of_not_ready s (by rw [hdead]; nofun) _
  case nothing => rw [takeable, h]; rfl
  case taken =>
    rw [takeable_of_waiting ha]
    refine ⟨fun hread => if_pos (canBeTaken_read hread), fun hwrite => ?_⟩
    rw [canBeTaken_write hwrite]
    exact ⟨fun h => if_pos (decide_eq_true h), fun h => if_neg (by rw [decide_eq_true_iff]; omega)⟩
  case journalRead =>
    rw [journalRead_waits hr]
    exact ⟨fun h => if_pos (Option.isSome_iff_ne_none.mpr h), fun h => if_neg (by rw [h]; exact Bool.false_ne_true)⟩
  case record =>
    rw [record_waits hr]
    refine ⟨fun ⟨hst, hpage, hfifo⟩ => if_pos ?_, fun h => if_neg ?_⟩
    · simp [hst, Option.isSome_iff_ne_none, hpage, hfifo]
    · simp only [Bool.and_eq_true, decide_eq_true_iff, Option.isSome_iff_ne_none, Bool.not_eq_true',
        List.isEmpty_eq_false_iff]
      rintro ⟨⟨hst, hpage⟩, hfifo⟩
      rcases h with h | h | h
      · exact h hst
      · exact hpage h
      · exact hfifo h
  case engineRead =>
    intro behind
    rw [engineRead_waits hr]
    refine ⟨fun h => if_pos ?_, fun hflight h => if_neg ?_⟩
    · rcases h with h | h
      · rw [Option.isSome_iff_ne_none.mpr h]; rfl
      · rw [(engineReadReady_eq_false s).mpr h, Bool.not_false, Bool.or_true]
    · rw [hflight, eq_true_of_ne_false fun hf => h ((engineReadReady_eq_false s).mp hf)]; exact Bool.false_ne_true
  case engineWrite =>
    refine ⟨engine_rests hr, fun o rest hw => (engineWrite_waits hr hw).trans (if_pos rfl), fun k rest hw => ?_⟩
    intro behind
    rw [engineWrite_waits hr hw, show engineWriteReady s (.clearSlot k) = !countHanded s from rfl]
    refine ⟨fun h => if_neg ?_, fun h => if_pos ?_⟩
    · rw [(countHanded_iff s).mpr h]; exact Bool.false_ne_true
    · rw [Bool.not_eq_true']
      exact eq_false_of_ne_true fun hc => h ((countHanded_iff s).mp hc)
  case issueFetch =>
    intro l unfetched fetched size page range
    have hsize : size = l.burstSize := by
      rw [Lane.burstSize, Lane.unfetched_getD]; rfl
    have hrange : range = fetchRange s n r := by
      rw [fetchRange_eq]
      cases r with
      | burst => rw [Lane.fetchedSoFar_getD, ← hsize]; rfl
      | _ => rfl
    refine ⟨_, heldBehind_writesAhead s _ _, ?_⟩
    rw [hrange, hsize]; rfl
  case issueJournal =>
    intro range
    have hrange : range = journalRange s r := (journalRange_eq s r).symm
    refine ⟨_, heldBehind_writesAhead s _ _, ?_⟩
    rw [hrange]; rfl
  case issueEngine =>
    intro range
    have hrange : range = engineRange s r := (engineRange_eq hlane).symm
    refine ⟨_, heldBehind_writesAhead s _ _, ?_⟩
    rw [hrange]; rfl
  case unsent =>
    have hnext := fun fits act => congrArg (Host.Outcome.next : State → Out) (fetchAnswer_unsent hf hbehind hleft fits act)
    exact ⟨fun v => hnext _ _, fun h => hnext _ _, fun cs => hnext _ _, fun v => hnext _ _, hnext _ _⟩
  case unsentJournal =>
    have hnext := fun fits act => congrArg (Host.Outcome.next : State → Out) (journalAnswer_unsent hf hbehind hleft fits act)
    exact ⟨fun v => hnext _ _, fun h => hnext _ _, fun v => hnext _ _, hnext _ _⟩

end Sys2Proof.Machine
end

