-- ==== Sys2Proof/Proofs/RecordLayout.lean ====
section
/-!
SUPPORT. Where the fields of the part's writes lie (Tables 12-3, 12-4, 12-7): numbers read back from little-endian bytes, and
the fields of each record.
-/

namespace Sys2Proof.Machine

/-! ## Numbers in bytes -/

@[simp] theorem littleEndian_length (n v : Nat) : (littleEndian n v).length = n := by
  induction n generalizing v with
  | zero => rfl
  | succ n ih => rw [littleEndian, List.length_cons, ih]

@[simp] theorem zeros_length (n : Nat) : (zeros n).length = n := List.length_replicate

@[simp] theorem oneByte_length (v : Nat) : (oneByte v).length = 1 := rfl

/-- A number that lies behind a first part of the bytes. -/
theorem numberAt_append {xs : List Byte} {offset : Nat} (h : xs.length ≤ offset) (ys : List Byte) (len : Nat) :
    numberAt (xs ++ ys) offset len = numberAt ys (offset - xs.length) len := by
  induction len generalizing offset with
  | zero => rfl
  | succ len ih =>
    rw [numberAt, numberAt, ih (Nat.le_succ_of_le h), List.getElem?_append_right h, Nat.succ_sub h]

/-- The same with the bound as a Boolean, which `simp` decides for the literal offsets of the records. -/
@[simp] theorem numberAt_behind {xs : List Byte} {offset : Nat} (h : decide (xs.length ≤ offset) = true) (ys : List Byte)
    (len : Nat) : numberAt (xs ++ ys) offset len = numberAt ys (offset - xs.length) len :=
  numberAt_append (of_decide_eq_true h) ys len

@[simp] theorem numberAt_cons_behind {b : Byte} {offset : Nat} (h : decide (1 ≤ offset) = true) (xs : List Byte) (len : Nat) :
    numberAt (b :: xs) offset len = numberAt xs (offset - 1) len :=
  numberAt_behind (xs := [b]) h xs len

theorem numberAt_cons_succ (b : Byte) (xs : List Byte) (offset len : Nat) :
    numberAt (b :: xs) (offset + 1) len = numberAt xs offset len :=
  numberAt_append (xs := [b]) (Nat.le_add_left 1 offset) xs len

theorem numberAt_littleEndian_append (n v : Nat) (ys : List Byte) :
    numberAt (littleEndian n v ++ ys) 0 n = v % 256 ^ n := by
  induction n generalizing v with
  | zero => rw [Nat.pow_zero, Nat.mod_one]; rfl
  | succ n ih =>
    rw [littleEndian, List.cons_append, numberAt, numberAt_cons_succ, ih, Nat.pow_succ, Nat.mul_comm (256 ^ n),
      Nat.mod_mul]
    rfl

theorem numberAt_littleEndian (n v : Nat) : numberAt (littleEndian n v) 0 n = v % 256 ^ n := by
  rw [← numberAt_littleEndian_append n v [], List.append_nil]

@[simp] theorem numberAt_byte (b : Byte) (ys : List Byte) : numberAt (b :: ys) 0 1 = b.toNat := rfl

@[simp] theorem numberAt_oneByte (v : Nat) (ys : List Byte) : numberAt (oneByte v ++ ys) 0 1 = v % 256 := rfl

theorem toNat_mod_of_le {w n : Nat} (x : BitVec w) (h : w ≤ 8 * n) : x.toNat % 256 ^ n = x.toNat := by
  refine Nat.mod_eq_of_lt (Nat.lt_of_lt_of_le x.isLt ?_)
  rw [show (256 : Nat) = 2 ^ 8 from rfl, ← Nat.pow_mul]
  exact Nat.pow_le_pow_right (by decide) h

/-- A word in enough bytes. -/
@[simp] theorem numberAt_word_append {w n : Nat} (h : decide (w ≤ 8 * n) = true) (x : BitVec w) (ys : List Byte) :
    numberAt (littleEndian n x.toNat ++ ys) 0 n = x.toNat := by
  rw [numberAt_littleEndian_append, toNat_mod_of_le x (of_decide_eq_true h)]

@[simp] theorem numberAt_word {w n : Nat} (h : decide (w ≤ 8 * n) = true) (x : BitVec w) :
    numberAt (littleEndian n x.toNat) 0 n = x.toNat := by
  rw [numberAt_littleEndian, toNat_mod_of_le x (of_decide_eq_true h)]

/-! ## Codes are bytes (Table 12-2) -/

theorem LaneState.code_mod (st : LaneState) : st.code % 256 = st.code := by cases st <;> rfl

theorem FaultCode.code_mod (c : FaultCode) : c.code % 256 = c.code := by cases c <;> rfl

theorem Stall.code_mod (c : Stall) : c.code % 256 = c.code := by cases c <;> rfl

theorem JournalState.code_mod (st : JournalState) : st.code % 256 = st.code := by cases st <;> rfl

theorem GenState.code_mod (st : GenState) : st.code % 256 = st.code := by cases st <;> rfl

theorem CmdOutcome.code_mod (o : CmdOutcome) : o.code % 256 = o.code := by cases o <;> rfl

theorem EndCode.code_mod (c : EndCode) : c.code % 256 = c.code := by
  cases c with
  | fault c => exact c.code_mod
  | _ => rfl

theorem lineByte_toNat (k : LineNo) : (BitVec.ofNat 8 k.val).toNat = k.val :=
  Nat.mod_eq_of_lt (Nat.lt_of_lt_of_le k.isLt (by decide))

/-! ## The status records (Table 12-3) -/

/-- A flag as its bit. -/
theorem flagBit_mod (b : Bool) : flagBit b 0 % 256 = if b then 1 else 0 := by cases b <;> rfl

theorem Lane.statusBytes_length (l : Lane) (now : Ticks) : (l.statusBytes now).length = 64 := by
  simp [statusBytes]

theorem Lane.statusBytes_fields (l : Lane) (now : Ticks) :
    numberAt (l.statusBytes now) 0 1 = l.state.code
      ∧ numberAt (l.statusBytes now) 1 1 = (if l.holdRequest then 1 else 0)
      ∧ numberAt (l.statusBytes now) 2 1 = l.fault.code ∧ numberAt (l.statusBytes now) 3 1 = l.stall.code
      ∧ numberAt (l.statusBytes now) 4 1 = l.waitLineByte.toNat
      ∧ numberAt (l.statusBytes now) 5 1 = l.queue.length % 256
      ∧ numberAt (l.statusBytes now) 6 1 = l.pages.length % 256
      ∧ numberAt (l.statusBytes now) 8 4 = l.serial.toNat ∧ numberAt (l.statusBytes now) 16 8 = l.anchor.toNat
      ∧ numberAt (l.statusBytes now) 24 4 = l.executed.toNat ∧ numberAt (l.statusBytes now) 28 4 = l.lateRuns.toNat
      ∧ numberAt (l.statusBytes now) 32 4 = l.skipped.toNat ∧ numberAt (l.statusBytes now) 36 4 = l.discarded.toNat
      ∧ numberAt (l.statusBytes now) 40 4 = l.pagesRetired.toNat
      ∧ numberAt (l.statusBytes now) 48 8 = now.toNat := by
  simp only [statusBytes, List.append_assoc]
  simp [flagBit_mod, LaneState.code_mod, FaultCode.code_mod, Stall.code_mod]

theorem Lane.waitLineByte_toNat (l : Lane) :
    (∀ v, l.wait = .input v → l.waitLineByte.toNat = v.line.val)
      ∧ (∀ k, l.wait = .claim k → l.waitLineByte.toNat = k.val)
      ∧ (l.wait = .none → l.waitLineByte.toNat = 0xFF) := by
  refine ⟨fun v h => ?_, fun k h => ?_, fun h => ?_⟩
  · rw [waitLineByte, h]; exact lineByte_toNat v.line
  · rw [waitLineByte, h]; exact lineByte_toNat k
  · rw [waitLineByte, h]; rfl

theorem Journal.statusBytes_length (j : Journal) (now : Ticks) : (j.statusBytes now).length = 48 := by
  simp [statusBytes]

theorem Journal.statusBytes_fields (j : Journal) (now : Ticks) :
    numberAt (j.statusBytes now) 0 1 = j.state.code ∧ numberAt (j.statusBytes now) 1 1 = j.stall.code
      ∧ numberAt (j.statusBytes now) 2 1 = j.fault.code ∧ numberAt (j.statusBytes now) 3 1 = j.pageFields.2 % 256
      ∧ numberAt (j.statusBytes now) 4 1 = j.fifo.length % 256
      ∧ numberAt (j.statusBytes now) 5 1 = j.flushRequest % 256
      ∧ numberAt (j.statusBytes now) 8 8 = j.pageFields.1.toNat
      ∧ numberAt (j.statusBytes now) 16 4 = j.pendingLoss.toNat ∧ numberAt (j.statusBytes now) 20 4 = j.sessionLoss.toNat
      ∧ numberAt (j.statusBytes now) 24 4 = j.pagesClosed.toNat ∧ numberAt (j.statusBytes now) 32 8 = now.toNat := by
  simp only [statusBytes, List.append_assoc]
  simp [JournalState.code_mod, FaultCode.code_mod, Stall.code_mod]

theorem Generator.statusBytes_length (g : Generator) (now : Ticks) : (g.statusBytes now).length = 32 := by
  simp [statusBytes]

theorem Generator.statusBytes_fields (g : Generator) (now : Ticks) :
    numberAt (g.statusBytes now) 0 1 = g.state.code
      ∧ numberAt (g.statusBytes now) 1 1 = (if g.clamped then 1 else 0) + (if g.holdoverSeen then 2 else 0)
      ∧ numberAt (g.statusBytes now) 2 1 = g.boundByte.toNat
      ∧ numberAt (g.statusBytes now) 4 2 = g.multiplier % 65536
      ∧ numberAt (g.statusBytes now) 6 2 = g.virtuals.toNat
      ∧ numberAt (g.statusBytes now) 8 4 = g.period.toNat ∧ numberAt (g.statusBytes now) 12 4 = g.subInterval.toNat
      ∧ numberAt (g.statusBytes now) 16 8 = now.toNat := by
  have hflags : (flagBit g.clamped 0 + flagBit g.holdoverSeen 1) % 256
      = (if g.clamped then 1 else 0) + (if g.holdoverSeen then 2 else 0) := by
    cases g.clamped <;> cases g.holdoverSeen <;> rfl
  simp only [statusBytes, List.append_assoc]
  simp [hflags, GenState.code_mod, numberAt_littleEndian_append 2 g.multiplier]

theorem Generator.boundByte_toNat (g : Generator) :
    (∀ k, g.bound = some k → g.boundByte.toNat = k.val) ∧ (g.bound = none → g.boundByte.toNat = 0xFF) := by
  refine ⟨fun k h => ?_, fun h => ?_⟩
  · rw [boundByte, h]; exact lineByte_toNat k
  · rw [boundByte, h]; rfl

theorem partStatusBytes_fields (opened : Bool) (session : Word) (now : Ticks) :
    (partStatusBytes opened session now).length = 16
      ∧ numberAt (partStatusBytes opened session now) 0 1 = (if opened then 1 else 2)
      ∧ numberAt (partStatusBytes opened session now) 4 4 = session.toNat
      ∧ numberAt (partStatusBytes opened session now) 8 8 = now.toNat := by
  have hopened : (if opened then 1 else 2) % 256 = if opened then 1 else 2 := by cases opened <;> rfl
  simp only [partStatusBytes, List.append_assoc]
  simp [hopened]

/-! ## The summaries (Table 12-4) -/

theorem PageEntry.summaryBytes_fields (p : PageEntry) (code : EndCode) (time : Ticks) :
    (p.summaryBytes code time).length = 16
      ∧ numberAt (p.summaryBytes code time) 0 1 = code.code
      ∧ numberAt (p.summaryBytes code time) 2 2 = p.executed % 65536
      ∧ numberAt (p.summaryBytes code time) 4 2 = p.lateRun % 65536
      ∧ numberAt (p.summaryBytes code time) 6 2 = p.skipped % 65536
      ∧ numberAt (p.summaryBytes code time) 8 2 = p.discarded % 65536
      ∧ numberAt (p.summaryBytes code time) 10 6 = time.toNat := by
  simp only [summaryBytes, List.append_assoc]
  simp [EndCode.code_mod, numberAt_littleEndian_append]

theorem Closing.summaryBytes_fields (c : Closing) :
    c.summaryBytes.length = 16 ∧ numberAt c.summaryBytes 0 1 = c.code.code
      ∧ numberAt c.summaryBytes 1 1 = c.count % 256 ∧ numberAt c.summaryBytes 4 4 = c.lost.toNat
      ∧ numberAt c.summaryBytes 10 6 = c.time.toNat := by
  simp only [summaryBytes, List.append_assoc]
  simp [EndCode.code_mod]

/-! ## Capture records (Table 12-7) -/

theorem CaptureRecord.bytes_length (r : CaptureRecord) : r.bytes.length = 16 := by
  cases r <;> simp [bytes]

theorem bytes_edge (k : LineNo) (d : Dir) (time : Ticks) :
    numberAt (CaptureRecord.edge k d time).bytes 0 1 = 1 ∧ numberAt (CaptureRecord.edge k d time).bytes 1 1 = k.val
      ∧ numberAt (CaptureRecord.edge k d time).bytes 2 6 = time.toNat
      ∧ numberAt (CaptureRecord.edge k d time).bytes 8 1 = d.code := by
  have hk : k.val % 256 = k.val := Nat.mod_eq_of_lt (by omega)
  have hd : d.code % 256 = d.code := by cases d <;> rfl
  simp only [CaptureRecord.bytes, List.append_assoc]
  simp [hk, hd]

theorem bytes_mark (n : LaneNo) (v : Word) (time : Ticks) :
    numberAt (CaptureRecord.mark n v time).bytes 0 1 = 2 ∧ numberAt (CaptureRecord.mark n v time).bytes 1 1 = n.val
      ∧ numberAt (CaptureRecord.mark n v time).bytes 2 6 = time.toNat
      ∧ numberAt (CaptureRecord.mark n v time).bytes 8 4 = v.toNat := by
  have hn : n.val % 256 = n.val := Nat.mod_eq_of_lt (by omega)
  simp only [CaptureRecord.bytes, List.append_assoc]
  simp [hn]

theorem bytes_sync (aligned : Bool) (time : Ticks) :
    numberAt (CaptureRecord.sync aligned time).bytes 0 1 = 3
      ∧ numberAt (CaptureRecord.sync aligned time).bytes 1 1 = (if aligned then 1 else 0)
      ∧ numberAt (CaptureRecord.sync aligned time).bytes 2 6 = time.toNat := by
  simp only [CaptureRecord.bytes, List.append_assoc]
  simp [flagBit_mod]

theorem bytes_track (g : GenNo) (st : GenState) (period : Word) (time : Ticks) :
    numberAt (CaptureRecord.track g st period time).bytes 0 1 = 4
      ∧ numberAt (CaptureRecord.track g st period time).bytes 1 1 = g.val
      ∧ numberAt (CaptureRecord.track g st period time).bytes 2 6 = time.toNat
      ∧ numberAt (CaptureRecord.track g st period time).bytes 8 1 = st.code
      ∧ numberAt (CaptureRecord.track g st period time).bytes 12 4 = period.toNat := by
  have hg : g.val % 256 = g.val := Nat.mod_eq_of_lt (by omega)
  simp only [CaptureRecord.bytes, List.append_assoc]
  simp [hg, GenState.code_mod]

/-! ## The details of a slot (Table 12-7) -/

/-- Four flags as the bits of a number. -/
def fourFlags (b0 b1 b2 b3 : Bool) : Nat :=
  (0 + flagBit b0 0 + flagBit b1 1 + flagBit b2 2 + flagBit b3 3) % 256

theorem fourFlags_testBit : ∀ b0 b1 b2 b3 : Bool,
    (fourFlags b0 b1 b2 b3).testBit 0 = b0 ∧ (fourFlags b0 b1 b2 b3).testBit 1 = b1
      ∧ (fourFlags b0 b1 b2 b3).testBit 2 = b2 ∧ (fourFlags b0 b1 b2 b3).testBit 3 = b3 := by decide

/-- The lane is STARVED with starve-warn set (R53). -/
def warnsStarved (s : State) (n : LaneNo) : Bool :=
  (s.lane n).config.starveWarn && (s.lane n).state = .starved

theorem starvationMask_eq (s : State) : starvationMask s % 256
    = fourFlags (warnsStarved s 0) (warnsStarved s 1) (warnsStarved s 2) (warnsStarved s 3) := rfl

theorem starvationMask_testBit (s : State) (n : LaneNo) : (starvationMask s % 256).testBit n.val = warnsStarved s n := by
  obtain ⟨h0, h1, h2, h3⟩ := fourFlags_testBit (warnsStarved s 0) (warnsStarved s 1) (warnsStarved s 2) (warnsStarved s 3)
  rw [starvationMask_eq]
  fin_cases n
  · exact h0
  · exact h1
  · exact h2
  · exact h3

theorem detailsBytes_length (s : State) (d : Details) : (detailsBytes s d).length = 28 := by
  cases d <;> simp [detailsBytes]

end Sys2Proof.Machine
end

