-- ==== Sys2Proof/Proofs/StatusWrites.lean ====
section
/-!
SUPPORT. The writes of the status records as they are issued: their places and their fields (R26, R27, R133, R152, R192).
-/

namespace Sys2Proof.Machine

/-- A status record that is issued. -/
def statusWrite (it : StatusItem) (offset : Nat) (bytes : List Byte) (s : State) : Write :=
  { dataWrite (exbOffset s offset) bytes with awaited := awaitsStatus s it }

theorem issueStatusRecord_path (it : StatusItem) (offset : Nat) (bytes : List Byte) (s : State) :
    (issueStatusRecord it offset bytes s).port.path = s.port.path ++ [statusWrite it offset bytes s] := by
  unfold issueStatusRecord statusWrite; dsimp only
  split <;> rfl

theorem each_post_port {α : Type} (k : SlotNo) (d : α → Details) (owed : List α) (s : State) :
    (State.each owed (fun e => post k (d e)) s).port = s.port :=
  port_of_fixed (each_keeps State.fixed (f := fun e => post k (d e)) (fun e t => post_fixed k (d e) t) owed s)

theorem issueLaneStatus_path (n : LaneNo) (s : State) :
    (issueLaneStatus n s).port.path = s.port.path
      ++ [statusWrite (.laneStatus n) (laneStatusOffset n) ((s.lane n).statusBytes s.time.schedule) s] := by
  unfold issueLaneStatus; dsimp only
  rw [each_post_port]
  exact issueStatusRecord_path _ _ _ s

theorem issueGenStatus_path (g : GenNo) (s : State) :
    (issueGenStatus g s).port.path = s.port.path
      ++ [statusWrite (.genStatus g) (genStatusOffset g) ((s.gen g).statusBytes s.time.schedule) s] := by
  unfold issueGenStatus; dsimp only
  rw [each_post_port]
  exact issueStatusRecord_path _ _ _ s

theorem issueJournalStatus_path (s : State) :
    (issueJournalStatus s).port.path = s.port.path
      ++ [statusWrite .journalStatus journalStatusOffset (s.journal.statusBytes s.time.schedule) s] := by
  unfold issueJournalStatus; dsimp only
  rw [port_of_fixed (each_keeps State.fixed
    (f := fun c t => post troubleSlot (.journalTrouble t.journal.sessionLoss c) t) (fun c t => post_fixed _ _ t) _ _)]
  exact issueStatusRecord_path _ _ _ s

theorem awaitsStatus_laneStop {s : State} {n : LaneNo} (hc : s.engine.command = some (.laneStop n))
    (ha : s.engine.await = .toIssue) : awaitsStatus s (.laneStatus n) = true := by
  rw [awaitsStatus, ha, hc]; simp

/-- The part status record that is issued outside START's opening (R192). -/
theorem issueEngineWrite_path {s : State} (h : s.engine.command ≠ some (.start .opening)) (w : EngineWrite) :
    (issueEngineWrite w s).port.path = s.port.path ++ [engineWriteOf s w] := by
  unfold issueEngineWrite; dsimp only
  rw [if_neg (show ¬ (issueWrite (engineWriteOf s w) s).engine.command = some (.start .opening) from h)]; rfl

end Sys2Proof.Machine
end

