-- ==== Sys2Proof/Proofs/Stops.lean ====
section
/-!
THEOREM. STOP's first steps, LANE_STOP and LANE_RESTART: what they leave of the lane, of its lines and of the others (R24, R25,
R27, R190).
-/

namespace Sys2Proof.Machine

/-! ## A stop of one lane with nobody waiting for a line (R24) -/

theorem withdrawWait_line_free {s : State} (h : ∀ k, (s.line k).waiters = []) (n : LaneNo) (k : LineNo) :
    (withdrawWait n s).line k = s.line k := by
  rw [withdrawWait_line]
  split
  · have hw : (s.line k).waiters.filter (fun w => w.lane ≠ n) = (s.line k).waiters := by rw [h]; rfl
    rw [hw]
  · rfl

theorem ceaseLane_line_free {s : State} (h : ∀ k, (s.line k).waiters = []) (n : LaneNo) (st : LaneState) (k : LineNo) :
    (ceaseLane n st s).line k = s.line k := by
  rw [ceaseLane_line, withdrawWait_line_free h]

theorem runAll_nobody (s : State) : runAll (inFreeOrder ([] : List LaneNo) s).1 (inFreeOrder ([] : List LaneNo) s).2 = s :=
  runAll_nil s

/-- A lane is stopped and nobody waits for a line: its lines are free and no other lane runs. -/
theorem stopLane_free {s : State} (h : ∀ k, (s.line k).waiters = []) (n : LaneNo) :
    (∀ k, (stopLane n s).line k = if (s.line k).owner = some n then (s.line k).freed else s.line k)
      ∧ ∀ m, m ≠ n → (stopLane n s).lane m = s.lane m := by
  have hcease := ceaseLane_line_free h n .off
  obtain ⟨hnone, hline, hlanes, -⟩ := releaseAndGrant_free (nodup_ownedLines (ceaseLane n .off s) n)
    (fun k _ => by rw [hcease]; exact h k)
  have hother : ∀ m, m ≠ n → (ceaseLane n .off s).lane m = s.lane m := fun m hm => ceaseLane_other (hm := Ne.symm hm) ..
  unfold stopLane; dsimp only
  rw [hnone, runAll_nobody]
  refine ⟨fun k => ?_, fun m hm => ?_⟩
  · rw [retirePages_line, hline, hcease]
    simp only [mem_ownedLines, hcease]
  · rw [retirePages_other (hm := Ne.symm hm), lane_of_lanes hlanes, hother m hm]

/-! ## STOP (R190) -/

theorem stopLanes_free (ns : List LaneNo) {s : State} (h : ∀ k, (s.line k).waiters = []) (k : LineNo) :
    (State.each ns stopLane s).line k
      = if ∃ n ∈ ns, (s.line k).owner = some n then (s.line k).freed else s.line k := by
  induction ns generalizing s with
  | nil => rw [if_neg (by rintro ⟨n, hn, -⟩; cases hn)]; rfl
  | cons n ns ih =>
    obtain ⟨hline, -⟩ := stopLane_free h n
    have hwaiters : ∀ j, ((stopLane n s).line j).waiters = [] := fun j => by
      rw [hline]; split
      · exact h j
      · exact h j
    show (State.each ns stopLane (stopLane n s)).line k = _
    rw [ih hwaiters, hline]
    by_cases hk : (s.line k).owner = some n
    · rw [if_pos hk, if_neg (by rintro ⟨m, -, hm⟩; cases hm), if_pos ⟨n, List.mem_cons_self, hk⟩]
    · rw [if_neg hk]
      refine if_congr ⟨fun ⟨m, hm, ho⟩ => ⟨m, List.mem_cons_of_mem _ hm, ho⟩, fun ⟨m, hm, ho⟩ => ?_⟩ rfl rfl
      rcases List.mem_cons.mp hm with rfl | hm
      · exact absurd ho hk
      · exact ⟨m, hm, ho⟩

theorem quietStep_lines (s : State) : (quietStep s).lines = s.lines := by
  have h := each_keeps State.lines (f := ceaseGen) (fun _ _ => rfl) allGens s
  unfold quietStep; dsimp only
  generalize State.each allGens ceaseGen s = u at h ⊢
  exact h

theorem takeStop_free {s : State} (h : ∀ k, (s.line k).waiters = []) (k : LineNo) :
    (takeStop s).line k = if (s.line k).owner ≠ none then (s.line k).freed else s.line k := by
  have hquiet : ∀ j, (quietStep (beginCommand (.stop false) { s with part := .stopping })).line j = s.line j :=
    line_of_lines (quietStep_lines _)
  unfold takeStop; dsimp only
  rw [line_of_lines (beginDrain_lines _), stopLanes_free _ (fun j => by rw [hquiet]; exact h j), hquiet]
  refine if_congr ⟨fun ⟨n, _, hn⟩ => by rw [hn]; nofun, fun hne => ?_⟩ rfl rfl
  obtain ⟨n, hn⟩ := Option.ne_none_iff_exists'.mp hne
  exact ⟨n, mem_allLanes n, hn⟩

/-- STOP's lane step with the claims sound: the lines are free and nobody waits for them (R190 step 2). -/
theorem takeStop_frees {s : State} (hp : s.part = .active) (h : claimsSound s = true) (k : LineNo) :
    ((takeStop s).line k).owner = none ∧ ((takeStop s).line k).waiters = []
      ∧ ((s.line k).owner ≠ none → ((takeStop s).line k).mode = .static (s.line k).rest) := by
  obtain ⟨hclaims, hease, hrest, hatRest⟩ :=
    takeStop_stoppedAll (tied := False) ((claims_iff_of s).mpr ⟨h, nofun⟩) (by rw [hp]; nofun)
  have howner : ((takeStop s).line k).owner = none := by
    rw [Option.eq_none_iff_forall_ne_some]
    exact fun n => (hease n (mem_allLanes n)).2 k
  refine ⟨howner, (hclaims.lines k).free howner, fun hne => ?_⟩
  have hmode := (hatRest k (.inl hne)).resolve_left (not_not.mpr howner)
  rw [hmode, hrest]

theorem stopLanes_lane (ns : List LaneNo) (s : State) (n : LaneNo)
    (h : n ∈ ns ∨ (s.lane n).state = .off ∧ (s.lane n).queue = [] ∧ (s.lane n).running = false) :
    ((State.each ns stopLane s).lane n).state = .off ∧ ((State.each ns stopLane s).lane n).queue = []
      ∧ ((State.each ns stopLane s).lane n).running = false := by
  induction ns generalizing s with
  | nil => exact h.resolve_left List.not_mem_nil
  | cons m ns ih =>
    refine ih (stopLane m s) ?_
    by_cases hm : m = n
    · subst hm
      exact .inr (by rw [stopLane_self, ceaseLane_self]; exact ⟨rfl, rfl, rfl⟩)
    · rcases h with h | ⟨hst, hq, hr⟩
      · exact .inl ((List.mem_cons.mp h).resolve_left (Ne.symm hm))
      · exact .inr (by rw [stopLane_other m s hm (by rw [hst]; nofun)]; exact ⟨hst, hq, hr⟩)

theorem takeStop_lane (s : State) (n : LaneNo) :
    ((takeStop s).lane n).state = .off ∧ ((takeStop s).lane n).queue = [] ∧ ((takeStop s).lane n).running = false := by
  unfold takeStop; dsimp only
  rw [lane_of_lanes (beginDrain_lanes _)]
  exact stopLanes_lane allLanes _ n (.inl (mem_allLanes n))

theorem endDrain_journal (s : State) :
    (endDrain s).journal = { s.journal.drained with state := .off, stall := .none } := by
  rw [endDrain, setJournalStall_journal, setJournalState_journal]; rfl

/-- No flush is under way or asked for. -/
def Journal.Unflushed (j : Journal) : Prop := j.flushTimer = none ∧ j.flushRequest = 0

theorem endDrain_unflushed {s : State} (h : s.journal.Unflushed) : (endDrain s).journal.Unflushed := by
  rw [endDrain_journal]; exact h

theorem closePage_unflushed {s : State} (h : s.journal.Unflushed) (code : EndCode) : (closePage code s).journal.Unflushed := by
  cases hpage : s.journal.page with
  | none => rw [closePage, hpage]; exact h
  | some p => rw [(closePage_journal hpage code).1]; exact ⟨rfl, h.2⟩

theorem drainCheck_unflushed {s : State} (h : s.journal.Unflushed) : (drainCheck s).journal.Unflushed := by
  unfold drainCheck; dsimp only
  split
  · exact h
  · split
    · exact endDrain_unflushed h
    · split
      · exact endDrain_unflushed (closePage_unflushed h _)
      · exact h

theorem takeStop_unflushed (s : State) : (takeStop s).journal.Unflushed := by
  unfold takeStop; dsimp only
  generalize State.each allLanes stopLane _ = u
  exact drainCheck_unflushed ⟨rfl, rfl⟩

/-- Settles O20, with the lines of a state where nobody waits, and of any state whose claims are sound. -/
theorem stopQuietsThePart : Obligations.StopQuietsThePart := by
  intro b s hs hp hc
  have hexec : exec (.stop b) s = .next (takeStop s) := by
    show writeCommand codeStop 0#8 true (decide (s.part = .active)) (takeStop s) s = _
    rw [decide_eq_true hp]
    exact writeCommand_taken (takes_of_active hs hp hc) _ _ _
  have hfixed := takeStop_fixed s
  have hlane := takeStop_lane s
  have hflush := takeStop_unflushed s
  have hfree := takeStop_free (s := s)
  have hfrees := takeStop_frees hp
  generalize takeStop s = t at *
  refine ⟨t, hexec, congrArg Fixed.part hfixed, congrArg (fun f : Fixed => f.engine.command) hfixed,
    congrArg Fixed.inputsLive hfixed, congrArg (fun f : Fixed => f.sync.live) hfixed, congrArg Fixed.time hfixed,
    congrArg (fun f : Fixed => f.survey.expiry) hfixed, hlane, hflush.1, hflush.2, congrArg Fixed.memory hfixed,
    fun hwaiters => ⟨fun k hk => ?owned, fun k hk => ?unowned⟩, hfrees⟩
  case owned => rw [hfree hwaiters, if_pos hk]; rfl
  case unowned => rw [hfree hwaiters, if_neg (not_not.mpr hk)]

/-! ## LANE_STOP (R24) -/

theorem takeLaneStop_lane (n : LaneNo) (s : State) :
    (takeLaneStop n s).lane n = { (ceaseLane n .off s).lane n with
      pages := (s.lane n).pages.map fun p => p.closed .stopped s.time.schedule } := by
  rw [takeLaneStop, stopLane_self, ceaseLane_self, ceaseLane_self]; rfl

/-- Settles O22. -/
theorem laneStopClosesTheLane : Obligations.LaneStopClosesTheLane := by
  refine ⟨fun n s hs hp hc => ?stops, fun n s => ?writes⟩
  case stops =>
    have hexec : exec (.laneStop (BitVec.ofNat 8 n.val)) s = .next (takeLaneStop n s) := by
      show execLaneStop (BitVec.ofNat 8 n.val) s = _
      rw [execLaneStop, writeLaneCommand_laneByte, decide_eq_true hp]
      exact writeCommand_taken (takes_of_active hs hp hc) _ _ _
    have hengine := takeLaneStop_engine n s
    have hlane := takeLaneStop_lane n s
    rw [ceaseLane_self] at hlane
    have hfree : (∀ k, (s.line k).waiters = []) →
        (∀ k, (takeLaneStop n s).line k = if (s.line k).owner = some n then (s.line k).freed else s.line k)
          ∧ ∀ m, m ≠ n → (takeLaneStop n s).lane m = s.lane m := fun h =>
      stopLane_free (s := awaitStatus (beginCommand (.laneStop n) s)) h n
    have hstopped : claimsSound s = true → Stopped False n (awaitStatus (beginCommand (.laneStop n) s)) (takeLaneStop n s) :=
      fun h => stopLane_stopped ((claims_iff_of (awaitStatus (beginCommand (.laneStop n) s))).mpr ⟨h, nofun⟩)
        (show s.part ≠ .failed by rw [hp]; nofun) n
    generalize takeLaneStop n s = t at *
    refine ⟨t, hexec, ?_, ?_, ?_, ?_, ?_, ?_, ?_, ?_, ?_, ?_, fun hwaiters => ?free, fun hsound k => ?sound⟩
    · rw [hengine]
    · rw [hengine]
    · rw [hlane]
    · rw [hlane]
    · rw [hlane]
    · rw [hlane]
    · rw [hlane]
    · rw [hlane]
    · rw [hlane]
    · rw [hlane]; rfl
    case free =>
      obtain ⟨hline, hother⟩ := hfree hwaiters
      exact ⟨fun k hk => (hline k).trans (if_pos hk), fun k hk => (hline k).trans (if_neg hk), hother⟩
    case sound =>
      obtain ⟨hclaims, howners, -, -⟩ := hstopped hsound
      exact ⟨fun ho => (howners k n ho).1 rfl,
        (hclaims.resting n List.not_mem_nil).rests (by rw [hlane]; nofun) k⟩
  case writes =>
    obtain ⟨hwait, hclaim, hnone⟩ := (s.lane n).waitLineByte_toNat
    obtain ⟨hstate, hhold, hfault, hstall, hline, hqueue, hpages, hrest⟩ := (s.lane n).statusBytes_fields s.time.schedule
    exact ⟨_, issueLaneStatus_path n { s with handed := s.handed.tail }, awaitsStatus_laneStop, rfl,
      (s.lane n).statusBytes_length _, rfl, hstate, hhold, hfault, hstall, fun v hv => hline.trans (hwait v hv),
      fun k hk => hline.trans (hclaim k hk), fun h => hline.trans (hnone h), hqueue, hpages, hrest⟩

end Sys2Proof.Machine
end

