-- ==== Sys2Proof/Proofs/LinesOfOthers.lean ====
section
/-!
SUPPORT. A lane that owns no line and stands in no waiter list is given neither by the work of the other lanes, in any part state
(R15, R90 to R95).
-/

namespace Sys2Proof.Machine

/-- The lane neither owns the line nor waits for it. -/
def OutLine.avoids (x : OutLine) (n : LaneNo) : Prop := x.owner ≠ some n ∧ x.lists n = false

/-- Between two states no line has come to lane `n`. -/
def KeepsOff (n : LaneNo) (s t : State) : Prop := ∀ k, (s.line k).avoids n → (t.line k).avoids n

namespace KeepsOff

theorem trans {n : LaneNo} {s t u : State} (h : KeepsOff n s t) (h' : KeepsOff n t u) : KeepsOff n s u :=
  fun k hk => h' k (h k hk)

theorem of_lines {n : LaneNo} {s t : State} (h : t.lines = s.lines) : KeepsOff n s t := fun k hk => by
  rw [line_of_lines h]; exact hk

theorem refl (n : LaneNo) (s : State) : KeepsOff n s s := of_lines rfl

theorem each {α : Type} {n : LaneNo} {f : α → State → State} (h : ∀ x s, KeepsOff n s (f x s)) (xs : List α) (s : State) :
    KeepsOff n s (State.each xs f s) :=
  each_induct (fun t => KeepsOff n s t) (fun x t ht => ht.trans (h x t)) xs s (refl n s)

/-- One line has changed in its mode alone. -/
theorem of_mode {n : LaneNo} {s t : State} {k : LineNo} (h : ∃ m, t.line k = { s.line k with mode := m })
    (ho : ∀ j, k ≠ j → t.line j = s.line j) : KeepsOff n s t := fun j hj => by
  obtain ⟨m, hm⟩ := h
  by_cases hk : k = j
  · subst hk; rw [hm]; exact hj
  · rw [ho j hk]; exact hj

end KeepsOff

theorem OutLine.lists_eq_false {x : OutLine} {n : LaneNo} : x.lists n = false ↔ ∀ w ∈ x.waiters, w.lane ≠ n := by
  rw [lists, List.any_eq_false]
  simp only [decide_eq_true_eq]

/-- A line whose waiter list has lost entries. -/
theorem OutLine.avoids_filter {x : OutLine} {n : LaneNo} (h : x.avoids n) (p : Waiter → Bool) :
    ({ x with waiters := x.waiters.filter p } : OutLine).avoids n :=
  ⟨h.1, lists_eq_false.mpr fun w hw => lists_eq_false.mp h.2 w (List.mem_of_mem_filter hw)⟩

section Work

variable (n : LaneNo)

theorem withdrawWait_keepsOff (m : LaneNo) (s : State) : KeepsOff n s (withdrawWait m s) := fun k hk => by
  rw [withdrawWait_line]
  split
  · exact OutLine.avoids_filter hk _
  · exact hk

theorem ceaseLane_keepsOff (m : LaneNo) (st : LaneState) (s : State) : KeepsOff n s (ceaseLane m st s) := fun k hk => by
  rw [ceaseLane_line]; exact withdrawWait_keepsOff n m s k hk

theorem laneFault_keepsOff (m : LaneNo) (c : FaultCode) (a : Addr) (s : State) : KeepsOff n s (laneFault m c a s) :=
  fun k hk => by
    have hwithdrawn := withdrawWait_keepsOff n m s k hk
    rw [laneFault_line]
    split
    · exact hwithdrawn
    · exact hwithdrawn

theorem fetchFault_keepsOff (m : LaneNo) (c : FaultCode) (a : Addr) (s : State) : KeepsOff n s (fetchFault m c a s) := by
  by_cases hst : (s.lane m).state = .starved
  · rw [fetchFault_starved s m c a hst]
    refine KeepsOff.trans (.of_lines ?_) (laneFault_keepsOff n m c a _)
    rw [setStall_lines]; rfl
  · exact .of_lines (fetchFault_lines_of_running hst c a)

theorem presentBurst_keepsOff (m : LaneNo) (s : State) : KeepsOff n s (presentBurst m s) := by
  unfold presentBurst; dsimp only
  split
  · split
    · exact .of_lines (presentFetch_lines _ _ _)
    · exact fetchFault_keepsOff n m _ _ s
  · exact .refl n s

theorem finishCue_keepsOff (m : LaneNo) (f : Finish) (s : State) : KeepsOff n s (finishCue m f s) :=
  (KeepsOff.of_lines (by rw [retireFinished_lines, countCue_lines])).trans (presentBurst_keepsOff n m _)

theorem setMode_keepsOff (k : LineNo) (mode : OutMode) (s : State) : KeepsOff n s (setMode k mode s) :=
  .of_mode ⟨mode, setMode_self s k mode⟩ fun _ hj => setMode_other s k mode hj

theorem endActivity_keepsOff (k : LineNo) (s : State) : KeepsOff n s (endActivity k s) := .of_lines (endActivity_lines s k)

theorem driveStatic_keepsOff (k : LineNo) (l : Level) (s : State) : KeepsOff n s (driveStatic k l s) :=
  (endActivity_keepsOff n k s).trans (setMode_keepsOff n k _ _)

/-- A line that is released does not come back to a lane that does not wait for it. -/
theorem releaseLine_avoids {n : LaneNo} {k : LineNo} {s : State} (h : (s.line k).lists n = false) :
    ((releaseLine k s).1.line k).avoids n := by
  cases hw : (s.line k).waiters with
  | nil =>
    rw [(releaseLine_free s k hw).2]
    exact ⟨nofun, h⟩
  | cons w rest =>
    have hmem := OutLine.lists_eq_false.mp h
    rw [hw] at hmem
    rw [(releaseLine_granted s k w rest hw).2]
    exact ⟨fun ho => hmem w List.mem_cons_self (Option.some.inj ho),
      OutLine.lists_eq_false.mpr fun v hv => hmem v (List.mem_cons_of_mem _ hv)⟩

theorem releaseLine_keepsOff (k : LineNo) (s : State) : KeepsOff n s (releaseLine k s).1 := fun j hj => by
  by_cases hk : k = j
  · subst hk; exact releaseLine_avoids hj.2
  · rw [releaseLine_other s k hk]; exact hj

theorem releaseLines_keepsOff (ks : List LineNo) (s : State) : KeepsOff n s (releaseLines ks s).1 := by
  induction ks generalizing s with
  | nil => exact .refl n s
  | cons k ks ih => exact (releaseLine_keepsOff n k s).trans (ih _)

/-- A lane that stands in no list owns none of the lines that are released. -/
theorem releaseLines_avoids (ks : List LineNo) {s : State} {n : LaneNo} (h : ∀ k, (s.line k).lists n = false) :
    ∀ k, k ∈ ks ∨ (s.line k).owner ≠ some n → ((releaseLines ks s).1.line k).avoids n := by
  induction ks generalizing s with
  | nil => exact fun k hk => ⟨hk.resolve_left List.not_mem_nil, h k⟩
  | cons j js ih =>
    intro k hk
    by_cases hjk : j = k
    · subst hjk
      exact releaseLines_keepsOff n js _ j (releaseLine_avoids (h j))
    · have hother := releaseLine_other s j hjk
      have hlists : ∀ i, ((releaseLine j s).1.line i).lists n = false := fun i => by
        by_cases hi : j = i
        · subst hi; exact (releaseLine_avoids (h j)).2
        · rw [releaseLine_other s j hi]; exact h i
      refine ih hlists k (hk.imp (fun hm => (List.mem_cons.mp hm).resolve_left (Ne.symm hjk)) fun ho => ?_)
      rw [hother]; exact ho

theorem releaseAndGrant_keepsOff (ks : List LineNo) (s : State) : KeepsOff n s (releaseAndGrant ks s).1 :=
  (releaseLines_keepsOff n ks s).trans (.each (fun m t => finishCue_keepsOff n m .executed t) _ _)

theorem grantLine_keepsOff {m : LaneNo} (hm : m ≠ n) (k : LineNo) (s : State) : KeepsOff n s (grantLine k m s) :=
  fun j hj => by
    by_cases hk : k = j
    · subst hk
      rw [grantLine, line_setLine_self]
      exact ⟨fun ho => hm (Option.some.inj ho), hj.2⟩
    · rw [grantLine, line_setLine_ne _ hk]; exact hj

theorem joinWaiters_keepsOff {m : LaneNo} (hm : m ≠ n) (k : LineNo) (timeout : Half) (s : State) :
    KeepsOff n s (joinWaiters k m timeout s) := fun j hj => by
  unfold joinWaiters; dsimp only
  by_cases hk : k = j
  · subst hk
    rw [line_setLine_self]
    refine ⟨hj.1, OutLine.lists_eq_false.mpr fun w hw => ?_⟩
    rcases List.mem_append.mp hw with hw | hw
    · exact OutLine.lists_eq_false.mp hj.2 w hw
    · rw [List.mem_singleton.mp hw]; exact hm
  · rw [line_setLine_ne _ hk]; exact hj

/-- The lines of a lane that stands in no list, all released. -/
theorem releaseOwned_avoids {s : State} {n : LaneNo} (h : ∀ k, (s.line k).lists n = false) (k : LineNo) :
    ((releaseAndGrant (ownedLines s n) s).1.line k).avoids n := by
  refine KeepsOff.each (fun m t => finishCue_keepsOff n m .executed t) _ _ k (releaseLines_avoids _ h k ?_)
  rw [mem_ownedLines]
  exact Decidable.em _

theorem judgeHead_keepsOff (m : LaneNo) (v : Addr) (s : State) : KeepsOff n s (judgeHead m v s) := by
  have hheader : ∀ u, KeepsOff n u (presentHeader m u) := fun u => by
    unfold presentHeader; dsimp only
    split
    · split
      · exact .of_lines (presentFetch_lines _ _ _)
      · exact fetchFault_keepsOff n m _ _ u
    · exact .refl n u
  unfold judgeHead
  split
  · exact .of_lines (setStall_lines _ _ _)
  · split
    · exact fetchFault_keepsOff n m _ _ s
    · refine KeepsOff.trans (.of_lines ?_) (hheader _)
      rw [setStall_lines]; rfl

/-! ## The kinds of cue -/

theorem carryEnd_keepsOff (m : LaneNo) (s : State) : KeepsOff n s (carryEnd m s).state := by
  unfold carryEnd; dsimp only
  refine KeepsOff.trans ?_ (.of_lines (oweException_lines _ _ _))
  refine KeepsOff.trans ?_ (.of_lines (retirePages_lines _ _ _))
  refine KeepsOff.trans ?_ (ceaseLane_keepsOff n m _ _)
  exact (KeepsOff.of_lines (countCue_lines _ _ _)).trans (releaseAndGrant_keepsOff n _ _)

theorem cueFault_keepsOff (m : LaneNo) (c : FaultCode) (s : State) : KeepsOff n s (cueFault m c s).state :=
  laneFault_keepsOff n m c _ s

theorem carryClaim_keepsOff {m : LaneNo} (hm : m ≠ n) (k : LineNo) (timeout : Half) (s : State) :
    KeepsOff n s (carryClaim m k timeout s).state := by
  unfold carryClaim
  split
  · exact cueFault_keepsOff n m _ s
  · exact finishCue_keepsOff n m _ s
  · exact (grantLine_keepsOff n hm k s).trans (finishCue_keepsOff n m _ _)
  · exact cueFault_keepsOff n m _ s
  · exact (joinWaiters_keepsOff n hm k timeout s).trans (.of_lines (enterWait_lines _ _ _ _))

theorem carryOut_keepsOff {m : LaneNo} (hm : m ≠ n) (a : Action) (s : State) : KeepsOff n s (carryOut m a s).state := by
  have hdone : ∀ t, KeepsOff n s t → KeepsOff n s (Ran.done m .executed t).state := fun t h =>
    h.trans (finishCue_keepsOff n m .executed t)
  cases a with
  | nop => exact hdone s (.refl n s)
  | setLines mask levels =>
    rw [carryOut]; split
    · exact hdone _ (.each (fun k t => driveStatic_keepsOff n k _ t) _ s)
    · exact cueFault_keepsOff n m _ s
  | pulse k active width =>
    rw [carryOut]; split
    · exact hdone _ ((endActivity_keepsOff n k s).trans (setMode_keepsOff n k _ _))
    · exact cueFault_keepsOff n m _ s
  | wave k first d1 d2 periods =>
    rw [carryOut]; split
    · exact hdone _ ((endActivity_keepsOff n k s).trans (setMode_keepsOff n k _ _))
    · exact cueFault_keepsOff n m _ s
  | track k g multiplier =>
    rw [carryOut]; split
    · exact cueFault_keepsOff n m _ s
    · split
      · exact cueFault_keepsOff n m _ s
      · obtain ⟨l, hl⟩ := trackLine_self k g multiplier s
        exact hdone _ (.of_mode ⟨_, hl⟩ fun j hj => trackLine_other k g multiplier s hj)
  | captureOn mask => exact hdone _ (.of_lines (setCaptures_lines _ _ _))
  | captureOff mask => exact hdone _ (.of_lines (setCaptures_lines _ _ _))
  | mark v => exact hdone _ (.of_lines (capture_lines _ _))
  | waitInput k e timeout goesOn => exact .of_lines (enterWait_lines _ _ _ _)
  | claim k timeout => exact carryClaim_keepsOff n hm k timeout s
  | release mask =>
    rw [carryOut]; split
    · exact hdone _ (releaseAndGrant_keepsOff n _ s)
    · exact cueFault_keepsOff n m _ s
  | endLane => exact carryEnd_keepsOff n m s

theorem judgeCue_keepsOff {m : LaneNo} (hm : m ≠ n) (c : Cue) (s : State) : KeepsOff n s (judgeCue m c s).state := by
  have hcarry : ∀ b, KeepsOff n s (carryOut m c.action (setLateRun m b s)).state := fun b =>
    (KeepsOff.of_lines rfl).trans (carryOut_keepsOff n hm c.action (setLateRun m b s))
  unfold judgeCue; dsimp only
  split
  · exact hcarry false
  · split
    · exact hcarry true
    · exact finishCue_keepsOff n m _ s
    · exact cueFault_keepsOff n m _ s

theorem resolveCue_keepsOff {m : LaneNo} (hm : m ≠ n) (c : Cue) (s : State) : KeepsOff n s (resolveCue m c s).state := by
  have hset : KeepsOff n s (s.setLane m ((s.lane m).resolved (resolvedDue (s.lane m).anchor c))) := .of_lines rfl
  unfold resolveCue; dsimp only
  split
  · exact cueFault_keepsOff n m _ s
  · split
    · exact hset.trans (judgeCue_keepsOff n hm _ _)
    · exact hset.trans (.of_lines (setLaneState_lines _ _ _))

theorem startCue_keepsOff {m : LaneNo} (hm : m ≠ n) (q : QueuedCue) (s : State) : KeepsOff n s (startCue m q s).state := by
  have hset : KeepsOff n s (s.setLane m (s.lane m).cueTaken) := .of_lines rfl
  unfold startCue; dsimp only
  split
  · exact hset.trans (cueFault_keepsOff n m _ _)
  · exact hset.trans (resolveCue_keepsOff n hm _ _)

theorem takeNext_keepsOff {m : LaneNo} (hm : m ≠ n) (s : State) : KeepsOff n s (takeNext m s).state := by
  unfold takeNext; dsimp only
  split
  · exact .of_lines ((setLaneState_lines _ _ _).trans (setHold_lines _ _ _))
  · split
    · exact startCue_keepsOff n hm _ s
    · split
      · exact laneFault_keepsOff n m _ _ s
      · exact .of_lines (starve_lines _ _)

/-! ## Runs -/

theorem runLanes_keepsOff (fuel : Nat) {work : List LaneNo} {s : State} (hwork : n ∉ work)
    (hst : (s.lane n).state ≠ .waitLine) : KeepsOff n s (runLanes fuel work s) := by
  induction fuel generalizing work s with
  | zero => cases work <;> exact .refl n s
  | succ fuel ih =>
    cases work with
    | nil => exact .refl n s
    | cons m others =>
      obtain ⟨hm, hothers⟩ := not_or.mp (List.mem_cons.not.mp hwork)
      obtain ⟨hlane, hgranted⟩ := takeNext_other m s (Ne.symm hm) hst
      have hnext := goOn_mem m (takeNext m s) others (Ne.symm hm) hgranted hothers
      obtain ⟨j, hj⟩ := goOn_state m (takeNext m s) others
      have hkeeps := takeNext_keepsOff n (Ne.symm hm) s
      rw [runLanes]; dsimp only
      generalize takeNext m s = r at *
      rw [hj]
      refine (hkeeps.trans (.of_lines rfl)).trans (ih (s := { r.state with choices := j }) hnext ?_)
      show (r.state.lane n).state ≠ .waitLine
      rw [hlane]; exact hst

theorem runAll_keepsOff {work : List LaneNo} {s : State} (hwork : n ∉ work) (hst : (s.lane n).state ≠ .waitLine) :
    KeepsOff n s (runAll work s) := runLanes_keepsOff n _ hwork hst

end Work

end Sys2Proof.Machine
end

