-- ==== Sys2Proof/Proofs/LaneRestarts.lean ====
section
/-!
THEOREM. LANE_RESTART: its record read starts the lane anew (R25, R30, R31).
-/

namespace Sys2Proof.Machine

/-! ## A fetcher of a lane that owns no line and waits for none -/

/-- The lane owns no line and waits for none. -/
structure Detached (s : State) (n : LaneNo) : Prop where
  owner : ∀ k, (s.line k).owner ≠ some n
  wait : (s.lane n).wait = .none

theorem fetchFault_line_of_detached {s : State} {n : LaneNo} (h : Detached s n) (c : FaultCode) (a : Addr) (k : LineNo) :
    (fetchFault n c a s).line k = s.line k := by
  by_cases hst : (s.lane n).state = .starved
  · have hlines : ∀ j, (setStall n .fetchFault
        (s.setLane n { s.lane n with pendingFault := some (c, a), request := none })).line j = s.line j := fun j => by
      rw [setStall_line]; rfl
    rw [fetchFault_starved s n c a hst, laneFault_line_of_free]
    · exact hlines k
    · rw [hlines]; exact h.owner k
    · refine .inr ?_
      rw [setStall_self, lane_setLane_self]
      show (s.lane n).wait ≠ _
      rw [h.wait]; nofun
  · exact line_of_lines (fetchFault_lines_of_running hst c a) k

theorem judgeHead_line_of_detached {s : State} {n : LaneNo} (h : Detached s n) (v : Addr) (k : LineNo) :
    (judgeHead n v s).line k = s.line k := by
  have hheader : ∀ u : State, Detached u n → (presentHeader n u).line k = u.line k := fun u hu => by
    unfold presentHeader; dsimp only
    split
    · split
      · rfl
      · exact fetchFault_line_of_detached hu _ _ k
    · rfl
  unfold judgeHead
  split
  · exact setStall_line ..
  · split
    · exact fetchFault_line_of_detached h _ _ k
    · unfold goToHeader; dsimp only
      rw [hheader]
      · rw [setStall_line]; rfl
      · refine ⟨fun j => ?_, ?_⟩
        · rw [setStall_line]; exact h.owner j
        · rw [setStall_self, lane_setLane_self]; exact h.wait

/-! ## The restart (R25) -/

/-- The lane as LANE_RESTART starts it, before its head address is judged. -/
def Lane.restarted (l : Lane) (c : LaneConfig) (now : Ticks) : Lane :=
  { l.started now with config := c }.fetcherStarted

/-- The state before the fetcher starts, the lane's lines released. -/
def restartBase (n : LaneNo) (c : LaneConfig) (s : State) : State :=
  markLane n (awaitStatus (s.setLane n { (s.lane n).started s.time.schedule with config := c }))

theorem restartLane_eq (n : LaneNo) (c : LaneConfig) (s : State) :
    restartLane n c s = runAll
      (inFreeOrder (releaseAndGrant (ownedLines s n) s).2
        (startFetcher n (restartBase n c (releaseAndGrant (ownedLines s n) s).1))).1
      (inFreeOrder (releaseAndGrant (ownedLines s n) s).2
        (startFetcher n (restartBase n c (releaseAndGrant (ownedLines s n) s).1))).2 := rfl

theorem restartBase_lane (n : LaneNo) (c : LaneConfig) (s : State) :
    (restartBase n c s).lane n = { (s.lane n).started s.time.schedule with config := c } := by
  rw [restartBase, markLane_lane]; exact lane_setLane_self _ _ _

theorem restartBase_other {n m : LaneNo} (h : m ≠ n) (c : LaneConfig) (s : State) :
    (restartBase n c s).lane m = s.lane m := by
  rw [restartBase, markLane_lane]; exact lane_setLane_ne _ (Ne.symm h) _

theorem restartBase_line (n : LaneNo) (c : LaneConfig) (s : State) (k : LineNo) :
    (restartBase n c s).line k = s.line k := by
  rw [restartBase, markLane_line]; rfl

theorem restartBase_fixed (n : LaneNo) (c : LaneConfig) (s : State) :
    (restartBase n c s).fixed = (awaitStatus s).fixed := by
  rw [restartBase, markLane_fixed]; rfl

theorem startFetcher_self (n : LaneNo) (s : State) :
    (startFetcher n s).lane n = (s.lane n).fetcherStarted.judged (s.lane n).config.head
      (windowOk s .cueRead (s.lane n).config.head 32) s.time.schedule .headField (s.lane n).config.head := by
  rw [startFetcher, judgeHead_lane, lane_setLane_self]; rfl

theorem Lane.judged_state {l : Lane} (h : l.state = .starved) (v : Addr) (ok : Bool) (now : Ticks) (st : Stall) (bad : Addr) :
    (l.judged v ok now st bad).state ≠ .waitLine := by
  have hrefused : ∀ (x : Lane) (c : FaultCode) (a : Addr), x.state = .starved → (x.refused c a now).state ≠ .waitLine :=
    fun x c a hx => by rw [refused_starved hx]; nofun
  have hstarved : l.state ≠ .waitLine := by rw [h]; nofun
  unfold judged
  split
  · exact hstarved
  · split
    · exact hrefused l _ _ h
    · split
      · unfold asked; split
        · exact hstarved
        · exact hrefused _ _ _ h
      · exact hstarved

theorem restartLane_lane {n : LaneNo} {s : State} (h : (s.lane n).state ≠ .waitLine) (c : LaneConfig) :
    (restartLane n c s).lane n = ((s.lane n).restarted c s.time.schedule).judged c.head
      (windowOk s .cueRead c.head 32) s.time.schedule .headField c.head := by
  obtain ⟨hlane, hfresh⟩ := releaseAndGrant_other (ownedLines s n) s n h
  have hfixed : (releaseAndGrant (ownedLines s n) s).1.fixed = s.fixed := releaseAndGrant_fixed _ s
  rw [restartLane_eq]
  generalize releaseAndGrant (ownedLines s n) s = r at hlane hfresh hfixed ⊢
  have hport : (restartBase n c r.1).port = s.port := by
    rw [port_of_fixed (restartBase_fixed n c r.1)]; exact congrArg Fixed.port hfixed
  have htime : (restartBase n c r.1).time = s.time := by
    rw [time_of_fixed (restartBase_fixed n c r.1)]; exact congrArg Fixed.time hfixed
  have hself : (startFetcher n (restartBase n c r.1)).lane n = ((s.lane n).restarted c s.time.schedule).judged c.head
      (windowOk s .cueRead c.head 32) s.time.schedule .headField c.head := by
    rw [startFetcher_self, restartBase_lane, hlane, time_of_fixed hfixed, htime]
    unfold windowOk
    rw [hport]; rfl
  generalize startFetcher n (restartBase n c r.1) = u at hself ⊢
  obtain ⟨j, hj⟩ := inFreeOrder_state r.2 u
  have hu : (inFreeOrder r.2 u).2.lane n = u.lane n := by rw [hj]; rfl
  rw [runAll_other _ _ (by rw [inFreeOrder_mem]; exact hfresh), hu, hself]
  rw [hu, hself]; exact Lane.judged_state rfl _ _ _ _ _

theorem restartLane_fixed (n : LaneNo) (c : LaneConfig) (s : State) :
    (restartLane n c s).fixed = (awaitStatus s).fixed := by
  have hawait : ∀ u : State, u.fixed = s.fixed → (awaitStatus u).fixed = (awaitStatus s).fixed := fun u hu => by
    show { u.fixed with engine := { u.fixed.engine with await := .toIssue } } = _
    rw [hu]; rfl
  rw [restartLane_eq, runAll_fixed, inFreeOrder_fixed, startFetcher_fixed, restartBase_fixed]
  exact hawait _ (releaseAndGrant_fixed _ s)

/-- Nobody waits for a line: the lane's lines become free and no other lane runs. -/
theorem restartLane_free {s : State} (h : ∀ k, (s.line k).waiters = []) (n : LaneNo) (c : LaneConfig) :
    (∀ k, (restartLane n c s).line k = if (s.line k).owner = some n then (s.line k).freed else s.line k)
      ∧ ∀ m, m ≠ n → (restartLane n c s).lane m = s.lane m := by
  obtain ⟨hnone, hline, hlanes, -⟩ := releaseAndGrant_free (nodup_ownedLines s n) (fun k _ => h k)
  rw [restartLane_eq, hnone, runAll_nobody]
  simp only [mem_ownedLines] at hline
  generalize (releaseAndGrant (ownedLines s n) s).1 = r at hline hlanes ⊢
  have hdetached : Detached ((restartBase n c r).setLane n ((restartBase n c r).lane n).fetcherStarted) n := by
    refine ⟨fun k => ?_, ?_⟩
    · show ((restartBase n c r).line k).owner ≠ some n
      rw [restartBase_line, hline]
      split
      · nofun
      · assumption
    · rw [lane_setLane_self, restartBase_lane]; rfl
  refine ⟨fun k => ?_, fun m hm => ?_⟩
  · rw [startFetcher, judgeHead_line_of_detached hdetached, ← hline k]
    exact restartBase_line n c r k
  · rw [startFetcher_other (hm := Ne.symm hm), restartBase_other hm, lane_of_lanes hlanes]

/-- A lane that stands in no list owns no line after its restart. -/
theorem restartLane_avoids {s : State} {n : LaneNo} (h : ∀ k, (s.line k).lists n = false)
    (hst : (s.lane n).state ≠ .waitLine) (c : LaneConfig) (k : LineNo) : ((restartLane n c s).line k).owner ≠ some n := by
  have hreleased := releaseOwned_avoids h k
  obtain ⟨-, hfresh⟩ := releaseAndGrant_other (ownedLines s n) s n hst
  rw [restartLane_eq]
  generalize releaseAndGrant (ownedLines s n) s = r at hreleased hfresh ⊢
  have hbase : ((restartBase n c r.1).line k).avoids n := by rw [restartBase_line]; exact hreleased
  have hstate : ((startFetcher n (restartBase n c r.1)).lane n).state ≠ .waitLine := by
    rw [startFetcher_self]
    exact Lane.judged_state (by rw [restartBase_lane]; rfl) _ _ _ _ _
  have hstarted : ((startFetcher n (restartBase n c r.1)).line k).avoids n :=
    judgeHead_keepsOff n n _ _ k hbase
  generalize startFetcher n (restartBase n c r.1) = u at hstate hstarted ⊢
  obtain ⟨j, hj⟩ := inFreeOrder_state r.2 u
  refine (runAll_keepsOff n (by rw [inFreeOrder_mem]; exact hfresh) (by rw [hj]; exact hstate) k ?_).1
  rw [hj]; exact hstarted

/-! ## What the judging of the head address keeps -/

/-- The counts, the anchor and the configuration of two lanes are the same. -/
def Lane.SameCounts (l m : Lane) : Prop :=
  m.config = l.config ∧ m.executed = l.executed ∧ m.lateRuns = l.lateRuns ∧ m.skipped = l.skipped
    ∧ m.pagesRetired = l.pagesRetired ∧ m.serial = l.serial ∧ m.lastTag = l.lastTag ∧ m.anchor = l.anchor

theorem Lane.refused_counts (l : Lane) (c : FaultCode) (a : Addr) (now : Ticks) : l.SameCounts (l.refused c a now) := by
  unfold refused; split <;> exact ⟨rfl, rfl, rfl, rfl, rfl, rfl, rfl, rfl⟩

theorem Lane.judged_counts (l : Lane) (v : Addr) (ok : Bool) (now : Ticks) (st : Stall) (bad : Addr) :
    l.SameCounts (l.judged v ok now st bad) := by
  unfold judged
  split
  · exact ⟨rfl, rfl, rfl, rfl, rfl, rfl, rfl, rfl⟩
  · split
    · exact l.refused_counts _ _ _
    · split
      · unfold asked; split
        · exact ⟨rfl, rfl, rfl, rfl, rfl, rfl, rfl, rfl⟩
        · exact (l.atHeader v).refused_counts _ _ _
      · exact ⟨rfl, rfl, rfl, rfl, rfl, rfl, rfl, rfl⟩

/-- A lane just started whose head is refused: FAULTED at once (R44). -/
theorem Lane.restarted_refused (l : Lane) (c : LaneConfig) (now : Ticks) (x : Lane) (code : FaultCode) (a : Addr)
    (hx : x = l.restarted c now ∨ x = (l.restarted c now).atHeader a) :
    ((x.refused code a now).state = .faulted ∧ (x.refused code a now).fault = code ∧ (x.refused code a now).running = false
      ∧ (x.refused code a now).stall = .none ∧ (x.refused code a now).request = none ∧ (x.refused code a now).queue = []
      ∧ (l.queue = [] → (x.refused code a now).discarded = 0)
      ∧ (x.refused code a now).exceptions
          = l.exceptions ++ [{ state := .faulted, code := code, serial := 0, page := a }]) := by
  have hstate : x.state = .starved := by rcases hx with rfl | rfl <;> rfl
  have hqueue : x.queue = l.queue := by rcases hx with rfl | rfl <;> rfl
  have hdiscarded : x.discarded = 0 := by rcases hx with rfl | rfl <;> rfl
  have hexceptions : x.exceptions = l.exceptions := by rcases hx with rfl | rfl <;> rfl
  have hserial : x.serial = 0 := by rcases hx with rfl | rfl <;> rfl
  rw [refused_starved hstate]
  refine ⟨rfl, rfl, rfl, rfl, rfl, rfl, fun hq => ?_, ?_⟩
  · show x.discarded + BitVec.ofNat 32 x.queue.length = 0
    rw [hqueue, hq, hdiscarded]; rfl
  · show x.exceptions ++ [{ state := .faulted, code := code, serial := x.serial, page := a }] = _
    rw [hexceptions, hserial]

/-- The lane record as its read answers it (Table 12-1). -/
theorem laneConfigOf_eq (data : BitVec 128) :
    laneConfigOf data 0 = { head := data.extractLsb' 0 64, tolerance := data.extractLsb' 64 16, enable := data.getLsbD 80,
                            starveWarn := data.getLsbD 81 } := rfl

/-- Settles O23. -/
theorem laneRestartStartsTheLane : Obligations.LaneRestartStartsTheLane := by
  intro n data s hawaits hcommand hclosed head runs faults
  have hst : (s.lane n).state.closed = true := by rcases hclosed with h | h | h <;> rw [h] <;> rfl
  have hne : (s.lane n).state ≠ .waitLine := LaneState.closed_ne_waitLine hst
  have hcommand' : (clearEngineFlight s).engine.command = some (.laneRestart n) := hcommand
  have hexec : exec (.laneRestartReadDone data) s = .next (restartLane n (laneConfigOf data 0) (clearEngineFlight s)) := by
    refine congrArg Host.Outcome.next ((engineAnswer_awaited hawaits _).trans ?_)
    rw [laneRecordRead, hcommand']
    exact if_pos hst
  have hlane := restartLane_lane (s := clearEngineFlight s) hne (laneConfigOf data 0)
  have hfixed := restartLane_fixed n (laneConfigOf data 0) (clearEngineFlight s)
  have hfree := restartLane_free (s := clearEngineFlight s) (n := n) (c := laneConfigOf data 0)
  have howner : claimsSound s = true →
      ∀ k, ((restartLane n (laneConfigOf data 0) (clearEngineFlight s)).line k).owner ≠ some n := fun hsound =>
    restartLane_avoids (s := clearEngineFlight s)
      ((((claims_iff_of (tied := False) s).mpr ⟨hsound, nofun⟩).resting n List.not_mem_nil).rests hne) hne _
  have hconfig := laneConfigOf_eq data
  generalize laneConfigOf data 0 = c at *
  have hhead : c.head = head := by rw [hconfig]
  generalize restartLane n c (clearEngineFlight s) = t at *
  have hlane' : t.lane n = ((s.lane n).restarted c s.time.schedule).judged head (windowOk s .cueRead head 32)
      s.time.schedule .headField head := by rw [← hhead]; exact hlane
  obtain ⟨hcfg, hexecuted, hlate, hskipped, hretired, hserial, htag, hanchor⟩ :=
    Lane.judged_counts ((s.lane n).restarted c s.time.schedule) head (windowOk s .cueRead head 32) s.time.schedule .headField
      head
  rw [← hlane'] at hcfg hexecuted hlate hskipped hretired hserial htag hanchor
  refine ⟨t, hexec, (congrArg (fun f : Fixed => f.engine.command) hfixed).trans hcommand,
    congrArg (fun f : Fixed => f.engine.await) hfixed, congrArg (fun f : Fixed => f.engine.flight) hfixed, hcfg.trans hconfig,
    hexecuted, hlate, hskipped, hretired, hserial, htag, hanchor, fun h0 => ?zero, fun h => ?unaligned,
    fun h0 h hroom hok => ?started, fun h0 h hroom hbad => ?refused, congrArg Fixed.memory hfixed, congrArg Fixed.time hfixed,
    fun hwaiters => ?free, fun hsound k => ?sound⟩
  case zero =>
    rw [Lane.judged_zero _ _ _ _ _ h0] at hlane'
    exact ⟨by show (t.lane n).state = _ ∧ _; rw [hlane']; exact ⟨rfl, rfl, rfl, rfl⟩, by rw [hlane']⟩
  case unaligned =>
    rw [Lane.judged_unaligned _ _ _ _ _ h] at hlane'
    show (t.lane n).state = _ ∧ _
    rw [hlane']
    exact Lane.restarted_refused _ c _ _ .badLink head (.inl rfl)
  case started =>
    rw [hok, Lane.judged_ok ((s.lane n).restarted c s.time.schedule) _ _ _ h0 h hroom] at hlane'
    exact ⟨by show (t.lane n).state = _ ∧ _; rw [hlane']; exact ⟨rfl, rfl, rfl, rfl⟩, by rw [hlane']; rfl, by rw [hlane'], by rw [hlane']; rfl,
      by rw [hlane']; rfl⟩
  case refused =>
    rw [hbad, Lane.judged_refused ((s.lane n).restarted c s.time.schedule) _ _ _ h0 h hroom] at hlane'
    show (t.lane n).state = _ ∧ _
    rw [hlane']
    exact Lane.restarted_refused _ c _ _ .window head (.inr rfl)
  case free =>
    obtain ⟨hline, hother⟩ := hfree hwaiters
    exact ⟨fun k hk => (hline k).trans (if_pos hk), fun k hk => (hline k).trans (if_neg hk), hother⟩
  case sound => exact howner hsound k

end Sys2Proof.Machine
end

