-- ==== Sys2Proof/Proofs/StopCompletes.lean ====
section
/-!
THEOREM. STOP's last steps and the status records it waits for (R133, R152, R190, R192).
-/

namespace Sys2Proof.Machine

/-! ## The status step (R190 step 4) -/

/-- Status records have been marked stale, and nothing else has changed. -/
structure MarksStale (s t : State) : Prop where
  rest : t = { s with handed := t.handed }
  kept : ∀ it ∈ s.handed, it ∈ t.handed

theorem markStale_marks (it : StatusItem) (s : State) : MarksStale s (markStale it s) := by
  refine ⟨?_, markStale_handed_mono it s⟩
  unfold markStale
  split <;> rfl

theorem MarksStale.trans {s t u : State} (h : MarksStale s t) (h' : MarksStale t u) : MarksStale s u := by
  refine ⟨?_, fun it hit => h'.kept it (h.kept it hit)⟩
  calc u = { t with handed := u.handed } := h'.rest
    _ = { s with handed := u.handed } := by rw [h.rest]

theorem markGens_marks (gs : List GenNo) (s : State) :
    MarksStale s (State.each gs (fun g => markStale (.genStatus g)) s)
      ∧ ∀ g ∈ gs, StatusItem.genStatus g ∈ (State.each gs (fun g => markStale (.genStatus g)) s).handed := by
  induction gs generalizing s with
  | nil => exact ⟨⟨rfl, fun _ => id⟩, nofun⟩
  | cons g gs ih =>
    obtain ⟨hmarks, hmem⟩ := ih (markStale (.genStatus g) s)
    refine ⟨(markStale_marks _ s).trans hmarks, fun h hh => ?_⟩
    rcases List.mem_cons.mp hh with rfl | hh
    · exact hmarks.kept _ (mem_markStale _ _)
    · exact hmem h hh

theorem statusStep_marks (s : State) :
    StatusItem.journalStatus ∈ (statusStep s).handed ∧ (∀ g, StatusItem.genStatus g ∈ (statusStep s).handed)
      ∧ (∀ it ∈ s.handed, it ∈ (statusStep s).handed)
      ∧ statusStep s = { s with
          handed := (statusStep s).handed
          engine := { s.engine with command := some (.stop true), writes := [.partStatus false] } } := by
  have hjournal : MarksStale s (markJournal s) := markStale_marks _ s
  obtain ⟨hgens, hmem⟩ := markGens_marks allGens (markJournal s)
  have hmarks := hjournal.trans hgens
  have hjmem := hgens.kept _ (mem_markStale .journalStatus s)
  unfold statusStep; dsimp only
  generalize State.each allGens (fun g => markStale (.genStatus g)) (markJournal s) = t at *
  refine ⟨hjmem, fun g => hmem g (mem_allGens g), hmarks.kept, ?_⟩
  rw [hmarks.rest]

theorem stopDrained_of {s : State} (hc : s.engine.command = some (.stop false)) (hd : s.journal.draining = false)
    (h : ∀ n, StatusItem.laneStatus n ∉ s.handed ∧ StatusItem.retireSummary n ∉ s.handed
      ∧ StatusItem.retireOwner n ∉ s.handed) : stopDrained s = true := by
  have hany : s.handed.any StatusItem.ofLane = false := by
    rw [List.any_eq_false]
    intro it hit hof
    cases it with
    | laneStatus n => exact (h n).1 hit
    | retireSummary n => exact (h n).2.1 hit
    | retireOwner n => exact (h n).2.2 hit
    | _ => cases hof
  rw [stopDrained, hc, hd, hany]; rfl

/-! ## The float step (R190 steps 5 and 6) -/

theorem floatAll_eq (s : State) : ∃ ls gs,
    State.each allGens floatGen (State.each allLines floatLine s) = { s with lines := ls, gens := gs } := by
  have hlines : ∃ ls, State.each allLines floatLine s = { s with lines := ls } :=
    each_induct (fun t => ∃ ls, t = { s with lines := ls }) (fun k t ⟨ls, ht⟩ => by rw [ht]; exact ⟨_, rfl⟩) _ s ⟨s.lines, rfl⟩
  obtain ⟨ls, hls⟩ := hlines
  have hgens : ∃ gs, State.each allGens floatGen { s with lines := ls } = { s with lines := ls, gens := gs } :=
    each_induct (fun t => ∃ gs, t = { s with lines := ls, gens := gs }) (fun g t ⟨gs, ht⟩ => by rw [ht]; exact ⟨_, rfl⟩) _ _
      ⟨s.gens, rfl⟩
  obtain ⟨gs, hgs⟩ := hgens
  exact ⟨ls, gs, by rw [hls, hgs]⟩

/-- The state that STOP's completion answers for. -/
theorem floatStep_completes {s : State} (hc : s.engine.command = some (.stop true)) :
    ∃ u : State, Completes u (floatStep s) (.stop true) .done ∧ (∃ ls gs, u = { s with part := .config, lines := ls, gens := gs })
      ∧ (∀ k, u.line k = { s.line k with mode := .float, owner := none, waiters := [] })
      ∧ ∀ g, u.gen g = (s.gen g).atFloat := by
  obtain ⟨ls, gs, heq⟩ := floatAll_eq s
  have hlines : ∀ k, (State.each allGens floatGen (State.each allLines floatLine s)).line k
      = { s.line k with mode := .float, owner := none, waiters := [] } := fun k =>
    (each_keeps (fun t => t.line k) (f := floatGen) (fun _ _ => rfl) allGens _).trans (floatLines_line s k)
  have hgens : ∀ g, (State.each allGens floatGen (State.each allLines floatLine s)).gen g = (s.gen g).atFloat := fun g => by
    rw [floatGens_gen]
    exact congrArg Generator.atFloat (gen_of_gens (each_keeps State.gens (f := floatLine) (fun _ _ => rfl) _ _) g)
  unfold floatStep; dsimp only
  generalize State.each allGens floatGen (State.each allLines floatLine s) = v at *
  refine ⟨{ v with part := .config }, completeCommand_completes ?_ .done, ⟨ls, gs, by rw [heq]⟩, hlines, hgens⟩
  show v.engine.command = _
  rw [heq]; exact hc

theorem stopWritten_of {s : State} (hc : s.engine.command = some (.stop true)) (hw : s.engine.writes = [])
    (hh : ∀ it ∈ s.handed, it.isNotice = true) (hp : ∀ w ∈ s.port.path, w.tag ≠ .data) : stopWritten s = true := by
  have hall : s.handed.all StatusItem.isNotice = true := List.all_eq_true.mpr hh
  have hany : s.port.path.any Write.ofStop = false := List.any_eq_false.mpr fun w hw' hof => hp w hw' (of_decide_eq_true hof)
  rw [stopWritten, hc, hw, hall, hany]; rfl

/-- Settles O21, step by step and record by record. -/
theorem stopTakesItsStepsAndCompletes : Obligations.StopTakesItsStepsAndCompletes := by
  intro s
  refine ⟨fun hs hc hd hh => ?status, fun hs hc hw hh hp => ?float, ?journal, fun g => ?generator, fun opened hc => ?part,
    fun opened => partStatusBytes_fields opened s.engine.session s.time.schedule⟩
  case status => exact ⟨_, whenEvent_of_ready hs (stopDrained_of hc hd hh) _, statusStep_marks s⟩
  case float =>
    have hexec : exec .stopFloatStep s = .next (floatStep s) := whenEvent_of_ready hs (stopWritten_of hc hw hh hp) _
    obtain ⟨u, ⟨hengine, hdetails, -, hrest⟩, ⟨ls, gs, hu⟩, hlines, hgens⟩ := floatStep_completes hc
    generalize floatStep s = t at *
    refine ⟨t, hexec, ?_, by rw [hengine]; rfl, by rw [hengine]; rfl, by rw [hengine]; rfl, by rw [hengine]; rfl, fun k => ?_,
      fun g => ?_, hdetails, ?_, ?_, ?_, ?_, ?_, ?_, ?_⟩
    · rw [hrest, hu]
    · exact (line_of_lines (congrArg State.lines hrest :) k).trans (hlines k)
    · exact (gen_of_gens (congrArg State.gens hrest :) g).trans (hgens g)
    · rw [hrest, hu]
    · rw [hrest, hu]
    · rw [hrest, hu]
    · rw [hrest, hu]
    · rw [hrest, hu]
    · rw [hrest, hu]
    · rw [hrest, hu]
  case journal =>
    obtain ⟨hstate, hstall, hfault, hindex, hfifo, hflush, hpage, hrest⟩ := s.journal.statusBytes_fields s.time.schedule
    refine ⟨_, issueJournalStatus_path { s with handed := s.handed.tail }, rfl, s.journal.statusBytes_length _, rfl, hstate,
      hstall, hfault, fun a i h => ⟨hindex.trans ?_, hpage.trans ?_⟩, fun h => hpage.trans ?_, hfifo, hflush, hrest⟩
    · rw [Journal.pageFields, h]; rfl
    · rw [Journal.pageFields, h]; rfl
    · rw [Journal.pageFields, h]; rfl
  case generator =>
    obtain ⟨hsome, hnone⟩ := (s.gen g).boundByte_toNat
    obtain ⟨hstate, hflags, hbound, hrest⟩ := (s.gen g).statusBytes_fields s.time.schedule
    exact ⟨_, issueGenStatus_path g { s with handed := s.handed.tail }, rfl, (s.gen g).statusBytes_length _, rfl, hstate, hflags,
      fun k h => hbound.trans (hsome k h), fun h => hbound.trans (hnone h), hrest⟩
  case part => exact ⟨_, issueEngineWrite_path hc _, rfl, rfl, rfl⟩

end Sys2Proof.Machine
end

