-- ==== Sys2Proof/Proofs/Postings.lean ====
section
/-!
THEOREM. A posting in its slot, and the two writes that carry a slot to memory (R158, R159, R197).
-/

namespace Sys2Proof.Machine

/-! ## The second write of a pair -/

theorem mem_handSecond (must : StatusItem → Bool) (it : StatusItem) (k : Nat) (xs : List StatusItem) :
    it ∈ handSecond must it k xs := by
  induction xs generalizing k with
  | nil => rw [handSecond]; exact List.mem_singleton_self it
  | cons x rest ih =>
    cases k with
    | zero => exact List.mem_cons_self
    | succ k =>
      rw [handSecond]
      split
      · exact List.mem_cons_self
      · exact List.mem_cons_of_mem x (ih k)

theorem mem_handOwner (must : StatusItem → Bool) (it : StatusItem) (s : State) : it ∈ (handOwner must it s).handed := by
  unfold handOwner
  split
  · exact List.mem_singleton_self it
  · exact mem_handSecond must it _ _

/-- Only the list of the status writer differs, and what the free values are drawn from. -/
theorem handOwner_rest (must : StatusItem → Bool) (it : StatusItem) (s : State) :
    handOwner must it s
      = { s with handed := (handOwner must it s).handed, choices := (handOwner must it s).choices } := by
  unfold handOwner
  split <;> rfl

theorem handOwner_notice (must : StatusItem → Bool) (it : StatusItem) (s : State) :
    (handOwner must it s).notice = s.notice := (congrArg State.notice (handOwner_rest must it s) :)

theorem noteDetails_notice (k : SlotNo) (s : State) : (noteDetails k s).notice = s.notice := by
  unfold noteDetails
  split
  · rfl
  · split <;> rfl

theorem noteCount_notice (k : SlotNo) (s : State) : (noteCount k s).notice = s.notice := by
  unfold noteCount
  split
  · exact followLink_notice s
  · split <;> rfl

theorem port_of_engineOnly {s t : State} (h : EngineOnly s t) : t.port = s.port := congrArg Fixed.port h

/-! ## A posting (R158) -/

theorem post_notice (k : SlotNo) (d : Details) (s : State) :
    (post k d s).notice = { s.notice with
      slots := s.notice.slots.set k ((s.slot k).afterPosting d)
      issueQueue := if (s.slot k).writeDue then s.notice.issueQueue else s.notice.issueQueue ++ [k] } := by
  unfold post; dsimp only
  rw [handNotice_notice]; rfl

theorem Slot.afterPosting_counts (x : Slot) (d : Details) :
    (x.sequence - x.acknowledged ≠ 0xFFFFFF#24 → (x.afterPosting d).sequence = x.sequence + 1)
      ∧ (x.sequence - x.acknowledged = 0xFFFFFF#24 → (x.afterPosting d).sequence = x.sequence) := by
  have hlimit : x.atLimit = decide (x.sequence - x.acknowledged = 0xFFFFFF#24) := rfl
  refine ⟨fun h => ?_, fun h => ?_⟩ <;> simp [afterPosting, hlimit, h]

/-! ## The details write (R159 step 1, R197) -/

/-- The details write of a slot. -/
def detailsWrite (k : SlotNo) (s : State) : Write :=
  { dataWrite (exbOffset s (noticeSlotOffset k + 4)) (detailsBytes s (s.slot k).details) with tag := .notice }

theorem issueNoticeDetails_path (k : SlotNo) (s : State) :
    (issueNoticeDetails k s).port.path = s.port.path ++ [detailsWrite k s] := by
  unfold issueNoticeDetails; dsimp only
  rw [port_of_fixed (handOwner_fixed _ _ _), port_of_engineOnly (noteDetails_engineOnly k _)]; rfl

theorem issueNoticeDetails_notice (k : SlotNo) (s : State) :
    (issueNoticeDetails k s).notice = { s.notice with
      slots := s.notice.slots.set k { s.slot k with writeDue := false }
      issueQueue := s.notice.issueQueue.filter fun q => q ≠ k
      inProgress := some (k, (s.slot k).sequence) } := by
  unfold issueNoticeDetails; dsimp only
  rw [handOwner_notice, noteDetails_notice]; rfl

theorem noticeSlotOffset_details (k : SlotNo) : noticeSlotOffset k + 4 = 0x304 + 32 * k.val := by
  rw [noticeSlotOffset]; omega

/-! ## The count write (R159 step 2) -/

theorem issueNoticeCount_written {k : SlotNo} {c : Count24} {s : State} (h : s.notice.inProgress = some (k, c)) :
    (issueNoticeCount k s).notice.inProgress = none
      ∧ (issueNoticeCount k s).port.path = s.port.path
        ++ [{ dataWrite (exbOffset s (noticeSlotOffset k)) (countBytes c) with tag := countTag s k c }] := by
  unfold issueNoticeCount
  rw [h]; dsimp only
  rw [if_pos rfl, handNotice_notice, noteCount_notice, port_of_fixed (handNotice_fixed _),
    port_of_engineOnly (noteCount_engineOnly k _)]
  exact ⟨rfl, rfl⟩

/-! ## The settled statement -/

/-- The status writer's list has given its first item. -/
def headTaken (s : State) : State :=
  { s with handed := s.handed.tail }

theorem detailsBytes_headTaken (s : State) (d : Details) : detailsBytes (headTaken s) d = detailsBytes s d := by
  cases d <;> rfl

/-- The details write as the status writer issues it. -/
theorem issueAccess_noticeDetails (k : SlotNo) (s : State) :
    issueAccess (.status (.noticeDetails k)) s = issueNoticeDetails k (headTaken s) := rfl

theorem issueAccess_noticeCount (k : SlotNo) (s : State) :
    issueAccess (.status (.noticeCount k)) s = issueNoticeCount k (headTaken s) := rfl

/-- Settles O51: the posting, the details write with its fields, and the count write. -/
theorem postingsRaiseAndWritesFixTheCount : Obligations.PostingsRaiseAndWritesFixTheCount := by
  intro k s
  rw [issueAccess_noticeDetails, issueAccess_noticeCount]
  refine ⟨fun d => ?posting, ?details, ⟨detailsWrite k (headTaken s), issueNoticeDetails_path k _, ?place,
    detailsBytes_length _ _, rfl, ?fields⟩, fun c hc hstart => ?count⟩
  case posting =>
    obtain ⟨hbelow, hlimit⟩ := (s.slot k).afterPosting_counts d
    have hqueue := (congrArg NoticeUnit.issueQueue (post_notice k d s) :)
    rw [post_slot, if_pos rfl]
    refine ⟨rfl, rfl, hbelow, hlimit, rfl, rfl, fun hdue => ?_, fun hdue => ?_, fun j hj => ?_,
      (congrArg NoticeUnit.gather (post_notice k d s) :)⟩
    · rw [hqueue, hdue]; rfl
    · rw [hqueue, hdue]; rfl
    · rw [post_slot, if_neg (Ne.symm hj)]
  case details =>
    refine ⟨?_, ?_, ?_, mem_handOwner _ _ _⟩
    · rw [issueNoticeDetails_notice]; rfl
    · rw [State.slot, issueNoticeDetails_notice]; exact slot_setSlot_self s k { s.slot k with writeDue := false }
    · rw [issueNoticeDetails_notice]; simp
  case place =>
    show exbAddr s + BitVec.ofNat 64 (noticeSlotOffset k + 4) = _
    rw [noticeSlotOffset_details]
  case fields =>
    have hbytes : (detailsWrite k (headTaken s)).bytes = detailsBytes s (s.slot k).details :=
      detailsBytes_headTaken s (s.slot k).details
    rw [hbytes]
    cases (s.slot k).details with
    | cleared => exact fun b hb => (List.mem_replicate.mp hb).2
    | progress serial tag => simp [detailsBytes]
    | exception e => simp [detailsBytes, LaneState.code_mod, FaultCode.code_mod]
    | journalReady page count => simp [detailsBytes]
    | journalTrouble total code => simp [detailsBytes, FaultCode.code_mod]
    | generator st period => simp [detailsBytes, GenState.code_mod]
    | timeMark time => simp [detailsBytes]
    | command code operand outcome => simp [detailsBytes, CmdOutcome.code_mod]
    | starvation =>
      intro field n
      have hmask : field 8 1 = starvationMask s % 256 := by simp [field, detailsBytes]
      rw [hmask, starvationMask_testBit]; rfl
    | alignment old new => simp [detailsBytes]
  case count =>
    obtain ⟨hdone, hpath⟩ := issueNoticeCount_written (s := headTaken s) hc
    refine ⟨hdone, hpath.trans ?_⟩
    rw [countTag, if_neg (show ¬ (headTaken s).engine.command = _ from hstart)]; rfl

end Sys2Proof.Machine
end

