-- ==== Sys2Proof/Proofs/RecordWrites.lean ====
section
/-!
THEOREM. The journal's record writes and the writes that give a page back to the host (R49, R143 to R147, R153, R197).
-/

namespace Sys2Proof.Machine

/-! ## The drain after a record (R153) -/

/-- The journal neither is FAULTED nor stalls in a drain: only an empty FIFO may end the drain. -/
def Journal.Flows (j : Journal) : Prop :=
  j.draining = false ∨ j.state ≠ .faulted ∧ j.stall = .none

theorem drainCheck_flowing {s : State} (h : s.journal.Flows) (hmore : s.journal.draining = false ∨ s.journal.fifo ≠ []) :
    drainCheck s = s := by
  rcases hmore with hnot | hfifo
  · exact drainCheck_of_not hnot
  · rcases h with hnot | ⟨hstate, hstall⟩
    · exact drainCheck_of_not hnot
    · unfold drainCheck; dsimp only
      simp [hstate, hstall, hfifo]

theorem drainCheck_emptied {s : State} (hdrain : s.journal.draining = true) (hstate : s.journal.state ≠ .faulted)
    (hstall : s.journal.stall = .none) (hfifo : s.journal.fifo = []) :
    drainCheck s = endDrain (closePage .stopped s) := by
  unfold drainCheck; dsimp only
  simp [hdrain, hstate, hstall, hfifo]

theorem drainCheck_fifo {s : State} (h : s.journal.Flows) : (drainCheck s).journal.fifo = s.journal.fifo := by
  by_cases hmore : s.journal.draining = false ∨ s.journal.fifo ≠ []
  · rw [drainCheck_flowing h hmore]
  · rw [not_or, Bool.not_eq_false, ne_eq, not_not] at hmore
    obtain ⟨hdrain, hfifo⟩ := hmore
    obtain ⟨hstate, hstall⟩ := h.resolve_left (ne_false_of_eq_true hdrain)
    rw [drainCheck_emptied hdrain hstate hstall hfifo, endDrain_journal, hfifo]; rfl

/-! ## A page that closes (R144) -/

/-- The journal whose current page has closed. -/
def Journal.closedAs (j : Journal) (a : Addr) (count : Nat) (code : EndCode) (now : Ticks) : Journal :=
  { j.pageClosed (j.closingOf a count code now) with state := .starved }

theorem closePage_closedAs {s : State} {a : Addr} {i : Nat} (h : s.journal.page = some (a, i)) (code : EndCode) :
    (closePage code s).journal = s.journal.closedAs a i code s.time.schedule := (closePage_journal h code).1

theorem Journal.Flows.closedAs {j : Journal} (h : j.Flows) (a : Addr) (i : Nat) (code : EndCode) (now : Ticks) :
    (j.closedAs a i code now).Flows := h.imp id fun h => ⟨nofun, h.2⟩

theorem endDrain_closePage {s : State} {a : Addr} {i : Nat} (h : s.journal.page = some (a, i)) :
    (endDrain (closePage .stopped s)).journal
      = { (s.journal.closedAs a i .stopped s.time.schedule).drained with state := .off, stall := .none } := by
  rw [endDrain_journal, closePage_closedAs h]

/-! ## After a record write (R143, R146) -/

/-- The closes that the issue of a record brings, by the record index and the flush request before it. -/
def closedByRecord (index requested : Nat) (s : State) : State :=
  if Config.recordsPerPage ≤ index + 1 then closePage .full s
  else if requested = 1 then closeFlushed s
  else s

theorem afterRecord_split (a : Addr) (i : Nat) (s : State) :
    afterRecord a i s = drainCheck (closedByRecord i s.journal.flushRequest
      (s.setJournal (s.journal.recordIssued a i s.time.elapsed))) := by
  unfold afterRecord closedByRecord; dsimp only
  split
  · rfl
  · split <;> rfl

theorem recordsLeft {i : Nat} (hi : i < 29) : ¬ Config.recordsPerPage ≤ i + 1 := by
  have hthirty : Config.recordsPerPage = 30 := rfl
  omega

section
variable {s : State} {a : Addr} {i n requested : Nat}

theorem closedByRecord_full (h : s.journal.page = some (a, n)) (hi : 29 ≤ i) :
    (closedByRecord i requested s).journal = s.journal.closedAs a n .full s.time.schedule := by
  rw [closedByRecord, if_pos (show Config.recordsPerPage ≤ i + 1 from Nat.succ_le_succ hi), closePage_closedAs h]

theorem closedByRecord_more (hi : i < 29) (hr : requested ≠ 1) : closedByRecord i requested s = s := by
  rw [closedByRecord, if_neg (recordsLeft hi), if_neg hr]

theorem closedByRecord_flushed (h : s.journal.page = some (a, n)) (hi : i < 29) :
    (closedByRecord i 1 s).journal = s.journal.closedAs a n .flushed s.time.schedule
      ∨ flushTimerDue s = true
        ∧ (closedByRecord i 1 s).journal = s.journal.closedAs a n .timed s.time.schedule := by
  rw [closedByRecord, if_neg (recordsLeft hi), if_pos rfl, closeFlushed]
  cases flushTimerDue s with
  | false => exact .inl (closePage_closedAs h _)
  | true =>
    rw [if_pos rfl]; dsimp only
    have hpage : (s.drawBelow 2).2.journal.page = some (a, n) := h
    split
    · exact .inl (closePage_closedAs hpage _)
    · exact .inr ⟨rfl, closePage_closedAs hpage _⟩

/-- The FIFO is what the record left, and the drain still waits for it alone. -/
theorem closedByRecord_flows (h : s.journal.page = some (a, n)) (hf : s.journal.Flows) :
    (closedByRecord i requested s).journal.Flows
      ∧ (closedByRecord i requested s).journal.draining = s.journal.draining
      ∧ (closedByRecord i requested s).journal.fifo = s.journal.fifo := by
  rcases Nat.lt_or_ge i 29 with hlt | hfull
  · by_cases hr : requested = 1
    · subst hr
      rcases closedByRecord_flushed h hlt with hj | ⟨-, hj⟩
      · rw [hj]; exact ⟨hf.closedAs _ _ _ _, rfl, rfl⟩
      · rw [hj]; exact ⟨hf.closedAs _ _ _ _, rfl, rfl⟩
    · rw [closedByRecord_more hlt hr]; exact ⟨hf, rfl, rfl⟩
  · rw [closedByRecord_full h hfull]; exact ⟨hf.closedAs _ _ _ _, rfl, rfl⟩

end

/-- A flush timer that starts now has not expired: the interval is short of half the count's range. -/
theorem reached_flush_start {interval : Half} (h : interval ≠ 0) (now : Ticks) :
    reached now (Ticks.after now (Config.ticksPerFlushUnit * interval.toNat)) = false := by
  have hpos : interval.toNat ≠ 0 := fun hz => h (BitVec.eq_of_toNat_eq hz)
  have hlt := interval.isLt
  have hunit : Config.ticksPerFlushUnit = 2000 := rfl
  have hback : now - (now + BitVec.ofNat 48 (2000 * interval.toNat)) = -BitVec.ofNat 48 (2000 * interval.toNat) := by
    rw [← sub_sub, sub_self, zero_sub]
  have hshort : 2000 * interval.toNat % 2 ^ 48 = 2000 * interval.toNat := Nat.mod_eq_of_lt (by omega)
  rw [reached, Ticks.after, hunit, hback, BitVec.toNat_neg, BitVec.toNat_ofNat, hshort, Nat.mod_eq_of_lt (by omega)]
  simp only [decide_eq_false_iff_not]
  omega

theorem flushTimerDue_recordIssued {s : State} {a : Addr} {i : Nat}
    (h : flushTimerDue (s.setJournal (s.journal.recordIssued a i s.time.elapsed)) = true) :
    ∃ e, s.journal.flushTimer = some e ∧ reached s.time.elapsed e = true := by
  have hdue : ∃ e, (s.journal.recordIssued a i s.time.elapsed).flushTimer = some e ∧ reached s.time.elapsed e = true := by
    simp only [flushTimerDue, Bool.and_eq_true] at h
    obtain ⟨-, h⟩ := h
    split at h
    · cases h
    · rename_i e he
      exact ⟨e, he, (Bool.and_eq_true _ _ ▸ h).2⟩
  obtain ⟨e, he, hreached⟩ := hdue
  rw [Journal.recordIssued] at he; dsimp only at he
  split at he
  · rename_i hstart
    simp only [Bool.and_eq_true, decide_eq_true_eq] at hstart
    obtain ⟨⟨-, hinterval⟩, -⟩ := hstart
    cases he
    rw [reached_flush_start hinterval] at hreached; cases hreached
  · exact ⟨e, he, hreached⟩

/-! ## The record write (R143) -/

/-- The record's write has joined the path and the record has left the FIFO. -/
def recordLeft (a : Addr) (i : Nat) (r : CaptureRecord) (s : State) : State :=
  (issueWrite (dataWrite (recordAddr a i) r.bytes) s).setJournal (s.journal.recordIssued a i s.time.elapsed)

theorem issueRecord_passes {s : State} {a : Addr} {i : Nat} {r : CaptureRecord} {rest : List CaptureRecord}
    (hpage : s.journal.page = some (a, i)) (hfifo : s.journal.fifo = r :: rest)
    (hw : windowOk s .journal (recordAddr a i) 16 = true) :
    issueRecord s = drainCheck (closedByRecord i s.journal.flushRequest (recordLeft a i r s)) := by
  rw [issueRecord, hpage, hfifo]
  exact (if_pos hw).trans (afterRecord_split a i (issueWrite (dataWrite (recordAddr a i) r.bytes) s))

theorem issueRecord_kept {s : State} {a : Addr} {i : Nat} {r : CaptureRecord} {rest : List CaptureRecord}
    (hpage : s.journal.page = some (a, i)) (hfifo : s.journal.fifo = r :: rest)
    (hw : windowOk s .journal (recordAddr a i) 16 = true) :
    (issueRecord s).fixed = (recordLeft a i r s).fixed ∧ (issueRecord s).lanes = s.lanes := by
  rw [issueRecord, hpage, hfifo]; dsimp only
  rw [if_pos hw, afterRecord_fixed, afterRecord_lanes]
  exact ⟨rfl, rfl⟩

theorem issueRecord_refused {s : State} {a : Addr} {i : Nat} {r : CaptureRecord} {rest : List CaptureRecord}
    (hpage : s.journal.page = some (a, i)) (hfifo : s.journal.fifo = r :: rest)
    (hw : windowOk s .journal (recordAddr a i) 16 = false) :
    issueRecord s = journalFault .window (some a) s := by
  rw [issueRecord, hpage, hfifo]; exact if_neg (ne_true_of_eq_false hw)

section
variable {s : State} {a : Addr} {i : Nat} {r : CaptureRecord} {rest : List CaptureRecord}
  (hpage : s.journal.page = some (a, i)) (hfifo : s.journal.fifo = r :: rest)
  (hw : windowOk s .journal (recordAddr a i) 16 = true)
include hpage hfifo hw

theorem issueRecord_fifo (hflows : s.journal.Flows) : (issueRecord s).journal.fifo = rest := by
  obtain ⟨hclosed, -, hleft⟩ := closedByRecord_flows (s := recordLeft a i r s) (a := a) (n := i + 1) (i := i)
    (requested := s.journal.flushRequest) rfl hflows
  rw [issueRecord_passes hpage hfifo hw, drainCheck_fifo hclosed, hleft]
  exact congrArg List.tail hfifo

/-- A record that leaves others behind it, or outside the drain: what closes is what the record closes. -/
theorem issueRecord_journal (hflows : s.journal.Flows) (hmore : s.journal.draining = false ∨ rest ≠ []) :
    (issueRecord s).journal = (closedByRecord i s.journal.flushRequest (recordLeft a i r s)).journal := by
  obtain ⟨hclosed, hdrain, hleft⟩ := closedByRecord_flows (s := recordLeft a i r s) (a := a) (n := i + 1) (i := i)
    (requested := s.journal.flushRequest) rfl hflows
  have hrest : (recordLeft a i r s).journal.fifo = rest := congrArg List.tail hfifo
  rw [issueRecord_passes hpage hfifo hw, drainCheck_flowing hclosed]
  rw [hdrain, hleft, hrest]; exact hmore

/-- The last record of a drain: its page closes STOPPED and the journal is OFF. -/
theorem issueRecord_last (hdrain : s.journal.draining = true) (hstate : s.journal.state ≠ .faulted)
    (hstall : s.journal.stall = .none) (hrest : rest = []) (hi : i < 29) (hrequest : s.journal.flushRequest ≠ 1) :
    (issueRecord s).journal
      = { ((recordLeft a i r s).journal.closedAs a (i + 1) .stopped s.time.schedule).drained with
          state := .off, stall := .none } := by
  have hempty : (recordLeft a i r s).journal.fifo = [] := (congrArg List.tail hfifo).trans hrest
  rw [issueRecord_passes hpage hfifo hw, closedByRecord_more hi hrequest]
  rw [drainCheck_emptied (s := recordLeft a i r s) hdrain hstate hstall hempty]
  exact endDrain_closePage (s := recordLeft a i r s) rfl

end

/-! ## The writes of a page that retires (R49) -/

theorem issueRetireSummary_writes {s : State} {n : LaneNo} {p : PageEntry} {rest : List PageEntry} {code : EndCode}
    {time : Ticks} (hpages : (s.lane n).pages = p :: rest) (hretiring : p.retiring = some (code, time)) :
    issueRetireSummary n s = handOwner (behindRetirement n) (.retireOwner n)
      (issueWrite (dataWrite (pageOffset p.addr 16) (p.summaryBytes code time)) s) := by
  rw [issueRetireSummary, hpages]; dsimp only
  rw [hretiring]

theorem Lane.asked_counts (l : Lane) (r : FetchRead) (ok : Bool) (a : Addr) (now : Ticks) :
    (l.asked r ok a now).pagesRetired = l.pagesRetired ∧ (l.asked r ok a now).lastTag = l.lastTag := by
  unfold asked refused
  split
  · exact ⟨rfl, rfl⟩
  · split <;> exact ⟨rfl, rfl⟩

theorem Lane.asked_pages {l : Lane} {ok : Bool} (h : l.state ≠ .starved ∨ ok = true) (r : FetchRead) (a : Addr)
    (now : Ticks) : (l.asked r ok a now).pages = l.pages := by
  cases ok with
  | true => rfl
  | false => rw [asked_refused l r rfl, refused_other (h.resolve_right Bool.false_ne_true)]

/-- A header read that waited for room: the lane as before, or the lane that asks for the header. -/
theorem presentWaitingHeader_lane (n : LaneNo) (s : State) :
    (presentWaitingHeader n s).lane n
      = if ((s.lane n).walking && (s.lane n).step = .header) && decide ((s.lane n).pages.length < 17) then
          (s.lane n).asked .header (windowOk s .cueRead (s.lane n).nextAddr 32) (s.lane n).nextAddr s.time.schedule
        else s.lane n := by
  unfold presentWaitingHeader
  cases ((s.lane n).walking && decide ((s.lane n).step = .header)) with
  | false => rfl
  | true =>
    rw [if_pos rfl, Bool.true_and]
    split
    · rename_i hroom; exact presentHeader_lane (of_decide_eq_true hroom)
    · rename_i hroom; rw [presentHeader_full (fun h => hroom (decide_eq_true h))]

/-- The lane after its oldest page has left and a header read that waited for room is judged. -/
def Lane.pageLeft (l : Lane) (p : PageEntry) (ok : Bool) (now : Ticks) : Lane :=
  if ((l.pageRetired p).walking && l.step = .header) && decide (l.pages.tail.length < 17) then
    (l.pageRetired p).asked .header ok l.nextAddr now
  else l.pageRetired p

theorem Lane.pageLeft_counts (l : Lane) (p : PageEntry) (ok : Bool) (now : Ticks) :
    (l.pageLeft p ok now).pagesRetired = l.pagesRetired + 1 ∧ (l.pageLeft p ok now).lastTag = p.tag := by
  unfold pageLeft
  split
  · exact Lane.asked_counts (l.pageRetired p) _ _ _ _
  · exact ⟨rfl, rfl⟩

theorem Lane.pageLeft_pages {l : Lane} {ok : Bool}
    (h : l.running = false ∨ l.state ≠ .starved ∨ l.step ≠ .header ∨ ok = true) (p : PageEntry) (now : Ticks) :
    (l.pageLeft p ok now).pages = l.pages.tail := by
  unfold pageLeft
  split
  · rename_i hdue
    simp only [Bool.and_eq_true, decide_eq_true_eq] at hdue
    obtain ⟨⟨hwalking, hstep⟩, -⟩ := hdue
    simp only [Lane.walking, Bool.and_eq_true] at hwalking
    obtain ⟨⟨hrunning, -⟩, -⟩ := hwalking
    rcases h with hoff | hstate | hother | hok
    · exact absurd hrunning (ne_true_of_eq_false hoff)
    · exact Lane.asked_pages (l := l.pageRetired p) (.inl hstate) _ _ _
    · exact absurd hstep hother
    · exact Lane.asked_pages (l := l.pageRetired p) (.inr hok) _ _ _
  · rfl

theorem Lane.pageLeft_request {l : Lane} (hrunning : l.running = true) (hstall : l.stall = .none) (hrequest : l.request = none)
    (hflight : l.flight = none) (hstep : l.step = .header) (hroom : l.pages.tail.length < 17) (p : PageEntry) (now : Ticks) :
    (l.pageLeft p true now).request = some .header := by
  have hwalking : (l.pageRetired p).walking = true := by
    simp [walking, noRead, pageRetired, hrunning, hstall, hrequest, hflight]
  have hdue : ((l.pageRetired p).walking && l.step = .header) && decide (l.pages.tail.length < 17) := by
    rw [hwalking, hstep, decide_eq_true hroom]; rfl
  rw [pageLeft, if_pos hdue]; rfl

/-- The state whose oldest page of lane n has got its owner write. -/
theorem issueRetireOwner_presents {s : State} {n : LaneNo} {p : PageEntry} {rest : List PageEntry}
    (hpages : (s.lane n).pages = p :: rest) :
    ∃ u : State, issueRetireOwner n s = presentWaitingHeader n u
      ∧ u.fixed = (issueWrite (dataWrite p.addr ownerDoneBytes) s).fixed
      ∧ u.lane n = (s.lane n).pageRetired p ∧ ∀ m, m ≠ n → u.lane m = s.lane m := by
  rw [issueRetireOwner, hpages]; dsimp only
  generalize hv : (issueWrite (dataWrite p.addr ownerDoneBytes) s).setLane n _ = v
  have hfixed : v.fixed = (issueWrite (dataWrite p.addr ownerDoneBytes) s).fixed := by rw [← hv]; rfl
  have hself : v.lane n = (s.lane n).pageRetired p := by rw [← hv, lane_setLane_self]; rfl
  have hother : ∀ m, m ≠ n → v.lane m = s.lane m := fun m hm => by
    rw [← hv, lane_setLane_ne _ (Ne.symm hm)]; rfl
  refine ⟨_, rfl, ?_, ?_, fun m hm => ?_⟩
  · split
    · rw [postProgress_fixed, hfixed]
    · exact hfixed
  · split
    · rw [postProgress_lane, hself]
    · exact hself
  · split
    · rw [postProgress_lane, hother m hm]
    · exact hother m hm

theorem issueCloseSummary_writes {s : State} {c : Closing} {rest : List Closing} (h : s.journal.closing = c :: rest) :
    issueCloseSummary s = handOwner (fun it => it = .closeSummary) .closeOwner
      (issueWrite (dataWrite (pageOffset c.addr 16) c.summaryBytes) s) := by
  rw [issueCloseSummary, h]

theorem issueCloseOwner_writes {s : State} {c : Closing} {rest : List Closing} (h : s.journal.closing = c :: rest) :
    issueCloseOwner s = post readySlot (.journalReady c.addr c.count)
      ((issueWrite (dataWrite c.addr ownerDoneBytes) s).setJournal (s.journal.ownerIssued c)) := by
  rw [issueCloseOwner, h]; rfl

/-! ## The settled statement -/

/-- Settles O54: the record and what it closes, the retirement's pair of writes, the close's pair, and the record's bytes. -/
theorem recordAndRetirementWritesAreIssued : Obligations.RecordAndRetirementWritesAreIssued := by
  intro s
  refine ⟨fun a i r rest hpage hfifo => ?record, fun n p rest code time hpages hretiring => ?retirement,
    fun c rest hclosing => ?closing, fun r => ⟨r.bytes_length, ?bytes⟩⟩
  case record =>
    intro place t close
    refine ⟨fun hw hdrain => ?refused, fun hw => ?passes⟩
    case refused =>
      have ht : t = journalFault .window (some a) s := issueRecord_refused hpage hfifo hw
      rw [ht, journalFault_journal hdrain, port_of_fixed (journalFault_fixed _ _ s)]
      exact ⟨rfl, rfl, rfl, rfl, rfl⟩
    case passes =>
      obtain ⟨hfixed, hlanes⟩ := issueRecord_kept hpage hfifo hw
      have hflows : s.journal.draining = false ∨ s.journal.state = .filling ∧ s.journal.stall = .none → s.journal.Flows :=
        Or.imp id fun h => ⟨by rw [h.1]; nofun, h.2⟩
      have hmore : s.journal.Flows → (s.journal.draining = false ∨ rest ≠ []) →
          t.journal = (closedByRecord i s.journal.flushRequest (recordLeft a i r s)).journal :=
        issueRecord_journal hpage hfifo hw
      refine ⟨congrArg (fun f : Fixed => f.port.path) hfixed, hlanes, congrArg Fixed.memory hfixed,
        fun h => issueRecord_fifo hpage hfifo hw (hflows h), fun hdrain hi hrequest => ?goesOn,
        fun hdrain hi hrequest => ?flushed, fun hdrain hi => ?full, fun hdrain hstate hstall hrequest =>
          ⟨fun hrest hi => ?drainGoesOn, fun hrest hi => ?drainEnds, fun hrest hi => ?drainFull⟩⟩
      case goesOn =>
        have hj := hmore (.inl hdrain) (.inl hdrain)
        rw [closedByRecord_more hi hrequest] at hj
        rw [hj]
        refine ⟨rfl, rfl, rfl, rfl, fun h0 hinterval => ?_, fun h0 => ?_⟩
        · exact if_pos (by simp [h0, hdrain]; exact hinterval)
        · exact if_neg (by simp [h0])
      case flushed =>
        have hj := hmore (.inl hdrain) (.inl hdrain)
        have hzero : s.journal.flushRequest - 1 = 0 := by rw [hrequest]
        rw [hrequest] at hj
        rcases closedByRecord_flushed (s := recordLeft a i r s) rfl hi with hclosed | ⟨hdue, hclosed⟩
        · rw [hj, hclosed]; exact ⟨rfl, rfl, hzero, .inl rfl⟩
        · rw [hj, hclosed]
          exact ⟨rfl, rfl, hzero, .inr ⟨flushTimerDue_recordIssued hdue, rfl⟩⟩
      case full =>
        have hj := hmore (.inl hdrain) (.inl hdrain)
        rw [closedByRecord_full (s := recordLeft a i r s) rfl (Nat.le_of_eq hi.symm), hi] at hj
        rw [hj]; exact ⟨rfl, rfl, rfl⟩
      case drainGoesOn =>
        have hj := hmore (hflows (.inr ⟨hstate, hstall⟩)) (.inr hrest)
        rw [closedByRecord_more hi (by rw [hrequest]; nofun)] at hj
        rw [hj]; exact ⟨rfl, hdrain, if_neg (by simp [hdrain])⟩
      case drainEnds =>
        have hj : t.journal = _ := issueRecord_last hpage hfifo hw hdrain (by rw [hstate]; nofun) hstall hrest hi
          (by rw [hrequest]; nofun)
        rw [hj]
        exact ⟨rfl, rfl, rfl, s.journal.closing.map fun c : Closing => { c with follow := false },
          List.map_append (l₁ := s.journal.closing)⟩
      case drainFull =>
        have hj := hmore (hflows (.inr ⟨hstate, hstall⟩)) (.inr hrest)
        rw [closedByRecord_full (s := recordLeft a i r s) rfl (Nat.le_of_eq hi.symm), hi] at hj
        rw [hj]; exact ⟨rfl, hdrain, rfl, rfl⟩
  case retirement =>
    intro t u bytes
    obtain ⟨hlength, hcode, hexecuted, hlate, hskipped, hdiscarded, htime⟩ := p.summaryBytes_fields code time
    have ht : t = handOwner (behindRetirement n) (.retireOwner n)
        (issueWrite (dataWrite (pageOffset p.addr 16) (p.summaryBytes code time)) (headTaken s)) :=
      issueRetireSummary_writes (s := headTaken s) hpages hretiring
    obtain ⟨v, hu, hfixed, hself, hother⟩ := issueRetireOwner_presents (s := headTaken s) hpages
    have hlane : u.lane n = (s.lane n).pageLeft p (windowOk s .cueRead (s.lane n).nextAddr 32) v.time.schedule := by
      have hwindow : windowOk v .cueRead (s.lane n).nextAddr 32 = windowOk s .cueRead (s.lane n).nextAddr 32 :=
        (windowOk_of_fixed hfixed _ _ _ :)
      rw [show u = presentWaitingHeader n v from hu, presentWaitingHeader_lane, hself, ← hwindow]; rfl
    have hpath : u.port.path = _ := (congrArg (fun x : State => x.port.path) hu).trans
      (congrArg (fun f : Fixed => f.port.path) ((presentWaitingHeader_fixed n v).trans hfixed))
    have htail : (s.lane n).pages.tail = rest := congrArg List.tail hpages
    refine ⟨?_, hlength, hcode, hexecuted, hlate, hskipped, hdiscarded, htime, ?_, ?_, hpath, ?_, ?_, fun h => ?_,
      fun hrunning hstall hrequest hflight hstep hroom hw => ?_, fun m hm => ?_⟩
    · rw [ht, port_of_fixed (handOwner_fixed _ _ _)]; rfl
    · rw [ht]; exact mem_handOwner _ _ _
    · rw [ht, handOwner_rest]; rfl
    · rw [hlane]; exact (Lane.pageLeft_counts _ p _ _).1
    · rw [hlane]; exact (Lane.pageLeft_counts _ p _ _).2
    · rw [hlane, Lane.pageLeft_pages h, htail]
    · rw [hlane, hw]
      exact Lane.pageLeft_request hrunning hstall hrequest hflight hstep (by rw [htail]; exact hroom) _ _
    · rw [show u = presentWaitingHeader n v from hu, (presentWaitingHeader_fetched n v).others m (Ne.symm hm), hother m hm]; rfl
  case closing =>
    intro t u
    obtain ⟨hlength, hcode, hcount, hlost, htime⟩ := c.summaryBytes_fields
    have ht : t = _ := issueCloseSummary_writes (s := headTaken s) hclosing
    have hu : u = _ := issueCloseOwner_writes (s := headTaken s) hclosing
    refine ⟨?_, hlength, hcode, hcount, hlost, htime, ?_, ?_, ?_, ?_, ?_, fun hfollow => ?_⟩
    · rw [ht, port_of_fixed (handOwner_fixed _ _ _)]; rfl
    · rw [ht]; exact mem_handOwner _ _ _
    · rw [hu, port_of_fixed (post_fixed _ _ _)]; rfl
    · rw [hu, post_journal]; exact congrArg List.tail hclosing
    · rw [hu, post_journal]; rfl
    · rw [hu, post_details]
    · rw [hu, post_journal]; exact if_pos hfollow
  case bytes =>
    cases r with
    | edge k d time =>
      obtain ⟨hkind, hline, htime, hdir⟩ := bytes_edge k d time
      exact ⟨hkind, hline, htime, hdir.trans (by cases d <;> rfl)⟩
    | mark n v time => exact bytes_mark n v time
    | sync aligned time => exact bytes_sync aligned time
    | track g st period time => exact bytes_track g st period time

end Sys2Proof.Machine
end

