-- ==== Sys2Proof/Proofs/StartedLanes.lean ====
section
/-!
SUPPORT. START's input, lane and journal steps: the lanes, the lines, the generators and the journal after them (R2, R31, R107,
R120, R138, R188).
-/

namespace Sys2Proof.Machine

/-! ## A fetcher that starts: the generators -/

theorem laneFault_losesBinding (n : LaneNo) (c : FaultCode) (a : Addr) (s : State) (g : GenNo) :
    LosesBinding (s.gen g) ((laneFault n c a s).gen g) := by
  unfold laneFault faultOwnedLines; dsimp only
  rw [gen_of_gens (oweException_gens _ _ _), gen_of_gens (retirePages_gens _ _ _)]
  have hceased : ∀ u : State, u.gens = s.gens →
      LosesBinding (s.gen g) ((State.each (ownedLines u n) takeFaultAction u).gen g) := fun u hu => by
    rw [← gen_of_gens hu]; exact takeFaultActions_losesBinding _ u g
  exact hceased _ (ceaseLane_gens s n .faulted)

theorem fetchFault_losesBinding (n : LaneNo) (c : FaultCode) (a : Addr) (s : State) (g : GenNo) :
    LosesBinding (s.gen g) ((fetchFault n c a s).gen g) := by
  have hstall : ∀ u : State, u.gens = s.gens → (setStall n .fetchFault u).gen g = s.gen g := fun u hu => by
    rw [setStall_gen, gen_of_gens hu]
  unfold fetchFault; dsimp only
  split
  · rw [← hstall (s.setLane n { s.lane n with pendingFault := some (c, a), request := none }) rfl]
    exact laneFault_losesBinding n c a _ g
  · exact .inl (hstall _ rfl)

theorem judgeHead_losesBinding (n : LaneNo) (v : Addr) (s : State) (g : GenNo) :
    LosesBinding (s.gen g) ((judgeHead n v s).gen g) := by
  have hheader : ∀ u : State, u.gen g = s.gen g → LosesBinding (s.gen g) ((presentHeader n u).gen g) := fun u hu => by
    rw [← hu]
    unfold presentHeader; dsimp only
    split
    · split
      · exact .inl rfl
      · exact fetchFault_losesBinding n _ _ u g
    · exact .inl rfl
  unfold judgeHead
  split
  · exact .inl (setStall_gen _ _ _ _)
  · split
    · exact fetchFault_losesBinding n _ _ s g
    · exact hheader _ (setStall_gen _ _ _ _)

theorem startFetcher_losesBinding (n : LaneNo) (s : State) (g : GenNo) :
    LosesBinding (s.gen g) ((startFetcher n s).gen g) :=
  judgeHead_losesBinding n _ (s.setLane n (s.lane n).fetcherStarted) g

theorem startLane_enabled {n : LaneNo} {s : State} (h : (s.lane n).config.enable = true) :
    startLane n s = startFetcher n (markLane n (s.setLane n ((s.lane n).started s.time.schedule))) := if_pos h

theorem startLane_disabled {n : LaneNo} {s : State} (h : ¬ (s.lane n).config.enable = true) :
    startLane n s = markLane n (s.setLane n (s.lane n).leftOff) := if_neg h

theorem startLane_losesBinding (n : LaneNo) (s : State) (g : GenNo) :
    LosesBinding (s.gen g) ((startLane n s).gen g) := by
  have hmarked : ∀ l : Lane, (markLane n (s.setLane n l)).gen g = s.gen g := fun l => by rw [markLane_gen]; rfl
  by_cases h : (s.lane n).config.enable = true
  · rw [startLane_enabled h, ← hmarked ((s.lane n).started s.time.schedule)]
    exact startFetcher_losesBinding n _ g
  · rw [startLane_disabled h]
    exact .inl (hmarked _)

/-! ## A fetcher that starts: the lines -/

/-- A line of a lane that waits for none, after a fault of that lane perhaps. -/
def LineFaults (n : LaneNo) (s t : State) (k : LineNo) : Prop :=
  t.line k = s.line k
    ∨ (s.line k).owner = some n ∧ (t.lane n).state = .faulted ∧ ∃ m, t.line k = { s.line k with mode := m }

theorem LineFaults.congr {n : LaneNo} {s t u : State} {k : LineNo} (h : LineFaults n t u k) (hk : t.line k = s.line k) :
    LineFaults n s u k := by
  unfold LineFaults at *
  rw [hk] at h; exact h

theorem laneFault_lineFaults {s : State} {n : LaneNo} (h : (s.lane n).wait = .none) (c : FaultCode) (a : Addr) (k : LineNo) :
    LineFaults n s (laneFault n c a s) k := by
  have hwithdraw : (withdrawWait n s).line k = s.line k := by
    rw [withdrawWait_line, h]; exact if_neg nofun
  unfold LineFaults
  rw [laneFault_line, hwithdraw, laneFault_lane]
  split
  · rename_i ho; exact .inr ⟨ho, rfl, _, rfl⟩
  · exact .inl rfl

theorem fetchFault_lineFaults {s : State} {n : LaneNo} (h : (s.lane n).wait = .none) (c : FaultCode) (a : Addr) (k : LineNo) :
    LineFaults n s (fetchFault n c a s) k := by
  by_cases hst : (s.lane n).state = .starved
  · rw [fetchFault_starved s n c a hst]
    refine (laneFault_lineFaults ?_ c a k).congr ?_
    · rw [setStall_self, lane_setLane_self]; exact h
    · rw [setStall_line]; rfl
  · exact .inl (line_of_lines (fetchFault_lines_of_running hst c a) k)

theorem judgeHead_lineFaults {s : State} {n : LaneNo} (h : (s.lane n).wait = .none) (v : Addr) (k : LineNo) :
    LineFaults n s (judgeHead n v s) k := by
  have hheader : ∀ u : State, (u.lane n).wait = .none → LineFaults n u (presentHeader n u) k := fun u hu => by
    unfold presentHeader; dsimp only
    split
    · split
      · exact .inl rfl
      · exact fetchFault_lineFaults hu _ _ k
    · exact .inl rfl
  unfold judgeHead
  split
  · exact .inl (setStall_line ..)
  · split
    · exact fetchFault_lineFaults h _ _ k
    · unfold goToHeader; dsimp only
      refine (hheader _ ?_).congr ?_
      · rw [setStall_self, lane_setLane_self]; exact h
      · rw [setStall_line]; rfl

theorem startLane_lineFaults (n : LaneNo) (s : State) (k : LineNo) : LineFaults n s (startLane n s) k := by
  have hmarked : ∀ l : Lane, (markLane n (s.setLane n l)).line k = s.line k := fun l => by rw [markLane_line]; rfl
  by_cases h : (s.lane n).config.enable = true
  · rw [startLane_enabled h, startFetcher]
    refine (judgeHead_lineFaults ?_ _ k).congr (hmarked _)
    rw [lane_setLane_self, markLane_lane, lane_setLane_self]; rfl
  · rw [startLane_disabled h]
    exact .inl (hmarked _)

/-! ## The lanes as START leaves them (R2, R31) -/

/-- A lane at START, by its configuration. -/
def Lane.atStart (l : Lane) (ok : Bool) (now : Ticks) : Lane :=
  if l.config.enable then (l.restarted l.config now).judged l.config.head ok now .headField l.config.head else l.leftOff

theorem startLane_self (n : LaneNo) (s : State) :
    (startLane n s).lane n
      = (s.lane n).atStart (windowOk s .cueRead (s.lane n).config.head 32) s.time.schedule := by
  have hfixed := markLane_fixed n (s.setLane n ((s.lane n).started s.time.schedule))
  rw [Lane.atStart]
  by_cases h : (s.lane n).config.enable = true
  · rw [if_pos h, startLane_enabled h, startFetcher_self, windowOk_of_fixed hfixed, time_of_fixed hfixed, markLane_lane,
      lane_setLane_self]; rfl
  · rw [if_neg h, startLane_disabled h, markLane_lane, lane_setLane_self]

theorem startLane_other {n m : LaneNo} (h : n ≠ m) (s : State) : (startLane n s).lane m = s.lane m := by
  by_cases hon : (s.lane n).config.enable = true
  · rw [startLane_enabled hon, startFetcher_other (hm := h), markLane_lane, lane_setLane_ne _ h]
  · rw [startLane_disabled hon, markLane_lane, lane_setLane_ne _ h]

theorem startLanes_lane (s : State) (n : LaneNo) :
    (State.each allLanes startLane s).lane n
      = (s.lane n).atStart (windowOk s .cueRead (s.lane n).config.head 32) s.time.schedule := by
  have h := each_at (get := State.lane) (f := startLane)
    (g := fun _ l => l.atStart (windowOk s .cueRead l.config.head 32) s.time.schedule)
    (fun t => t.fixed = s.fixed) (fun m t ht => (startLane_fixed m t).trans ht)
    (fun m t ht => by rw [startLane_self, windowOk_of_fixed ht, time_of_fixed ht])
    (fun m j t hmj => startLane_other hmj t) allLanes nodup_allLanes s rfl n
  rw [h, if_pos (mem_allLanes n)]

/-- A line that lane n owns takes a mode at most, and only where the lane faults at its start. -/
theorem startLanes_line_of_owner {ns : List LaneNo} (hns : ns.Nodup) {s : State} {k : LineNo} {n : LaneNo}
    (ho : (s.line k).owner = some n) :
    LineFaults n s (State.each ns startLane s) k
      ∧ (n ∉ ns → (State.each ns startLane s).line k = s.line k
          ∧ (State.each ns startLane s).lane n = s.lane n) := by
  induction ns generalizing s with
  | nil => exact ⟨.inl rfl, fun _ => ⟨rfl, rfl⟩⟩
  | cons j rest ih =>
    obtain ⟨hj, hrest⟩ := List.nodup_cons.mp hns
    show LineFaults n s (State.each rest startLane (startLane j s)) k
      ∧ (_ → (State.each rest startLane (startLane j s)).line k = _ ∧ _)
    by_cases hne : j = n
    · subst hne
      have hline := startLane_lineFaults j s k
      have ho' : ((startLane j s).line k).owner = some j := by
        rcases hline with h | ⟨-, -, m, h⟩ <;> rw [h] <;> exact ho
      obtain ⟨hk, hl⟩ := (ih hrest ho').2 hj
      refine ⟨?_, fun h => absurd List.mem_cons_self h⟩
      unfold LineFaults at hline ⊢
      rw [hk, hl]; exact hline
    · have hk : (startLane j s).line k = s.line k :=
        (startLane_lineFaults j s k).resolve_right fun h => hne (Option.some.inj (h.1.symm.trans ho))
      have hl : (startLane j s).lane n = s.lane n := startLane_other hne s
      obtain ⟨hfaults, hkept⟩ := ih hrest (s := startLane j s) (by rw [hk]; exact ho)
      refine ⟨hfaults.congr hk, fun h => ?_⟩
      obtain ⟨hk', hl'⟩ := hkept fun hmem => h (List.mem_cons_of_mem j hmem)
      exact ⟨hk'.trans hk, hl'.trans hl⟩

/-- A line that no lane owns is left as it is. -/
theorem startLanes_line_of_free {s : State} {k : LineNo} (ho : (s.line k).owner = none) (ns : List LaneNo) :
    (State.each ns startLane s).line k = s.line k :=
  each_induct (fun t => t.line k = s.line k)
    (fun n t ht => ((startLane_lineFaults n t k).resolve_right fun h => by
      rw [ht, ho] at h; exact absurd h.1 nofun).trans ht) ns s rfl

theorem startLanes_gen {s : State} (h : ∀ g, (s.gen g).bound = none) (ns : List LaneNo) (g : GenNo) :
    (State.each ns startLane s).gen g = s.gen g :=
  LosesBinding.of_none (each_induct (fun t => LosesBinding (s.gen g) (t.gen g))
    (fun n t ht => ht.trans (startLane_losesBinding n t g)) ns s (.inl rfl)) (h g)

theorem startLane_inputs (n : LaneNo) (s : State) : (startLane n s).inputs = s.inputs := by
  by_cases h : (s.lane n).config.enable = true
  · rw [startLane_enabled h, startFetcher_inputs, markLane_inputs]; rfl
  · rw [startLane_disabled h, markLane_inputs]; rfl

/-! ## The input step (R58, R60, R107, R120) -/

theorem clearDeadTimes_input (s : State) (k : LineNo) :
    (State.each allLines clearDeadTime s).input k = { s.input k with deadRunning := false, deadEnd := 0 } := by
  have h := each_at (get := State.input) (f := clearDeadTime) (g := fun _ x => { x with deadRunning := false, deadEnd := 0 })
    (fun _ => True) (fun _ _ _ => trivial) (fun k t _ => input_setInput_self t k _)
    (fun k j t hkj => input_setInput_ne t hkj _) allLines nodup_allLines s trivial k
  rw [h, if_pos (mem_allLines k)]

theorem startGens_gen (s : State) (g : GenNo) : (State.each allGens startGen s).gen g = (s.gen g).atStart := by
  have h := each_at (get := State.gen) (f := startGen) (g := fun _ x => x.atStart) (fun _ => True) (fun _ _ _ => trivial)
    (fun g t _ => by rw [startGen, markStale_gen]; exact gen_setGen_self t g _)
    (fun g j t hgj => by rw [startGen, markStale_gen]; exact gen_setGen_ne t hgj _) allGens nodup_allGens s trivial g
  rw [h, if_pos (mem_allGens g)]

theorem inputStep_input (s : State) (k : LineNo) :
    (inputStep s).input k = { s.input k with deadRunning := false, deadEnd := 0 } := by
  have h : (State.each allGens startGen (State.each allLines clearDeadTime s)).inputs
      = (State.each allLines clearDeadTime s).inputs :=
    each_keeps State.inputs (f := startGen) (fun g t => by rw [startGen, markStale_inputs]; rfl) _ _
  unfold inputStep; dsimp only
  generalize State.each allGens startGen _ = u at h ⊢
  exact (input_of_inputs h k).trans (clearDeadTimes_input s k)

theorem inputStep_gen (s : State) (g : GenNo) : (inputStep s).gen g = (s.gen g).atStart := by
  have hgens : (State.each allLines clearDeadTime s).gens = s.gens :=
    each_keeps State.gens (f := clearDeadTime) (fun _ _ => rfl) _ _
  have h := startGens_gen (State.each allLines clearDeadTime s) g
  rw [gen_of_gens hgens] at h
  unfold inputStep; dsimp only
  generalize State.each allGens startGen _ = u at h ⊢
  exact h

theorem inputStep_lines (s : State) : (inputStep s).lines = s.lines := by
  have h : (State.each allGens startGen (State.each allLines clearDeadTime s)).lines = s.lines := by
    rw [each_keeps State.lines (f := startGen) (fun g t => by rw [startGen, markStale_lines]; rfl),
      each_keeps State.lines (f := clearDeadTime) (fun _ _ => rfl)]
  unfold inputStep; dsimp only
  generalize State.each allGens startGen _ = u at h ⊢
  exact h

end Sys2Proof.Machine
end

