-- ==== Sys2Proof/Proofs/StartActivates.lean ====
section
/-!
THEOREM. START's last steps: the lines, the inputs, the generators, the lanes and the journal start at one tick (R71, R107, R120,
R138, R188).
-/

namespace Sys2Proof.Machine

/-! ## The journal's start (R138) -/

/-- What is fixed at the journal's start whatever its head address is. -/
theorem Journal.judged_unpaged (j : Journal) {v : Addr} (ok : Bool) (st : Stall) (bad : Option Addr) :
    (j.judged v ok st bad).page = j.page ∧ (j.judged v ok st bad).flushTimer = j.flushTimer
      ∧ (j.flushRequest = 0 → (j.judged v ok st bad).flushRequest = 0) := by
  unfold judged
  split
  · exact ⟨rfl, rfl, fun _ => rfl⟩
  · split
    · exact ⟨rfl, rfl, fun _ => rfl⟩
    · split
      · exact ⟨rfl, rfl, id⟩
      · exact ⟨rfl, rfl, fun _ => rfl⟩

theorem startJournal_work (s : State) : JournalWork s (startJournal s) :=
  ((JournalWork.setJournal s _).trans (markJournal_work _)).trans (judgeJournalHead_work _ _)

theorem startJournal_journal (s : State) :
    (startJournal s).journal
      = s.journal.started.judged s.journal.head (windowOk s .journal s.journal.head 32) .headField none := by
  have hjournal : (markJournal (s.setJournal s.journal.started)).journal = s.journal.started := by rw [markJournal_journal]; rfl
  have hfixed : (markJournal (s.setJournal s.journal.started)).fixed = s.fixed := by rw [markJournal_fixed]; rfl
  unfold startJournal; dsimp only
  rw [judgeJournalHead_journal (by rw [hjournal]; rfl), windowOk_of_fixed hfixed, hjournal]; rfl

/-! ## The survey timer (R45) -/

theorem startSurvey_eq (s : State) : startSurvey s = { s with survey := (startSurvey s).survey } := by
  unfold startSurvey
  split <;> rfl

/-! ## The steps together (R188) -/

/-- START's line, input and lane steps. -/
def lanesStarted (s : State) : State :=
  State.each allLanes startLane (inputStep (State.each allLines driveLine s))

theorem lanesStarted_fixed (s : State) :
    (lanesStarted s).fixed = { s.fixed with
      inputsLive := true, sync := { s.fixed.sync with live := true },
      time := { s.fixed.time with armed := false, armValue := 0 } } := by
  rw [lanesStarted, each_keeps State.fixed startLane_fixed, inputStep_fixed, each_keeps State.fixed driveLine_fixed]

theorem lanesStarted_journal (s : State) : (lanesStarted s).journal = s.journal := by
  rw [lanesStarted, each_keeps State.journal startLane_journal, inputStep_journal, each_keeps State.journal driveLine_journal]

theorem lanesStarted_lane (s : State) (n : LaneNo) :
    (lanesStarted s).lane n
      = (s.lane n).atStart (windowOk s .cueRead (s.lane n).config.head 32) s.time.schedule := by
  have hfixed := inputStep_fixed (State.each allLines driveLine s)
  rw [each_keeps State.fixed driveLine_fixed] at hfixed
  have hlane : (inputStep (State.each allLines driveLine s)).lane n = s.lane n :=
    lane_of_lanes ((inputStep_lanes _).trans (each_keeps State.lanes driveLine_lanes _ _)) n
  rw [lanesStarted, startLanes_lane]
  generalize inputStep (State.each allLines driveLine s) = i at hfixed hlane
  have hport : i.port = s.port := congrArg Fixed.port hfixed
  have htime : i.time.schedule = s.time.schedule := congrArg (fun f : Fixed => f.time.schedule) hfixed
  unfold windowOk
  rw [hlane, hport, htime]

theorem lanesStarted_gen (s : State) (g : GenNo) : (lanesStarted s).gen g = (s.gen g).atStart := by
  have hgens : (State.each allLines driveLine s).gens = s.gens :=
    each_keeps State.gens (fun k t => by unfold driveLine; dsimp only; split <;> rfl) _ _
  have hinput := inputStep_gen (State.each allLines driveLine s)
  rw [lanesStarted, startLanes_gen fun h => by rw [hinput]; rfl, hinput, gen_of_gens hgens]

theorem lanesStarted_input (s : State) (k : LineNo) :
    (lanesStarted s).input k = { s.input k with deadRunning := false, deadEnd := 0 } := by
  have hinputs : (State.each allLines driveLine s).inputs = s.inputs :=
    each_keeps State.inputs (fun k t => by unfold driveLine; dsimp only; split <;> rfl) _ _
  have hlanes : (lanesStarted s).inputs = (inputStep (State.each allLines driveLine s)).inputs :=
    each_keeps State.inputs startLane_inputs _ _
  rw [input_of_inputs hlanes, inputStep_input, input_of_inputs hinputs]

/-- The line before the lanes start. -/
theorem inputStep_line (s : State) (k : LineNo) :
    (inputStep (State.each allLines driveLine s)).line k
      = if (s.line k).driveEnable then
          { s.line k with mode := .static (s.line k).rest, owner := startOwner s (s.line k), waiters := [] }
        else s.line k := by
  rw [line_of_lines (inputStep_lines _), driveLines_line]

/-- A line after the lanes have started: a fault of its owner at the start is the one thing that changes its mode. -/
theorem lanesStarted_line (s : State) (k : LineNo) :
    ((s.line k).driveEnable = true → startOwner s (s.line k) = none →
        (lanesStarted s).line k = { s.line k with mode := .static (s.line k).rest, owner := none, waiters := [] })
      ∧ (∀ n, (s.line k).driveEnable = true → startOwner s (s.line k) = some n →
        ((lanesStarted s).line k).owner = some n ∧ ((lanesStarted s).line k).waiters = []
          ∧ (((lanesStarted s).lane n).state ≠ .faulted → ((lanesStarted s).line k).mode = .static (s.line k).rest))
      ∧ ((s.line k).driveEnable = false → (s.line k).owner = none → (lanesStarted s).line k = s.line k) := by
  have hline := inputStep_line s k
  rw [lanesStarted]
  generalize inputStep (State.each allLines driveLine s) = i at hline
  refine ⟨fun hd ho => ?_, fun n hd ho => ?_, fun hd ho => ?_⟩
  · rw [hd, ho] at hline
    rw [startLanes_line_of_free (by rw [hline]; rfl), hline]; rfl
  · rw [hd, ho] at hline
    have howner : (i.line k).owner = some n := by rw [hline]; rfl
    rcases (startLanes_line_of_owner nodup_allLanes howner).1 with h | ⟨-, hstate, m, h⟩
    · rw [h, hline]; exact ⟨rfl, rfl, fun _ => rfl⟩
    · refine ⟨?_, ?_, fun hne => absurd hstate hne⟩
      · rw [h]; exact howner
      · rw [h, hline]; rfl
  · rw [hd] at hline
    have hsame : i.line k = s.line k := hline
    rw [startLanes_line_of_free (by rw [hsame]; exact ho), hsame]

theorem activate_eq (s : State) :
    activate s = completeCommand .done { startSurvey (startJournal (lanesStarted s)) with part := .active } := by
  unfold activate lanesStarted; dsimp only

/-- What START leaves, beside what its lanes, its journal and its survey timer make of it. -/
theorem activate_rest {s : State} (hc : s.engine.command = some (.start .writing)) :
    ((activate s).slot commandSlot).details = .command codeStart 0 .done
      ∧ activate s = { lanesStarted s with
          part := .active
          journal := (startJournal (lanesStarted s)).journal
          survey := (startSurvey (lanesStarted s)).survey
          engine := s.engine.completed (.start .writing) .done
          notice := (activate s).notice
          handed := (activate s).handed } := by
  have hfixed := lanesStarted_fixed s
  have hwork := startJournal_work (lanesStarted s)
  have heq := activate_eq s
  generalize lanesStarted s = u at hfixed hwork heq ⊢
  have hengine : u.engine = s.engine := congrArg Fixed.engine hfixed
  have hrest := hwork.rest
  have hsurvey := startSurvey_eq (startJournal u)
  have hsame : (startSurvey (startJournal u)).survey = (startSurvey u).survey := by
    rw [hrest]; unfold startSurvey; split <;> rfl
  rw [hsame] at hsurvey
  generalize startJournal u = j at hrest hsurvey heq ⊢
  generalize startSurvey j = v at hsurvey heq
  have hv : v.engine = s.engine := by rw [hsurvey, hrest]; exact hengine
  obtain ⟨he, hdetails, -, hall⟩ := completeCommand_completes (s := { v with part := .active }) (c := .start .writing)
    ((congrArg Engine.command hv).trans hc) .done
  rw [← heq] at he hdetails hall
  have he' : (activate s).engine = s.engine.completed (.start .writing) .done :=
    he.trans (congrArg (fun e : Engine => e.completed (.start .writing) .done) hv)
  rw [he'] at hall
  have hv' : v = { u with journal := j.journal, handed := j.handed, survey := (startSurvey u).survey } :=
    hsurvey.trans (by rw [hrest])
  exact ⟨hdetails, hall.trans (by rw [hv'])⟩

/-! ## The settled statement -/

/-- Settles O19: each part of the state after the steps together. -/
theorem startActivatesThePart : Obligations.StartActivatesThePart := by
  intro s hs hp hc hw
  have hwritten : startWritten s = true := by simp [startWritten, hp, hc, hw]
  have hexec : exec .startActivate s = .next (activate s) := whenEvent_of_ready hs hwritten _
  obtain ⟨hdetails, hrest⟩ := activate_rest hc
  have hjournal := startJournal_journal (lanesStarted s)
  rw [lanesStarted_journal] at hjournal
  have hfixed := lanesStarted_fixed s
  have hline := lanesStarted_line s
  have hlane := lanesStarted_lane s
  have hgen := lanesStarted_gen s
  have hinput := lanesStarted_input s
  generalize lanesStarted s = u at *
  generalize startJournal u = j at *
  rw [hjournal] at hrest
  have hwindow : windowOk u .journal s.journal.head 32 = windowOk s .journal s.journal.head 32 := by
    unfold windowOk; rw [show u.port = s.port from congrArg Fixed.port hfixed]
  rw [hwindow] at hrest
  have hsurvey : u.survey = s.survey := congrArg Fixed.survey hfixed
  have helapsed : u.time.elapsed = s.time.elapsed := congrArg (fun f : Fixed => f.time.elapsed) hfixed
  generalize activate s = t at *
  have htlane : ∀ n, t.lane n = _ := fun n => (lane_of_lanes (congrArg State.lanes hrest :) n).trans (hlane n)
  have htline : ∀ k, t.line k = u.line k := line_of_lines (congrArg State.lines hrest :)
  have htjournal : t.journal
      = s.journal.started.judged s.journal.head (windowOk s .journal s.journal.head 32) .headField none :=
    (congrArg State.journal hrest :)
  have htengine := (congrArg State.engine hrest :)
  have htfixed : t.inputsLive = u.inputsLive ∧ t.sync = u.sync ∧ t.time = u.time ∧ t.regs = u.regs ∧ t.port = u.port
      ∧ t.memory = u.memory := by rw [hrest]; exact ⟨rfl, rfl, rfl, rfl, rfl, rfl⟩
  obtain ⟨hlive, hsync, htime, hregs, hport, hmemory⟩ := htfixed
  have htsurvey : t.survey = (startSurvey u).survey := (congrArg State.survey hrest :)
  refine ⟨t, hexec, (congrArg State.part hrest :), ?_, ?_, ?_, ?_, hdetails, hlive.trans (congrArg Fixed.inputsLive hfixed),
    hsync.trans (congrArg Fixed.sync hfixed), htime.trans (congrArg Fixed.time hfixed), fun k henable hnone => ?freeLine,
    fun k n henable hpre hon => ?ownedLine, fun k henable _ howner _ => ?otherLine, fun k => ?_, fun g => ?_,
    fun n hoff => ?off, fun n hon hzero => ?zero, fun n => ?lane, ?journal, fun h => ?_, fun h => ?_,
    hregs.trans (congrArg Fixed.regs hfixed), hport.trans (congrArg Fixed.port hfixed),
    hmemory.trans (congrArg Fixed.memory hfixed)⟩
  case freeLine => rw [htline]; exact (hline k).1 henable hnone
  case ownedLine =>
    have howner : startOwner s (s.line k) = some n := by rw [startOwner, hpre]; simp [hon]
    have hstate : (t.lane n).state = (u.lane n).state :=
      congrArg Lane.state (lane_of_lanes (congrArg State.lanes hrest :) n)
    rw [htline, hstate]
    exact (hline k).2.1 n henable howner
  case otherLine => rw [htline]; exact (hline k).2.2 henable howner
  case off =>
    rw [htlane, Lane.atStart, if_neg (ne_true_of_eq_false hoff)]
    exact ⟨rfl, rfl⟩
  case zero =>
    rw [htlane, Lane.atStart, if_pos hon, Lane.judged_zero _ _ _ _ _ hzero]
    exact ⟨rfl, rfl, rfl, rfl, rfl⟩
  case lane =>
    intro head hon h0 h hroom
    have htl := htlane n
    rw [Lane.atStart, if_pos hon] at htl
    have hcounts := Lane.judged_counts ((s.lane n).restarted (s.lane n).config s.time.schedule) head
      (windowOk s .cueRead head 32) s.time.schedule .headField head
    rw [← htl] at hcounts
    obtain ⟨-, -, -, -, -, hserial, -, hanchor⟩ := hcounts
    refine ⟨hanchor, hserial, fun hok => ?_, fun hbad => ?_⟩
    · rw [hok, Lane.judged_ok ((s.lane n).restarted _ _) _ _ _ h0 h hroom] at htl
      rw [htl]; exact ⟨rfl, rfl, rfl, rfl, rfl, rfl⟩
    · rw [hbad, Lane.judged_refused ((s.lane n).restarted _ _) _ _ _ h0 h hroom] at htl
      obtain ⟨hstate, hfault, hrunning, -⟩ := Lane.restarted_refused (s.lane n) _ s.time.schedule _ .window head (.inr rfl)
      rw [htl]; exact ⟨hstate, hfault, hrunning⟩
  case journal =>
    intro j
    obtain ⟨-, hlink, hfifo, hpending, hsession, hreported, hclosed⟩ :=
      Journal.judged_keeps s.journal.started (v := s.journal.head) (windowOk s .journal s.journal.head 32) .headField none
    obtain ⟨hpage, htimer, hrequest⟩ := s.journal.started.judged_unpaged (v := s.journal.head)
      (windowOk s .journal s.journal.head 32) .headField none
    rw [← htjournal] at hlink hfifo hpending hsession hreported hclosed hpage htimer hrequest
    refine ⟨hfifo, hpage, hlink, htimer, hrequest rfl, hpending, hsession, hreported, hclosed, fun h0 => ?_,
      fun h0 h hok => ?_, fun h0 h hbad => ?_⟩
    · rw [htjournal, Journal.judged_zero _ _ _ _ h0]; exact ⟨rfl, rfl, rfl⟩
    · rw [htjournal, hok, Journal.judged_ok _ _ _ h0 h]; exact ⟨rfl, rfl, rfl, rfl, rfl⟩
    · rw [htjournal, hbad, Journal.judged_refused _ _ _ h0 h]; exact ⟨rfl, rfl, rfl⟩
  · rw [htengine]; rfl
  · rw [htengine]; rfl
  · rw [htengine]; rfl
  · rw [htengine]; rfl
  · exact (input_of_inputs (congrArg State.inputs hrest :) k).trans (hinput k)
  · exact (gen_of_gens (congrArg State.gens hrest :) g).trans (hgen g)
  · rw [htsurvey, startSurvey, hsurvey, if_pos h, hsurvey]
  · rw [htsurvey, startSurvey, hsurvey, if_neg h, ← helapsed]; rfl

end Sys2Proof.Machine
end

