-- ==== Sys2Proof/Proofs/ConfigurationReads.lean ====
section
/-!
THEOREM. What START holds of the configuration part after a read, and how it ends or goes on (R186, R189).
-/

namespace Sys2Proof.Machine

/-! ## Bytes in an image -/

/-- The lowest `len` bits set. -/
theorem getLsbD_ones {w len k : Nat} (hk : k < w) : (BitVec.ofNat w (2 ^ len - 1)).getLsbD k = decide (k < len) := by
  rw [BitVec.getLsbD_ofNat, Nat.testBit_two_pow_sub_one, decide_eq_true hk, Bool.true_and]

/-- The byte of an image at an offset. -/
def ConfigImage.byteAt (im : ConfigImage) (k : Nat) : Byte :=
  im.bytes.extractLsb' (8 * k) 8

theorem ConfigImage.put_byteAt {offset : Nat} (h : offset < 768) (im : ConfigImage) (b : Byte) {k : Nat} (hk : k < 768) :
    (im.put offset b).byteAt k = if k = offset then b else im.byteAt k := by
  refine BitVec.eq_of_getLsbD_eq fun i hi => ?_
  have hbit : ((im.put offset b).byteAt k).getLsbD i
      = (im.bytes.getLsbD (8 * k + i) && (decide (8 * k + i < 8 * offset) || !(0xFF#6144).getLsbD (8 * k + i - 8 * offset))
        || !decide (8 * k + i < 8 * offset) && b.getLsbD (8 * k + i - 8 * offset)) := by
    have hlt : 8 * k + i < 6144 := by omega
    have hlt' : 8 * k + i - 8 * offset < 6144 := by omega
    simp [byteAt, put, hi, hlt, hlt']
  have hmask : ∀ j, j < 6144 → (0xFF#6144).getLsbD j = decide (j < 8) := fun j hj => getLsbD_ones (len := 8) hj
  have hold : (im.byteAt k).getLsbD i = im.bytes.getLsbD (8 * k + i) := by simp [byteAt, hi]
  rw [hbit, hmask _ (by omega)]
  rcases Nat.lt_trichotomy k offset with hlt | rfl | hgt
  · have hbelow : 8 * k + i < 8 * offset := by omega
    rw [if_neg (by omega), hold]; simp [hbelow]
  · have hat : ¬ 8 * k + i < 8 * k := by omega
    have hin : 8 * k + i - 8 * k = i := by omega
    rw [if_pos rfl, hin]; simp [hat, hi]
  · have habove : ¬ 8 * k + i < 8 * offset := by omega
    have hout : ¬ 8 * k + i - 8 * offset < 8 := by omega
    have hpast : b.getLsbD (8 * k + i - 8 * offset) = false := BitVec.getLsbD_of_ge b _ (by omega)
    rw [if_neg (by omega), hold, hpast]; simp [habove, hout]

theorem ConfigImage.put_seen {offset : Nat} (im : ConfigImage) (b : Byte) {k : Nat} (hk : k < 768) :
    (im.put offset b).seen.getLsbD k = (decide (k = offset) || im.seen.getLsbD k) := by
  have hone : (!decide (k < offset) && decide (k - offset = 0)) = decide (k = offset) := by
    rcases Nat.lt_trichotomy k offset with h | rfl | h
    · simp [h, Nat.ne_of_lt h]
    · simp
    · simp [Nat.ne_of_gt h]; omega
  have hbit : (1#768 <<< offset).getLsbD k = decide (k = offset) := by
    rw [← hone]; simp [hk]
  rw [put, BitVec.getLsbD_or, hbit, Bool.or_comm]

/-- The bytes of a read: each takes its offset, and the others are as before. -/
theorem ConfigImage.putAll_at (bytes : List Byte) (offset : Nat) (h : offset + bytes.length ≤ 768) (im : ConfigImage) {k : Nat}
    (hk : k < 768) :
    (∀ i, i < bytes.length → k = offset + i →
        (im.putAll offset bytes).byteAt k = bytes.getD i 0 ∧ (im.putAll offset bytes).seen.getLsbD k = true)
      ∧ (k < offset ∨ offset + bytes.length ≤ k →
        (im.putAll offset bytes).byteAt k = im.byteAt k
          ∧ (im.putAll offset bytes).seen.getLsbD k = im.seen.getLsbD k) := by
  induction bytes generalizing im offset with
  | nil => exact ⟨fun i hi => absurd hi (Nat.not_lt_zero i), fun _ => ⟨rfl, rfl⟩⟩
  | cons b bs ih =>
    rw [List.length_cons] at h
    obtain ⟨hin, hout⟩ := ih (offset + 1) (by omega) (im.put offset b)
    have hbyte := im.put_byteAt (offset := offset) (by omega) b hk
    have hseen := im.put_seen (offset := offset) b hk
    rw [putAll]
    refine ⟨fun i hi hki => ?_, fun hk' => ?_⟩
    · cases i with
      | zero =>
        rw [Nat.add_zero] at hki
        obtain ⟨h1, h2⟩ := hout (.inl (by omega))
        rw [h1, h2, hbyte, hseen, if_pos hki, decide_eq_true hki]
        exact ⟨rfl, rfl⟩
      | succ i => exact hin i (Nat.lt_of_succ_lt_succ hi) (by omega)
    · rw [List.length_cons] at hk'
      have hne : k ≠ offset := by omega
      obtain ⟨h1, h2⟩ := hout (by omega)
      rw [h1, h2, hbyte, hseen, if_neg hne, decide_eq_false hne]
      exact ⟨rfl, rfl⟩

/-! ## The head of the exchange block (R186) -/

theorem rangeMask_getLsbD (offset len : Nat) {k : Nat} (hk : k < 768) :
    (rangeMask offset len).getLsbD k = decide (offset ≤ k ∧ k < offset + len) := by
  rw [rangeMask, BitVec.getLsbD_shiftLeft, getLsbD_ones (by omega), decide_eq_true hk, Bool.true_and, ← decide_not,
    ← Bool.decide_and, decide_eq_decide]
  omega

theorem and_eq_right_iff {w : Nat} (x m : BitVec w) :
    x &&& m = m ↔ ∀ k, k < w → m.getLsbD k = true → x.getLsbD k = true := by
  refine ⟨fun h k _ hm => ?_, fun h => BitVec.eq_of_getLsbD_eq fun k hk => ?_⟩
  · rw [← h, BitVec.getLsbD_and, Bool.and_eq_true] at hm; exact hm.1
  · rw [BitVec.getLsbD_and]
    cases hm : m.getLsbD k with
    | false => rw [Bool.and_false]
    | true => rw [h k hk hm]; rfl

theorem ConfigImage.headRead_iff (im : ConfigImage) : im.headRead = true ↔ ∀ k, k < 5 → im.seen.getLsbD k = true := by
  rw [headRead, decide_eq_true_iff, and_eq_right_iff]
  refine ⟨fun h k hk => h k (by omega) ?_, fun h k hk hm => h k ?_⟩
  · rw [rangeMask_getLsbD 0 5 (by omega)]; exact decide_eq_true (by omega)
  · rw [rangeMask_getLsbD 0 5 hk] at hm
    have := of_decide_eq_true hm
    omega

theorem ConfigImage.exchangeOk_iff (im : ConfigImage) :
    im.exchangeOk = true ↔ im.bytes.extractLsb' 0 32 = 0x5A31D7C4#32 ∧ im.bytes.extractLsb' 32 8 = 0x01#8 := by
  rw [exchangeOk, Bool.and_eq_true, decide_eq_true_iff, decide_eq_true_iff]; rfl

/-! ## START's reads -/

theorem exec_startReadDone {s : State} (h : awaitsEngine s .configuration) {offset : Nat} {bytes : List Byte}
    (hlen : 0 < bytes.length) (hfit : offset + bytes.length ≤ 0x300) :
    exec (.startReadDone offset bytes) s = .next (configurationRead offset bytes s (clearEngineFlight s)) := by
  have hin : (0 < bytes.length && offset + bytes.length ≤ 0x300) = true := by
    rw [decide_eq_true hlen, decide_eq_true hfit]; rfl
  exact congrArg Host.Outcome.next ((if_pos hin).trans (engineAnswer_awaited h _))

/-- The image with the bytes of a read is looked at once the magic and the version have been read. -/
theorem configurationRead_goesOn {s : State} {offset : Nat} {bytes : List Byte} {im : ConfigImage}
    (him : s.engine.image.putAll offset bytes = im)
    (h : s.engine.command = some (.start .reading)
      ∨ s.engine.command = some (.start .first) ∧ im.headRead = true ∧ im.exchangeOk = true) :
    configurationRead offset bytes s (clearEngineFlight s) = afterConfigurationRead im (clearEngineFlight s) := by
  have hcommand : (clearEngineFlight s).engine.command = s.engine.command := rfl
  have himage : (clearEngineFlight s).engine.image.putAll offset bytes = im := him
  rw [configurationRead, himage, hcommand]
  rcases h with hreading | ⟨hfirst, hhead, hok⟩
  · rw [hreading]
  · rw [hfirst]; dsimp only
    rw [hhead, hok]; rfl

theorem configurationRead_ends {s : State} {offset : Nat} {bytes : List Byte} {im : ConfigImage}
    (him : s.engine.image.putAll offset bytes = im) (hfirst : s.engine.command = some (.start .first))
    (hhead : im.headRead = true) (hbad : im.exchangeOk = false) :
    configurationRead offset bytes s (clearEngineFlight s) = endStart .badExchange (clearEngineFlight s) := by
  have hcommand : (clearEngineFlight s).engine.command = s.engine.command := rfl
  have himage : (clearEngineFlight s).engine.image.putAll offset bytes = im := him
  rw [configurationRead, himage, hcommand, hfirst]; dsimp only
  rw [hhead, hbad]; rfl

/-- Settles O17. -/
theorem startReadsEndOrGoOn : Obligations.StartReadsEndOrGoOn := by
  intro offset bytes s hawait im ended
  refine ⟨im.headRead_iff, im.exchangeOk_iff, fun hfit k hk => ConfigImage.putAll_at bytes offset hfit _ hk, fun hc => ?error,
    fun hlen hfit => ⟨fun hfirst hhead hbad => ?bad, fun hc hmore => ?more⟩⟩
  case error =>
    obtain ⟨p, hc⟩ := hc
    refine congrArg Host.Outcome.next ((engineAnswer_awaited hawait _).trans ?_)
    rw [configurationErrored, show (clearEngineFlight s).engine.command = _ from hc]; rfl
  case bad =>
    rw [exec_startReadDone hawait hlen hfit, configurationRead_ends (im := im) rfl hfirst hhead hbad]; rfl
  case more =>
    rw [exec_startReadDone hawait hlen hfit, configurationRead_goesOn (im := im) rfl hc.symm, afterConfigurationRead,
      if_neg (ne_true_of_eq_false hmore)]; rfl

end Sys2Proof.Machine
end

