-- ==== Sys2Proof/Proofs/FieldCodes.lean ====
section
/-!
SUPPORT. The codes of the fields that the part reads, as the numbers of the tables (Tables 2-3, 4-3, 6-2, 12-1, 12-2), and the
fields of the configuration part (R187).
-/

namespace Sys2Proof.Machine

/-! ## Codes -/

/-- The code of a level. -/
def levelNumber : Level → Nat
  | .low => 0
  | .high => 1

/-- The code of an edge select (Table 6-2). -/
def edgeNumber : EdgeSelect → Nat
  | .none => 0
  | .rise => 1
  | .fall => 2
  | .either => 3

/-- The code of a fault action (Table 4-3). -/
def faultActionNumber : FaultAction → Nat
  | .driveLow => 0
  | .driveHigh => 1
  | .hold => 2
  | .float => 3

/-- The code of SYNC's edge select (Table 12-1). -/
def syncNumber : Option Dir → Nat
  | none => 0
  | some .rise => 1
  | some .fall => 2

/-- The code of a pre-assigned lane (Table 12-2). -/
def preassignedNumber : Option LaneNo → Nat
  | none => 0xFF
  | some n => n.val

/-- Literals as numbers. -/
theorem byte_eq_iff (b : Byte) (n : Nat) : b = BitVec.ofNat 8 n ↔ b.toNat = n % 256 := by
  rw [← BitVec.toNat_inj, BitVec.toNat_ofNat]

section
variable (b : Byte)

theorem levelOfCode?_eq_some (l : Level) : levelOfCode? b = some l ↔ b.toNat = levelNumber l := by
  simp only [levelOfCode?, BitVec.ofNat_eq_ofNat, byte_eq_iff, Nat.reduceMod]
  cases l <;> split_ifs <;> simp [levelNumber] <;> omega

theorem edgeOfCode?_eq_some (e : EdgeSelect) : EdgeSelect.ofCode? b = some e ↔ b.toNat = edgeNumber e := by
  simp only [EdgeSelect.ofCode?, BitVec.ofNat_eq_ofNat, byte_eq_iff, Nat.reduceMod]
  cases e <;> split_ifs <;> simp [edgeNumber] <;> omega

theorem faultActionOfCode?_eq_some (a : FaultAction) : FaultAction.ofCode? b = some a ↔ b.toNat = faultActionNumber a := by
  simp only [FaultAction.ofCode?, BitVec.ofNat_eq_ofNat, byte_eq_iff, Nat.reduceMod]
  cases a <;> split_ifs <;> simp [faultActionNumber] <;> omega

theorem levelOfCode?_isSome : (levelOfCode? b).isSome = true ↔ b.toNat ≤ 1 := by
  simp only [levelOfCode?, BitVec.ofNat_eq_ofNat, byte_eq_iff, Nat.reduceMod]
  split_ifs <;> simp <;> omega

theorem edgeOfCode?_isSome : (EdgeSelect.ofCode? b).isSome = true ↔ b.toNat ≤ 3 := by
  simp only [EdgeSelect.ofCode?, BitVec.ofNat_eq_ofNat, byte_eq_iff, Nat.reduceMod]
  split_ifs <;> simp <;> omega

theorem faultActionOfCode?_isSome : (FaultAction.ofCode? b).isSome = true ↔ b.toNat ≤ 3 := by
  simp only [FaultAction.ofCode?, BitVec.ofNat_eq_ofNat, byte_eq_iff, Nat.reduceMod]
  split_ifs <;> simp <;> omega

theorem syncSelectOf?_isSome : (syncSelectOf? b).isSome = true ↔ b.toNat ≤ 2 := by
  simp only [syncSelectOf?, BitVec.ofNat_eq_ofNat, byte_eq_iff, Nat.reduceMod]
  split_ifs <;> simp <;> omega

theorem syncSelectOf?_some {e : Option Dir} (h : syncSelectOf? b = some e) : b.toNat = syncNumber e := by
  simp only [syncSelectOf?, BitVec.ofNat_eq_ofNat, byte_eq_iff, Nat.reduceMod] at h
  split_ifs at h with h0 h1 h2 <;> cases h
  · exact h0
  · exact h1
  · exact h2

theorem preassignedOf?_isSome : (preassignedOf? b).isSome = true ↔ b.toNat = 0xFF ∨ b.toNat ≤ 3 := by
  simp only [preassignedOf?, BitVec.ofNat_eq_ofNat, byte_eq_iff, Nat.reduceMod]
  split_ifs <;> simp <;> omega

theorem preassignedOf?_some {pre : Option LaneNo} (h : preassignedOf? b = some pre) : b.toNat = preassignedNumber pre := by
  simp only [preassignedOf?, BitVec.ofNat_eq_ofNat, byte_eq_iff, Nat.reduceMod] at h
  split_ifs at h with h0 h1 <;> cases h
  · exact h0
  · rfl

theorem lineOf?_isSome : (lineOf? b).isSome = true ↔ b.toNat ≤ 15 := by
  unfold lineOf?
  split_ifs <;> simp <;> omega

theorem lineOf?_some {k : LineNo} (h : lineOf? b = some k) : b.toNat = k.val := by
  unfold lineOf? at h
  split_ifs at h; cases h; rfl

theorem genOf?_isSome : (genOf? b).isSome = true ↔ b.toNat ≤ 1 := by
  unfold genOf?
  split_ifs <;> simp <;> omega

theorem genOf?_some {g : GenNo} (h : genOf? b = some g) : b.toNat = g.val := by
  unfold genOf? at h
  split_ifs at h; cases h; rfl

end

/-! ## The entries of the configuration part -/

theorem bytesAt_one_toNat {w : Nat} (data : BitVec w) (o : Nat) :
    (bytesAt data o 1).toNat = (data.extractLsb' (8 * o) 8).toNat := rfl

/-- An output line entry, field by field (R70). -/
theorem ConfigImage.out?_eq_some_iff (im : ConfigImage) (k : LineNo) (x : OutEntry) :
    im.out? k = some x ↔
      x.driveEnable = bitAt im.bytes (0x100 + 4 * k.val) 0
        ∧ levelOfCode? (bytesAt im.bytes (0x101 + 4 * k.val) 1) = some x.rest
        ∧ FaultAction.ofCode? (bytesAt im.bytes (0x102 + 4 * k.val) 1) = some x.faultAction
        ∧ preassignedOf? (bytesAt im.bytes (0x103 + 4 * k.val) 1) = some x.preassigned
        ∧ (x.preassigned.isSome = true → x.driveEnable = true) := by
  have h1 : 0x100 + 4 * k.val + 1 = 0x101 + 4 * k.val := by omega
  have h2 : 0x100 + 4 * k.val + 2 = 0x102 + 4 * k.val := by omega
  have h3 : 0x100 + 4 * k.val + 3 = 0x103 + 4 * k.val := by omega
  rw [out?, h1, h2, h3]
  generalize bitAt im.bytes (0x100 + 4 * k.val) 0 = enable
  generalize levelOfCode? _ = rest
  generalize FaultAction.ofCode? _ = action
  generalize preassignedOf? _ = pre
  obtain ⟨d, r, f, p⟩ := x
  cases rest with
  | none => simp
  | some r' =>
    cases action with
    | none => simp
    | some f' =>
      cases pre with
      | none => simp
      | some p' => cases enable <;> cases p' <;> simp <;> grind

theorem ConfigImage.gen?_eq_some_iff (im : ConfigImage) (g : GenNo) (k : LineNo) (e : EdgeSelect) :
    im.gen? g = some (k, e) ↔ lineOf? (bytesAt im.bytes (0x0A0 + 4 * g.val) 1) = some k
      ∧ EdgeSelect.ofCode? (bytesAt im.bytes (0x0A1 + 4 * g.val) 1) = some e := by
  rw [gen?]
  generalize lineOf? _ = line
  generalize EdgeSelect.ofCode? _ = select
  cases line <;> cases select <;> simp

/-- The entry is valid as the tables say it (R70, R187). -/
theorem ConfigImage.out?_isSome (im : ConfigImage) (k : LineNo) :
    (im.out? k).isSome = true ↔
      (bytesAt im.bytes (0x101 + 4 * k.val) 1).toNat ≤ 1 ∧ (bytesAt im.bytes (0x102 + 4 * k.val) 1).toNat ≤ 3
        ∧ ((bytesAt im.bytes (0x103 + 4 * k.val) 1).toNat = 0xFF
          ∨ (bytesAt im.bytes (0x103 + 4 * k.val) 1).toNat ≤ 3 ∧ bitAt im.bytes (0x100 + 4 * k.val) 0 = true) := by
  rw [← levelOfCode?_isSome, ← faultActionOfCode?_isSome]
  refine ⟨fun h => ?_, fun ⟨hrest, haction, hpre⟩ => ?_⟩
  · obtain ⟨x, hx⟩ := Option.isSome_iff_exists.mp h
    obtain ⟨henable, hrest, haction, hpre, howned⟩ := (im.out?_eq_some_iff k x).mp hx
    have hnumber := preassignedOf?_some _ hpre
    refine ⟨by rw [hrest]; rfl, by rw [haction]; rfl, ?_⟩
    cases hp : x.preassigned with
    | none => rw [hp] at hnumber; exact .inl hnumber
    | some n =>
      rw [hp] at hnumber howned
      exact .inr ⟨hnumber ▸ Nat.le_of_lt_succ n.isLt, henable ▸ howned rfl⟩
  · obtain ⟨rest, hrest⟩ := Option.isSome_iff_exists.mp hrest
    obtain ⟨action, haction⟩ := Option.isSome_iff_exists.mp haction
    obtain ⟨pre, hpre'⟩ := Option.isSome_iff_exists.mp ((preassignedOf?_isSome _).mpr (hpre.imp id And.left))
    have hnumber := preassignedOf?_some _ hpre'
    refine Option.isSome_iff_exists.mpr ⟨⟨_, rest, action, pre⟩, (im.out?_eq_some_iff k _).mpr
      ⟨rfl, hrest, haction, hpre', fun howned => ?_⟩⟩
    cases pre with
    | none => cases howned
    | some n =>
      refine (hpre.resolve_left fun h => ?_).2
      have hlt := n.isLt
      rw [hnumber, preassignedNumber] at h
      omega

theorem ConfigImage.gen?_isSome (im : ConfigImage) (g : GenNo) :
    (im.gen? g).isSome = true ↔ (bytesAt im.bytes (0x0A0 + 4 * g.val) 1).toNat ≤ 15
      ∧ (bytesAt im.bytes (0x0A1 + 4 * g.val) 1).toNat ≤ 3 := by
  rw [← lineOf?_isSome, ← edgeOfCode?_isSome, gen?]
  generalize lineOf? _ = line
  generalize EdgeSelect.ofCode? _ = select
  cases line <;> cases select <;> simp

/-- A lane record of the configuration part (Table 12-2). -/
theorem ConfigImage.lane_eq (im : ConfigImage) (n : LaneNo) :
    im.lane n = { head := bytesAt im.bytes (0x040 + 16 * n.val) 8, tolerance := bytesAt im.bytes (0x048 + 16 * n.val) 2,
                  enable := bitAt im.bytes (0x04A + 16 * n.val) 0, starveWarn := bitAt im.bytes (0x04A + 16 * n.val) 1 } := by
  have h8 : 0x040 + 16 * n.val + 8 = 0x048 + 16 * n.val := by omega
  have h10 : 0x040 + 16 * n.val + 10 = 0x04A + 16 * n.val := by omega
  rw [lane, laneConfigOf, h8, h10]

/-! ## Validation (R187) -/

theorem allLanes_all (p : LaneNo → Bool) : allLanes.all p = true ↔ ∀ n, p n = true := by
  rw [List.all_eq_true]
  exact ⟨fun h n => h n (mem_allLanes n), fun h n _ => h n⟩

theorem allLines_all (p : LineNo → Bool) : allLines.all p = true ↔ ∀ k, p k = true := by
  rw [List.all_eq_true]
  exact ⟨fun h k => h k (mem_allLines k), fun h k _ => h k⟩

theorem allGens_all (p : GenNo → Bool) : allGens.all p = true ↔ ∀ g, p g = true := by
  rw [List.all_eq_true]
  exact ⟨fun h g => h g (mem_allGens g), fun h g _ => h g⟩

theorem fourWindows_all (p : Nat → Bool) : [0, 1, 2, 3].all p = true ↔ ∀ i : Fin 4, p i.val = true := by
  rw [List.all_eq_true, Fin.forall_iff]
  exact ⟨fun h i hi => h i (by interval_cases i <;> decide), fun h i hi => h i (by fin_cases hi <;> decide)⟩

/-- A window entry is valid: unused, or a size code and a base that R173 allows. -/
theorem Window.valid_iff (w : Window) :
    w.valid = true ↔ (w.cueRead = false ∧ w.journal = false)
      ∨ w.size.toNat ≤ 20 ∧ w.base.toNat % (4096 * 2 ^ w.size.toNat) = 0 := by
  rw [valid, Bool.or_eq_true, Bool.and_eq_true, Bool.and_eq_true, decide_eq_true_iff, decide_eq_true_iff,
    Bool.not_eq_true', Bool.not_eq_true']; rfl

/-- START's validation, entry by entry (R187). -/
theorem ConfigImage.valid_iff (im : ConfigImage) :
    im.valid = true ↔
      (∀ n, (im.lane n).enable = true → (im.lane n).head.toNat % 512 = 0) ∧ im.journalHead.toNat % 512 = 0
        ∧ (∀ k, (im.out? k).isSome = true) ∧ (∀ k, (im.edgeSelect? k).isSome = true) ∧ im.syncSelect?.isSome = true
        ∧ (∀ g, (im.gen? g).isSome = true) ∧ ∀ i : Fin 4, (im.window i.val).valid = true := by
  have hlane : ∀ l : LaneConfig, (!l.enable || pageAligned l.head) = true ↔ (l.enable = true → l.head.toNat % 512 = 0) :=
    fun l => by rw [pageAligned]; cases l.enable <;> simp
  simp only [valid, Bool.and_eq_true, allLanes_all, allLines_all, allGens_all, fourWindows_all, hlane, pageAligned_iff,
    and_assoc]

/-! ## Windows (R174) -/

theorem windowOk_iff (s : State) (right : Right) (a : Addr) (len : Nat) :
    windowOk s right a len = true ↔ ∃ i : Fin 4, s.port.windows[i].grants right = true
      ∧ s.port.windows[i].base.toNat ≤ a.toNat
      ∧ a.toNat + len ≤ s.port.windows[i].base.toNat + 4096 * 2 ^ s.port.windows[i].size.toNat := by
  have hholds : ∀ w : Window, (w.grants right && w.holds a len) = true ↔ w.grants right = true
      ∧ w.base.toNat ≤ a.toNat ∧ a.toNat + len ≤ w.base.toNat + 4096 * 2 ^ w.size.toNat := fun w => by
    rw [Window.holds, Bool.and_eq_true, Bool.and_eq_true, decide_eq_true_iff, decide_eq_true_iff]; rfl
  rw [windowOk, List.any_eq_true]
  simp only [hholds, Vector.mem_toList_iff, Vector.mem_iff_getElem]
  refine ⟨fun ⟨w, ⟨i, hi, hw⟩, h⟩ => ⟨⟨i, hi⟩, ?_⟩, fun ⟨i, h⟩ => ⟨_, ⟨i.val, i.isLt, rfl⟩, h⟩⟩
  subst hw; exact h

end Sys2Proof.Machine
end

