-- ==== Sys2Proof/Proofs/StartLoads.lean ====
section
/-!
THEOREM. START validates the configuration part, loads it and opens the session (R157, R173, R187, R188).
-/

namespace Sys2Proof.Machine

/-! ## The configuration step (R188 step 1) -/

/-- The tables of lanes, lines, inputs and generators take the loaded values. -/
def tablesLoaded (im : ConfigImage) (s : State) : State :=
  State.each allGens (loadGen im) (State.each allLines (loadInput im) (State.each allLines (loadLine im)
    (State.each allLanes (loadLane im) s)))

theorem loadConfiguration_eq (im : ConfigImage) (s : State) :
    loadConfiguration im s = { tablesLoaded im s with
      journal := { (tablesLoaded im s).journal with head := im.journalHead, flushInterval := im.flushInterval }
      sync := { (tablesLoaded im s).sync with select := im.syncSelect?.getD none, report := im.timeMarkReport }
      port := { (tablesLoaded im s).port with windows := #v[im.window 0, im.window 1, im.window 2, im.window 3] }
      survey := { (tablesLoaded im s).survey with interval := im.surveyInterval }
      notice := { (tablesLoaded im s).notice with loadedMask := im.classMask, loadedInterval := im.gatherInterval }
      engine := { (tablesLoaded im s).engine with session := (tablesLoaded im s).engine.session + 1 } } := by
  unfold loadConfiguration tablesLoaded; dsimp only

/-- A state whose tables alone differ. -/
def TablesOnly (s t : State) : Prop :=
  ∃ ls ks is gs, t = { s with lanes := ls, lines := ks, inputs := is, gens := gs }

theorem TablesOnly.trans {s t u : State} (h : TablesOnly s t) (h' : TablesOnly t u) : TablesOnly s u := by
  obtain ⟨_, _, _, _, rfl⟩ := h
  obtain ⟨ls, ks, is, gs, rfl⟩ := h'
  exact ⟨ls, ks, is, gs, rfl⟩

theorem TablesOnly.each {α : Type} {f : α → State → State} (h : ∀ x s, TablesOnly s (f x s)) (xs : List α) (s : State) :
    TablesOnly s (State.each xs f s) :=
  each_induct (fun t => TablesOnly s t) (fun x t ht => ht.trans (h x t)) xs s ⟨_, _, _, _, rfl⟩

theorem tablesLoaded_only (im : ConfigImage) (s : State) : TablesOnly s (tablesLoaded im s) := by
  have hlane : ∀ n t, TablesOnly t (loadLane im n t) := fun n t => ⟨_, _, _, _, rfl⟩
  have hline : ∀ k t, TablesOnly t (loadLine im k t) := fun k t => by
    unfold loadLine; split <;> exact ⟨_, _, _, _, rfl⟩
  have hinput : ∀ k t, TablesOnly t (loadInput im k t) := fun k t => by
    unfold loadInput; split <;> exact ⟨_, _, _, _, rfl⟩
  have hgen : ∀ g t, TablesOnly t (loadGen im g t) := fun g t => by
    unfold loadGen; split <;> exact ⟨_, _, _, _, rfl⟩
  exact (((TablesOnly.each hlane _ s).trans (.each hline _ _)).trans (.each hinput _ _)).trans (.each hgen _ _)

section
variable (im : ConfigImage) (s : State)

theorem loadLanes_lane (n : LaneNo) :
    (State.each allLanes (loadLane im) s).lane n = { s.lane n with config := im.lane n } := by
  have h := each_at (get := State.lane) (f := loadLane im) (g := fun n l => { l with config := im.lane n })
    (fun _ => True) (fun _ _ _ => trivial) (fun n t _ => lane_setLane_self t n _)
    (fun n j t hnj => lane_setLane_ne t hnj _) allLanes nodup_allLanes s trivial n
  rw [h, if_pos (mem_allLanes n)]

/-- A line with the fields of its entry. -/
def OutLine.loaded (x : OutLine) (e : OutEntry) : OutLine :=
  { x with driveEnable := e.driveEnable, rest := e.rest, faultAction := e.faultAction, preassigned := e.preassigned }

theorem loadLines_line (k : LineNo) :
    (State.each allLines (loadLine im) s).line k = (im.out? k).elim (s.line k) (s.line k).loaded := by
  have h := each_at (get := State.line) (f := loadLine im) (g := fun k x => (im.out? k).elim x x.loaded)
    (fun _ => True) (fun _ _ _ => trivial)
    (fun k t _ => by
      unfold loadLine
      cases im.out? k with
      | none => rfl
      | some e => exact line_setLine_self t k _)
    (fun k j t hkj => by
      unfold loadLine
      cases im.out? k with
      | none => rfl
      | some e => exact line_setLine_ne t hkj _) allLines nodup_allLines s trivial k
  rw [h, if_pos (mem_allLines k)]

theorem loadInputs_input (k : LineNo) :
    (State.each allLines (loadInput im) s).input k = (im.edgeSelect? k).elim (s.input k) fun e =>
      { s.input k with edgeSelect := e, captureEnable := im.captureEnable k, deadTime := im.deadTime k } := by
  have h := each_at (get := State.input) (f := loadInput im)
    (g := fun k x => (im.edgeSelect? k).elim x fun e =>
      { x with edgeSelect := e, captureEnable := im.captureEnable k, deadTime := im.deadTime k })
    (fun _ => True) (fun _ _ _ => trivial)
    (fun k t _ => by
      unfold loadInput
      cases im.edgeSelect? k with
      | none => rfl
      | some e => exact input_setInput_self t k _)
    (fun k j t hkj => by
      unfold loadInput
      cases im.edgeSelect? k with
      | none => rfl
      | some e => exact input_setInput_ne t hkj _) allLines nodup_allLines s trivial k
  rw [h, if_pos (mem_allLines k)]

theorem loadGens_gen (g : GenNo) :
    (State.each allGens (loadGen im) s).gen g = (im.gen? g).elim (s.gen g) fun p =>
      { s.gen g with source := p.1, select := p.2 } := by
  have h := each_at (get := State.gen) (f := loadGen im)
    (g := fun g x => (im.gen? g).elim x fun p => { x with source := p.1, select := p.2 })
    (fun _ => True) (fun _ _ _ => trivial)
    (fun g t _ => by
      unfold loadGen
      cases im.gen? g with
      | none => rfl
      | some p => exact gen_setGen_self t g _)
    (fun g j t hgj => by
      unfold loadGen
      cases im.gen? g with
      | none => rfl
      | some p => exact gen_setGen_ne t hgj _) allGens nodup_allGens s trivial g
  rw [h, if_pos (mem_allGens g)]

end

/-- The tables after the configuration step. -/
theorem tablesLoaded_tables (im : ConfigImage) (s : State) :
    (∀ n, (tablesLoaded im s).lane n = { s.lane n with config := im.lane n })
      ∧ (∀ k, (tablesLoaded im s).line k = (im.out? k).elim (s.line k) (s.line k).loaded)
      ∧ (∀ k, (tablesLoaded im s).input k = (im.edgeSelect? k).elim (s.input k) fun e =>
          { s.input k with edgeSelect := e, captureEnable := im.captureEnable k, deadTime := im.deadTime k })
      ∧ ∀ g, (tablesLoaded im s).gen g = (im.gen? g).elim (s.gen g) fun p =>
          { s.gen g with source := p.1, select := p.2 } := by
  have hlane : ∀ (n : LaneNo) (t : State), (loadLane im n t).lines = t.lines ∧ (loadLane im n t).inputs = t.inputs
      ∧ (loadLane im n t).gens = t.gens := fun n t => ⟨rfl, rfl, rfl⟩
  have hline : ∀ (k : LineNo) (t : State), (loadLine im k t).lanes = t.lanes ∧ (loadLine im k t).inputs = t.inputs
      ∧ (loadLine im k t).gens = t.gens := fun k t => by unfold loadLine; split <;> exact ⟨rfl, rfl, rfl⟩
  have hinput : ∀ (k : LineNo) (t : State), (loadInput im k t).lanes = t.lanes ∧ (loadInput im k t).lines = t.lines
      ∧ (loadInput im k t).gens = t.gens := fun k t => by unfold loadInput; split <;> exact ⟨rfl, rfl, rfl⟩
  have hgen : ∀ (g : GenNo) (t : State), (loadGen im g t).lanes = t.lanes ∧ (loadGen im g t).lines = t.lines
      ∧ (loadGen im g t).inputs = t.inputs := fun g t => by unfold loadGen; split <;> exact ⟨rfl, rfl, rfl⟩
  refine ⟨fun n => ?_, fun k => ?_, fun k => ?_, fun g => ?_⟩
  · rw [tablesLoaded, lane_of_lanes (each_keeps State.lanes (fun g t => (hgen g t).1) _ _),
      lane_of_lanes (each_keeps State.lanes (fun k t => (hinput k t).1) _ _),
      lane_of_lanes (each_keeps State.lanes (fun k t => (hline k t).1) _ _), loadLanes_lane]
  · rw [tablesLoaded, line_of_lines (each_keeps State.lines (fun g t => (hgen g t).2.1) _ _),
      line_of_lines (each_keeps State.lines (fun k t => (hinput k t).2.1) _ _), loadLines_line,
      line_of_lines (each_keeps State.lines (fun n t => (hlane n t).1) _ _)]
  · rw [tablesLoaded, input_of_inputs (each_keeps State.inputs (fun g t => (hgen g t).2.2) _ _), loadInputs_input,
      input_of_inputs (each_keeps State.inputs (fun k t => (hline k t).2.1) _ _),
      input_of_inputs (each_keeps State.inputs (fun n t => (hlane n t).2.1) _ _)]
  · rw [tablesLoaded, loadGens_gen, gen_of_gens (each_keeps State.gens (fun k t => (hinput k t).2.2) _ _),
      gen_of_gens (each_keeps State.gens (fun k t => (hline k t).2.2) _ _),
      gen_of_gens (each_keeps State.gens (fun n t => (hlane n t).2.2) _ _)]

/-! ## The notice step (R157) -/

theorem clearedSlots_slot (s : State) (k : SlotNo) :
    (clearedSlots s).slot k = (s.slot k).atStart (s.notice.loadedMask.getLsbD k.val) := by
  have h := each_at (get := State.slot)
    (f := fun k t => t.setSlot k ((t.slot k).atStart (s.notice.loadedMask.getLsbD k.val)))
    (g := fun k x => x.atStart (s.notice.loadedMask.getLsbD k.val))
    (fun _ => True) (fun _ _ _ => trivial) (fun k t _ => slot_setSlot_self t k _)
    (fun k j t hkj => slot_setSlot_ne t hkj _) allSlots nodup_allSlots s trivial k
  rw [clearedSlots, h, if_pos (mem_allSlots k)]

theorem clearedSlots_rest (s : State) :
    ∃ slots, clearedSlots s = { s with notice := { s.notice with slots := slots } } :=
  each_induct (fun t => ∃ slots, t = { s with notice := { s.notice with slots := slots } })
    (fun k t ⟨slots, ht⟩ => by rw [ht]; exact ⟨_, rfl⟩) allSlots s ⟨s.notice.slots, rfl⟩

theorem Write.countDropped_shape (w : Write) :
    w.countDropped.addr = w.addr ∧ w.countDropped.bytes = w.bytes ∧ ∀ k c, w.countDropped.tag ≠ .noticeCount k c := by
  obtain ⟨a, bs, tag, aw⟩ := w
  cases tag <;> exact ⟨rfl, rfl, nofun⟩

theorem noticeStep_clears (s : State) :
    (∀ k, (noticeStep s).slot k = (s.slot k).atStart (s.notice.loadedMask.getLsbD k.val))
      ∧ ∃ slots, noticeStep s = { s with
          notice := { s.notice with
            slots := slots, issueQueue := [], gather := .idle, gatherInterval := s.notice.loadedInterval }
          handed := s.handed.filter fun it => !it.isDetails
          port := { s.port with path := s.port.path.map Write.countDropped }
          engine := { s.engine with
            command := some (.start .writing), writes := allSlots.map EngineWrite.clearSlot } } := by
  have hslot := clearedSlots_slot s
  obtain ⟨slots, hrest⟩ := clearedSlots_rest s
  rw [noticeStep_eq]
  generalize clearedSlots s = u at *
  exact ⟨hslot, slots, by rw [hrest]⟩

/-! ## Validation and loading -/

/-- With every field read the magic and the version have been read. -/
theorem ConfigImage.headRead_of_complete {im : ConfigImage} (h : im.complete = true) : im.headRead = true := by
  have hfields : ∀ k, k < 5 → configFields.getLsbD k = true := fun k hk => by
    have hhead : (rangeMask 0 5).getLsbD k = true := by rw [rangeMask_getLsbD 0 5 (by omega)]; exact decide_eq_true (by omega)
    simp only [configFields, BitVec.getLsbD_or, hhead, Bool.true_or]
  rw [complete, decide_eq_true_iff, and_eq_right_iff] at h
  exact im.headRead_iff.mpr fun k hk => h k (by omega) (hfields k hk)

theorem openSession_loaded (im : ConfigImage) (s : State) :
    ∃ ls ks is gs, openSession (loadConfiguration im s) = { s with
      lanes := ls, lines := ks, inputs := is, gens := gs
      journal := { s.journal with head := im.journalHead, flushInterval := im.flushInterval }
      sync := { s.sync with select := im.syncSelect?.getD none, report := im.timeMarkReport }
      port := { s.port with windows := #v[im.window 0, im.window 1, im.window 2, im.window 3] }
      survey := { s.survey with interval := im.surveyInterval }
      notice := { s.notice with loadedMask := im.classMask, loadedInterval := im.gatherInterval }
      engine := { s.engine with
        session := s.engine.session + 1, command := some (.start .opening), await := .none, alignPost := .idle
        writes := [.partStatus true] } } := by
  obtain ⟨ls, ks, is, gs, htables⟩ := tablesLoaded_only im s
  refine ⟨ls, ks, is, gs, ?_⟩
  rw [loadConfiguration_eq, htables]; rfl

/-- The tables of a session that opens. -/
theorem openSession_tables (im : ConfigImage) (s : State) :
    (openSession (loadConfiguration im s)).lanes = (tablesLoaded im s).lanes
      ∧ (openSession (loadConfiguration im s)).lines = (tablesLoaded im s).lines
      ∧ (openSession (loadConfiguration im s)).inputs = (tablesLoaded im s).inputs
      ∧ (openSession (loadConfiguration im s)).gens = (tablesLoaded im s).gens := by
  rw [loadConfiguration_eq]
  exact ⟨rfl, rfl, rfl, rfl⟩

/-- Settles O18: validation and the configuration step, the fields, the windows, and the notice step. -/
theorem startValidatesAndLoads : Obligations.StartValidatesAndLoads := by
  refine ⟨fun offset bytes s hawait hlen hfit => ?reads, fun im => ?fields, fun s right a len => ?windows,
    fun s hc hw => ?opens⟩
  case reads =>
    intro im hc hcomplete
    have hgo : configurationRead offset bytes s (clearEngineFlight s) = afterConfigurationRead im (clearEngineFlight s) :=
      configurationRead_goesOn rfl (hc.imp id fun h => ⟨h.1, ConfigImage.headRead_of_complete hcomplete, h.2⟩)
    have hexec : exec (.startReadDone offset bytes) s
        = .next (validateConfiguration im (storeImage im (clearEngineFlight s))) := by
      rw [exec_startReadDone hawait hlen hfit, hgo, afterConfigurationRead, if_pos hcomplete]
    refine ⟨fun hbad => ?bad, fun hvalid => ?valid⟩
    case bad =>
      rw [validateConfiguration, if_neg (ne_true_of_eq_false hbad)] at hexec
      exact ⟨_, hexec, rfl, rfl, rfl, rfl, rfl, rfl, rfl⟩
    case valid =>
      rw [validateConfiguration, if_pos hvalid] at hexec
      obtain ⟨hlane, hline, hinput, hgen⟩ := tablesLoaded_tables im (storeImage im (clearEngineFlight s))
      obtain ⟨hlanes, hlines, hinputs, hgens⟩ := openSession_tables im (storeImage im (clearEngineFlight s))
      obtain ⟨ls, ks, is, gs, hrest⟩ := openSession_loaded im (storeImage im (clearEngineFlight s))
      generalize tablesLoaded im (storeImage im (clearEngineFlight s)) = v at *
      generalize openSession (loadConfiguration im (storeImage im (clearEngineFlight s))) = t at *
      refine ⟨t, hexec, ?_, ?_, ?_, ?_, fun n => (lane_of_lanes hlanes n).trans (hlane n), fun k x hx => ?_, fun k e he => ?_,
        fun e he => ?_, fun g k e he => ?_, ?_, ?_, ?_, ?_, ?_, ?_, ?_, ?_, ?_⟩
      · rw [hrest]; rfl
      · rw [hrest]
      · rw [hrest]; rfl
      · rw [hrest]
      · rw [line_of_lines hlines, hline, hx]; rfl
      · rw [input_of_inputs hinputs, hinput, he]; rfl
      · rw [hrest, he]; rfl
      · rw [gen_of_gens hgens, hgen, he]; rfl
      · rw [hrest]; rfl
      · rw [hrest]; rfl
      · rw [hrest]; rfl
      · rw [hrest]; rfl
      · rw [hrest]; rfl
      · rw [hrest]; rfl
      · rw [hrest]; rfl
      · rw [hrest]; rfl
      · rw [hrest]; rfl
  case fields =>
    intro byte half addr bit edgeCode
    have hedge : ∀ e, edgeCode e = edgeNumber e := fun e => by cases e <;> rfl
    refine ⟨?valid, fun n => ?lane, rfl, rfl, rfl, rfl, rfl, rfl, fun k => ⟨rfl, rfl⟩, fun i => ⟨rfl, rfl, rfl, rfl⟩,
      fun k x hx => ?out, fun k e he => ?_, fun e he => ?sync, fun g k e he => ?_⟩
    case valid =>
      rw [im.valid_iff]
      simp only [im.lane_eq, im.out?_isSome, im.gen?_isSome, Window.valid_iff, ConfigImage.edgeSelect?, edgeOfCode?_isSome,
        ConfigImage.syncSelect?, syncSelectOf?_isSome]
      rfl
    case lane => rw [im.lane_eq]; exact ⟨rfl, rfl, rfl, rfl⟩
    case out =>
      obtain ⟨henable, hrest, haction, hpre, -⟩ := (im.out?_eq_some_iff k x).mp hx
      refine ⟨henable, ((levelOfCode?_eq_some _ _).mp hrest).trans ?_, ((faultActionOfCode?_eq_some _ _).mp haction).trans ?_,
        (preassignedOf?_some _ hpre).trans ?_⟩
      · cases x.rest <;> rfl
      · cases x.faultAction <;> rfl
      · cases x.preassigned <;> rfl
    case sync =>
      refine (syncSelectOf?_some _ he).trans ?_
      cases e with
      | none => rfl
      | some d => cases d <;> rfl
    · rw [hedge]; exact (edgeOfCode?_eq_some _ _).mp he
    · obtain ⟨hline, hselect⟩ := (im.gen?_eq_some_iff g k e).mp he
      rw [hedge]
      exact ⟨lineOf?_some _ hline, (edgeOfCode?_eq_some _ _).mp hselect⟩
  case windows =>
    rw [windowOk_iff]
    cases right <;> rfl
  case opens =>
    intro u
    have hu : u = noticeStep (engineWriteTaken (issueWrite (engineWriteOf s (.partStatus true)) s)) :=
      (issueEngineWrite_eq _ s).trans (if_pos hc)
    obtain ⟨hslot, slots, hrest⟩ := noticeStep_clears (engineWriteTaken (issueWrite (engineWriteOf s (.partStatus true)) s))
    rw [← hu] at hslot hrest
    have hpath : u.port.path = (s.port.path ++ [engineWriteOf s (.partStatus true)]).map Write.countDropped :=
      (congrArg (fun x : State => x.port.path) hrest :)
    refine ⟨?_, ?_, fun w hw' => ?_, fun k => ?_, ?_, ?_, ?_, fun k hk => ?_, ?_, ?_, ?_, ?_⟩
    · rw [hrest]; rfl
    · have hkept : (fun w : Write => (w.addr, w.bytes)) ∘ Write.countDropped = fun w => (w.addr, w.bytes) :=
        funext fun w => Prod.ext w.countDropped_shape.1 w.countDropped_shape.2.1
      rw [hpath, List.map_map, hkept, List.map_append]; rfl
    · rw [hpath] at hw'
      obtain ⟨w', -, rfl⟩ := List.mem_map.mp hw'
      exact w'.countDropped_shape.2.2
    · rw [hslot]; exact ⟨rfl, rfl, rfl, rfl, rfl⟩
    · rw [hrest]
    · rw [hrest]
    · rw [hrest]; rfl
    · rw [hrest] at hk
      exact absurd (List.mem_filter.mp hk).2 Bool.false_ne_true
    · rw [hrest]; rfl
    · rw [hrest]; rfl
    · rw [hrest]; rfl
    · rw [hrest]; rfl

end Sys2Proof.Machine
end

