-- ==== Sys2Proof/Proofs/CueFields.lean ====
section
/-!
SUPPORT. A cue's 32 bytes: what makes it a good cue, and the fields of a good one (Tables 2-3, 12-5, 12-6).
-/

namespace Sys2Proof.Machine

/-! ## Fields of more than a byte -/

theorem durationOf?_isSome (v : Word) : (durationOf? v).isSome = true ↔ 2 ≤ v.toNat ∧ v.toNat < 2 ^ 24 := by
  unfold durationOf?
  split_ifs with h
  · exact iff_of_true rfl h
  · exact iff_of_false nofun h

theorem durationOf?_some {v : Word} {d : BitVec 24} (h : durationOf? v = some d) : d.toNat = v.toNat := by
  unfold durationOf? at h
  split_ifs at h with hv
  cases h
  rw [BitVec.toNat_setWidth, Nat.mod_eq_of_lt hv.2]

theorem multiplierOf?_isSome (v : Half) : (multiplierOf? v).isSome = true ↔ 1 ≤ v.toNat ∧ v.toNat ≤ 256 := by
  unfold multiplierOf?
  split_ifs with h
  · exact iff_of_true rfl h
  · exact iff_of_false nofun h

theorem multiplierOf?_some {v : Half} {m : Nat} (h : multiplierOf? v = some m) : m = v.toNat := by
  unfold multiplierOf? at h
  split_ifs at h; cases h; rfl

theorem awaitedEdgeOf?_isSome (b : Byte) : (awaitedEdgeOf? b).isSome = true ↔ 1 ≤ b.toNat ∧ b.toNat ≤ 3 := by
  unfold awaitedEdgeOf?
  split_ifs with h
  · rw [h]; decide
  · have hne : b.toNat ≠ 0 := fun hz => h (BitVec.eq_of_toNat_eq hz)
    rw [edgeOfCode?_isSome]; omega

theorem awaitedEdgeOf?_some {b : Byte} {e : EdgeSelect} (h : awaitedEdgeOf? b = some e) : b.toNat = edgeNumber e := by
  unfold awaitedEdgeOf? at h
  split_ifs at h
  exact (edgeOfCode?_eq_some b e).mp h

/-- The code of a late policy (Table 12-5). -/
def policyNumber : Policy → BitVec 2
  | .run => 0
  | .skip => 1
  | .fault => 2

theorem policyOf?_some {c : BitVec 2} {p : Policy} (h : policyOf? c = some p) : c = policyNumber p := by
  unfold policyOf? at h
  split_ifs at h with h0 h1 h2 <;> cases h
  · exact h0
  · exact h1
  · exact h2

theorem policyOf?_isSome (c : BitVec 2) : (policyOf? c).isSome = true ↔ c ≠ 3#2 := by
  revert c; decide

/-! ## The action (Table 2-3) -/

/-- The rows of Table 2-3 on the kind and the parameters: which fields must hold a value that their table names. -/
def ActionValid (raw : BitVec 256) : Prop :=
  (bytesAt raw 0 1).toNat ≤ 11
    ∧ ((bytesAt raw 0 1).toNat = 2 → (lineOf? (bytesAt raw 8 1)).isSome = true
      ∧ (levelOfCode? (bytesAt raw 9 1)).isSome = true ∧ (durationOf? (bytesAt raw 12 4)).isSome = true)
    ∧ ((bytesAt raw 0 1).toNat = 3 → (lineOf? (bytesAt raw 8 1)).isSome = true
      ∧ (levelOfCode? (bytesAt raw 9 1)).isSome = true ∧ (durationOf? (bytesAt raw 12 4)).isSome = true
      ∧ (durationOf? (bytesAt raw 16 4)).isSome = true)
    ∧ ((bytesAt raw 0 1).toNat = 4 → (lineOf? (bytesAt raw 8 1)).isSome = true
      ∧ (genOf? (bytesAt raw 9 1)).isSome = true ∧ (multiplierOf? (bytesAt raw 10 2)).isSome = true)
    ∧ ((bytesAt raw 0 1).toNat = 8 → (lineOf? (bytesAt raw 8 1)).isSome = true
      ∧ (awaitedEdgeOf? (bytesAt raw 9 1)).isSome = true)
    ∧ ((bytesAt raw 0 1).toNat = 9 → (lineOf? (bytesAt raw 8 1)).isSome = true)

theorem actionOf?_isSome (raw : BitVec 256) : (actionOf? raw).isSome = true ↔ ActionValid raw := by
  unfold actionOf? ActionValid; dsimp only
  generalize (bytesAt raw 0 1).toNat = kind
  generalize lineOf? (bytesAt raw 8 1) = line
  split
  · simp
  · simp
  · cases line <;> cases levelOfCode? (bytesAt raw 9 1) <;> cases durationOf? (bytesAt raw 12 4) <;> simp
  · cases line <;> cases levelOfCode? (bytesAt raw 9 1) <;> cases durationOf? (bytesAt raw 12 4) <;>
      cases durationOf? (bytesAt raw 16 4) <;> simp
  · cases line <;> cases genOf? (bytesAt raw 9 1) <;> cases multiplierOf? (bytesAt raw 10 2) <;> simp
  · simp
  · simp
  · simp
  · cases line <;> cases awaitedEdgeOf? (bytesAt raw 9 1) <;> simp
  · cases line <;> simp
  · simp
  · simp
  · refine iff_of_false nofun fun ⟨hkind, _⟩ => ?_
    interval_cases kind <;> contradiction

/-- What the parameters say of an action. -/
def ActionHolds (raw : BitVec 256) (a : Action) : Prop :=
  let kind := (bytesAt raw 0 1).toNat
  let at8 := (bytesAt raw 8 1).toNat
  let at9 := (bytesAt raw 9 1).toNat
  match a with
  | .nop => kind = 0
  | .setLines mask levels => kind = 1 ∧ mask = bytesAt raw 8 2 ∧ levels = bytesAt raw 10 2
  | .pulse k active width => kind = 2 ∧ at8 = k.val ∧ at9 = levelNumber active ∧ width.toNat = (bytesAt raw 12 4).toNat
  | .wave k first d1 d2 periods =>
    kind = 3 ∧ at8 = k.val ∧ at9 = levelNumber first ∧ periods = bytesAt raw 10 2
      ∧ d1.toNat = (bytesAt raw 12 4).toNat ∧ d2.toNat = (bytesAt raw 16 4).toNat
  | .track k g m => kind = 4 ∧ at8 = k.val ∧ at9 = g.val ∧ m = (bytesAt raw 10 2).toNat
  | .captureOn mask => kind = 5 ∧ mask = bytesAt raw 8 2
  | .captureOff mask => kind = 6 ∧ mask = bytesAt raw 8 2
  | .mark v => kind = 7 ∧ v = bytesAt raw 8 4
  | .waitInput k e timeout continues =>
    kind = 8 ∧ at8 = k.val ∧ at9 = edgeNumber e ∧ timeout = bytesAt raw 12 4 ∧ continues = bitAt raw 1 4
  | .claim k timeout => kind = 9 ∧ at8 = k.val ∧ timeout = bytesAt raw 10 2
  | .release mask => kind = 10 ∧ mask = bytesAt raw 8 2
  | .endLane => kind = 11

theorem actionOf?_some {raw : BitVec 256} {a : Action} (h : actionOf? raw = some a) : ActionHolds raw a := by
  unfold actionOf? at h; dsimp only at h
  split at h
  next hk => cases h; exact hk
  next hk => cases h; exact ⟨hk, rfl, rfl⟩
  next hk =>
    simp only [Option.bind_eq_bind, Option.bind_eq_some_iff, Option.pure_def, Option.some.injEq] at h
    obtain ⟨k, hline, l, hlevel, w, hwidth, rfl⟩ := h
    exact ⟨hk, lineOf?_some _ hline, (levelOfCode?_eq_some _ _).mp hlevel, durationOf?_some hwidth⟩
  next hk =>
    simp only [Option.bind_eq_bind, Option.bind_eq_some_iff, Option.pure_def, Option.some.injEq] at h
    obtain ⟨k, hline, l, hlevel, d1, hfirst, d2, hsecond, rfl⟩ := h
    exact ⟨hk, lineOf?_some _ hline, (levelOfCode?_eq_some _ _).mp hlevel, rfl, durationOf?_some hfirst,
      durationOf?_some hsecond⟩
  next hk =>
    simp only [Option.bind_eq_bind, Option.bind_eq_some_iff, Option.pure_def, Option.some.injEq] at h
    obtain ⟨k, hline, g, hgen, m, hmultiplier, rfl⟩ := h
    exact ⟨hk, lineOf?_some _ hline, genOf?_some _ hgen, multiplierOf?_some hmultiplier⟩
  next hk => cases h; exact ⟨hk, rfl⟩
  next hk => cases h; exact ⟨hk, rfl⟩
  next hk => cases h; exact ⟨hk, rfl⟩
  next hk =>
    simp only [Option.bind_eq_bind, Option.bind_eq_some_iff, Option.pure_def, Option.some.injEq] at h
    obtain ⟨k, hline, e, hedge, rfl⟩ := h
    exact ⟨hk, lineOf?_some _ hline, awaitedEdgeOf?_some hedge, rfl, rfl⟩
  next hk =>
    simp only [Option.bind_eq_bind, Option.bind_eq_some_iff, Option.pure_def, Option.some.injEq] at h
    obtain ⟨k, hline, rfl⟩ := h
    exact ⟨hk, lineOf?_some _ hline, rfl⟩
  next hk => cases h; exact ⟨hk, rfl⟩
  next hk => cases h; exact hk
  next => cases h

/-! ## The cue (R39) -/

theorem continuesAllowed_iff (raw : BitVec 256) :
    continuesAllowed raw = true ↔ (bitAt raw 1 4 = true → (bytesAt raw 0 1).toNat = 8) := by
  have hkind : (bytesAt raw 0 1 = 8#8) ↔ (bytesAt raw 0 1).toNat = 8 := byte_eq_iff (bytesAt raw 0 1) 8
  rw [continuesAllowed, Bool.or_eq_true, Bool.not_eq_true', decide_eq_true_iff, hkind]
  cases bitAt raw 1 4 <;> simp

theorem parseCue_eq_some_iff (raw : BitVec 256) (c : Cue) :
    parseCue raw = some c ↔ actionOf? raw = some c.action ∧ policyOf? (raw.extractLsb' 10 2) = some c.policy
      ∧ c.rel = bitAt raw 1 0 ∧ c.notify = bitAt raw 1 1 ∧ c.due = bytesAt raw 2 6
      ∧ continuesAllowed raw = true ∧ (c.rel = true → c.due.toNat < 2 ^ 47) := by
  obtain ⟨rel, notify, policy, due, action⟩ := c
  unfold parseCue
  cases actionOf? raw with
  | none => simp
  | some a =>
    cases policyOf? (raw.extractLsb' 10 2) with
    | none => simp
    | some p =>
      cases continuesAllowed raw <;> cases bitAt raw 1 0 <;> simp <;> grind

theorem parseCue_isSome (raw : BitVec 256) :
    (parseCue raw).isSome = true ↔ ActionValid raw ∧ raw.extractLsb' 10 2 ≠ 3#2
      ∧ (bitAt raw 1 4 = true → (bytesAt raw 0 1).toNat = 8)
      ∧ (bitAt raw 1 0 = true → (bytesAt raw 2 6).toNat < 2 ^ 47) := by
  rw [← actionOf?_isSome, ← policyOf?_isSome, ← continuesAllowed_iff, Option.isSome_iff_exists]
  simp only [parseCue_eq_some_iff]
  refine ⟨fun ⟨c, haction, hpolicy, hrel, _, hdue, hcontinues, hshort⟩ => ?_,
    fun ⟨haction, hpolicy, hcontinues, hshort⟩ => ?_⟩
  · rw [haction, hpolicy, ← hrel, ← hdue]; exact ⟨rfl, rfl, hcontinues, hshort⟩
  · obtain ⟨a, ha⟩ := Option.isSome_iff_exists.mp haction
    obtain ⟨p, hp⟩ := Option.isSome_iff_exists.mp hpolicy
    exact ⟨{ rel := _, notify := _, policy := p, due := _, action := a }, ha, hp, rfl, rfl, rfl, hcontinues, hshort⟩

end Sys2Proof.Machine
end

