-- ==== Sys2Proof/Proofs/CueBursts.lean ====
section
/-!
THEOREM. A burst that has arrived: its cues join the queue, the link behind the page's last cue is read, and a STARVED lane takes
the first cue (R37 to R40).
-/

namespace Sys2Proof.Machine

/-! ## The burst in the lane -/

theorem onLast_append (f : PageEntry → PageEntry) (before : List PageEntry) (p : PageEntry) :
    onLast f (before ++ [p]) = before ++ [f p] := by
  induction before with
  | nil => rfl
  | cons q qs ih =>
    cases qs with
    | nil => rfl
    | cons r rs => exact congrArg (q :: ·) ih

/-- The lane whose burst has arrived. -/
def Lane.burstQueued (l : Lane) (cues : List (BitVec 256)) : Lane :=
  { l with
    queue := l.queue ++ cues.map fun raw => { cue := parseCue raw, page := l.fetchAddr }
    reserved := 0
    pages := onLast (fun p => { p with fetched := p.fetched + cues.length }) l.pages }

theorem queueBurst_eq (n : LaneNo) (cues : List (BitVec 256)) (s : State) :
    queueBurst n cues s = s.setLane n ((s.lane n).burstQueued cues) := rfl

theorem queueBurst_self (n : LaneNo) (cues : List (BitVec 256)) (s : State) :
    (queueBurst n cues s).lane n = (s.lane n).burstQueued cues := lane_setLane_self _ _ _

theorem Lane.burstQueued_fetched {l : Lane} {before : List PageEntry} {p : PageEntry} (h : l.pages = before ++ [p])
    {cues : List (BitVec 256)} (hlast : p.fetched + cues.length = p.count) : (l.burstQueued cues).unfetched = 0 := by
  rw [unfetched, fetchEntry, burstQueued, h, onLast_append, List.getLast?_append_of_ne_nil _ (by simp)]
  show p.count - (p.fetched + cues.length) = 0
  omega

/-! ## The next read (R37, R40) -/

/-- The queue, the reserved slots, the pages and the state of two lanes are the same. -/
def Lane.SameQueue (l m : Lane) : Prop :=
  m.queue = l.queue ∧ m.reserved = l.reserved ∧ m.pages = l.pages ∧ m.state = l.state

/-- A read that is presented or refused leaves the queue and the pages of a lane that is not STARVED. -/
theorem Lane.asked_sameQueue {l : Lane} (h : l.state ≠ .starved) (r : FetchRead) (ok : Bool) (a : Addr) (now : Ticks) :
    l.SameQueue (l.asked r ok a now) := by
  cases ok with
  | true => exact ⟨rfl, rfl, rfl, rfl⟩
  | false => rw [asked_refused l r rfl, refused_other h]; exact ⟨rfl, rfl, rfl, rfl⟩

theorem present_lines {s : State} {n : LaneNo} (h : (s.lane n).state ≠ .starved) (r : FetchRead) (ok : Bool) (a : Addr) :
    (if ok then presentFetch n r s else fetchFault n .window a s).lines = s.lines := by
  cases ok with
  | true => rfl
  | false => exact fetchFault_lines_of_running h _ _

theorem presentBurst_kept {s : State} {n : LaneNo} (h : (s.lane n).state ≠ .starved) :
    (s.lane n).SameQueue ((presentBurst n s).lane n) ∧ (presentBurst n s).lines = s.lines := by
  refine ⟨?_, ?_⟩
  · rw [presentBurst_lane]
    split
    · exact Lane.asked_sameQueue h _ _ _ _
    · exact ⟨rfl, rfl, rfl, rfl⟩
  · unfold presentBurst; dsimp only
    split
    · exact present_lines h _ _ _
    · rfl

theorem fetchOn_kept {s : State} {n : LaneNo} (h : (s.lane n).state ≠ .starved) :
    (s.lane n).SameQueue ((fetchOn n s).lane n) ∧ (fetchOn n s).lines = s.lines := by
  unfold fetchOn; dsimp only
  split
  · exact presentBurst_kept h
  · have hlane : (s.setLane n { s.lane n with step := .link }).lane n = { s.lane n with step := .link } :=
      lane_setLane_self _ _ _
    have hstate : ((s.setLane n { s.lane n with step := .link }).lane n).state ≠ .starved := by rw [hlane]; exact h
    refine ⟨?_, present_lines hstate _ _ _⟩
    rw [presentLink_lane, hlane]
    exact Lane.asked_sameQueue (l := { s.lane n with step := .link }) h _ _ _ _

theorem setLane_setLane (s : State) (n : LaneNo) (l m : Lane) : (s.setLane n l).setLane n m = s.setLane n m := by
  unfold State.setLane
  exact congrArg (fun ls => { s with lanes := ls }) (Vector.set_set ..)

/-- Behind the page's last cue its link is read. -/
theorem fetchOn_link {s : State} {n : LaneNo} (h : (s.lane n).unfetched = 0)
    (hw : windowOk s .cueRead (pageOffset (s.lane n).fetchAddr 8) 8 = true) :
    fetchOn n s = s.setLane n { s.lane n with step := .link, request := some .link } := by
  unfold fetchOn presentLink presentFetch; dsimp only
  rw [if_neg (by rw [h]; exact Nat.lt_irrefl 0), lane_setLane_self]
  exact (if_pos hw).trans (setLane_setLane s n _ _)

/-! ## The first cue of a STARVED lane (R3 to R6) -/

/-- The lane becomes PENDING on a good cue whose due is ahead. -/
theorem takeNext_pends {v : State} {n : LaneNo} {c : Cue} {page : Addr} {rest : List QueuedCue}
    (hhold : (v.lane n).holdRequest = false) (hqueue : (v.lane n).queue = { cue := some c, page := page } :: rest)
    (horder : ordersBack (v.lane n).anchor c = false)
    (hdue : reached v.time.schedule (resolvedDue (v.lane n).anchor c) = false) :
    ∃ t, runAfter n (takeNext n v) = t
      ∧ t.lane n = { ((v.lane n).cueTaken).resolved (resolvedDue (v.lane n).anchor c) with state := .pending }
      ∧ t.lines = v.lines ∧ t.journal = v.journal ∧ t.fixed = v.fixed := by
  have hanchor : ((v.setLane n (v.lane n).cueTaken).lane n).anchor = (v.lane n).anchor := by rw [lane_setLane_self]; rfl
  have hwaits := resolveCue_waits (s := v.setLane n (v.lane n).cueTaken) (n := n) (c := c)
    (by rw [hanchor, horder]; exact Bool.false_ne_true)
    (by rw [hanchor]; exact ne_true_of_eq_false hdue)
  rw [hanchor] at hwaits
  rw [takeNext_head hhold hqueue, startCue_good, hwaits, runAfter_rest]
  refine ⟨_, rfl, ?_, setLaneState_lines _ _ _, setLaneState_journal _ _ _, setLaneState_fixed _ _ _⟩
  rw [setLaneState_self, lane_setLane_self, lane_setLane_self]

/-- The lane faults on a bad cue. -/
theorem takeNext_badCue {v : State} {n : LaneNo} {page : Addr} {rest : List QueuedCue}
    (hhold : (v.lane n).holdRequest = false) (hqueue : (v.lane n).queue = { cue := none, page := page } :: rest) :
    ∃ t a, runAfter n (takeNext n v) = t ∧ t.lane n = (v.lane n).cueTaken.faulted .badCue a v.time.schedule
      ∧ t.journal = v.journal ∧ t.fixed = v.fixed := by
  rw [takeNext_head hhold hqueue, startCue_bad, cueFault, runAfter_rest]
  generalize ((v.setLane n (v.lane n).cueTaken).lane n).cuePage = a
  refine ⟨_, a, rfl, ?_, laneFault_journal _ _ _ _, laneFault_fixed _ _ _ _⟩
  rw [laneFault_lane, lane_setLane_self]; rfl

/-- The lane of a page's last burst, before it takes a cue. -/
def Lane.lastBurst (l : Lane) (cues : List (BitVec 256)) : Lane :=
  { Lane.burstQueued { l with flight := none } cues with step := .link, request := some .link }

theorem fetchOn_lastBurst {s : State} {n : LaneNo} {cues : List (BitVec 256)} {before : List PageEntry} {p : PageEntry}
    (hpages : (s.lane n).pages = before ++ [p]) (hlast : p.fetched + cues.length = p.count)
    (hw : windowOk s .cueRead (pageOffset (s.lane n).fetchAddr 8) 8 = true) :
    ∃ v, fetchOn n (queueBurst n cues (clearFetch n s)) = v ∧ v.lane n = (s.lane n).lastBurst cues
      ∧ v.lines = s.lines ∧ v.journal = s.journal ∧ v.fixed = s.fixed := by
  have hqueued : (queueBurst n cues (clearFetch n s)).lane n = Lane.burstQueued { s.lane n with flight := none } cues := by
    rw [queueBurst_self, clearFetch_self]
  have hfetched : ((queueBurst n cues (clearFetch n s)).lane n).unfetched = 0 := by
    rw [hqueued]; exact Lane.burstQueued_fetched (l := { s.lane n with flight := none }) hpages hlast
  have hlink := fetchOn_link hfetched (by rw [hqueued]; exact hw)
  rw [hqueued] at hlink
  exact ⟨_, hlink, lane_setLane_self _ _ _, rfl, rfl, rfl⟩

/-! ## The settled statement -/

/-- Settles O45: the burst in the queue, the first cue of a STARVED lane, and the fields of a cue. -/
theorem cueBurstIsQueued : Obligations.CueBurstIsQueued := by
  refine ⟨fun n cues s hawait hlength => ?bursts, fun raw => ?fields⟩
  case bursts =>
    intro l queued
    have hexec : exec (.cueBurstDone n cues) s = .next (wakeLane n (fetchOn n (queueBurst n cues (clearFetch n s)))) := by
      refine congrArg Host.Outcome.next ((fetchAnswer_awaited hawait rfl _).trans (if_pos ?_))
      rw [clearFetch_self]; exact hlength
    have hqueued : (queueBurst n cues (clearFetch n s)).lane n = Lane.burstQueued { s.lane n with flight := none } cues := by
      rw [queueBurst_self, clearFetch_self]
    refine ⟨fun hrunning => ?running, fun before p raw more hstarved hqueue hhold hwait hpages hlast hw hcues => ?starved⟩
    case running =>
      have hstate : ((queueBurst n cues (clearFetch n s)).lane n).state ≠ .starved := by rw [hqueued]; exact hrunning
      obtain ⟨⟨hq, hreserved, hps, hst⟩, hlines⟩ := fetchOn_kept hstate
      have hwake : wakeLane n (fetchOn n (queueBurst n cues (clearFetch n s)))
          = fetchOn n (queueBurst n cues (clearFetch n s)) := if_neg (by rw [hst]; exact hstate)
      rw [hwake] at hexec
      rw [hqueued] at hq hreserved hps hst
      refine ⟨_, hexec, hq, hreserved, fun before p hpages => hps.trans ?_, hst, hlines, fetchOn_journal _ _,
        (fetchOn_fixed _ _).trans rfl⟩
      exact (congrArg (onLast _) hpages).trans (onLast_append _ before p)
    case starved =>
      intro taken
      obtain ⟨v, hv, hlane, hlines, hjournal, hfixed⟩ := fetchOn_lastBurst hpages hlast hw
      have htime : v.time = s.time := time_of_fixed hfixed
      have hvqueue : (v.lane n).queue = queued := by rw [hlane]; exact congrArg (· ++ queued) hqueue
      have hvpages : (v.lane n).pages = before ++ [{ p with fetched := p.fetched + cues.length }] := by
        rw [hlane]
        exact (congrArg (onLast _) hpages).trans (onLast_append _ before p)
      rw [hlast] at hvpages
      have hhead : ∃ rest, (v.lane n).queue = { cue := parseCue raw, page := l.fetchPage.getD 0 } :: rest :=
        ⟨_, hvqueue.trans (congrArg (List.map _) hcues)⟩
      obtain ⟨rest, hhead⟩ := hhead
      have hvhold : (v.lane n).holdRequest = false := by rw [hlane]; exact hhold
      have hanchor : (v.lane n).anchor = l.anchor := by rw [hlane]; rfl
      have hwake : wakeLane n v = runAfter n (takeNext n v) := if_pos (by rw [hlane]; exact hstarved)
      rw [hv, hwake] at hexec
      refine ⟨fun hbad => ?bad, fun c hgood horder => ?good⟩
      case bad =>
        rw [hbad] at hhead
        obtain ⟨t, a, ht, htlane, htjournal, htfixed⟩ := takeNext_badCue hvhold hhead
        rw [ht] at hexec
        refine ⟨t, ⟨hexec, ?_, ?_, htjournal.trans hjournal, htfixed.trans hfixed⟩, ?_⟩
        · rw [htlane, hlane]; rfl
        · rw [htlane]; rfl
        · rw [htlane]; exact ⟨rfl, rfl, rfl⟩
      case good =>
        intro due hdue
        rw [hgood] at hhead
        have hnot : ordersBack (v.lane n).anchor c = false := by
          rw [hanchor, ← Bool.not_eq_true, ordersBack_before]
          rintro ⟨hrel, hne, hback⟩
          rcases horder with h | h | h
          · rw [hrel] at h; cases h
          · exact hne h
          · exact h hback
        have hahead : reached v.time.schedule (resolvedDue (v.lane n).anchor c) = false := by
          rw [hanchor, htime, reached, decide_eq_false_iff_not]; exact hdue
        obtain ⟨t, ht, htlane, htlines, htjournal, htfixed⟩ := takeNext_pends hvhold hhead hnot hahead
        rw [ht] at hexec
        rw [hanchor] at htlane
        refine ⟨t, ⟨hexec, ?_, ?_, htjournal.trans hjournal, htfixed.trans hfixed⟩, ?_⟩
        · rw [htlane, hlane]; rfl
        · rw [htlane, hlane]; rfl
        · rw [htlane]
          exact ⟨rfl, rfl, rfl, hvqueue, rfl, by rw [hlane]; rfl, by rw [hlane]; rfl, hvpages, htlines.trans hlines⟩
  case fields =>
    intro byte half word duration
    refine ⟨?_, fun c hc => ?_⟩
    · rw [parseCue_isSome, ActionValid]
      simp only [lineOf?_isSome, levelOfCode?_isSome, genOf?_isSome, durationOf?_isSome, multiplierOf?_isSome,
        awaitedEdgeOf?_isSome]
      have hline : byte 8 < 16 ↔ byte 8 ≤ 15 := Nat.lt_succ_iff
      rw [hline]
      exact ⟨fun ⟨⟨hkind, hrows⟩, hpolicy, hcontinues, hshort⟩ => ⟨hkind, hpolicy, hcontinues, hshort, hrows⟩,
        fun ⟨hkind, hpolicy, hcontinues, hshort, hrows⟩ => ⟨⟨hkind, hrows⟩, hpolicy, hcontinues, hshort⟩⟩
    · have hfields := (parseCue_eq_some_iff raw c).mp hc
      obtain ⟨haction, hpolicy, hrel, hnotify, hdue, -, -⟩ := hfields
      have hcode : raw.extractLsb' 10 2 = policyNumber c.policy := policyOf?_some hpolicy
      have hholds := actionOf?_some haction
      refine ⟨hrel, hnotify, hdue, ?_, ?_, ?_, ?_⟩
      · rw [hcode]; cases c.policy <;> decide
      · rw [hcode]; cases c.policy <;> decide
      · rw [hcode]; cases c.policy <;> decide
      · unfold ActionHolds at hholds; dsimp only at hholds
        have hlevel : ∀ (l : Level) (x : Nat), x = levelNumber l → (l = .high ↔ x = 1) := fun l x h => by
          rw [h]; cases l <;> decide
        have hedge : ∀ (e : EdgeSelect) (x : Nat), x = edgeNumber e →
            (e = .rise ↔ x = 1) ∧ (e = .fall ↔ x = 2) ∧ (e = .either ↔ x = 3) := fun e x h => by
          rw [h]; cases e <;> decide
        cases ha : c.action with
        | nop => rw [ha] at hholds; exact hholds
        | setLines mask levels => rw [ha] at hholds; exact hholds
        | pulse k active width =>
          rw [ha] at hholds
          obtain ⟨hk, h8, h9, h12⟩ := hholds
          exact ⟨hk, h8.symm, hlevel _ _ h9, h12⟩
        | wave k first d1 d2 periods =>
          rw [ha] at hholds
          obtain ⟨hk, h8, h9, h10, h12, h16⟩ := hholds
          exact ⟨hk, h8.symm, hlevel _ _ h9, congrArg BitVec.toNat h10, h12, h16⟩
        | track k g m =>
          rw [ha] at hholds
          obtain ⟨hk, h8, h9, h10⟩ := hholds
          exact ⟨hk, h8.symm, h9.symm, h10⟩
        | captureOn mask => rw [ha] at hholds; exact hholds
        | captureOff mask => rw [ha] at hholds; exact hholds
        | mark v =>
          rw [ha] at hholds
          obtain ⟨hk, h8⟩ := hholds
          exact ⟨hk, congrArg BitVec.toNat h8⟩
        | waitInput k e timeout continues =>
          rw [ha] at hholds
          obtain ⟨hk, h8, h9, h12, hcontinues⟩ := hholds
          obtain ⟨hrise, hfall, heither⟩ := hedge _ _ h9
          exact ⟨hk, h8.symm, hrise, hfall, heither, congrArg BitVec.toNat h12, hcontinues⟩
        | claim k timeout =>
          rw [ha] at hholds
          obtain ⟨hk, h8, h10⟩ := hholds
          exact ⟨hk, h8.symm, congrArg BitVec.toNat h10⟩
        | release mask => rw [ha] at hholds; exact hholds
        | endLane => rw [ha] at hholds; exact hholds

end Sys2Proof.Machine
end
